-- ==== Sys2Proof/Word.lean ====
section
/-! DEFINITION. The word types of the machine (R2, R69, R241): plain bit vectors, little-endian in memory. -/

namespace Sys2Proof

/-- One byte of memory. -/
abbrev Byte := BitVec 8

/-- A 64-bit register value, virtual address or global address. -/
abbrev Word := BitVec 64

/-- A 128-bit register value (R69): packed lanes or the bits of a capability. -/
abbrev Quad := BitVec 128

/-- A register number of a 32-bit lookup-core word (R86). -/
abbrev Reg := BitVec 5

end Sys2Proof
end

