-- ==== Sys2Proof/Syntax.lean ====
section
/-! DEFINITION. The instruction set: one constructor per row of the opcode table (R85 to R103, and the
hardware steps of the table). A row that has an encoding carries its operand fields. A row that is a step of the
hardware carries which unit, message or register write it concerns. -/

namespace Sys2Proof

/-- The ordering classes of R89. Code 111 is not a class. -/
inductive MemOrd where
  | plain | relaxed | acquire | release | consume | fill | peek
deriving DecidableEq, Repr

/-- The access sizes of R89: 1, 2, 4 and 8 bytes. -/
inductive Size where
  | b | h | w | d
deriving DecidableEq, Repr

/-- The conditions of waitv, in the order of their codes (R90, R180). -/
inductive WaitCond where
  | eq | ne | lt | ge | ltn | gen | anyBit | noBit
deriving DecidableEq, Repr

/-- The levels of a fence (R90, R182). -/
inductive Level where
  | core | cluster | die | device | fabric
deriving DecidableEq, Repr

/-- The element types of R93. Codes 14 and 15 are no types. -/
inductive ElTy where
  | i8 | i16 | i32 | i64 | n8 | n16 | n32 | n64 | bf16 | fp16 | fp32 | e4m3 | e5m2 | e2m1
deriving DecidableEq, Repr

/-- The granule of rev (R91): bits, bytes, halfwords, words. -/
inductive RevGran where
  | bits | bytes | halves | words
deriving DecidableEq, Repr

/-- The three streams of a dense tile (R202). -/
inductive Stream where
  | s | c | m
deriving DecidableEq, Repr

/-- The fields of a format M load or store (R86, R89). In a sync class the field off holds the longest-wait
exponent L. -/
structure MemOp where
  ord : MemOrd
  size : Size
  off : BitVec 5
  b : Reg
  a : Reg
  d : Reg
deriving DecidableEq, Repr

/-- The fields of a 16-byte load or store: format M with size 00 (R89). -/
structure QuadOp where
  ord : MemOrd
  off : BitVec 5
  b : Reg
  a : Reg
  d : Reg
deriving DecidableEq, Repr

/-- The fields of an atomic (R178). wide is size 11 (8 bytes), else size 10 (4 bytes). -/
structure AmoOp where
  ord : MemOrd
  wide : Bool
  b : Reg
  a : Reg
  d : Reg
deriving DecidableEq, Repr

/-- The fields of a packed operation, format P (R86, R92). -/
structure PackOp where
  ty : ElTy
  m : BitVec 3
  b : Reg
  a : Reg
  d : Reg
deriving DecidableEq, Repr

/-- Fields d, a, b, e of format X (R86). -/
structure XOp where
  e : Reg
  b : Reg
  a : Reg
  d : Reg
deriving DecidableEq, Repr

/-- The fields of the S-stream and C-stream copy words (R96, the tables before R231, R260, R264). -/
structure CopyOp where
  sha : BitVec 7
  shb : BitVec 7
  ja : BitVec 4
  jb : BitVec 4
  sa : BitVec 5
  sb : BitVec 5
  rq : BitVec 2
  wq : BitVec 2
  tok : BitVec 4
deriving DecidableEq, Repr

/-- The fields of xbld (R233). -/
structure BldOp where
  sha : BitVec 7
  ja : BitVec 4
  off : BitVec 10
  sa : BitVec 5
  rq : BitVec 2
  tok : BitVec 4
deriving DecidableEq, Repr

/-- The fields of xbind in and xbind out (R234). -/
structure BindOp where
  dev : BitVec 16
  tile : BitVec 5
  ep : BitVec 3
  own : BitVec 3
  tok : BitVec 4
deriving DecidableEq, Repr

/-- The fields of cvt (R260). -/
structure CvtOp where
  copy : CopyOp
  rm : BitVec 3
  sat : Bool
deriving DecidableEq, Repr

/-- The fields of bscale (R261). -/
structure ScaleOp where
  sha : BitVec 7
  shb : BitVec 7
  ja : BitVec 4
  jb : BitVec 4
  srow : BitVec 13
  rq : BitVec 2
  wq : BitVec 2
  rm : BitVec 3
  sat : Bool
  fit : Bool
  tok : BitVec 4
deriving DecidableEq, Repr

/-- The fields of skeep (R262). -/
structure KeepOp where
  sha : BitVec 7
  shb : BitVec 7
  ja : BitVec 4
  jb : BitVec 4
  n : BitVec 2
  mask : BitVec 4
  rq : BitVec 2
  tok : BitVec 4
deriving DecidableEq, Repr

/-- The fields of xce, but for its kind (R267). op is 00 sum, 01 max, 10 min. -/
structure CoachOp where
  sha : BitVec 7
  shb : BitVec 7
  ja : BitVec 4
  jb : BitVec 4
  scope : BitVec 6
  step : BitVec 4
  op : BitVec 2
  ch : Bool
  rq : BitVec 2
  wq : BitVec 2
  tok : BitVec 4
deriving DecidableEq, Repr

/-- The fields of the index-register members of xset and cset (R269). -/
structure SetOp where
  ja : BitVec 4
  jb : BitVec 4
  imm : BitVec 16
  tok : BitVec 4
deriving DecidableEq, Repr

/-- The fields of xloop and cloop (R271). -/
structure DtLoopOp where
  ja : BitVec 4
  jb : BitVec 4
  len : BitVec 12
  step : BitVec 8
  tok : BitVec 4
deriving DecidableEq, Repr

/-- Where a matrix item takes its A rows from (R100): a tile-store row base or a link endpoint. -/
inductive ASource where
  | ts (row : BitVec 13)
  | ep (l : BitVec 3)
deriving DecidableEq, Repr

/-- Where mdrain writes (R100): a tile-store row base, a vector register base or a link endpoint. -/
inductive DrainTarget where
  | ts (row : BitVec 13)
  | v (base : BitVec 10)
  | ep (l : BitVec 3)
deriving DecidableEq, Repr

/-- The fields of mma and mmas (R100). kn is the scale register of mmas and zero in mma. -/
structure MmaOp where
  a : ASource
  off : BitVec 10
  plane : Bool
  ty : ElTy
  k1 : BitVec 7
  clr : Bool
  kn : BitVec 2
deriving DecidableEq, Repr

/-- The fields of mdrain (R100, R229). -/
structure DrainOp where
  target : DrainTarget
  plane : Bool
  ty : ElTy
  rm : BitVec 3
  sat : Bool
  clr : Bool
deriving DecidableEq, Repr

/-- The fields of a vector-slot item but for vop (R101). -/
structure VecOp where
  vd : BitVec 10
  va : BitVec 10
  vb : BitVec 10
  g : BitVec 3
  pen : Bool
  pn : BitVec 3
  ty : ElTy
  m : BitVec 3
  vf : BitVec 6
deriving DecidableEq, Repr

/-- What an access that crosses a device boundary does (R30, R175, R215, R258, R282). -/
inductive RemoteOp where
  | load (bytes : Nat) (acquire : Bool)
  | store (bytes : Nat) (value : Quad)
  | line (mask : BitVec 64) (value : List Byte)
  | consume (bytes : Nat)
  | peek (bytes : Nat)
  | fill (bytes : Nat) (value : Quad)
  | await (full : Bool) (bytes : Nat)
  | clear
  | write (mask value : List Byte) (full : Bool)
  /-- A read of a launch unit, which moves what it reads with its check state (R347, R359). -/
  | copy (bytes : Nat)
  /-- A wait of this number is called back (R82). -/
  | withdraw
deriving DecidableEq, Repr

/-- How a request to another device ended: performed, refused or full (R183, R186, R190), its data failing a check
(R417), with a trap for the issuer (R177, R196), or called back before it was performed (R82). -/
inductive AnswerEnd where
  | ok
  | refused
  | failed (beat : Word)
  | trap (code : BitVec 8) (value : Word) (aux : BitVec 16)
  | withdrawn
deriving DecidableEq, Repr

/-- What an endpoint sends to its peer (R219 to R222, R234, R309, R399, R406, R422): a grant of 32 permits, a slot with
its failing beats, a close mark, permits, the flits of holds, moves and audits, word that a pair is
not audited now (R422), and word that a partition reset has
unbound it (R425). A moved flit to a peer that is
itself restored goes to the tile that its image names, in the restore of partition part. -/
inductive LinkBody where
  | grant
  | slot (bytes : List Byte) (bad : List Nat)
  | close
  | credit (n : Nat)
  | hold
  | held
  | moved (dev tile ep : Nat) (part : Option Nat)
  | marker (p : Nat)
  | reply (o : Nat)
  | noRound
  | gone
deriving DecidableEq, Repr

/-- A block of a floe at its codec (R54, R304): the addresses of its two header bytes, its 8k code bytes and the padding
that goes with it, in this order; k, the mode and the type of the floe; and the address of the floe's first byte. -/
structure FirnBlock where
  addrs : List Nat
  k : Nat
  delta : Bool
  ty : ElTy
  first : Nat
deriving DecidableEq, Repr

/-- What the home of a launch asks of its devices: a save; for a restore, its partition, and then the restore, or that the
partition is given back (R397, R406). -/
inductive PreemptAsk where
  | save | reserve | restore | release
deriving DecidableEq, Repr

/-- What travels to a unit of this device from another device: the packets of R183 to R191, R219 to R222, R306 to
R311, R358, R379 to R406 and R422, whole. A packet names its destination device by its index. -/
inductive Payload where
  /-- The answer to a request or message this device sent. -/
  | answer (id : Nat) (value : Quad) (how : AnswerEnd)
  /-- An access of another device's context to this device's storage; limit is the ck left of a sync-class wait. -/
  | access (id : Nat) (src : Nat) (addr : Nat) (op : RemoteOp) (limit : Option Nat)
  /-- A row of a table read (R311), and its answer. -/
  | rowRead (id : Nat) (src : Nat) (unit : Nat) (tid : Nat) (row : Nat) (stepTag : Nat) (pol : Nat) (noMerge : Bool)
      (replyTo : Nat)
  | rowAnswer (id : Nat) (bytes : List Byte) (bad : List Nat) (failed : Bool)
  /-- A source row of sadd or scst for a home on this device (R153, R154). -/
  | accumulate (id : Nat) (src : Nat) (unit : Nat) (tid : Nat) (row : Nat) (elems : List Nat)
  | overwrite (id : Nat) (src : Nat) (unit : Nat) (tid : Nat) (row : Nat) (bytes : List Byte)
      (bad : List Nat)
  /-- A block of a floe in a channel of this device, for a tile of another: the elements to encode, or a restore; part is
  the partition of the launch (R303, R304, R354). -/
  | firnWrite (id : Nat) (src : Nat) (block : FirnBlock) (elems : List Nat) (part : Option Nat)
  | firnRead (id : Nat) (src : Nat) (block : FirnBlock) (part : Option Nat)
  | register (id : Nat) (src : Nat) (target : Word) (treg : Nat) (value : Quad)
  | active (id : Nat) (src : Nat) (target : Word) (hidx : BitVec 8) (arg : Word) (source : Word)
  | spawn (id : Nat) (src : Nat) (target : Word) (pc : Word) (args : List Word)
  | continuation (target : Word) (epc : Word) (arg : Word)
  /-- A flit of an endpoint pair, for an endpoint of a tile here. -/
  | link (tile ep : Nat) (fromDev fromTile fromEp : Nat) (body : LinkBody)
  | coachReady (tile scope step occ : Nat) (fromDev : Nat) (kind : BitVec 2) (op : BitVec 2) (sty dty : ElTy) (n : Nat)
  | coachData (tile scope step occ : Nat) (fromDev : Nat) (first : Nat) (elems : List Nat)
  | coachAck (tile scope step occ : Nat) (fromDev : Nat)
  | quiesce (fromDev : Nat) (part : Nat)
  | reserve (home : Nat) (queue : Nat) (part : Nat) (pri : Nat) (record : List Word)
  | reserved (dev : Nat) (queue : Nat) (ok : Bool)
  | release (home : Nat) (queue : Nat) (part : Nat)
  | wake (home : Nat) (queue : Nat) (part : Nat) (counters : List Word)
  | complete (dev : Nat) (queue : Nat)
  | reset (home : Nat) (queue : Nat) (part : Nat) (state : Nat)
  /-- What the home of a launch asks of a device of its set (R397, R406), and how the device answers. -/
  | preempt (home : Nat) (queue : Nat) (part : Nat) (ask : PreemptAsk) (box : Nat) (left : Nat)
  | preempted (dev : Nat) (queue : Nat) (ask : PreemptAsk) (result : Nat)
  /-- The place, in its pair's order, of a row request that a router has merged (R287, R311). -/
  | skip
deriving DecidableEq, Repr

/-- A packet on a fabric port (R460): its destination index, its source device, its detour field, its number among the
packets of its (source, home) pair (R287), and what it carries; and, where it stands only for some of its flits, the first of them and
that after the last (R419, R420). -/
structure Packet where
  dest : Nat
  src : Nat
  det : Option Nat
  order : Option (Nat × Nat × Nat)
  body : Payload
  part : Option (Nat × Nat) := none
deriving DecidableEq, Repr

/-- A host request through CXL.mem or BAR4 (R451): the HDM offset, and for a write the bytes it carries and whether
it carries the poison indication; and the requester whose order a posted write through BAR4 keeps: none for unordered I/O. -/
structure HostReq where
  offset : Nat
  len : Nat
  write : Option (List Byte)
  poison : Bool
  requester : Option Nat
deriving DecidableEq, Repr

/-- The instructions and hardware steps, one constructor per row of the opcode table, in the table's order. -/
inductive Instr where
  -- 32-bit words of the lookup core (R112 to R136)
  | add (d a b : Reg)
  | sub (d a b : Reg)
  | and (d a b : Reg)
  | or (d a b : Reg)
  | xor (d a b : Reg)
  | sll (d a b : Reg)
  | srl (d a b : Reg)
  | sra (d a b : Reg)
  | slt (d a b : Reg)
  | sltn (d a b : Reg)
  | mul (d a b : Reg)
  | mulh (d a b : Reg)
  | mulhn (d a b : Reg)
  | div (d a b : Reg)
  | divn (d a b : Reg)
  | rem (d a b : Reg)
  | remn (d a b : Reg)
  | min (d a b : Reg)
  | max (d a b : Reg)
  | minn (d a b : Reg)
  | maxn (d a b : Reg)
  | clz (d a : Reg)
  | ctz (d a : Reg)
  | popc (d a : Reg)
  | sel (d a b e : Reg)
  | ext (d a b e : Reg)
  | ins (d a b e : Reg)
  | rev (d a : Reg) (g : RevGran)
  | addi (d a : Reg) (imm : BitVec 15)
  | andi (d a : Reg) (imm : BitVec 15)
  | ori (d a : Reg) (imm : BitVec 15)
  | xori (d a : Reg) (imm : BitVec 15)
  | slti (d a : Reg) (imm : BitVec 15)
  | sltni (d a : Reg) (imm : BitVec 15)
  | slli (d a : Reg) (sh : BitVec 6)
  | srli (d a : Reg) (sh : BitVec 6)
  | srai (d a : Reg) (sh : BitVec 6)
  | addiSDest (sd : BitVec 3) (a : Reg) (imm : BitVec 15)
  | addiSSrc (d : Reg) (sa : BitVec 3) (imm : BitVec 15)
  | lhi (d : Reg) (imm : BitVec 20)
  | addpc (d : Reg) (off : BitVec 20)
  | beq (a b : Reg) (imm : BitVec 15)
  | bne (a b : Reg) (imm : BitVec 15)
  | blt (a b : Reg) (imm : BitVec 15)
  | bge (a b : Reg) (imm : BitVec 15)
  | bltn (a b : Reg) (imm : BitVec 15)
  | bgen (a b : Reg) (imm : BitVec 15)
  | jal (d : Reg) (imm : BitVec 20)
  | jalr (d a : Reg) (imm : BitVec 15)
  | loop (a : Reg) (len : BitVec 10)
  | loopi (n : BitVec 15) (len : BitVec 10)
  | ld (m : MemOp)
  | ldn (m : MemOp)
  | st (m : MemOp)
  | ldq (m : QuadOp)
  | stq (m : QuadOp)
  | ldCap (m : MemOp)
  | ldnCap (m : MemOp)
  | stCap (m : MemOp)
  | ldqCap (m : QuadOp)
  | stqCap (m : QuadOp)
  | amoadd (m : AmoOp)
  | amofadd (m : AmoOp)
  | amomin (m : AmoOp)
  | amomax (m : AmoOp)
  | amoswap (m : AmoOp)
  | amoand (m : AmoOp)
  | amoor (m : AmoOp)
  | amoxor (m : AmoOp)
  | amocas (m : AmoOp)
  | arrive (d a b : Reg)
  | waitv (cond : WaitCond) (wide : Bool) (lw : BitVec 5) (d a b : Reg)
  | fence (lv : Level)
  | fenceScope (n : BitVec 6)
  | sendr (tctx : BitVec 4) (treg : BitVec 6) (d a b : Reg)
  | senda (hidx : BitVec 8) (d a b : Reg)
  | hld (h : BitVec 8)
  | unhld (h : BitVec 8)
  | spawn (d a b : Reg)
  | fork (d b : Reg)
  | join (a : Reg)
  | steal (d : Reg)
  | start (d a b : Reg)
  | reap (d a : Reg)
  | sjoin (d a : Reg)
  | sleave (d a : Reg)
  | cld (d : BitVec 4) (a b : Reg)
  | cst (d : BitVec 4) (a b : Reg)
  | cmk (d a : BitVec 4) (b : Reg)
  | cinfo (d : Reg) (a : BitVec 4) (sel : BitVec 3)
  | csrr (d : Reg) (n : BitVec 10)
  | csrw (n : BitVec 10) (a : Reg)
  | csrs (n : BitVec 10) (a : Reg)
  | csrc (n : BitVec 10) (a : Reg)
  | svc (imm : BitVec 10)
  | eret
  | brk (imm : BitVec 10)
  | ifence
  | repart (m8 : Bool)
  | migrate (d a : Reg)
  | tlbinv (kind : BitVec 2) (a : Reg)
  | wait (d a : Reg)
  | padd (p : PackOp)
  | psub (p : PackOp)
  | pmul (p : PackOp)
  | pfma (p : PackOp)
  | pmin (p : PackOp)
  | pmax (p : PackOp)
  | pabs (p : PackOp)
  | pdot (p : PackOp)
  | pshl (p : PackOp)
  | pshr (p : PackOp)
  | pcmp (p : PackOp)
  | psel (d a b : Reg)
  | pcvt (p : PackOp)
  | psplat (ty : ElTy) (d a : Reg)
  | pmov (d a : Reg)
  | pext (ty : ElTy) (d a : Reg) (lane : Reg)
  | pins (ty : ElTy) (d a : Reg) (lane : Reg)
  -- tables, streams and bit streams (R137 to R169)
  | gth (x : XOp)
  | ddp (x : XOp)
  | sred (x : XOp)
  | sadd (x : XOp)
  | scst (x : XOp)
  | tstep (d a e : Reg)
  | commandAcceptance (u : Nat)
  | gatherCommandComplete (u j : Nat)
  | stepTake (u : Nat)
  | sopen (x : XOp)
  | snext (d a : Reg)
  | sint (x : XOp)
  | smrg (x : XOp)
  | sclose (a : Reg)
  | bget (d a : Reg)
  | bpeek (d a : Reg)
  | bskip (a : Reg)
  | bdec (d : Reg)
  | bdecn (x : XOp)
  | bsync (d a b : Reg)
  | segmentArrival (u : Nat)
  -- compact words (R94)
  | kbrk
  | kmv (d b : Reg)
  | kadd (d b : Reg)
  | ksub (d b : Reg)
  | kaddi (d : Reg) (imm : BitVec 6)
  | kli (d : Reg) (imm : BitVec 6)
  | kand (d b : Reg)
  | kor (d b : Reg)
  | kxor (d b : Reg)
  | kslli (d : Reg) (imm : BitVec 6)
  | ksrli (d : Reg) (imm : BitVec 6)
  | kld (d b : Reg)
  | kst (a b : Reg)
  | kbeqz (a : Reg) (imm : BitVec 6)
  | kbnez (a : Reg) (imm : BitVec 6)
  | kj (imm : BitVec 11)
  -- hardware steps around memory, messages and contexts
  | homeAct (n : Nat)
  | plainAccessComplete (n : Nat)
  | relaxedResultReturn (n : Nat)
  | contextWake (u k : Nat)
  | syncRequestDrop (n : Nat)
  | presenceWaitStall (u k : Nat)
  | combiningLineTimeout (u l : Nat)
  | registerMessage (n : Nat)
  | activeMessage (n : Nat)
  | handlerSelect (u : Nat)
  | spawnRequest (n : Nat)
  | joinContinuation (n : Nat)
  | pageWalk (n : Nat)
  | translationResponse (v : Word)
  | migrationResponse (v : Word)
  | beatArrival (n : Nat)
  | firnBlockEncode (n : Nat)
  | firnBlockDecode (n : Nat)
  -- S-stream words (R97)
  | xnop (tok : BitVec 4)
  | xhalt (tok : BitVec 4)
  | xld (o : CopyOp)
  | xst (o : CopyOp)
  | xcp (o : CopyOp)
  | xbld (o : BldOp)
  | xbindIn (o : BindOp)
  | xbindOut (o : BindOp)
  | xbindOff (own : BitVec 3) (tok : BitVec 4)
  | xstash (o : CopyOp)
  | xrest (o : CopyOp)
  | xceHalve (o : CoachOp)
  | xceDbl (o : CoachOp)
  | xceXchg (o : CoachOp)
  | xwait (tok : BitVec 4)
  | xwaitDrain (tok : BitVec 4)
  | xwaitBar (sha : BitVec 7) (ja : BitVec 4) (imm : BitVec 16) (tok : BitVec 4)
  | xset (o : SetOp)
  | xsetHi (o : SetOp)
  | xsetMj (o : SetOp)
  | xsetTctl (imm : BitVec 16) (tok : BitVec 4)
  | xsetFcsr (imm : BitVec 16) (tok : BitVec 4)
  | xsetRrb (imm : BitVec 16) (tok : BitVec 4)
  | xsetRload (n : BitVec 7) (count : BitVec 7) (word : BitVec 16) (tok : BitVec 4)
  | xsetRstage (ep : BitVec 3) (tok : BitVec 4)
  | xloop (o : DtLoopOp)
  -- C-stream words (R98)
  | cnop (tok : BitVec 4)
  | chalt (tok : BitVec 4)
  | cvt (o : CvtOp)
  | bscale (o : ScaleOp)
  | skeep (o : KeepOp)
  | srecv (n : BitVec 2) (tok : BitVec 4)
  | cpack (o : CopyOp)
  | cunpack (o : CopyOp)
  | cset (o : SetOp)
  | csetHi (o : SetOp)
  | csetFcsr (imm : BitVec 16) (tok : BitVec 4)
  | csetDrain (tok : BitVec 4)
  | cloop (o : DtLoopOp)
  -- items of M-stream bundles (R99 to R102)
  | mma (o : MmaOp)
  | mmas (o : MmaOp)
  | mzero (plane : Bool)
  | mdrain (o : DrainOp)
  | vadd (o : VecOp)
  | vsub (o : VecOp)
  | vmul (o : VecOp)
  | vfma (o : VecOp)
  | vmax (o : VecOp)
  | vmin (o : VecOp)
  | vabs (o : VecOp)
  | vexp2 (o : VecOp)
  | vlog2 (o : VecOp)
  | vrcp (o : VecOp)
  | vrsqrt (o : VecOp)
  | vtanh (o : VecOp)
  | vcmp (o : VecOp)
  | vsel (o : VecOp)
  | vred (o : VecOp)
  | vbcast (o : VecOp)
  | vperm (o : VecOp)
  | vcvt (o : VecOp)
  | vld (o : VecOp)
  | vst (o : VecOp)
  | pset (o : VecOp)
  | mNop
  | mLoop (j : BitVec 4)
  | endl
  | lrot (r1 : BitVec 4)
  | jmp (t : BitVec 12)
  | halt
  -- hardware steps of tiles, links and Coach
  | dtInstructionFinish (n : Nat) (st : Stream)
  | tileStall (n : Nat) (st : Stream)
  | grantArrival (n : Nat)
  | slotArrival (n : Nat)
  | closeMarkArrival (n : Nat)
  | creditArrival (n : Nat)
  | holdFlit (n : Nat)
  | heldFlit (n : Nat)
  | movedFlit (n : Nat)
  | coachReadyFlit (n : Nat)
  | coachDataFlit (n : Nat)
  | coachStepFinish (n : Nat)
  | quiesceMarker (n : Nat)
  | auditMarker (n : Nat)
  | auditReply (n : Nat)
  | auditNoReply (n : Nat)
  | auditPeriod (n ep : Nat)
  -- fabric links
  | flitReceive (port : Nat) (seq : Nat) (good : Bool) (flit : Packet)
  | replayRequest (port : Nat) (seq : Nat)
  | laneFailure (port : Nat) (lanes : BitVec 8)
  | retrainEnd (port : Nat)
  | retrain (port : Nat)
  -- launches, queues, partitions
  | qtailWrite (q : Nat) (v : Word)
  | qstatHaltClear (q : Nat) (v : Word)
  | recordRead (q : Nat) (host : List Word)
  | launchDecision
  | reservation (n : Nat)
  | wake (p : Nat)
  | launchComplete (p : Nat)
  | completionCount (q : Nat)
  | eventDelivery
  | watchdogExpiry (p : Nat)
  | pctlEnable (p : Nat) (v : Word)
  | pctlReset (p : Nat) (v : Word)
  | arbselGo (v : Word)
  | ppreSave (p : Nat) (v : Word)
  | ppreRestore (p : Nat) (v : Word)
  | uresSync (v : Word)
  | uresGo (v : Word)
  | capctlSet (v : Word)
  | capctlClr (v : Word)
  | capctlSweep (v : Word)
  | audctlNow (port : Nat) (v : Word)
  | lsubGo (v : Word)
  | aspareWrite (n : Nat) (v : Word)
  -- host requests, reset, boot and service
  | cxlMemRequest (r : HostReq)
  | bar4Request (r : HostReq)
  | registerWrite (off : Nat) (half : Bool) (v : Word)
  | reset
  | romStart
  | memoryInitDone (second : Bool)
  | bootctlReady (v : Word)
  | discGo (v : Word)
  | discoveryTimeout
  | mapSubmit (v : Word)
  | mcctlGo (v : Word)
  | attestGo (v : Word)
  | flctlGo (v : Word)
  | freezeInput
  | thermalTrip (temp : BitVec 16)
  | idcode
  | freeze (bit : Bool)
  | scansel (v : BitVec 32)
  | scanrd
  | memaddr (v : Word)
  | memrd
  | relaxedStoreAck (n : Nat)
  | sredRowWaitLimit (u j : Nat)
  | attestReportDone
  | flashProgramDone (ok : Bool)
  | lsubMoveDone
  | sweepDone
  | msixUnmask (v : Nat)
deriving DecidableEq, Repr

end Sys2Proof
end

