-- ==== Sys2Proof/WellFormed.lean ====
section
/-! DEFINITION. Which instructions are well formed: the limits that the spec puts on the operand fields of an encoding
beyond their widths (R75, R88 to R104, R130, R183, R195, R226, R229, R247 to R272). A word whose fields break one of
them raises ILLEGAL at decode. A hardware step has no encoding and no such limit. -/

namespace Sys2Proof

/-- The code of an element type (R93). -/
def ElTy.code : ElTy → BitVec 4
  | .i8 => 0 | .i16 => 1 | .i32 => 2 | .i64 => 3 | .n8 => 4 | .n16 => 5 | .n32 => 6 | .n64 => 7
  | .bf16 => 8 | .fp16 => 9 | .fp32 => 10 | .e4m3 => 11 | .e5m2 => 12 | .e2m1 => 13

/-- The element type of a code; codes 14 and 15 are none (R93). -/
def ElTy.ofCode (c : BitVec 4) : Option ElTy :=
  match c.toNat with
  | 0 => some .i8 | 1 => some .i16 | 2 => some .i32 | 3 => some .i64
  | 4 => some .n8 | 5 => some .n16 | 6 => some .n32 | 7 => some .n64
  | 8 => some .bf16 | 9 => some .fp16 | 10 => some .fp32 | 11 => some .e4m3
  | 12 => some .e5m2 | 13 => some .e2m1 | _ => none

/-- Width of an element in bits (R32, R33). -/
def ElTy.width : ElTy → Nat
  | .i8 | .n8 | .e4m3 | .e5m2 => 8
  | .i16 | .n16 | .bf16 | .fp16 => 16
  | .i32 | .n32 | .fp32 => 32
  | .i64 | .n64 => 64
  | .e2m1 => 4

/-- The signed integer types (R32). -/
def ElTy.isSigned : ElTy → Bool
  | .i8 | .i16 | .i32 | .i64 => true
  | _ => false

/-- The integer types (R32). -/
def ElTy.isInt : ElTy → Bool
  | .i8 | .i16 | .i32 | .i64 | .n8 | .n16 | .n32 | .n64 => true
  | _ => false

/-- bf16, fp16 and fp32: the types the vector chapter calls floats (R247). -/
def ElTy.isFloat : ElTy → Bool
  | .bf16 | .fp16 | .fp32 => true
  | _ => false

/-- e4m3 and e5m2: the types the vector chapter calls narrow (R247). -/
def ElTy.isNarrow : ElTy → Bool
  | .e4m3 | .e5m2 => true
  | _ => false

/-- A rounding code that an instruction field may hold: all but 101 and 110 (R38). -/
def rmOk (m : BitVec 3) : Bool := m != 5 && m != 6

/-- The ordering classes a load permits (R89). -/
def MemOrd.forLoad : MemOrd → Bool
  | .plain | .relaxed | .acquire | .consume | .peek => true
  | _ => false

/-- The ordering classes a store permits (R89). -/
def MemOrd.forStore : MemOrd → Bool
  | .plain | .relaxed | .release | .fill => true
  | _ => false

/-- The ordering classes amo and amocas permit (R89). -/
def MemOrd.forAmo : MemOrd → Bool
  | .plain | .relaxed | .acquire | .release => true
  | _ => false

/-- A register field of class c names c0 to c15 only (R88). -/
def capReg (r : Reg) : Bool := r.toNat < 16

/-- Control registers that exist (R75). -/
def csrExists (n : BitVec 10) : Bool :=
  n == 0x000 || n == 0x001 || n == 0x002 || n == 0x100 || n == 0x101 || n == 0x102 || n == 0x103 || n == 0x104 ||
    n == 0x105 || n == 0x120

/-- Control registers that are read-only (R75): CTXID, CYCLE and CFLAGS. -/
def csrReadOnly (n : BitVec 10) : Bool := n == 0x001 || n == 0x002 || n == 0x120

/-- A register number that is even, as the pair operands of sendr and cmk require (R183, R195). -/
def evenReg (r : Reg) : Bool := r.toNat % 2 == 0

/-- The modifier m of an integer lane operation with saturation: 000 or 001 (R92). -/
def satOk (m : BitVec 3) : Bool := m == 0 || m == 1

/-- padd, psub and pmul: types and modifiers (R130). -/
def wfPArith (p : PackOp) : Bool :=
  (p.ty.isInt && satOk p.m) || (p.ty.isFloat && rmOk p.m)

/-- pmin and pmax (R130). -/
def wfPMinMax (p : PackOp) : Bool :=
  (p.ty.isInt || p.ty.isFloat || p.ty.isNarrow) && p.m == 0

/-- pabs: b is zero (R130). -/
def wfPAbs (p : PackOp) : Bool :=
  p.b == 0 && ((p.ty.isSigned && satOk p.m) || ((p.ty.isFloat || p.ty.isNarrow) && p.m == 0))

/-- pdot (R130, R132). -/
def wfPDot (p : PackOp) : Bool :=
  match p.ty with
  | .i8 | .n8 | .i16 | .n16 => satOk p.m
  | .bf16 | .fp16 | .e4m3 | .e5m2 => rmOk p.m
  | _ => false

/-- pcmp: m is a condition; un is for floats alone and 111 is none (R134). -/
def wfPCmp (p : PackOp) : Bool :=
  (p.ty.isInt && p.m != 6 && p.m != 7) || ((p.ty.isFloat || p.ty.isNarrow) && p.m != 7)

/-- pcvt: b holds the destination type in [3:0], and it is not the source type (R92, R136). -/
def wfPCvt (p : PackOp) : Bool :=
  rmOk p.m &&
  match ElTy.ofCode (p.b.extractLsb' 0 4) with
  | some t => t != p.ty
  | none => false

/-- A lane index below the lane count of the type (R135). -/
def laneOk (ty : ElTy) (lane : Reg) : Bool := lane.toNat < 128 / ty.width

/-- A shape-record field: 0 to 63, or 64 for the staged record (R96). -/
def shOk (s : BitVec 7) : Bool := s.toNat ≤ 64

/-- A read qualifier (R215). -/
def rqOk (q : BitVec 2) : Bool := q != 3

/-- A write qualifier (R215). -/
def wqOk (q : BitVec 2) : Bool := q == 0 || q == 1

/-- xld, xst, xcp, cvt, cpack and cunpack: the fields they share (R231, R260). -/
def wfCopy (o : CopyOp) : Bool := shOk o.sha && shOk o.shb && rqOk o.rq && wqOk o.wq

/-- xset.rload: record range and word range (R269). -/
def wfRload (n count : BitVec 7) (word : BitVec 16) : Bool :=
  n.toNat ≤ 63 && 1 ≤ count.toNat && n.toNat + count.toNat ≤ 64 && word.toNat < 4096 && word.toNat % 8 == 0 &&
    word.toNat + 8 * count.toNat ≤ 4096

/-- xce: kinds dbl and xchg use no operator; a posted step carries no token action (R267, R268). -/
def wfCoach (usesOp : Bool) (o : CoachOp) : Bool :=
  shOk o.sha && shOk o.shb && o.op != 3 && (usesOp || o.op == 0) && rqOk o.rq && wqOk o.wq && (!o.ch || o.tok == 0)

/-- The B range of a matrix item: 128 x off + K x W at most 131,072 bytes, counted in half bytes (R226). -/
def bRangeOk (o : MmaOp) : Bool :=
  2 * 128 * o.off.toNat + (o.k1.toNat + 1) * (o.ty.width / 4) ≤ 2 * 131072

/-- mma (R100, R226). -/
def wfMma (o : MmaOp) : Bool :=
  (match o.ty with | .bf16 | .fp16 | .e4m3 | .e5m2 => true | _ => false) && o.kn == 0 && bRangeOk o

/-- mmas: K is a multiple of 32 (R100, R226). -/
def wfMmas (o : MmaOp) : Bool :=
  (match o.ty with | .e2m1 | .e4m3 | .e5m2 => true | _ => false) && (o.k1.toNat + 1) % 32 == 0 && bRangeOk o

/-- A group of n registers from base: below v640 and on one side of the boundary at v384 (R103). -/
def groupOk (base n : Nat) : Bool := base + n ≤ 640 && (base + n ≤ 384 || 384 ≤ base)

/-- mdrain (R100, R229). -/
def wfDrain (o : DrainOp) : Bool :=
  (match o.ty with | .fp32 | .bf16 | .fp16 | .e4m3 | .e5m2 => true | _ => false) && rmOk o.rm &&
  (!o.sat || o.ty.isNarrow) &&
  match o.target with
  | .v base => groupOk base.toNat (32 * (o.ty.width / 8))
  | _ => true

/-- Group size and predicate fields of a vector item (R101). -/
def wfVecBase (o : VecOp) : Bool := 1 ≤ o.g.toNat && o.g.toNat ≤ 6 && (o.pen || o.pn == 0)

/-- The types the vector chapter calls ints (R247). -/
def ElTy.isVecInt : ElTy → Bool
  | .i8 | .i16 | .i32 | .n8 | .n16 | .n32 => true
  | _ => false

def wfVd (o : VecOp) : Bool := groupOk o.vd.toNat o.g.toNat
def wfVa (o : VecOp) : Bool := groupOk o.va.toNat o.g.toNat
def wfVb (o : VecOp) : Bool := groupOk o.vb.toNat o.g.toNat

/-- vadd, vsub, vmul (R247). -/
def wfVArith (o : VecOp) : Bool :=
  wfVecBase o && ((o.ty.isFloat && rmOk o.m) || (o.ty.isVecInt && satOk o.m)) && wfVd o && wfVa o && wfVb o && o.vf == 0

/-- vfma (R247). -/
def wfVFma (o : VecOp) : Bool :=
  wfVecBase o && o.ty.isFloat && rmOk o.m && wfVd o && wfVa o && wfVb o && o.vf == 0

/-- vmax, vmin (R247). -/
def wfVMinMax (o : VecOp) : Bool :=
  wfVecBase o && (o.ty.isFloat || o.ty.isVecInt) && o.m == 0 && wfVd o && wfVa o && wfVb o && o.vf == 0

/-- vabs (R247). -/
def wfVAbs (o : VecOp) : Bool :=
  wfVecBase o &&
    ((o.ty.isFloat && o.m == 0) || ((match o.ty with | .i8 | .i16 | .i32 => true | _ => false) && satOk o.m)) &&
    wfVd o && wfVa o && o.vb == 0 && o.vf == 0

/-- The special functions (R247, R250). -/
def wfVSpecial (o : VecOp) : Bool :=
  wfVecBase o && o.ty.isFloat && o.m == 0 && wfVd o && wfVa o && o.vb == 0 && o.vf == 0

/-- vcmp (R134, R247). -/
def wfVCmp (o : VecOp) : Bool :=
  wfVecBase o && ((o.ty.isFloat && o.m != 7) || (o.ty.isVecInt && o.m != 6 && o.m != 7)) && wfVd o && wfVa o && wfVb o &&
    o.vf == 0

/-- vsel (R247). -/
def wfVSel (o : VecOp) : Bool :=
  wfVecBase o && (match o.ty with | .i8 | .i16 | .i32 => true | _ => false) && o.m == 0 && wfVd o && wfVa o && wfVb o &&
    o.vf == 0

/-- vred: operation 11 is none, and wide needs an 8-bit or 16-bit type (R247, R249). -/
def wfVRed (o : VecOp) : Bool :=
  wfVecBase o && ((o.ty.isFloat && rmOk o.m) || (o.ty.isVecInt && satOk o.m)) && wfVd o && wfVa o && o.vb == 0 &&
    o.vf.extractLsb' 0 2 != 3 && o.vf.extractLsb' 3 3 == 0 && !(o.vf.getLsbD 2 && o.ty.width == 32)

/-- The types of the data-movement members (R247). -/
def ElTy.isMove (t : ElTy) : Bool := t.isFloat || t.isVecInt || t.isNarrow

/-- vbcast: the element index lies in the group (R247, R251). -/
def wfVBcast (o : VecOp) : Bool :=
  wfVecBase o && o.ty.isMove && o.m == 0 && wfVd o && wfVa o && o.vb == 0 &&
    o.vf.toNat < o.g.toNat * (512 / o.ty.width)

/-- vperm (R247, R251). -/
def wfVPerm (o : VecOp) : Bool :=
  wfVecBase o && o.ty.isMove && o.m == 0 && wfVd o && wfVa o && wfVb o && o.vf == 0

/-- vcvt (R247, R252). -/
def wfVCvt (o : VecOp) : Bool :=
  wfVecBase o && o.ty != .i64 && o.ty != .n64 && rmOk o.m && wfVd o && wfVa o && o.vb == 0 && !o.vf.getLsbD 5 &&
  match ElTy.ofCode (o.vf.extractLsb' 0 4) with
  | some t => t != o.ty && t != .i64 && t != .n64 && (!o.vf.getLsbD 4 || t.isNarrow || t.isInt)
  | none => false

/-- vld and vst: T, pen and pn zero, vb an index register (R101, R244, R247, R253). -/
def wfVMem (store : Bool) (o : VecOp) : Bool :=
  wfVecBase o && !o.pen && o.ty == .i8 && o.m == 0 && wfVd o && o.vb.toNat < 16 && !o.vf.getLsbD 5 &&
    (if store then wqOk (o.vf.extractLsb' 3 2) else rqOk (o.vf.extractLsb' 3 2))

/-- pset: the count lies in the group (R101, R247, R254). -/
def wfPSet (o : VecOp) : Bool :=
  wfVecBase o && !o.pen && o.ty.isMove && o.m == 0 && o.vd.toNat < 8 && o.va.toNat < 512 && o.vb == 0 && o.vf == 0 &&
    o.va.toNat ≤ o.g.toNat * (512 / o.ty.width)

/-- Which operand values the encoding of an instruction admits. -/
def wellFormed : Instr → Bool
  | .loop _ len | .loopi _ len => len != 0
  | .ld m | .ldq m => m.ord.forLoad
  | .ldCap m | .ldqCap m => m.ord.forLoad && capReg m.a
  | .ldn m => m.ord.forLoad && m.size != .d
  | .ldnCap m => m.ord.forLoad && m.size != .d && capReg m.a
  | .st m | .stq m => m.ord.forStore
  | .stCap m | .stqCap m => m.ord.forStore && capReg m.a
  | .amoadd m | .amomin m | .amomax m | .amoswap m | .amoand m | .amoor m | .amoxor m | .amocas m => m.ord.forAmo
  | .amofadd m => m.ord.forAmo && !m.wide
  | .sendr _ treg _ _ b => treg.toNat < 32 || evenReg b
  | .cmk _ _ b => evenReg b
  | .csrr _ n => csrExists n
  | .csrw n _ | .csrs n _ | .csrc n _ => csrExists n && !csrReadOnly n
  | .wait d a => d == 0 || a == 0
  | .padd p | .psub p | .pmul p => wfPArith p
  | .pfma p => p.ty.isFloat && rmOk p.m
  | .pmin p | .pmax p => wfPMinMax p
  | .pabs p => wfPAbs p
  | .pdot p => wfPDot p
  | .pshl p => p.ty.isInt && satOk p.m
  | .pshr p => p.ty.isInt && p.m == 0
  | .pcmp p => wfPCmp p
  | .pcvt p => wfPCvt p
  | .pext ty _ _ lane | .pins ty _ _ lane => laneOk ty lane
  | .xld o | .xst o | .xcp o | .cpack o | .cunpack o => wfCopy o
  | .xbld o => shOk o.sha && rqOk o.rq
  | .xstash o => wfCopy o && o.wq == 0
  | .xrest o => wfCopy o && o.rq == 0
  | .xceHalve o => wfCoach true o
  | .xceDbl o | .xceXchg o => wfCoach false o
  | .xwaitBar sha _ _ _ => shOk sha
  | .xsetTctl imm _ => imm.extractLsb' 13 3 == 0 && imm.extractLsb' 2 6 == 0
  | .xsetFcsr imm _ | .csetFcsr imm _ => imm.extractLsb' 9 7 == 0
  | .xsetRrb imm _ => imm.extractLsb' 8 8 == 0
  | .xsetRload n count word _ => wfRload n count word
  | .xloop o | .cloop o => o.len != 0
  | .cvt o => wfCopy o.copy && rmOk o.rm
  | .bscale o => shOk o.sha && shOk o.shb && rqOk o.rq && wqOk o.wq && rmOk o.rm
  | .skeep o => shOk o.sha && shOk o.shb && rqOk o.rq && o.mask != 0
  | .mma o => wfMma o
  | .mmas o => wfMmas o
  | .mdrain o => wfDrain o
  | .vadd o | .vsub o | .vmul o => wfVArith o
  | .vfma o => wfVFma o
  | .vmax o | .vmin o => wfVMinMax o
  | .vabs o => wfVAbs o
  | .vexp2 o | .vlog2 o | .vrcp o | .vrsqrt o | .vtanh o => wfVSpecial o
  | .vcmp o => wfVCmp o
  | .vsel o => wfVSel o
  | .vred o => wfVRed o
  | .vbcast o => wfVBcast o
  | .vperm o => wfVPerm o
  | .vcvt o => wfVCvt o
  | .vld o => wfVMem false o
  | .vst o => wfVMem true o
  | .pset o => wfPSet o
  | _ => true

end Sys2Proof
end

