-- ==== Sys2Proof/Decode.lean ====
section
/-! DEFINITION. Decoding and encoding of every word of the machine: the 32-bit and the compact words of the lookup
core (R85 to R95), the 64-bit words of the S and C streams (R96 to R98, R231 to R234, R260 to R272) and the items of
an M-stream bundle (R99 to R103). A decoder is total. It extracts the fields of the word its selectors name, and then
refuses the word if encoding what it read does not give the word back (a zero field that is not zero, R88) or if a
field breaks a limit (R95). -/

namespace Sys2Proof

/-- Why a word is no instruction (R95, R104). All three raise ILLEGAL. -/
inductive Reject where
  /-- An opcode, selector, class or type code with no meaning. -/
  | unallocated
  /-- A field that must be zero, or that names no register, holds something else. -/
  | reservedField
  /-- A field lies outside its stated limits. -/
  | limit
deriving DecidableEq, Repr

/-- What a decoder answers. -/
inductive Decoded (α : Type) where
  | ok (a : α)
  | reject (r : Reject)
deriving DecidableEq, Repr

/-! ## Codes of the enumerated fields -/

/-- The ORD code of a class (R89). -/
def MemOrd.code : MemOrd → BitVec 3
  | .plain => 0 | .relaxed => 1 | .acquire => 2 | .release => 3 | .consume => 4 | .fill => 5 | .peek => 6

/-- The class of an ORD code; 111 is none (R89). -/
def MemOrd.ofCode (c : BitVec 3) : Option MemOrd :=
  match c.toNat with
  | 0 => some .plain | 1 => some .relaxed | 2 => some .acquire | 3 => some .release
  | 4 => some .consume | 5 => some .fill | 6 => some .peek | _ => none

/-- The size code (R89). -/
def Size.code : Size → BitVec 2
  | .b => 0 | .h => 1 | .w => 2 | .d => 3

/-- The size of a code (R89). -/
def Size.ofCode (c : BitVec 2) : Size :=
  match c.toNat with
  | 0 => .b | 1 => .h | 2 => .w | _ => .d

/-- The condition code of waitv (R90). -/
def WaitCond.code : WaitCond → BitVec 3
  | .eq => 0 | .ne => 1 | .lt => 2 | .ge => 3 | .ltn => 4 | .gen => 5 | .anyBit => 6 | .noBit => 7

/-- The condition of a code (R90). -/
def WaitCond.ofCode (c : BitVec 3) : WaitCond :=
  match c.toNat with
  | 0 => .eq | 1 => .ne | 2 => .lt | 3 => .ge | 4 => .ltn | 5 => .gen | 6 => .anyBit | _ => .noBit

/-- The level code of a fence (R90). -/
def Level.code : Level → BitVec 3
  | .core => 0 | .cluster => 1 | .die => 2 | .device => 3 | .fabric => 4

/-- The level of a code; 5 to 7 are none (R90). -/
def Level.ofCode (c : BitVec 3) : Option Level :=
  match c.toNat with
  | 0 => some .core | 1 => some .cluster | 2 => some .die | 3 => some .device | 4 => some .fabric | _ => none

/-- The granule code of rev (R91). -/
def RevGran.code : RevGran → Reg
  | .bits => 0 | .bytes => 1 | .halves => 2 | .words => 3

/-- The granule of a code; above 3 there is none (R91). -/
def RevGran.ofCode (c : Reg) : Option RevGran :=
  match c.toNat with
  | 0 => some .bits | 1 => some .bytes | 2 => some .halves | 3 => some .words | _ => none

/-! ## The formats of lookup-core words (R86, R94) -/

/-- Formats R and X. -/
def fmtR (op : BitVec 6) (fn e b a d : Reg) : BitVec 32 := e ++ fn ++ b ++ a ++ d ++ op ++ 1#1

/-- Format I. -/
def fmtI (op : BitVec 6) (imm : BitVec 15) (a d : Reg) : BitVec 32 := imm ++ a ++ d ++ op ++ 1#1

/-- Format B: the immediate is split. -/
def fmtB (op : BitVec 6) (imm : BitVec 15) (b a : Reg) : BitVec 32 :=
  imm.extractLsb' 5 10 ++ b ++ a ++ imm.extractLsb' 0 5 ++ op ++ 1#1

/-- Format J. -/
def fmtJ (op : BitVec 6) (imm : BitVec 20) (d : Reg) : BitVec 32 := imm ++ d ++ op ++ 1#1

/-- Format M; W has the same fields. -/
def fmtM (op : BitVec 6) (ord : BitVec 3) (size : BitVec 2) (off : BitVec 5) (b a d : Reg) : BitVec 32 :=
  ord ++ size ++ off ++ b ++ a ++ d ++ op ++ 1#1

/-- Format P. -/
def fmtP (op : BitVec 6) (sub : BitVec 3) (t : BitVec 4) (m : BitVec 3) (b a d : Reg) : BitVec 32 :=
  t ++ m ++ sub ++ b ++ a ++ d ++ op ++ 1#1

/-- Format L. -/
def fmtL (op : BitVec 6) (len : BitVec 10) (n : BitVec 15) : BitVec 32 := len ++ n ++ op ++ 1#1

/-- A compact word. -/
def fmtK (op : BitVec 4) (b : BitVec 6) (a : Reg) : BitVec 16 := b ++ a ++ op ++ 0#1

/-- A load or store of format M. -/
def encMem (op : BitVec 6) (m : MemOp) : BitVec 32 := fmtM op m.ord.code m.size.code m.off m.b m.a m.d

/-- A 16-byte load or store of format M. -/
def encQuad (op : BitVec 6) (m : QuadOp) : BitVec 32 := fmtM op m.ord.code 0 m.off m.b m.a m.d

/-- An atomic; kind stands in [26:22]. -/
def encAmo (op : BitVec 6) (kind : BitVec 5) (m : AmoOp) : BitVec 32 :=
  fmtM op m.ord.code (1#1 ++ BitVec.ofBool m.wide) kind m.b m.a m.d

/-- A packed operation. -/
def encPack (op : BitVec 6) (sub : BitVec 3) (p : PackOp) : BitVec 32 := fmtP op sub p.ty.code p.m p.b p.a p.d

/-- An engine operation. -/
def encX (op : BitVec 6) (fn : Reg) (x : XOp) : BitVec 32 := fmtR op fn x.e x.b x.a x.d

/-! ## The formats of dense-tile words (R96 to R102) -/

/-- A 64-bit word of the S or C stream. -/
def fmtS (op : BitVec 6) (sub : BitVec 6) (fx : BitVec 10) (imm : BitVec 16) (jb ja : BitVec 4) (shb sha : BitVec 7)
    (tok : BitVec 4) : BitVec 64 :=
  sha ++ shb ++ ja ++ jb ++ imm ++ fx ++ sub ++ op ++ tok

/-- A copy word: qualifiers in fx[3:0] and the rest of fx as given. -/
def encCopy (op : BitVec 6) (hi : BitVec 6) (o : CopyOp) : BitVec 64 :=
  fmtS op 0 (hi ++ o.wq ++ o.rq) (0#6 ++ o.sb ++ o.sa) o.jb o.ja o.shb o.sha o.tok

/-- xce. -/
def encCoach (kind : BitVec 2) (o : CoachOp) : BitVec 64 :=
  fmtS 9 0 (0#1 ++ o.wq ++ o.rq ++ BitVec.ofBool o.ch ++ o.op ++ kind) (0#6 ++ o.step ++ o.scope) o.jb o.ja o.shb
    o.sha o.tok

/-- xset and cset of an index register. -/
def encSet (op sub : BitVec 6) (o : SetOp) : BitVec 64 := fmtS op sub 0 o.imm o.jb o.ja 0 0 o.tok

/-- xset and cset of a control register. -/
def encSetImm (op sub : BitVec 6) (imm : BitVec 16) (tok : BitVec 4) : BitVec 64 := fmtS op sub 0 imm 0 0 0 0 tok

/-- xloop and cloop. -/
def encLoop (op : BitVec 6) (o : DtLoopOp) : BitVec 64 :=
  fmtS op 0 (0#2 ++ o.step) (0#4 ++ o.len) o.jb o.ja 0 0 o.tok

/-- The A field of a matrix item, bits [51:38] of the bundle (R100). -/
def ASource.code : ASource → BitVec 14
  | .ts row => 0#1 ++ row
  | .ep l => 1#1 ++ 0#10 ++ l

/-- The A source of a field. -/
def ASource.ofCode (c : BitVec 14) : ASource :=
  if c.getLsbD 13 then .ep (c.extractLsb' 0 3) else .ts (c.extractLsb' 0 13)

/-- The target field of mdrain, bits [51:37] of the bundle (R100). -/
def DrainTarget.code : DrainTarget → BitVec 15
  | .ts row => 0#2 ++ row
  | .v base => 1#2 ++ 0#3 ++ base
  | .ep l => 2#2 ++ 0#10 ++ l

/-- The drain target of a field; kind 11 is none. -/
def DrainTarget.ofCode (c : BitVec 15) : Option DrainTarget :=
  match (c.extractLsb' 13 2).toNat with
  | 0 => some (.ts (c.extractLsb' 0 13))
  | 1 => some (.v (c.extractLsb' 0 10))
  | 2 => some (.ep (c.extractLsb' 0 3))
  | _ => none

/-- mma and mmas in the matrix slot. -/
def encMma (mop : BitVec 4) (o : MmaOp) : BitVec 48 :=
  mop ++ o.a.code ++ o.off ++ BitVec.ofBool o.plane ++ o.ty.code ++ o.k1 ++ BitVec.ofBool o.clr ++ o.kn ++ 0#5

/-- mdrain in the matrix slot. -/
def encDrain (o : DrainOp) : BitVec 48 :=
  4#4 ++ o.target.code ++ 0#9 ++ BitVec.ofBool o.plane ++ o.ty.code ++ o.rm ++ BitVec.ofBool o.sat ++
    BitVec.ofBool o.clr ++ 0#10

/-- A vector item. -/
def encVec (vop : BitVec 6) (o : VecOp) : BitVec 56 :=
  vop ++ o.vd ++ o.va ++ o.vb ++ o.g ++ BitVec.ofBool o.pen ++ o.pn ++ o.ty.code ++ o.m ++ o.vf

/-! ## The encoder -/

/-- The word or slot an instruction is encoded in. A hardware step has none. -/
inductive Code where
  | lc32 (w : BitVec 32)
  | lc16 (w : BitVec 16)
  | sWord (w : BitVec 64)
  | cWord (w : BitVec 64)
  | matrixSlot (w : BitVec 48)
  | vectorSlot (w : BitVec 56)
  | loopSlot (w : BitVec 16)
  | hardware
deriving DecidableEq, Repr

/-- The encoding of an instruction, from R90 to R102 and the tables of the dense-tile members. -/
def encode : Instr → Code
  | .add d a b => .lc32 (fmtR 0x01 0 0 b a d)
  | .sub d a b => .lc32 (fmtR 0x01 1 0 b a d)
  | .and d a b => .lc32 (fmtR 0x01 2 0 b a d)
  | .or d a b => .lc32 (fmtR 0x01 3 0 b a d)
  | .xor d a b => .lc32 (fmtR 0x01 4 0 b a d)
  | .sll d a b => .lc32 (fmtR 0x01 5 0 b a d)
  | .srl d a b => .lc32 (fmtR 0x01 6 0 b a d)
  | .sra d a b => .lc32 (fmtR 0x01 7 0 b a d)
  | .slt d a b => .lc32 (fmtR 0x01 8 0 b a d)
  | .sltn d a b => .lc32 (fmtR 0x01 9 0 b a d)
  | .mul d a b => .lc32 (fmtR 0x01 10 0 b a d)
  | .mulh d a b => .lc32 (fmtR 0x01 11 0 b a d)
  | .mulhn d a b => .lc32 (fmtR 0x01 12 0 b a d)
  | .div d a b => .lc32 (fmtR 0x01 13 0 b a d)
  | .divn d a b => .lc32 (fmtR 0x01 14 0 b a d)
  | .rem d a b => .lc32 (fmtR 0x01 15 0 b a d)
  | .remn d a b => .lc32 (fmtR 0x01 16 0 b a d)
  | .min d a b => .lc32 (fmtR 0x01 17 0 b a d)
  | .max d a b => .lc32 (fmtR 0x01 18 0 b a d)
  | .minn d a b => .lc32 (fmtR 0x01 19 0 b a d)
  | .maxn d a b => .lc32 (fmtR 0x01 20 0 b a d)
  | .clz d a => .lc32 (fmtR 0x01 21 0 0 a d)
  | .ctz d a => .lc32 (fmtR 0x01 22 0 0 a d)
  | .popc d a => .lc32 (fmtR 0x01 23 0 0 a d)
  | .sel d a b e => .lc32 (fmtR 0x01 24 e b a d)
  | .ext d a b e => .lc32 (fmtR 0x01 25 e b a d)
  | .ins d a b e => .lc32 (fmtR 0x01 26 e b a d)
  | .rev d a g => .lc32 (fmtR 0x01 27 g.code 0 a d)
  | .addi d a imm => .lc32 (fmtI 0x02 imm a d)
  | .andi d a imm => .lc32 (fmtI 0x03 imm a d)
  | .ori d a imm => .lc32 (fmtI 0x04 imm a d)
  | .xori d a imm => .lc32 (fmtI 0x05 imm a d)
  | .slti d a imm => .lc32 (fmtI 0x06 imm a d)
  | .sltni d a imm => .lc32 (fmtI 0x07 imm a d)
  | .slli d a sh => .lc32 (fmtI 0x08 (0#9 ++ sh) a d)
  | .srli d a sh => .lc32 (fmtI 0x08 (1#9 ++ sh) a d)
  | .srai d a sh => .lc32 (fmtI 0x08 (2#9 ++ sh) a d)
  | .addiSDest sd a imm => .lc32 (fmtI 0x32 imm a (0#2 ++ sd))
  | .addiSSrc d sa imm => .lc32 (fmtI 0x33 imm (0#2 ++ sa) d)
  | .lhi d imm => .lc32 (fmtJ 0x09 imm d)
  | .addpc d off => .lc32 (fmtJ 0x0A off d)
  | .beq a b imm => .lc32 (fmtB 0x0B imm b a)
  | .bne a b imm => .lc32 (fmtB 0x0C imm b a)
  | .blt a b imm => .lc32 (fmtB 0x0D imm b a)
  | .bge a b imm => .lc32 (fmtB 0x0E imm b a)
  | .bltn a b imm => .lc32 (fmtB 0x0F imm b a)
  | .bgen a b imm => .lc32 (fmtB 0x10 imm b a)
  | .jal d imm => .lc32 (fmtJ 0x11 imm d)
  | .jalr d a imm => .lc32 (fmtI 0x12 imm a d)
  | .loop a len => .lc32 (fmtL 0x13 len (0#5 ++ a ++ 0#5))
  | .loopi n len => .lc32 (fmtL 0x14 len n)
  | .ld m => .lc32 (encMem 0x15 m)
  | .ldn m => .lc32 (encMem 0x16 m)
  | .st m => .lc32 (encMem 0x17 m)
  | .ldq m => .lc32 (encQuad 0x18 m)
  | .stq m => .lc32 (encQuad 0x19 m)
  | .ldCap m => .lc32 (encMem 0x1A m)
  | .ldnCap m => .lc32 (encMem 0x1B m)
  | .stCap m => .lc32 (encMem 0x1C m)
  | .ldqCap m => .lc32 (encQuad 0x1D m)
  | .stqCap m => .lc32 (encQuad 0x1E m)
  | .amoadd m => .lc32 (encAmo 0x1F 0 m)
  | .amofadd m => .lc32 (encAmo 0x1F 1 m)
  | .amomin m => .lc32 (encAmo 0x1F 2 m)
  | .amomax m => .lc32 (encAmo 0x1F 3 m)
  | .amoswap m => .lc32 (encAmo 0x1F 4 m)
  | .amoand m => .lc32 (encAmo 0x1F 5 m)
  | .amoor m => .lc32 (encAmo 0x1F 6 m)
  | .amoxor m => .lc32 (encAmo 0x1F 7 m)
  | .amocas m => .lc32 (encAmo 0x20 0 m)
  | .arrive d a b => .lc32 (fmtM 0x21 3 3 0 b a d)
  | .waitv c wide lw d a b => .lc32 (fmtM 0x22 c.code (1#1 ++ BitVec.ofBool wide) lw b a d)
  | .fence lv => .lc32 (fmtI 0x23 (0#12 ++ lv.code) 0 0)
  | .fenceScope n => .lc32 (fmtI 0x23 (1#9 ++ n) 0 0)
  | .sendr tctx treg d a b => .lc32 (tctx ++ treg ++ b ++ a ++ d ++ 0x24#6 ++ 1#1)
  | .senda hidx d a b => .lc32 (0#2 ++ hidx ++ b ++ a ++ d ++ 0x25#6 ++ 1#1)
  | .hld h => .lc32 (fmtI 0x26 (0#7 ++ h) 0 0)
  | .unhld h => .lc32 (fmtI 0x26 (1#7 ++ h) 0 0)
  | .spawn d a b => .lc32 (fmtR 0x27 0 0 b a d)
  | .fork d b => .lc32 (fmtR 0x27 1 0 b 0 d)
  | .join a => .lc32 (fmtR 0x27 2 0 0 a 0)
  | .steal d => .lc32 (fmtR 0x27 3 0 0 0 d)
  | .start d a b => .lc32 (fmtR 0x27 4 0 b a d)
  | .reap d a => .lc32 (fmtR 0x27 5 0 0 a d)
  | .sjoin d a => .lc32 (fmtR 0x28 0 0 0 a d)
  | .sleave d a => .lc32 (fmtR 0x28 1 0 0 a d)
  | .cld d a b => .lc32 (fmtR 0x29 0 0 b a (0#1 ++ d))
  | .cst d a b => .lc32 (fmtR 0x29 1 0 b a (0#1 ++ d))
  | .cmk d a b => .lc32 (fmtR 0x29 2 0 b (0#1 ++ a) (0#1 ++ d))
  | .cinfo d a sel => .lc32 (fmtR 0x29 3 (0#2 ++ sel) 0 (0#1 ++ a) d)
  | .csrr d n => .lc32 (fmtI 0x2A (0#5 ++ n) 0 d)
  | .csrw n a => .lc32 (fmtI 0x2A (1#5 ++ n) a 0)
  | .csrs n a => .lc32 (fmtI 0x2A (2#5 ++ n) a 0)
  | .csrc n a => .lc32 (fmtI 0x2A (3#5 ++ n) a 0)
  | .svc imm => .lc32 (fmtI 0x2B (0#5 ++ imm) 0 0)
  | .eret => .lc32 (fmtI 0x2B (1#5 ++ 0#10) 0 0)
  | .brk imm => .lc32 (fmtI 0x2B (2#5 ++ imm) 0 0)
  | .ifence => .lc32 (fmtI 0x2B (3#5 ++ 0#10) 0 0)
  | .repart m8 => .lc32 (fmtI 0x2B (4#5 ++ 0#9 ++ BitVec.ofBool m8) 0 0)
  | .migrate d a => .lc32 (fmtI 0x2B (5#5 ++ 0#10) a d)
  | .tlbinv kind a => .lc32 (fmtI 0x2B (6#5 ++ 0#8 ++ kind) a 0)
  | .wait d a => .lc32 (fmtI 0x2B (7#5 ++ 0#10) a d)
  | .padd p => .lc32 (encPack 0x2C 0 p)
  | .psub p => .lc32 (encPack 0x2C 1 p)
  | .pmul p => .lc32 (encPack 0x2C 2 p)
  | .pfma p => .lc32 (encPack 0x2C 3 p)
  | .pmin p => .lc32 (encPack 0x2C 4 p)
  | .pmax p => .lc32 (encPack 0x2C 5 p)
  | .pabs p => .lc32 (encPack 0x2C 6 p)
  | .pdot p => .lc32 (encPack 0x2C 7 p)
  | .pshl p => .lc32 (encPack 0x2D 0 p)
  | .pshr p => .lc32 (encPack 0x2D 1 p)
  | .pcmp p => .lc32 (encPack 0x2D 2 p)
  | .psel d a b => .lc32 (fmtP 0x2D 3 0 0 b a d)
  | .pcvt p => .lc32 (encPack 0x2D 4 p)
  | .psplat ty d a => .lc32 (fmtP 0x2D 5 ty.code 0 0 a d)
  | .pmov d a => .lc32 (fmtP 0x2D 6 0 0 0 a d)
  | .pext ty d a lane => .lc32 (fmtP 0x2D 7 ty.code 0 lane a d)
  | .pins ty d a lane => .lc32 (fmtP 0x2E 0 ty.code 0 lane a d)
  | .gth x => .lc32 (encX 0x2F 0 x)
  | .ddp x => .lc32 (encX 0x2F 1 x)
  | .sred x => .lc32 (encX 0x2F 2 x)
  | .sadd x => .lc32 (encX 0x2F 3 x)
  | .scst x => .lc32 (encX 0x2F 4 x)
  | .tstep d a e => .lc32 (fmtR 0x2F 5 e 0 a d)
  | .sopen x => .lc32 (encX 0x30 0 x)
  | .snext d a => .lc32 (fmtR 0x30 1 0 0 a d)
  | .sint x => .lc32 (encX 0x30 2 x)
  | .smrg x => .lc32 (encX 0x30 3 x)
  | .sclose a => .lc32 (fmtR 0x30 4 0 0 a 0)
  | .bget d a => .lc32 (fmtR 0x31 0 0 0 a d)
  | .bpeek d a => .lc32 (fmtR 0x31 1 0 0 a d)
  | .bskip a => .lc32 (fmtR 0x31 2 0 0 a 0)
  | .bdec d => .lc32 (fmtR 0x31 3 0 0 0 d)
  | .bdecn x => .lc32 (encX 0x31 4 x)
  | .bsync d a b => .lc32 (fmtR 0x31 5 0 b a d)
  | .kbrk => .lc16 (fmtK 0 0 0)
  | .kmv d b => .lc16 (fmtK 1 (0#1 ++ b) d)
  | .kadd d b => .lc16 (fmtK 2 (0#1 ++ b) d)
  | .ksub d b => .lc16 (fmtK 3 (0#1 ++ b) d)
  | .kaddi d imm => .lc16 (fmtK 4 imm d)
  | .kli d imm => .lc16 (fmtK 5 imm d)
  | .kand d b => .lc16 (fmtK 6 (0#1 ++ b) d)
  | .kor d b => .lc16 (fmtK 7 (0#1 ++ b) d)
  | .kxor d b => .lc16 (fmtK 8 (0#1 ++ b) d)
  | .kslli d imm => .lc16 (fmtK 9 imm d)
  | .ksrli d imm => .lc16 (fmtK 10 imm d)
  | .kld d b => .lc16 (fmtK 11 (0#1 ++ b) d)
  | .kst a b => .lc16 (fmtK 12 (0#1 ++ b) a)
  | .kbeqz a imm => .lc16 (fmtK 13 imm a)
  | .kbnez a imm => .lc16 (fmtK 14 imm a)
  | .kj imm => .lc16 (imm ++ 15#4 ++ 0#1)
  | .xnop tok => .sWord (fmtS 1 0 0 0 0 0 0 0 tok)
  | .xhalt tok => .sWord (fmtS 1 1 0 0 0 0 0 0 tok)
  | .xld o => .sWord (encCopy 2 0 o)
  | .xst o => .sWord (encCopy 3 0 o)
  | .xcp o => .sWord (encCopy 4 0 o)
  | .xbld o => .sWord (fmtS 5 0 (0#8 ++ o.rq) (0#1 ++ o.sa ++ o.off) 0 o.ja 0 o.sha o.tok)
  | .xbindIn o => .sWord (fmtS 6 (o.own ++ 0#3) (0#2 ++ o.ep ++ o.tile) o.dev 0 0 0 0 o.tok)
  | .xbindOut o => .sWord (fmtS 6 (o.own ++ 1#3) (0#2 ++ o.ep ++ o.tile) o.dev 0 0 0 0 o.tok)
  | .xbindOff own tok => .sWord (fmtS 6 (own ++ 2#3) 0 0 0 0 0 0 tok)
  | .xstash o => .sWord (encCopy 7 0 o)
  | .xrest o => .sWord (encCopy 8 0 o)
  | .xceHalve o => .sWord (encCoach 0 o)
  | .xceDbl o => .sWord (encCoach 1 o)
  | .xceXchg o => .sWord (encCoach 2 o)
  | .xwait tok => .sWord (fmtS 10 0 0 0 0 0 0 0 tok)
  | .xwaitDrain tok => .sWord (fmtS 10 1 0 0 0 0 0 0 tok)
  | .xwaitBar sha ja imm tok => .sWord (fmtS 10 2 0 imm 0 ja 0 sha tok)
  | .xset o => .sWord (encSet 11 0 o)
  | .xsetHi o => .sWord (encSet 11 1 o)
  | .xsetMj o => .sWord (encSet 11 2 o)
  | .xsetTctl imm tok => .sWord (encSetImm 11 3 imm tok)
  | .xsetFcsr imm tok => .sWord (encSetImm 11 4 imm tok)
  | .xsetRrb imm tok => .sWord (encSetImm 11 5 imm tok)
  | .xsetRload n count word tok => .sWord (fmtS 11 6 0 word 0 0 count n tok)
  | .xsetRstage ep tok => .sWord (fmtS 11 7 (0#7 ++ ep) 0 0 0 0 0 tok)
  | .xloop o => .sWord (encLoop 12 o)
  | .cnop tok => .cWord (fmtS 1 0 0 0 0 0 0 0 tok)
  | .chalt tok => .cWord (fmtS 1 1 0 0 0 0 0 0 tok)
  | .cvt o => .cWord (encCopy 2 (0#2 ++ BitVec.ofBool o.sat ++ o.rm) o.copy)
  | .bscale o => .cWord (fmtS 3 0 (0#1 ++ BitVec.ofBool o.fit ++ BitVec.ofBool o.sat ++ o.rm ++ o.wq ++ o.rq)
      (0#3 ++ o.srow) o.jb o.ja o.shb o.sha o.tok)
  | .skeep o => .cWord (fmtS 4 0 (0#8 ++ o.rq) (0#10 ++ o.mask ++ o.n) o.jb o.ja o.shb o.sha o.tok)
  | .srecv n tok => .cWord (fmtS 5 0 0 (0#14 ++ n) 0 0 0 0 tok)
  | .cpack o => .cWord (encCopy 6 0 o)
  | .cunpack o => .cWord (encCopy 7 0 o)
  | .cset o => .cWord (encSet 8 0 o)
  | .csetHi o => .cWord (encSet 8 1 o)
  | .csetFcsr imm tok => .cWord (encSetImm 8 2 imm tok)
  | .csetDrain tok => .cWord (encSetImm 8 3 0 tok)
  | .cloop o => .cWord (encLoop 9 o)
  | .mma o => .matrixSlot (encMma 1 o)
  | .mmas o => .matrixSlot (encMma 2 o)
  | .mzero plane => .matrixSlot (3#4 ++ 0#24 ++ BitVec.ofBool plane ++ 0#19)
  | .mdrain o => .matrixSlot (encDrain o)
  | .vadd o => .vectorSlot (encVec 1 o)
  | .vsub o => .vectorSlot (encVec 2 o)
  | .vmul o => .vectorSlot (encVec 3 o)
  | .vfma o => .vectorSlot (encVec 4 o)
  | .vmax o => .vectorSlot (encVec 5 o)
  | .vmin o => .vectorSlot (encVec 6 o)
  | .vabs o => .vectorSlot (encVec 7 o)
  | .vexp2 o => .vectorSlot (encVec 8 o)
  | .vlog2 o => .vectorSlot (encVec 9 o)
  | .vrcp o => .vectorSlot (encVec 10 o)
  | .vrsqrt o => .vectorSlot (encVec 11 o)
  | .vtanh o => .vectorSlot (encVec 12 o)
  | .vcmp o => .vectorSlot (encVec 13 o)
  | .vsel o => .vectorSlot (encVec 14 o)
  | .vred o => .vectorSlot (encVec 15 o)
  | .vbcast o => .vectorSlot (encVec 16 o)
  | .vperm o => .vectorSlot (encVec 17 o)
  | .vcvt o => .vectorSlot (encVec 18 o)
  | .vld o => .vectorSlot (encVec 19 o)
  | .vst o => .vectorSlot (encVec 20 o)
  | .pset o => .vectorSlot (encVec 21 o)
  | .mNop => .loopSlot (1#4 ++ 0#12)
  | .mLoop j => .loopSlot (2#4 ++ j ++ 0#8)
  | .endl => .loopSlot (3#4 ++ 0#12)
  | .lrot r1 => .loopSlot (4#4 ++ r1 ++ 0#8)
  | .jmp t => .loopSlot (5#4 ++ t)
  | .halt => .loopSlot (6#4 ++ 0#12)
  | _ => .hardware

/-! ## Reading the fields -/

/-- Fields d, a, b and e or fn of a 32-bit word (R86). -/
def fd (w : BitVec 32) : Reg := w.extractLsb' 7 5
def fa (w : BitVec 32) : Reg := w.extractLsb' 12 5
def fb (w : BitVec 32) : Reg := w.extractLsb' 17 5
def ffn (w : BitVec 32) : Reg := w.extractLsb' 22 5
def fe (w : BitVec 32) : Reg := w.extractLsb' 27 5

/-- The immediates of formats I, B and J. -/
def fimmI (w : BitVec 32) : BitVec 15 := w.extractLsb' 17 15
def fimmB (w : BitVec 32) : BitVec 15 := w.extractLsb' 22 10 ++ w.extractLsb' 7 5
def fimmJ (w : BitVec 32) : BitVec 20 := w.extractLsb' 12 20

/-- The class and size codes of format M. -/
def ford (w : BitVec 32) : BitVec 3 := w.extractLsb' 29 3
def fsize (w : BitVec 32) : BitVec 2 := w.extractLsb' 27 2

/-- The fields of a load or store. -/
def readMem (w : BitVec 32) : Option MemOp :=
  (MemOrd.ofCode (ford w)).map fun o => ⟨o, Size.ofCode (fsize w), ffn w, fb w, fa w, fd w⟩

/-- The fields of a 16-byte load or store. -/
def readQuad (w : BitVec 32) : Option QuadOp :=
  (MemOrd.ofCode (ford w)).map fun o => ⟨o, ffn w, fb w, fa w, fd w⟩

/-- The fields of an atomic. -/
def readAmo (w : BitVec 32) : Option AmoOp :=
  (MemOrd.ofCode (ford w)).map fun o => ⟨o, w.getLsbD 27, fb w, fa w, fd w⟩

/-- The fields of a packed operation. -/
def readPack (w : BitVec 32) : Option PackOp :=
  (ElTy.ofCode (w.extractLsb' 28 4)).map fun t => ⟨t, w.extractLsb' 25 3, fb w, fa w, fd w⟩

/-- The fields of an engine operation. -/
def readX (w : BitVec 32) : XOp := ⟨fe w, fb w, fa w, fd w⟩

/-- Opcode 0x01 (R91). -/
def parseReg (w : BitVec 32) : Option Instr :=
  let d := fd w; let a := fa w; let b := fb w; let e := fe w
  match (ffn w).toNat with
  | 0 => some (.add d a b) | 1 => some (.sub d a b) | 2 => some (.and d a b) | 3 => some (.or d a b)
  | 4 => some (.xor d a b) | 5 => some (.sll d a b) | 6 => some (.srl d a b) | 7 => some (.sra d a b)
  | 8 => some (.slt d a b) | 9 => some (.sltn d a b) | 10 => some (.mul d a b) | 11 => some (.mulh d a b)
  | 12 => some (.mulhn d a b) | 13 => some (.div d a b) | 14 => some (.divn d a b) | 15 => some (.rem d a b)
  | 16 => some (.remn d a b) | 17 => some (.min d a b) | 18 => some (.max d a b) | 19 => some (.minn d a b)
  | 20 => some (.maxn d a b) | 21 => some (.clz d a) | 22 => some (.ctz d a) | 23 => some (.popc d a)
  | 24 => some (.sel d a b e) | 25 => some (.ext d a b e) | 26 => some (.ins d a b e)
  | 27 => (RevGran.ofCode e).map fun g => .rev d a g
  | _ => none

/-- Opcode 0x08: the immediate shifts (R90). -/
def parseShift (w : BitVec 32) : Option Instr :=
  let sh : BitVec 6 := w.extractLsb' 17 6
  match (w.extractLsb' 23 9).toNat with
  | 0 => some (.slli (fd w) (fa w) sh) | 1 => some (.srli (fd w) (fa w) sh) | 2 => some (.srai (fd w) (fa w) sh)
  | _ => none

/-- Opcode 0x1F: the kinds of amo (R89). -/
def parseAmo (w : BitVec 32) : Option Instr :=
  (readAmo w).bind fun m =>
    match (ffn w).toNat with
    | 0 => some (.amoadd m) | 1 => some (.amofadd m) | 2 => some (.amomin m) | 3 => some (.amomax m)
    | 4 => some (.amoswap m) | 5 => some (.amoand m) | 6 => some (.amoor m) | 7 => some (.amoxor m)
    | _ => none

/-- Opcode 0x23: fence (R90). -/
def parseFence (w : BitVec 32) : Option Instr :=
  if w.getLsbD 23 then some (.fenceScope (w.extractLsb' 17 6))
  else (Level.ofCode (w.extractLsb' 17 3)).map .fence

/-- Opcode 0x27: the work family (R92). -/
def parseWork (w : BitVec 32) : Option Instr :=
  let d := fd w; let a := fa w; let b := fb w
  match (ffn w).toNat with
  | 0 => some (.spawn d a b) | 1 => some (.fork d b) | 2 => some (.join a) | 3 => some (.steal d)
  | 4 => some (.start d a b) | 5 => some (.reap d a) | _ => none

/-- Opcode 0x28: scopes. -/
def parseScope (w : BitVec 32) : Option Instr :=
  match (ffn w).toNat with
  | 0 => some (.sjoin (fd w) (fa w)) | 1 => some (.sleave (fd w) (fa w)) | _ => none

/-- Opcode 0x29: capabilities (R92). -/
def parseCap (w : BitVec 32) : Option Instr :=
  let d4 : BitVec 4 := w.extractLsb' 7 4
  let a4 : BitVec 4 := w.extractLsb' 12 4
  match (ffn w).toNat with
  | 0 => some (.cld d4 (fa w) (fb w)) | 1 => some (.cst d4 (fa w) (fb w)) | 2 => some (.cmk d4 a4 (fb w))
  | 3 => some (.cinfo (fd w) a4 (w.extractLsb' 27 3)) | _ => none

/-- Opcode 0x2A: control registers (R90). -/
def parseCsr (w : BitVec 32) : Option Instr :=
  let n : BitVec 10 := w.extractLsb' 17 10
  match (fe w).toNat with
  | 0 => some (.csrr (fd w) n) | 1 => some (.csrw n (fa w)) | 2 => some (.csrs n (fa w)) | 3 => some (.csrc n (fa w))
  | _ => none

/-- Opcode 0x2B: the system family (R92). -/
def parseSystem (w : BitVec 32) : Option Instr :=
  let imm : BitVec 10 := w.extractLsb' 17 10
  match (fe w).toNat with
  | 0 => some (.svc imm) | 1 => some .eret | 2 => some (.brk imm) | 3 => some .ifence
  | 4 => some (.repart (w.getLsbD 17)) | 5 => some (.migrate (fd w) (fa w))
  | 6 => some (.tlbinv (w.extractLsb' 17 2) (fa w)) | 7 => some (.wait (fd w) (fa w)) | _ => none

/-- Opcode 0x2C: packed family A (R92). -/
def parsePackA (w : BitVec 32) : Option Instr :=
  (readPack w).bind fun p =>
    match (w.extractLsb' 22 3).toNat with
    | 0 => some (.padd p) | 1 => some (.psub p) | 2 => some (.pmul p) | 3 => some (.pfma p)
    | 4 => some (.pmin p) | 5 => some (.pmax p) | 6 => some (.pabs p) | 7 => some (.pdot p)
    | _ => none

/-- Opcode 0x2D: packed family B (R92). -/
def parsePackB (w : BitVec 32) : Option Instr :=
  (readPack w).bind fun p =>
    match (w.extractLsb' 22 3).toNat with
    | 0 => some (.pshl p) | 1 => some (.pshr p) | 2 => some (.pcmp p) | 3 => some (.psel p.d p.a p.b)
    | 4 => some (.pcvt p) | 5 => some (.psplat p.ty p.d p.a) | 6 => some (.pmov p.d p.a)
    | 7 => some (.pext p.ty p.d p.a p.b)
    | _ => none

/-- Opcode 0x2E: packed family C (R92). -/
def parsePackC (w : BitVec 32) : Option Instr :=
  (readPack w).bind fun p =>
    match (w.extractLsb' 22 3).toNat with
    | 0 => some (.pins p.ty p.d p.a p.b)
    | _ => none

/-- Opcode 0x2F: the gather commands and tstep (R90). -/
def parseGather (w : BitVec 32) : Option Instr :=
  match (ffn w).toNat with
  | 0 => some (.gth (readX w)) | 1 => some (.ddp (readX w)) | 2 => some (.sred (readX w)) | 3 => some (.sadd (readX w))
  | 4 => some (.scst (readX w)) | 5 => some (.tstep (fd w) (fa w) (fe w)) | _ => none

/-- Opcode 0x30: the stream instructions (R90). -/
def parseStream (w : BitVec 32) : Option Instr :=
  match (ffn w).toNat with
  | 0 => some (.sopen (readX w)) | 1 => some (.snext (fd w) (fa w)) | 2 => some (.sint (readX w))
  | 3 => some (.smrg (readX w)) | 4 => some (.sclose (fa w)) | _ => none

/-- Opcode 0x31: the bit-stream instructions (R90). -/
def parseBits (w : BitVec 32) : Option Instr :=
  match (ffn w).toNat with
  | 0 => some (.bget (fd w) (fa w)) | 1 => some (.bpeek (fd w) (fa w)) | 2 => some (.bskip (fa w))
  | 3 => some (.bdec (fd w)) | 4 => some (.bdecn (readX w)) | 5 => some (.bsync (fd w) (fa w) (fb w)) | _ => none

/-- The instruction whose selectors a 32-bit word holds (R90). -/
def parse32 (w : BitVec 32) : Option Instr :=
  let d := fd w; let a := fa w; let b := fb w
  match (w.extractLsb' 1 6).toNat with
  | 0x01 => parseReg w
  | 0x02 => some (.addi d a (fimmI w)) | 0x03 => some (.andi d a (fimmI w)) | 0x04 => some (.ori d a (fimmI w))
  | 0x05 => some (.xori d a (fimmI w)) | 0x06 => some (.slti d a (fimmI w)) | 0x07 => some (.sltni d a (fimmI w))
  | 0x08 => parseShift w
  | 0x09 => some (.lhi d (fimmJ w)) | 0x0A => some (.addpc d (fimmJ w))
  | 0x0B => some (.beq a b (fimmB w)) | 0x0C => some (.bne a b (fimmB w)) | 0x0D => some (.blt a b (fimmB w))
  | 0x0E => some (.bge a b (fimmB w)) | 0x0F => some (.bltn a b (fimmB w)) | 0x10 => some (.bgen a b (fimmB w))
  | 0x11 => some (.jal d (fimmJ w)) | 0x12 => some (.jalr d a (fimmI w))
  | 0x13 => some (.loop a (w.extractLsb' 22 10)) | 0x14 => some (.loopi (w.extractLsb' 7 15) (w.extractLsb' 22 10))
  | 0x15 => (readMem w).map .ld | 0x16 => (readMem w).map .ldn | 0x17 => (readMem w).map .st
  | 0x18 => (readQuad w).map .ldq | 0x19 => (readQuad w).map .stq
  | 0x1A => (readMem w).map .ldCap | 0x1B => (readMem w).map .ldnCap | 0x1C => (readMem w).map .stCap
  | 0x1D => (readQuad w).map .ldqCap | 0x1E => (readQuad w).map .stqCap
  | 0x1F => parseAmo w | 0x20 => (readAmo w).map .amocas | 0x21 => some (.arrive d a b)
  | 0x22 => some (.waitv (WaitCond.ofCode (ford w)) (w.getLsbD 27) (ffn w) d a b)
  | 0x23 => parseFence w
  | 0x24 => some (.sendr (w.extractLsb' 28 4) (w.extractLsb' 22 6) d a b)
  | 0x25 => some (.senda (w.extractLsb' 22 8) d a b)
  | 0x26 => some (if w.getLsbD 25 then .unhld (w.extractLsb' 17 8) else .hld (w.extractLsb' 17 8))
  | 0x27 => parseWork w | 0x28 => parseScope w | 0x29 => parseCap w | 0x2A => parseCsr w | 0x2B => parseSystem w
  | 0x2C => parsePackA w | 0x2D => parsePackB w | 0x2E => parsePackC w
  | 0x2F => parseGather w | 0x30 => parseStream w | 0x31 => parseBits w
  | 0x32 => some (.addiSDest (w.extractLsb' 7 3) a (fimmI w))
  | 0x33 => some (.addiSSrc d (w.extractLsb' 12 3) (fimmI w))
  | _ => none

/-- The instruction of a compact word; all sixteen op values are allocated (R94). -/
def parse16 (w : BitVec 16) : Option Instr :=
  let d : Reg := w.extractLsb' 5 5
  let b : Reg := w.extractLsb' 10 5
  let imm : BitVec 6 := w.extractLsb' 10 6
  match (w.extractLsb' 1 4).toNat with
  | 0 => some .kbrk | 1 => some (.kmv d b) | 2 => some (.kadd d b) | 3 => some (.ksub d b)
  | 4 => some (.kaddi d imm) | 5 => some (.kli d imm) | 6 => some (.kand d b) | 7 => some (.kor d b)
  | 8 => some (.kxor d b) | 9 => some (.kslli d imm) | 10 => some (.ksrli d imm) | 11 => some (.kld d b)
  | 12 => some (.kst d b) | 13 => some (.kbeqz d imm) | 14 => some (.kbnez d imm) | 15 => some (.kj (w.extractLsb' 5 11))
  | _ => none

/-- Fields of a 64-bit word (R96). -/
def sTok (w : BitVec 64) : BitVec 4 := w.extractLsb' 0 4
def sOp (w : BitVec 64) : BitVec 6 := w.extractLsb' 4 6
def sSub (w : BitVec 64) : BitVec 6 := w.extractLsb' 10 6
def sFx (w : BitVec 64) : BitVec 10 := w.extractLsb' 16 10
def sImm (w : BitVec 64) : BitVec 16 := w.extractLsb' 26 16
def sJb (w : BitVec 64) : BitVec 4 := w.extractLsb' 42 4
def sJa (w : BitVec 64) : BitVec 4 := w.extractLsb' 46 4
def sShb (w : BitVec 64) : BitVec 7 := w.extractLsb' 50 7
def sSha (w : BitVec 64) : BitVec 7 := w.extractLsb' 57 7

/-- The fields of a copy word. -/
def readCopy (w : BitVec 64) : CopyOp :=
  ⟨sSha w, sShb w, sJa w, sJb w, w.extractLsb' 26 5, w.extractLsb' 31 5, w.extractLsb' 16 2, w.extractLsb' 18 2, sTok w⟩

/-- The fields of xce. -/
def readCoach (w : BitVec 64) : CoachOp :=
  ⟨sSha w, sShb w, sJa w, sJb w, w.extractLsb' 26 6, w.extractLsb' 32 4, w.extractLsb' 18 2, w.getLsbD 20,
    w.extractLsb' 21 2, w.extractLsb' 23 2, sTok w⟩

/-- The fields of xset and cset. -/
def readSet (w : BitVec 64) : SetOp := ⟨sJa w, sJb w, sImm w, sTok w⟩

/-- The fields of xloop and cloop. -/
def readLoop (w : BitVec 64) : DtLoopOp := ⟨sJa w, sJb w, w.extractLsb' 26 12, w.extractLsb' 16 8, sTok w⟩

/-- The fields of xbind in and out. -/
def readBind (w : BitVec 64) : BindOp := ⟨sImm w, w.extractLsb' 16 5, w.extractLsb' 21 3, w.extractLsb' 13 3, sTok w⟩

/-- Op 0x01 of the S stream (R272). -/
def parseXnop (w : BitVec 64) : Option Instr :=
  match (sSub w).toNat with
  | 0 => some (.xnop (sTok w)) | 1 => some (.xhalt (sTok w)) | _ => none

/-- Op 0x06 of the S stream (R234). -/
def parseBind (w : BitVec 64) : Option Instr :=
  match (w.extractLsb' 10 3).toNat with
  | 0 => some (.xbindIn (readBind w)) | 1 => some (.xbindOut (readBind w))
  | 2 => some (.xbindOff (w.extractLsb' 13 3) (sTok w)) | _ => none

/-- Op 0x09 of the S stream (R267). -/
def parseCoach (w : BitVec 64) : Option Instr :=
  match (w.extractLsb' 16 2).toNat with
  | 0 => some (.xceHalve (readCoach w)) | 1 => some (.xceDbl (readCoach w)) | 2 => some (.xceXchg (readCoach w))
  | _ => none

/-- Op 0x0A of the S stream (R270). -/
def parseXwait (w : BitVec 64) : Option Instr :=
  match (sSub w).toNat with
  | 0 => some (.xwait (sTok w)) | 1 => some (.xwaitDrain (sTok w))
  | 2 => some (.xwaitBar (sSha w) (sJa w) (sImm w) (sTok w)) | _ => none

/-- Op 0x0B of the S stream (R269). -/
def parseXset (w : BitVec 64) : Option Instr :=
  match (sSub w).toNat with
  | 0 => some (.xset (readSet w)) | 1 => some (.xsetHi (readSet w)) | 2 => some (.xsetMj (readSet w))
  | 3 => some (.xsetTctl (sImm w) (sTok w)) | 4 => some (.xsetFcsr (sImm w) (sTok w))
  | 5 => some (.xsetRrb (sImm w) (sTok w)) | 6 => some (.xsetRload (sSha w) (sShb w) (sImm w) (sTok w))
  | 7 => some (.xsetRstage (w.extractLsb' 16 3) (sTok w)) | _ => none

/-- The instruction of an S-stream word (R97). -/
def parseS (w : BitVec 64) : Option Instr :=
  match (sOp w).toNat with
  | 1 => parseXnop w
  | 2 => some (.xld (readCopy w)) | 3 => some (.xst (readCopy w)) | 4 => some (.xcp (readCopy w))
  | 5 => some (.xbld ⟨sSha w, sJa w, w.extractLsb' 26 10, w.extractLsb' 36 5, w.extractLsb' 16 2, sTok w⟩)
  | 6 => parseBind w
  | 7 => some (.xstash (readCopy w)) | 8 => some (.xrest (readCopy w)) | 9 => parseCoach w | 10 => parseXwait w
  | 11 => parseXset w | 12 => some (.xloop (readLoop w))
  | _ => none

/-- Op 0x01 of the C stream (R272). -/
def parseCnop (w : BitVec 64) : Option Instr :=
  match (sSub w).toNat with
  | 0 => some (.cnop (sTok w)) | 1 => some (.chalt (sTok w)) | _ => none

/-- Op 0x08 of the C stream (R269, R270). -/
def parseCset (w : BitVec 64) : Option Instr :=
  match (sSub w).toNat with
  | 0 => some (.cset (readSet w)) | 1 => some (.csetHi (readSet w)) | 2 => some (.csetFcsr (sImm w) (sTok w))
  | 3 => some (.csetDrain (sTok w)) | _ => none

/-- The instruction of a C-stream word (R98). -/
def parseC (w : BitVec 64) : Option Instr :=
  match (sOp w).toNat with
  | 1 => parseCnop w
  | 2 => some (.cvt ⟨readCopy w, w.extractLsb' 20 3, w.getLsbD 23⟩)
  | 3 => some (.bscale ⟨sSha w, sShb w, sJa w, sJb w, w.extractLsb' 26 13, w.extractLsb' 16 2, w.extractLsb' 18 2,
      w.extractLsb' 20 3, w.getLsbD 23, w.getLsbD 24, sTok w⟩)
  | 4 => some (.skeep ⟨sSha w, sShb w, sJa w, sJb w, w.extractLsb' 26 2, w.extractLsb' 28 4, w.extractLsb' 16 2, sTok w⟩)
  | 5 => some (.srecv (w.extractLsb' 26 2) (sTok w))
  | 6 => some (.cpack (readCopy w)) | 7 => some (.cunpack (readCopy w)) | 8 => parseCset w
  | 9 => some (.cloop (readLoop w))
  | _ => none

/-- The fields of mma and mmas. -/
def readMma (w : BitVec 48) : Option MmaOp :=
  (ElTy.ofCode (w.extractLsb' 15 4)).map fun t =>
    ⟨ASource.ofCode (w.extractLsb' 30 14), w.extractLsb' 20 10, w.getLsbD 19, t, w.extractLsb' 8 7, w.getLsbD 7,
      w.extractLsb' 5 2⟩

/-- The fields of mdrain. -/
def readDrain (w : BitVec 48) : Option DrainOp :=
  (DrainTarget.ofCode (w.extractLsb' 29 15)).bind fun tg =>
    (ElTy.ofCode (w.extractLsb' 15 4)).map fun t =>
      ⟨tg, w.getLsbD 19, t, w.extractLsb' 12 3, w.getLsbD 11, w.getLsbD 10⟩

/-- The item of a matrix slot that is not empty (R100). -/
def parseMatrix (w : BitVec 48) : Option Instr :=
  match (w.extractLsb' 44 4).toNat with
  | 1 => (readMma w).map .mma | 2 => (readMma w).map .mmas | 3 => some (.mzero (w.getLsbD 19))
  | 4 => (readDrain w).map .mdrain | _ => none

/-- The fields of a vector item. -/
def readVec (w : BitVec 56) : Option VecOp :=
  (ElTy.ofCode (w.extractLsb' 9 4)).map fun t =>
    ⟨w.extractLsb' 40 10, w.extractLsb' 30 10, w.extractLsb' 20 10, w.extractLsb' 17 3, w.getLsbD 16,
      w.extractLsb' 13 3, t, w.extractLsb' 6 3, w.extractLsb' 0 6⟩

/-- The item of a vector slot that is not empty (R101). -/
def parseVector (w : BitVec 56) : Option Instr :=
  (readVec w).bind fun o =>
    match (w.extractLsb' 50 6).toNat with
    | 1 => some (.vadd o) | 2 => some (.vsub o) | 3 => some (.vmul o) | 4 => some (.vfma o) | 5 => some (.vmax o)
    | 6 => some (.vmin o) | 7 => some (.vabs o) | 8 => some (.vexp2 o) | 9 => some (.vlog2 o) | 10 => some (.vrcp o)
    | 11 => some (.vrsqrt o) | 12 => some (.vtanh o) | 13 => some (.vcmp o) | 14 => some (.vsel o) | 15 => some (.vred o)
    | 16 => some (.vbcast o) | 17 => some (.vperm o) | 18 => some (.vcvt o) | 19 => some (.vld o) | 20 => some (.vst o)
    | 21 => some (.pset o) | _ => none

/-- The item of a loop slot (R102). -/
def parseLoop (w : BitVec 16) : Option Instr :=
  match (w.extractLsb' 12 4).toNat with
  | 1 => some .mNop | 2 => some (.mLoop (w.extractLsb' 8 4)) | 3 => some .endl | 4 => some (.lrot (w.extractLsb' 8 4))
  | 5 => some (.jmp (w.extractLsb' 0 12)) | 6 => some .halt | _ => none

/-! ## The decoders -/

/-- Accepts what was read if it encodes to the word and keeps its limits. -/
def accept (i : Option Instr) (c : Code) : Decoded Instr :=
  match i with
  | none => .reject .unallocated
  | some i => if encode i = c then if wellFormed i then .ok i else .reject .limit else .reject .reservedField

/-- A 32-bit word of the lookup core (R95). -/
def decode32 (w : BitVec 32) : Decoded Instr := accept (parse32 w) (.lc32 w)

/-- A compact word of the lookup core (R95). -/
def decode16 (w : BitVec 16) : Decoded Instr := accept (parse16 w) (.lc16 w)

/-- An S-stream word (R97, R104). -/
def decodeS (w : BitVec 64) : Decoded Instr := accept (parseS w) (.sWord w)

/-- A C-stream word (R98, R104). -/
def decodeC (w : BitVec 64) : Decoded Instr := accept (parseC w) (.cWord w)

/-- A matrix slot; the slot of zeros is empty (R100). -/
def decodeMatrix (w : BitVec 48) : Decoded (Option Instr) :=
  if w = 0 then .ok none
  else match accept (parseMatrix w) (.matrixSlot w) with
    | .ok i => .ok (some i)
    | .reject r => .reject r

/-- A vector slot; the slot of zeros is empty (R101). -/
def decodeVector (w : BitVec 56) : Decoded (Option Instr) :=
  if w = 0 then .ok none
  else match accept (parseVector w) (.vectorSlot w) with
    | .ok i => .ok (some i)
    | .reject r => .reject r

/-- A loop slot (R102). -/
def decodeLoop (w : BitVec 16) : Decoded Instr := accept (parseLoop w) (.loopSlot w)

/-- The word at the start of four bytes of local store, and its length in bytes (R85, R95). -/
def decodeLc (w : BitVec 32) : Decoded Instr × Nat :=
  if w.getLsbD 0 then (decode32 w, 4) else (decode16 (w.extractLsb' 0 16), 2)

/-- The word as the trap value of an ILLEGAL holds it: zero-extended (R95). -/
def lcWordValue (w : BitVec 32) : Word :=
  if w.getLsbD 0 then w.zeroExtend 64 else (w.extractLsb' 0 16).zeroExtend 64

/-- One M-stream bundle (R99). -/
structure Bundle where
  matrix : Option Instr
  vector : Option Instr
  loop : Instr
  tok : BitVec 4
  count : BitVec 4
deriving DecidableEq, Repr

/-- A bundle (R99 to R104): a count bit set where its action bit is clear is no bundle. -/
def decodeBundle (w : BitVec 128) : Decoded Bundle :=
  let tok : BitVec 4 := w.extractLsb' 0 4
  let count : BitVec 4 := w.extractLsb' 4 4
  if count &&& ~~~tok ≠ 0 then .reject .reservedField
  else
    match decodeMatrix (w.extractLsb' 8 48), decodeVector (w.extractLsb' 56 56), decodeLoop (w.extractLsb' 112 16) with
    | .ok m, .ok v, .ok l => .ok ⟨m, v, l, tok, count⟩
    | .reject r, _, _ | _, .reject r, _ | _, _, .reject r => .reject r

/-- The slot of an optional item, zero when it is empty. -/
def matrixBits : Option Instr → BitVec 48
  | some i => match encode i with
    | .matrixSlot w => w
    | _ => 0
  | none => 0

def vectorBits : Option Instr → BitVec 56
  | some i => match encode i with
    | .vectorSlot w => w
    | _ => 0
  | none => 0

def loopBits (i : Instr) : BitVec 16 :=
  match encode i with
  | .loopSlot w => w
  | _ => 0

/-- The 128 bits of a bundle (R99). -/
def encodeBundle (b : Bundle) : BitVec 128 :=
  loopBits b.loop ++ vectorBits b.vector ++ matrixBits b.matrix ++ b.count ++ b.tok

/-- The instruction a decoder answers, if any. -/
def Decoded.toOption {α : Type} : Decoded α → Option α
  | .ok a => some a
  | .reject _ => none

/-- The instruction that the decoder reads from a word of the opcode table, whose bits above nbits are zero. A word of
at most 32 bits is a lookup-core word. A 64-bit word is an S-stream word, or else a C-stream word. A 128-bit word is a
bundle, and stands for its matrix item, or else its vector item, or else its loop item. -/
def decodeTableWord (nbits w : Nat) : Option Instr :=
  if nbits ≤ 32 then (decodeLc (BitVec.ofNat 32 (w % 2 ^ nbits))).1.toOption
  else if nbits ≤ 64 then
    match decodeS (BitVec.ofNat 64 (w % 2 ^ nbits)) with
    | .ok i => some i
    | .reject _ => (decodeC (BitVec.ofNat 64 (w % 2 ^ nbits))).toOption
  else
    match decodeBundle (BitVec.ofNat 128 (w % 2 ^ nbits)) with
    | .ok b => some (b.matrix.getD (b.vector.getD b.loop))
    | .reject _ => none

end Sys2Proof
end

