-- ==== Sys2Proof/Machine/Flags.lean ====
section
/-! DEFINITION. The flags of an arithmetic operation (R42, R45). Integer operations set none (R32). -/

namespace Sys2Proof.Machine

/-- The five IEEE flags in the bit order of R45: NV 4, DZ 3, OF 2, UF 1, NX 0. -/
abbrev Flags := BitVec 5

def flagNV : Flags := 16
def flagDZ : Flags := 8
def flagOF : Flags := 4
def flagUF : Flags := 2
def flagNX : Flags := 1

/-- The union of the flags of several elements (R42). -/
def unionFlags (l : List Flags) : Flags := l.foldl (· ||| ·) 0

/-- FCSR after a write: bits [8:0] are RW, but an RM of 101, 110 or 111 leaves RM unchanged (R45). -/
def writeFcsr (old v : BitVec 9) : BitVec 9 :=
  let rm := v.extractLsb' 5 3
  if rm = 5 ∨ rm = 6 ∨ rm = 7 then (v &&& 0x11F) ||| (old &&& 0x0E0) else v

end Sys2Proof.Machine
end

