-- ==== Sys2Proof/Machine/Numeric.lean ====
section
/-! DEFINITION. The number formats and the arithmetic of R32 to R53: decoding a value, the rounding function, sums and
products, comparisons and conversions. Every value is exact (a sign, a natural number and a power of two) until the one
call to the rounding function. -/

namespace Sys2Proof

/-- Significand width including the hidden bit (R33). -/
def ElTy.p : ElTy → Nat
  | .fp32 => 24 | .fp16 => 11 | .bf16 => 8 | .e4m3 => 4 | .e5m2 => 3 | .e2m1 => 2 | _ => 0

/-- Exponent of the smallest normal number (R33). -/
def ElTy.emin : ElTy → Int
  | .fp32 => -126 | .fp16 => -14 | .bf16 => -126 | .e4m3 => -6 | .e5m2 => -14 | .e2m1 => 0 | _ => 0

/-- Exponent of the smallest subnormal number. -/
def ElTy.qmin (t : ElTy) : Int := t.emin - t.p + 1

/-- The code of the largest finite value (R33). -/
def ElTy.maxBits : ElTy → Nat
  | .fp32 => 0x7F7FFFFF | .fp16 => 0x7BFF | .bf16 => 0x7F7F | .e4m3 => 0x7E | .e5m2 => 0x7B | .e2m1 => 7 | _ => 0

/-- The formats with infinities (R34). -/
def ElTy.hasInf : ElTy → Bool
  | .fp32 | .fp16 | .bf16 | .e5m2 => true
  | _ => false

/-- The code of +∞ where the format has one (R34). -/
def ElTy.infBits : ElTy → Nat
  | .fp32 => 0x7F800000 | .fp16 => 0x7C00 | .bf16 => 0x7F80 | .e5m2 => 0x7C | _ => 0

/-- The canonical quiet NaN (R34); e2m1 has none, and its stand-in is code 0 (R44). -/
def ElTy.nanBits : ElTy → Nat
  | .fp32 => 0x7FC00000 | .fp16 => 0x7E00 | .bf16 => 0x7FC0 | .e4m3 => 0x7F | .e5m2 => 0x7E | _ => 0

/-- The sign bit's weight. -/
def ElTy.signBit (t : ElTy) : Nat := 2 ^ (t.width - 1)

/-- A floating type of any width. -/
def ElTy.isFp : ElTy → Bool
  | .bf16 | .fp16 | .fp32 | .e4m3 | .e5m2 | .e2m1 => true
  | _ => false

/-- The smallest and the largest value of an integer type (R32). -/
def ElTy.minInt (t : ElTy) : Int := if t.isSigned then -(2 ^ (t.width - 1)) else 0
def ElTy.maxInt (t : ElTy) : Int := if t.isSigned then 2 ^ (t.width - 1) - 1 else 2 ^ t.width - 1

end Sys2Proof

namespace Sys2Proof.Machine

/-- A rounding mode (R38). -/
inductive Mode where
  | rne | rtz | rdn | rup | rna
deriving DecidableEq, Repr

/-- The mode of a code, with DYN taken from the RM field given; the reserved codes never reach it (R38). -/
def Mode.ofCode (rm m : BitVec 3) : Mode :=
  match (if m = 7 then rm else m).toNat with
  | 1 => .rtz | 2 => .rdn | 3 => .rup | 4 => .rna | _ => .rne

/-- A decoded operand: a NaN, an infinity, or the exact value (−1)^neg × m × 2^e. -/
inductive Num where
  | nan (signalling : Bool)
  | inf (neg : Bool)
  | fin (neg : Bool) (m : Nat) (e : Int)
deriving DecidableEq, Repr

/-- The value of a magnitude code: subnormals have exponent field 0 (R33, R36). -/
def magnitude (t : ElTy) (mag : Nat) : Nat × Int :=
  let ef := mag / 2 ^ (t.p - 1)
  let mf := mag % 2 ^ (t.p - 1)
  if ef = 0 then (mf, t.qmin) else (2 ^ (t.p - 1) + mf, t.qmin + (ef - 1))

/-- The value of the code of a floating type (R33, R34, R36). -/
def decodeFp (t : ElTy) (bits : Nat) : Num :=
  let neg := t.signBit ≤ bits
  let mag := bits % t.signBit
  if t.hasInf then
    if mag = t.infBits then .inf neg
    else if t.infBits < mag then .nan (mag % 2 ^ (t.p - 1) < 2 ^ (t.p - 2))
    else .fin neg (magnitude t mag).1 (magnitude t mag).2
  else if t = .e4m3 ∧ mag = 0x7F then .nan false
  else .fin neg (magnitude t mag).1 (magnitude t mag).2

/-- The signed value of a two's-complement or unsigned element (R32). -/
def decodeInt (t : ElTy) (bits : Nat) : Int :=
  if t.isSigned ∧ t.signBit ≤ bits then (bits : Int) - 2 ^ t.width else bits

/-- The value of an element of any type. -/
def decodeEl (t : ElTy) (bits : Nat) : Num :=
  if t.isFp then decodeFp t bits
  else
    let v := decodeInt t bits
    .fin (v < 0) v.natAbs 0

/-- An integer clamped to the range of a type (R32). -/
def clampInt (t : ElTy) (v : Int) : Int := max t.minInt (min t.maxInt v)

/-- The bits of an integer modulo 2^width (R32). -/
def wrapInt (w : Nat) (v : Int) : Nat := (v % (2 ^ w : Int)).toNat

/-- An integer result, wrapped or clamped (R32). -/
def intResult (t : ElTy) (sat : Bool) (v : Int) : Nat :=
  wrapInt t.width (if sat then clampInt t v else v)

/-- What rounding to a grid of spacing 2^q answers: the multiple of 2^q and whether it is exact (R39). -/
def roundAt (neg : Bool) (m : Nat) (e q : Int) (mode : Mode) : Nat × Bool :=
  if q ≤ e then (m * 2 ^ (e - q).toNat, true)
  else
    let sh := (q - e).toNat
    let lo := m / 2 ^ sh
    let rem := m % 2 ^ sh
    let half := 2 ^ (sh - 1)
    if rem = 0 then (lo, true)
    else
      let up := match mode with
        | .rtz => false
        | .rdn => neg
        | .rup => !neg
        | .rne => half < rem || (rem == half && lo % 2 == 1)
        | .rna => half ≤ rem
      (if up then lo + 1 else lo, false)

/-- RoundU of a nonzero value (R39): its magnitude code on the unbounded exponent range, whether it is exact, and
whether the value is below 2^emin. -/
def roundU (t : ElTy) (neg : Bool) (m : Nat) (e : Int) (mode : Mode) : Nat × Bool × Bool :=
  let top : Int := (Nat.log2 m : Int) + e
  let q := max top t.emin - t.p + 1
  let r := roundAt neg m e q mode
  ((q - t.qmin).toNat * 2 ^ (t.p - 1) + r.1, r.2, decide (top < t.emin))

/-- A magnitude with its sign as a code. -/
def signed (t : ElTy) (neg : Bool) (mag : Nat) : Nat := if neg then t.signBit + mag else mag

/-- The code that an overflow delivers (R39). -/
def overflowBits (t : ElTy) (neg : Bool) (mode : Mode) : Nat :=
  let toInf := match mode with
    | .rne | .rna => true
    | .rup => !neg
    | .rdn => neg
    | .rtz => false
  signed t neg (if t.hasInf && toInf then t.infBits else t.maxBits)

/-- The code of an infinite result; a format without infinities delivers its largest value (R39, R153). -/
def infCode (t : ElTy) (neg : Bool) : Nat := signed t neg (if t.hasInf then t.infBits else t.maxBits)

/-- Round with its flags OF, UF and NX, for a value (−1)^neg × m × 2^e; a zero keeps the sign given (R39, R42). -/
def roundFp (t : ElTy) (neg : Bool) (m : Nat) (e : Int) (mode : Mode) : Nat × Flags :=
  if m = 0 then (signed t neg 0, 0)
  else
    let r := roundU t neg m e mode
    if t.maxBits < r.1 then (overflowBits t neg mode, flagOF ||| flagNX)
    else (signed t neg r.1, if r.2.1 then 0 else if r.2.2 then flagUF ||| flagNX else flagNX)

/-- The product of two operands, and whether it is invalid (R35, R40). -/
def mulNum : Num → Num → Num × Flags
  | .nan s, .nan r => (.nan false, if s || r then flagNV else 0)
  | .nan s, _ | _, .nan s => (.nan false, if s then flagNV else 0)
  | .inf a, .inf b => (.inf (a != b), 0)
  | .inf a, .fin b m _ | .fin b m _, .inf a => if m = 0 then (.nan false, flagNV) else (.inf (a != b), 0)
  | .fin a m e, .fin b n f => (.fin (a != b) (m * n) (e + f), 0)

/-- The exact sum of two finite values: a signed multiple of a power of two. -/
def addDyadic (a : Int × Int) (b : Int × Int) : Int × Int :=
  if a.2 ≤ b.2 then (a.1 + b.1 * 2 ^ (b.2 - a.2).toNat, a.2) else (a.1 * 2 ^ (a.2 - b.2).toNat + b.1, b.2)

/-- The signed multiple of a finite value. -/
def Num.dyadic : Num → Int × Int
  | .fin neg m e => (if neg then -(m : Int) else m, e)
  | _ => (0, 0)

def Num.isNan : Num → Bool
  | .nan _ => true
  | _ => false

def Num.isSnan : Num → Bool
  | .nan s => s
  | _ => false

def Num.isInf (neg : Bool) : Num → Bool
  | .inf n => n == neg
  | _ => false

def Num.isNegZero : Num → Bool
  | .fin true 0 _ => true
  | _ => false

/-- The exact sum of terms, rounded once (R39, R53, R132), zeroNeg being the sign of an exactly zero sum. A term that is NaN, or
infinities of both signs, give the canonical NaN; the second sets NV, beside a NaN too, as does a signalling NaN. -/
def sumWith (t : ElTy) (mode : Mode) (zeroNeg : Bool) (terms : List Num) : Nat × Flags :=
  let pos := terms.any (Num.isInf false)
  let neg := terms.any (Num.isInf true)
  let nv := if terms.any Num.isSnan || (pos && neg) then flagNV else 0
  if terms.any Num.isNan || (pos && neg) then (t.nanBits, nv)
  else if pos then (infCode t false, nv)
  else if neg then (infCode t true, nv)
  else
    let s := terms.foldl (fun a n => addDyadic a n.dyadic) (0, 0)
    if s.1 = 0 then (signed t zeroNeg 0, nv)
    else
      let r := roundFp t (s.1 < 0) s.1.natAbs s.2 mode
      (r.1, nv ||| r.2)

/-- A sum whose zero has the sign of R40. -/
def sumRound (t : ElTy) (mode : Mode) (terms : List Num) : Nat × Flags :=
  sumWith t mode (if terms.all fun n => n.dyadic.1 == 0
    then terms.all Num.isNegZero || (mode == .rdn && terms.any Num.isNegZero)
    else mode == .rdn) terms

/-- A sum whose zero is +0 unless every term is −0 (R53). -/
def chunkSum (t : ElTy) (mode : Mode) (terms : List Num) : Nat × Flags := sumWith t mode (terms.all Num.isNegZero) terms

/-- A value with its sign turned. -/
def negNum : Num → Num
  | .nan s => .nan s
  | .inf n => .inf (!n)
  | .fin n m e => .fin (!n) m e

/-- Round(a + b). -/
def addFp (t : ElTy) (mode : Mode) (a b : Num) : Nat × Flags := sumRound t mode [a, b]

/-- Round(a − b). -/
def subFp (t : ElTy) (mode : Mode) (a b : Num) : Nat × Flags := sumRound t mode [a, negNum b]

/-- A product rounded once (R39, R40). -/
def roundNum (t : ElTy) (mode : Mode) : Num → Nat × Flags
  | .nan s => (t.nanBits, if s then flagNV else 0)
  | .inf n => (infCode t n, 0)
  | .fin n m e => roundFp t n m e mode

/-- Round(a × b). -/
def mulFp (t : ElTy) (mode : Mode) (a b : Num) : Nat × Flags :=
  let p := mulNum a b
  let r := roundNum t mode p.1
  (r.1, p.2 ||| r.2)

/-- Round(a × b + d), rounded once. -/
def fmaFp (t : ElTy) (mode : Mode) (a b d : Num) : Nat × Flags :=
  let p := mulNum a b
  let r := sumRound t mode [p.1, d]
  (r.1, p.2 ||| r.2)

/-- A dot product of pairs, with an addend, rounded once (R132). -/
def dotFp (t : ElTy) (mode : Mode) (pairs : List (Num × Num)) (d : List Num) : Nat × Flags :=
  let ps := pairs.map fun x => mulNum x.1 x.2
  let r := sumRound t mode (ps.map (·.1) ++ d)
  (r.1, ps.foldl (fun f p => f ||| p.2) r.2)

/-- The order of two values that are not NaN; infinities lie outside every finite value, and the zeros are equal. -/
def cmpNum (a b : Num) : Ordering :=
  match a, b with
  | .inf x, .inf y => if x == y then .eq else if x then .lt else .gt
  | .inf x, _ => if x then .lt else .gt
  | _, .inf y => if y then .gt else .lt
  | x, y => compare (addDyadic x.dyadic (-(y.dyadic.1), y.dyadic.2)).1 0

/-- The condition of pcmp and vcmp on two ints (R134). -/
def condInt (m : BitVec 3) (a b : Int) : Bool :=
  match m.toNat with
  | 0 => a == b | 1 => a != b | 2 => a < b | 3 => a ≤ b | 4 => b < a | 5 => b ≤ a | _ => false

/-- The condition of pcmp and vcmp on two floats, with NV (R134). -/
def condFp (m : BitVec 3) (a b : Num) : Bool × Flags :=
  let un := a.isNan || b.isNan
  let sn := a.isSnan || b.isSnan
  let c := cmpNum a b
  match m.toNat with
  | 0 => (!un && c == .eq, if sn then flagNV else 0)
  | 1 => (un || c != .eq, if sn then flagNV else 0)
  | 2 => (!un && c == .lt, if un then flagNV else 0)
  | 3 => (!un && c != .gt, if un then flagNV else 0)
  | 4 => (!un && c == .gt, if un then flagNV else 0)
  | 5 => (!un && c != .lt, if un then flagNV else 0)
  | _ => (un, if sn then flagNV else 0)

/-- Whether a float is the lesser operand, with −0 below +0 (R131). -/
def lessFp (a b : Num) : Bool :=
  match cmpNum a b with
  | .lt => true
  | .gt => false
  | .eq => a.isNegZero && !b.isNegZero

/-- The minimum (least) or maximum of two float codes (R131). -/
def minMaxFp (t : ElTy) (least : Bool) (x y : Nat) : Nat × Flags :=
  let a := decodeFp t x
  let b := decodeFp t y
  let f := if a.isSnan || b.isSnan then flagNV else 0
  if a.isNan && b.isNan then (t.nanBits, f)
  else if a.isNan then (y, f)
  else if b.isNan then (x, f)
  else if lessFp a b == least then (x, f) else (y, f)

/-- The magnitude of a float code (R131). -/
def absFp (t : ElTy) (x : Nat) : Nat × Flags :=
  match decodeFp t x with
  | .nan s => (t.nanBits, if s then flagNV else 0)
  | _ => (x % t.signBit, 0)

/-! ## Conversions (R43, R44) -/

/-- Which conversion counter of the JCB an element counts in (R44, R48). -/
inductive Counter where
  | satn | ftzn | nann | nfsn
deriving DecidableEq, Repr

/-- The result of one converted element. -/
structure Converted where
  bits : Nat
  flags : Flags
  count : Option Counter
deriving DecidableEq, Repr

/-- A conversion into e4m3, e5m2 or e2m1: the rows of R44. sat selects saturating mode. -/
def convertNarrow (t : ElTy) (mode : Mode) (satMode : Bool) (x : Num) : Converted :=
  let sat := satMode || t == .e2m1
  match x with
  | .nan s => ⟨t.nanBits, if s || t == .e2m1 then flagNV else 0, some .nann⟩
  | .inf n =>
    if sat then ⟨signed t n t.maxBits, flagOF ||| flagNX, some .satn⟩
    else if t = .e5m2 then ⟨signed t n t.infBits, 0, none⟩
    else ⟨t.nanBits, flagNV, some .nann⟩
  | .fin n m e =>
    if m = 0 then ⟨signed t n 0, 0, none⟩
    else
      let r := roundU t n m e mode
      if r.1 = 0 then ⟨signed t n 0, flagUF ||| flagNX, some .ftzn⟩
      else if t.maxBits < r.1 then
        if sat then ⟨signed t n t.maxBits, flagOF ||| flagNX, some .satn⟩
        else if t = .e5m2 then ⟨overflowBits t n mode, flagOF ||| flagNX, some .satn⟩
        else ⟨t.nanBits, flagOF ||| flagNX, some .nann⟩
      else ⟨signed t n r.1, if r.2.1 then 0 else if r.2.2 then flagUF ||| flagNX else flagNX, none⟩

/-- A conversion of a float to an integer type: rounded by the mode and clamped (R43). -/
def convertToInt (t : ElTy) (mode : Mode) (x : Num) : Converted :=
  match x with
  | .nan _ => ⟨0, flagNV, none⟩
  | .inf n => ⟨wrapInt t.width (if n then t.minInt else t.maxInt), flagNV ||| flagNX, none⟩
  | .fin n m e =>
    let r := roundAt n m e 0 mode
    let v : Int := if n then -(r.1 : Int) else r.1
    if v < t.minInt ∨ t.maxInt < v then ⟨wrapInt t.width (clampInt t v), flagNV ||| flagNX, none⟩
    else ⟨wrapInt t.width v, if r.2 then 0 else flagNX, none⟩

/-- One element converted from type s to type d. sat selects saturating mode for a narrow destination, and clamping
between integer types (R43, R44, R136). -/
def convertEl (s d : ElTy) (mode : Mode) (sat : Bool) (bits : Nat) : Converted :=
  if d.isInt then
    if s.isInt then ⟨intResult d sat (decodeInt s bits), 0, none⟩
    else convertToInt d mode (decodeFp s bits)
  else if d.isFloat then
    let r := roundNum d mode (decodeEl s bits)
    ⟨r.1, r.2, none⟩
  else convertNarrow d mode sat (decodeEl s bits)

end Sys2Proof.Machine
end

