-- ==== Sys2Proof/Config.lean ====
section
/-! DEFINITION. What an implementation of the machine fixes, and the free values: values the spec leaves open. Each is
an opaque constant, so nothing can be proved about what it is. -/

namespace Sys2Proof

/-- Who makes the next move of the device. The spec orders moves only as its rules give (R274, R279); which agent
moves next is otherwise open. -/
inductive Turn where
  /-- One ck passes (R4, R62). -/
  | tick
  /-- The context that owns the slot of this ck issues on core u (R62, R63). -/
  | lc (u : Nat)
  /-- Context k of core u fetches ahead into its fetch window (R199). -/
  | fetch (u k : Nat)
  /-- A stream of tile n issues one word or bundle (R202). -/
  | dt (n : Nat) (st : Stream)
  /-- The head command of a queue of tile n performs its next unit of output (R204, R217, R224). -/
  | cmd (n : Nat) (q : Stream)
  /-- Accepted command j of core u takes its next entry (R145, R150). -/
  | gather (u j : Nat)
  /-- Coach goes on with the step of command j (R307). -/
  | coach (j : Nat)
  /-- A save or a restore of partition p goes on (R397, R406). -/
  | preempt (p : Nat)
  /-- The router sends on the packet that has waited longest (R460). -/
  | route
  /-- The other end of a port acknowledges the flits below a number (R419). -/
  | ack (port : Nat) (seq : Nat)
  /-- The next line of host request n is performed (R451). -/
  | host (n : Nat)
  /-- The discovery flood ends (R437). -/
  | discovery
  /-- The ROM ends its check of the firmware package (R435). -/
  | rom
  /-- The host masks an MSI-X vector (R457). -/
  | mask (v : Nat)
  /-- The host writes an aligned word of BAR2, where the MSI-X table stands (R450). -/
  | bar2Write (off : Nat) (v : Word)
  /-- The host reads an aligned word of BAR2, or of BAR0 the whole or a half of one (R450, R453). -/
  | bar2Read (off : Nat)
  | bar0Read (off : Nat) (half : Bool)
  /-- The debug port runs BYPASS, SAMPLE/PRELOAD with the bits that are shifted in, or EXTEST (R447). -/
  | bypass
  | sample (bits : List Byte)
  | extest (bits : List Byte)
  /-- Position u takes the next beat of a multicast (R441). -/
  | multicast (u : Nat)
  /-- A sweep reaches the SHM pair at an address, or the contexts of the core in unit a (R382). -/
  | sweep (a : Nat)
  /-- A soft error turns one bit of the byte at an address of storage (R415, R416). -/
  | upset (addr : Nat) (bit : Fin 8)
  /-- A step of the hardware, or an input from outside the device. -/
  | event (e : Instr)
deriving DecidableEq, Repr, Inhabited

namespace Config

/-- FREE VALUE. Which agent moves at the n-th move (assumption 1). -/
opaque schedule : Nat → Turn

/-- FREE VALUE. Whether the relaxed store of the n-th move is placed in the combining buffer (R281; assumption 2). -/
opaque combines : Nat → Bool

/-- FREE VALUE. Which entry a full TLB gives up at the n-th move (R376; assumption 3). -/
opaque tlbVictim : Nat → Nat

/-- FREE VALUE. Which of several the hardware takes at the n-th move, where the spec gives no order (assumption 4). -/
opaque choice : Nat → Nat

/-- FREE VALUE. Which of the changing flags of a core a read of CFLAGS sees at the n-th move (R47; assumption 5). -/
opaque cflags : Nat → Nat → BitVec 80

/-- FREE VALUE. Which of the fp32 values within the bound of R250 a special function gives for a magnitude code; it
depends on nothing else (assumption 7). -/
opaque special : Nat → Nat → Nat

/-- FREE VALUE. The boot ROM, by byte (R430; assumption 8). -/
opaque rom : Nat → Byte

/-- FREE VALUE. The boot flash as it was before the device first programmed it, by byte (R430, R458; assumption 8). -/
opaque flash : Nat → Byte

/-- FREE VALUE. What a page holds whose programming failed at the n-th move, by byte; the manufacturer's identity of R447; and
what a chain whose layout is not architected shifts out at the n-th move (R447, R458; assumption 8). -/
opaque badPage : Nat → Nat → Byte
opaque maker : BitVec 11
opaque chain : Nat → List Byte

/-- FREE VALUE. The codes of SAMPLE/PRELOAD and EXTEST, which R447 does not give (assumption 8). -/
opaque sampleCode : BitVec 8
opaque extestCode : BitVec 8

/-- FREE VALUE. What the boundary register captures at the n-th move (R447; assumption 8). -/
opaque pins : Nat → List Byte

/-- FREE VALUE. The secret of the attestation key, by byte, and the value that randomizes the signature of the n-th move, by byte
(R444, R445; assumption 8). -/
opaque attestSecret : Nat → Byte
opaque attestRandom : Nat → Nat → Byte

/-- FREE VALUE. How the check value of a failing beat that lands at an address at the n-th move differs from the CRC of its data
(R416; assumption 141). -/
opaque syndrome : Nat → Nat → BitVec 32

/-- FREE VALUE. Whether a misaligned access to a register block at the n-th move raises RANGE, as R453 has it, and not MISALIGNED, as R125
has it (assumption 142). -/
opaque blockRange : Nat → Bool

/-- FREE VALUE. Whether the packet of request n, or the answer to it, is dropped at another device, which nothing reports here (R461;
assumption 131). -/
opaque packetLost : Nat → Bool

/-- FREE VALUE. A word that the spec leaves open at the n-th move (assumption 6). -/
opaque freeWord : Nat → Word

end Config

end Sys2Proof
end

