-- ==== Sys2Proof/Machine/Bits.lean ====
section
/-! DEFINITION. Plain helpers over bytes, bit fields and sparse lists. A sparse list holds pairs of a key and a value
in ascending order of keys; a key that is not listed holds a default. -/

namespace Sys2Proof.Machine

/-- Sign extension of an immediate to a word (R87). -/
def sext {n : Nat} (v : BitVec n) : Word := v.signExtend 64

/-- Zero extension to a word. -/
def zext {n : Nat} (v : BitVec n) : Word := v.zeroExtend 64

/-- Bits [lo + n − 1 : lo] of a number. -/
def bitsOf (v lo n : Nat) : Nat := v / 2 ^ lo % 2 ^ n

/-- Bit n of a number. -/
def bitOf (v n : Nat) : Bool := v / 2 ^ n % 2 == 1

/-- One if a condition holds, and zero otherwise. -/
def ofBool (b : Bool) : Word := if b then 1 else 0

/-- The number that little-endian bytes hold (R2). -/
def bytesToNat : List Byte → Nat
  | [] => 0
  | b :: bs => b.toNat + 256 * bytesToNat bs

/-- The n little-endian bytes of a number (R2). -/
def natToBytes : Nat → Nat → List Byte
  | 0, _ => []
  | n + 1, v => BitVec.ofNat 8 v :: natToBytes n (v / 256)

/-- A z-byte value as a word, sign-extended or zero-extended (R126). -/
def extend (z : Nat) (sgn : Bool) (v : Nat) : Word :=
  let m := v % 2 ^ (8 * z)
  if sgn && 2 ^ (8 * z - 1) ≤ m then BitVec.ofNat 64 (m + 2 ^ 64 - 2 ^ (8 * z)) else BitVec.ofNat 64 m

/-- The value at a key of a sparse list. -/
def lookup {α : Type} (d : α) : List (Nat × α) → Nat → α
  | [], _ => d
  | (k, v) :: rest, key => if k = key then v else lookup d rest key

/-- Puts a value at a key, in ascending order of keys. -/
def insertAt {α : Type} (key : Nat) (v : α) : List (Nat × α) → List (Nat × α)
  | [] => [(key, v)]
  | (k, w) :: rest =>
    if key = k then (key, v) :: rest
    else if key < k then (key, v) :: (k, w) :: rest
    else (k, w) :: insertAt key v rest

/-- Takes a key out of a sparse list. -/
def removeAt {α : Type} (key : Nat) : List (Nat × α) → List (Nat × α)
  | [] => []
  | (k, w) :: rest => if k = key then removeAt key rest else (k, w) :: removeAt key rest

/-- Puts a value at a key, and lists no default. -/
def storeAt {α : Type} [DecidableEq α] (d : α) (key : Nat) (v : α) (l : List (Nat × α)) : List (Nat × α) :=
  if v = d then removeAt key l else insertAt key v l

/-- Puts a key into a set held as a strictly ascending list. -/
def setInsert (key : Nat) : List Nat → List Nat
  | [] => [key]
  | k :: rest => if key = k then k :: rest else if key < k then key :: k :: rest else k :: setInsert key rest

/-- Takes a key out of a set. -/
def setRemove (key : Nat) (l : List Nat) : List Nat := l.filter (· != key)

/-- Replaces the n-th entry of a list. -/
def replaceNth {α : Type} (l : List α) (n : Nat) (v : α) : List α := l.set n v

/-- Number of one bits among the n low bits. -/
def countBits : Nat → Nat → Nat
  | 0, _ => 0
  | n + 1, v => v % 2 + countBits n (v / 2)

/-- Number of leading zero bits of an n-bit number. -/
def leadingZeros (n v : Nat) : Nat := if v = 0 then n else n - 1 - Nat.log2 v

/-- Number of trailing zero bits, at most n. -/
def trailingZeros : Nat → Nat → Nat
  | 0, _ => 0
  | n + 1, v => if v % 2 = 1 then 0 else 1 + trailingZeros n (v / 2)

/-- The number with its n granules of w bits in reverse order. -/
def reverseGranules (w : Nat) : Nat → Nat → Nat
  | 0, _ => 0
  | n + 1, v => (v % 2 ^ w) * 2 ^ (w * n) + reverseGranules w n (v / 2 ^ w)

/-- The elements of n lanes of w bits, lane 0 least significant (R129). -/
def lanes (w : Nat) : Nat → Nat → List Nat
  | 0, _ => []
  | n + 1, v => v % 2 ^ w :: lanes w n (v / 2 ^ w)

/-- Lanes put together again. -/
def joinLanes (w : Nat) : List Nat → Nat
  | [] => 0
  | x :: xs => x % 2 ^ w + 2 ^ w * joinLanes w xs

/-- A vector with one entry replaced. -/
def vset {α : Type} {n : Nat} (v : Vector α n) (i : Fin n) (x : α) : Vector α n := v.set i.val x i.isLt

end Sys2Proof.Machine
end

