-- ==== Sys2Proof/Machine/State.lean ====
section
/-! DEFINITION. The state of one device, as plain data: every lookup core and dense tile, the memories with their
full/empty bits, tags and check states, the engines, the messages in flight, the launch unit, the registers and the
links. A core, tile or register that a sparse list does not name stands at its reset value. -/

namespace Sys2Proof.Machine

/-- The states of a context (R64). -/
inductive CtxState where
  | free | run | parked | done | stopped
deriving DecidableEq, Repr

/-- How a context was entered; R184 gives wait x0, x0 a different end for each (R389). -/
inductive Origin where
  | head | started | spawned | joined
deriving DecidableEq, Repr

/-- A hardware loop record (R121). An END of 0 stands for 2^18. -/
structure LoopRec where
  count : Word
  v : Bool
  t : Bool
  last : BitVec 18
  start : BitVec 18
deriving DecidableEq, Repr

/-- The invalid loop record, all fields zero. -/
def LoopRec.none : LoopRec := ⟨0, false, false, 0, 0⟩

/-- The kinds of amo (R178). -/
inductive AmoKind where
  | add | fadd | min | max | swap | and | or | xor
deriving DecidableEq, Repr

/-- The fields of a table descriptor that a command holds (R139, R383, R385). The box is in the layout of R383. -/
structure Table where
  rows : Nat
  rb : Nat
  fmt : ElTy
  zero : Bool
  pol : Nat
  bk : Nat
  exact : Bool
  fb : Nat
  shf : Nat
  hk : Bool
  lcBase : Nat
  lcCnt : Nat
  box : Nat
  rowOff : Nat
  shOff : Nat
deriving DecidableEq, Repr

/-- The acts of a home: what is done with the bytes at an address (R126, R175, R178, R180, R191,
R192, R195, R282). -/
inductive Act where
  /-- acq marks the classes that a barrier error traps (R300). -/
  | load (z : Nat) (acq : Bool)
  /-- The second half of a 16-byte load outside a local store, with the first (R126). -/
  | loadHigh (low : Word) (acq : Bool)
  | store (z : Nat) (v : Quad)
  | line (mask : BitVec 64) (bytes : List Byte)
  | amo (kind : AmoKind) (z : Nat) (v : Word)
  | cas (z : Nat) (expect new : Word)
  | arrive (count : BitVec 32) (err : Bool)
  | consume (z : Nat)
  | peek (z : Nat)
  | fill (z : Nat) (v : Quad)
  /-- What a command of a tile asks of a granule or a word (R215): to wait for its bit, with its z bytes where it is
  full; to be emptied; and a write of the masked bits of its bytes, with its bit where it is the last (R214). -/
  | await (full : Bool) (z : Nat)
  | clear
  | write (mask bytes : List Byte) (full : Bool)
  /-- A read that moves z bytes with their check state (R347, R359). -/
  | copy (z : Nat)
  | watch (cond : WaitCond) (z : Nat) (b : Word)
  /-- xwait.bar at the word of a stage barrier (R300). -/
  | barrier (target : BitVec 32)
  | capLoad
  | capStore (v : Quad) (tag : Bool)
  | join
  | scope (lc : Option Nat) (put : Bool)
  /-- tstep at the descriptor's bank (R157). -/
  | step (tid : Nat) (expect : Word) (inv : Bool)
  /-- A row of a table: read, added to, or written (R150, R153, R154). l is its local row number at its home; an
  element to add is its fp32 code, or, for an EXACT table, the integer modulo 2^96 with N above it. -/
  | row (tid : Nat) (t : Table) (l : Nat)
  /-- i is the element whose shadow cell comes next; each cell is an act of its own (R273). -/
  | accumulate (tid : Nat) (t : Table) (l : Nat) (elems : List Nat) (i : Nat := 0)
  | overwrite (tid : Nat) (t : Table) (l : Nat) (bytes : List Byte) (bad : List Nat)
deriving DecidableEq, Repr

/-- Where the result of an access goes when it returns. -/
inductive Dest where
  | none
  | x (d : Reg) (z : Nat) (sgn : Bool)
  | w (d : Reg)
  | cap (d : BitVec 4)
deriving DecidableEq, Repr

/-- Who sent a request or a message. -/
inductive Source where
  | ctx (u k : Nat)
  | gather (u j : Nat)
  | stream (u k : Nat)
  | engine (u : Nat)
  | tile (n : Nat) (st : Stream)
  | walker (cluster walk : Nat)
  | remote (dev unit id : Nat)
  | device
deriving DecidableEq, Repr

/-- A request on its way to its home, or waiting there (R273 to R275). addr is a 48-bit address within the device. -/
structure Request where
  id : Nat
  src : Source
  act : Act
  addr : Nat
  dest : Dest
  relaxed : Bool
  deadline : Option Nat
deriving DecidableEq, Repr

/-- The answer of a home on its way back: the value, the flags of amofadd (R178), the check that failed (R417), or a
trap that the home returns (R196). bad lists the failing beats of a row, by their numbers within it. -/
structure Reply where
  req : Request
  value : Quad
  tag : Bool
  flags : BitVec 5
  bytes : List Byte
  bad : List Nat
  failed : Option Word
  trap : Option (BitVec 8 × Word × BitVec 16)
deriving DecidableEq, Repr

/-- What a message carries (R183, R186, R190, R191). u is the unit it is for. -/
inductive MsgBody where
  | register (u : Nat) (tctx : BitVec 4) (treg : BitVec 6) (value : Quad)
  | active (u : Nat) (hidx : BitVec 8) (arg source : Word)
  | spawn (u : Nat) (pc : Word) (args : List Word)
  | continuation (u : Nat) (epc arg : Word)
deriving DecidableEq, Repr

/-- A message in flight inside the device. behind names the requests that left its source before it (R286); relayed is the
core at which it first arrived, where it has been passed on from there (R191, R395). -/
structure Message where
  id : Nat
  src : Source
  body : MsgBody
  behind : List Nat := []
  relayed : Option Nat := none
deriving DecidableEq, Repr

/-- What a context does when its release drain ends (R174). A device of none is this one. -/
inductive Send where
  | access (dev : Option Nat) (act : Act) (addr : Nat) (dest : Dest) (deadline : Option Nat)
  | message (dev : Option Nat) (body : MsgBody) (d : Reg) (refusal : Option (BitVec 8 × Word)) (spawnPc : Option Word)
  | fork (d : Reg) (pc : Word)
  | start (d : Reg) (k : Nat) (pc : Word)
deriving DecidableEq, Repr

/-- The list instructions of the stream engine that park (R160). -/
inductive StreamOp where
  | next | int | mrg
deriving DecidableEq, Repr

/-- An element that the stream engine has read (R160, R162): its value, its global address and its failing beat. -/
structure Element where
  value : Nat
  ga : Word
  failed : Option Nat
deriving DecidableEq, Repr

/-- A segment of the transform input queue (R163); bad lists its failing beats. -/
structure Segment where
  bytes : List Byte
  index : Nat
  row : Nat
  bad : List Nat
deriving DecidableEq, Repr

/-- The bit cursor with its segment (R166). -/
structure Cursor where
  seg : Segment
  p : Nat
  acc : Word
  err : Bool
deriving DecidableEq, Repr

/-- What a parked context waits on (R63, R64, R71, R127). The first group issues the same instruction anew; the second
goes on from where it stands. -/
inductive Park where
  | none
  /-- Its own queue (R65): the transform and the message context. -/
  | queue
  /-- The presence bits of registers of the instruction (R70): 0 to 31 for x, 32 to 63 for w. -/
  | presence (regs : List Nat)
  /-- A page walk for a virtual address (R125, R377). -/
  | walk (va : Word)
  /-- A free entry for a relaxed access (R128). -/
  | entry
  /-- Acceptance of a gather-unit or stream command (R145). -/
  | acceptance
  /-- The reply to request id. -/
  | reply (id : Nat)
  /-- A send that waits for earlier accesses to the same bytes (R278 case b, R282), or for the release drain (R174). -/
  | hold (next : Send) (drain : Bool)
  /-- The answer to message id (R183, R186, R190). -/
  | answer (id : Nat) (d : Reg) (refusal : Option (BitVec 8 × Word)) (spawnPc : Option Word)
  /-- A fence of a level (R182), and ifence (R199). -/
  | fence (lv : Level)
  | ifence
  /-- The course of snext, sint or smrg (R160, R161): the count, the output offset and the elements that have been
  read, each with its address and its failing beat. -/
  | stream (op : StreamOp) (x : XOp) (cnt : Nat) (out : Word) (u v : Option Element)
  /-- A segment for bsync 0 (R169), and the course of bdecn (R168): its command number, its barrier, and its cursor. -/
  | pop (d : Reg)
  | decode (x : XOp) (cmd cnt : Nat) (barrier : Option Nat) (cur : Cursor)
  /-- The end of the head context (R184), a reap (R190), a repart (R83), a WSP write (R68). -/
  | ending
  | reap (d : Reg) (k : Nat)
  | repart (m8 : Bool)
  | wsp (base : BitVec 18)
  /-- A move of context k of core u (R200); target is none where it is to be chosen, and asked tells, where the host
  chooses, whether it has been asked (R392). -/
  | migrate (d : Reg) (u k : Nat) (target : Option Nat) (asked : Option Bool)
  /-- The TLBs that have not dropped a page, or all, yet (R201). -/
  | tlbinv (page : Option Nat) (waiting : List Nat)
deriving DecidableEq, Repr

/-- A register whose result is still to come (R70, R128): 0 to 31 for x, 32 to 63 for w. -/
structure PendingReg where
  reg : Nat
  id : Nat
deriving DecidableEq, Repr

/-- Where a migrated context went (R200, R393): a forwarding entry. -/
structure Forward where
  target : Word
  reap : Bool
deriving DecidableEq, Repr

/-- One context of a lookup core (R64 to R79, R121). reaper names the core whose head reaps a started context, moved
tells that it arrived by migration (R389), and parkRec is its park record (R390). The fields from parkedAt on are the
model's own: when it parked and when the park passes its limit, the slot from which a limit counts while the
instruction waits to be issued anew, the word that waits, when the context may issue next, and the bytes it has
fetched ahead. -/
structure Context where
  state : CtxState
  x : Vector Word 32
  w : Vector Quad 32
  c : Vector Quad 16
  ctag : BitVec 16
  xp : BitVec 32
  wp : BitVec 32
  pc : BitVec 18
  fcsr : BitVec 9
  lwd : BitVec 5
  tact : Bool
  ppv : Bool
  prv : Bool
  wsp : BitVec 18
  tvec : BitVec 18
  code : BitVec 8
  aux : BitVec 16
  tval : Word
  tepc : BitVec 18
  loops : Vector LoopRec 4
  stop : BitVec 8 × Word
  origin : Origin
  park : Park
  pending : List PendingReg
  failed : List (Nat × BitVec 8 × Word)
  fwd : Option Forward
  reaper : Word
  moved : Bool
  parkRec : Word
  parkedAt : Nat
  deadline : Option Nat
  since : Option Nat
  ir : Word
  readyAt : Nat
  window : List (Nat × Byte)
deriving DecidableEq, Repr

/-- A context at reset (R64, R77 to R79, R121, R430): FREE, presence bits 1, LWD 10, WSP and TVEC 0. -/
def Context.reset : Context where
  state := .free
  x := Vector.replicate 32 0
  w := Vector.replicate 32 0
  c := Vector.replicate 16 0
  ctag := 0
  xp := BitVec.allOnes 32
  wp := BitVec.allOnes 32
  pc := 0
  fcsr := 0
  lwd := 10
  tact := false
  ppv := false
  prv := false
  wsp := 0
  tvec := 0
  code := 0
  aux := 0
  tval := 0
  tepc := 0
  loops := Vector.replicate 4 LoopRec.none
  stop := (0, 0)
  origin := .head
  park := .none
  pending := []
  failed := []
  fwd := none
  reaper := 0
  moved := false
  parkRec := 0
  parkedAt := 0
  deadline := none
  since := none
  ir := 0
  readyAt := 0
  window := []

/-- A core-shared register: the visible value and the writes that readers do not see yet, oldest first, each with the
ck from which it is seen (R73). -/
structure SReg where
  cur : Word
  pend : List (Nat × Word)
deriving DecidableEq, Repr

/-- An outstanding relaxed access (R128). store covers every access that writes. dev is none for a home of this
device. -/
structure Relaxed where
  id : Nat
  ctx : Nat
  store : Bool
  load : Bool
  dev : Option Nat
  addr : Nat
  len : Nat
deriving DecidableEq, Repr

/-- A line of the combining buffer (R281): id is its relaxed-access entry, at the ck of its first store. dev is none
for a home of this device. -/
structure Line where
  id : Nat
  ctx : Nat
  dev : Option Nat
  addr : Nat
  mask : BitVec 64
  bytes : List Byte
  bornAt : Nat
deriving DecidableEq, Repr

/-- An entry of the message queue (R185). -/
structure QueueEntry where
  hidx : BitVec 8
  arg : Word
  source : Word
deriving DecidableEq, Repr

/-- A task of the hardware deque, newest first (R190); launch is the partition of the launch that pushed it, with which it goes. -/
structure Task where
  pc : Word
  args : List Word
  launch : Option Nat
deriving DecidableEq, Repr

/-- A waiting join continuation (R191). -/
structure Continuation where
  epc : Word
  arg : Word
deriving DecidableEq, Repr

/-- A leaf in a TLB (R373, R376): the first byte of its page, log2 of the page size, the frame, and S, U, W, R. -/
structure TlbEntry where
  page : Nat
  size : Nat
  frame : Nat
  s : Bool
  u : Bool
  w : Bool
  r : Bool
deriving DecidableEq, Repr

/-- The gather-unit commands (R142). -/
inductive GatherKind where
  | gth | ddp | sred | sadd | scst
deriving DecidableEq, Repr

/-- An entry of a command that has been begun and is not done: its request, whether its row may be cached when it
arrives, and the step of its fetch (R158). -/
structure Flight where
  entry : Nat
  req : Nat
  cache : Bool
  tf : Word
deriving DecidableEq, Repr

/-- An accepted gather-unit command (R145 to R154). pages maps each 256 KiB page of its destination to its frame, limit
is the exponent of a row wait, sl the step S_L at acceptance, next the entry or segment it takes next, pos and acc the
place and the sums within a segment of sred, left the granules that ddp has still to write, uniq its distinct
identifiers, count the units done, sent tells that its arrival is on its way, and kept holds the pooled rows that are not
written before every row has been read (R105). got holds the granules of the present row that have been read, by their numbers
within it and with whether they failed their check, and empties the destination units that are still to be emptied (R145). -/
structure GatherCmd where
  id : Nat
  ctx : Nat
  kind : GatherKind
  tid : Nat
  mode : Nat
  table : Table
  ids : List Nat
  offs : List Nat
  src : Nat
  dest : Nat
  pages : List (Nat × Nat)
  barrier : Option Nat
  d : Reg
  limit : BitVec 5
  sl : Word
  next : Nat
  pos : Nat
  acc : List Nat
  left : List Nat
  uniq : List Nat
  flight : List Flight
  count : Nat
  err : Bool
  waitFrom : Option Nat
  sent : Bool := false
  kept : List (Nat × List Byte) := []
  got : List (Nat × List Byte × Bool) := []
  empties : List Nat := []
deriving DecidableEq, Repr

/-- A row in the row cache (R158). -/
structure CacheRow where
  tid : Nat
  row : Nat
  tf : Word
  bytes : List Byte
  bad : List Nat
deriving DecidableEq, Repr

/-- A stream slot (R159). -/
structure StreamSlot where
  isOpen : Bool
  va : Word
  n : Nat
  w : Nat
  pos : Nat
  owner : Nat
deriving DecidableEq, Repr

/-- A free slot. -/
def StreamSlot.none : StreamSlot := ⟨false, 0, 0, 4, 0, 0⟩

/-- One lookup core (R62, R65, R73, R76, R128, R145, R158, R159, R163, R185, R190, R191, R281, R292, R311, R376). The
HOLD bits are hold until ck holdAt has passed, and holdNext from then on; bare is what the bit cursor holds of p, ACC and
ERR while it has no segment (R166). flagLog lists the flags of its contexts, newest
first, each with the ck of the change, and flagBase what stood before them (R47). waiting holds the relaxed accesses that stand behind an earlier access to their
bytes, each with its device (R278 case b). gread holds what has been read of the list and the descriptor of the command that is to be
accepted next, act by act, and whether it failed its check (R145, R285). The last two fields are the model's own: the
ck count's phase against the device's, and the ck after that of the last issue. -/
structure Core where
  m8 : Bool
  ctxs : Vector Context 16
  sregs : Vector SReg 8
  relaxed : List Relaxed
  waiting : List (Option Nat × Request)
  entryQueue : List Nat
  lines : List Line
  msgq : List QueueEntry
  hold : BitVec 256
  holdNext : BitVec 256
  holdAt : Nat
  handling : Bool
  deque : List Task
  conts : List Continuation
  tlb : List TlbEntry
  ptroot : Word
  gwait : List (Nat × Instr)
  gread : List (Nat × List Byte × Bool)
  gcmds : List GatherCmd
  cache : List CacheRow
  steps : List (Nat × Word)
  noMerge : List Nat
  slots : Vector StreamSlot 8
  txq : List Segment
  cursor : Option Cursor
  bare : Nat × Word × Bool
  launch : Option Nat
  flagLog : List (Nat × Nat)
  flagBase : Nat
  phase : Nat
  issuedAt : Nat
deriving DecidableEq, Repr

/-- A core at reset (R62, R64, R73, R158, R185, R387). -/
def Core.reset : Core where
  m8 := false
  ctxs := Vector.replicate 16 Context.reset
  sregs := Vector.replicate 8 ⟨0, []⟩
  relaxed := []
  waiting := []
  entryQueue := []
  lines := []
  msgq := []
  hold := 0
  holdNext := 0
  holdAt := 0
  handling := false
  deque := []
  conts := []
  tlb := []
  ptroot := 0
  gwait := []
  gread := []
  gcmds := []
  cache := []
  steps := []
  noMerge := []
  slots := Vector.replicate 8 StreamSlot.none
  txq := []
  cursor := none
  bare := (0, 0, false)
  launch := none
  flagLog := []
  flagBase := 0
  phase := 0
  issuedAt := 0

/-- A claim (R301, R302): its ranges, each from a first address to one past its last, the homes that hold it, the producer
code, the barrier word, the command, and whether it has failed. -/
structure Claim where
  ranges : List (Nat × Nat)
  homes : List Nat
  producer : BitVec 16
  barrier : Option Nat
  cmd : Nat
  failed : Bool
deriving DecidableEq, Repr

/-- A beat on the crossbar (R25, R296, R297): where its bytes go, whether its check value fails, and the entry of the
command that it belongs to. left lists the granules or words that it has still to write, and behind the requests that left
its source before it (R286). -/
structure Beat where
  addr : Nat
  bytes : List Byte
  failed : Bool
  src : Source
  entry : Nat
  left : List Nat
  behind : List Nat
deriving DecidableEq, Repr

/-- A row on its way to the transform input queue of core u (R163). -/
structure QueuedRow where
  u : Nat
  cmd : Nat
  seg : Segment
deriving DecidableEq, Repr

/-- A new step on its way to the cores (R157, R387, R292), or an invalidation: the cores that have not taken it yet,
and the request of the tstep that waits for them. -/
structure StepJob where
  tid : Nat
  step : Option Word
  inv : Bool
  waiting : List Nat
  req : Option Request
  old : Word
deriving DecidableEq, Repr

/-- A page walk (R374, R377, R379): its walker, the root and the 256 KiB page it is for, its tag, whether it has a
place in its walker, whether the host is to walk for it (R428), and whether the host has been asked, whether its answer is to be discarded (R378), the level and the table it reads next, and
who began it or joined it. -/
structure Walk where
  id : Nat
  cluster : Nat
  root : Word
  vpn : Nat
  tag : Nat
  started : Bool
  assisted : Bool
  asked : Bool
  stale : Bool
  level : Nat
  table : Nat
  who : List Source
deriving DecidableEq, Repr

/-- A supervisor event that has not been delivered (R366): its code and the values x10 and x11 of its handler. -/
structure Event where
  code : BitVec 8
  x10 : Word
  x11 : Word
deriving DecidableEq, Repr

/-- A launch that a partition of this device runs (R349, R358, R359, R367): the record's 32 words, the device and the
queue that enqueued it, and this device's rank in its box. -/
structure Launch where
  record : List Word
  home : Nat
  queue : Nat
  rank : Nat
deriving DecidableEq, Repr

/-- What the launch unit keeps of a queue beside its registers (R347, R348): the latest TAIL that it has observed in
range, whether a TAIL out of range stands, and the record at HEAD once it has been read and found valid; of a record on another
device, the words that have come, and the request for the next. -/
structure LaunchQueue where
  seen : BitVec 32
  bad : Bool
  record : Option (List Word)
  words : List Word := []
  asked : Option Nat := none
deriving DecidableEq, Repr

/-- A reservation that waits for a partition (R358). -/
structure Reservation where
  home : Nat
  queue : Nat
  part : Nat
  pri : Nat
  age : Nat
  record : List Word
deriving DecidableEq, Repr

/-- A launch that this device has taken from a queue of its own (R356, R358, R364, R367): its devices, those still to be
asked for their partition, whether one has been asked, those that have granted, whether the wake has been sent, and
those that have reported its completion; and its watchdog, from the tick of its decision, and whether it has expired. -/
structure HomeLaunch where
  queue : Nat
  part : Nat
  record : List Word
  devs : List Nat
  toAsk : List Nat
  granted : List Nat
  woken : Bool
  reported : List Nat
  tick : Nat
  limit : Nat
  expired : Bool := false
deriving DecidableEq, Repr

/-- A launch for which a partition here is held, and which has not been woken (R356, R358): the counters and thresholds
of the home's JCB, once the home has sent the wake, and whether the steps of its tables are on their way to the cores
(R387). A launch of this device alone needs no such message. Of an image on another device, the bytes that have come, the
granules of it that fail their checks, and the request for the next (R359). -/
structure HeldLaunch where
  part : Nat
  launch : Launch
  go : Option (List Word)
  stepped : Bool
  image : List Byte := []
  imageBad : List Nat := []
  asked : Option Nat := none
deriving DecidableEq, Repr

/-- A reset of a partition that has begun and not ended (R368): its units have been drained and reset; with the launch that held
it, and the STATE that it is to end in. -/
structure Reset where
  part : Nat
  state : Nat
  launch : Launch
deriving DecidableEq, Repr

/-- A save or a restore on one device (R397 to R399, R406): the phase it is in, the devices whose quiesce markers have
come, and the tiles of the image with those that they are restored to. -/
structure Preempt where
  part : Nat
  launch : Launch
  restore : Bool
  phase : Nat
  left : Nat
  heard : List Nat
  map : List (Nat × Nat)
deriving DecidableEq, Repr

/-- A save or a restore at the home of its launch (R397, R406): the box of the launch, the devices that are still to be
asked for their partition, those that have granted it, and those that have finished; the ticks left of its watchdog, and
the result. -/
structure HomePreempt where
  part : Nat
  launch : Launch
  restore : Bool
  box : Nat
  devs : List Nat
  toAsk : List Nat
  granted : List Nat
  finished : List Nat
  left : Nat
  result : Nat
deriving DecidableEq, Repr

/-! ## Ports and services -/

/-- A fabric port (R419, R420): the number of the next flit it sends; the flits it keeps until they are acknowledged, each with its
number and with how many times in a row it has been sent again; the number it expects, and whether it has asked for a replay;
whether it retrains, for software or not, the lanes that have failed, and the flits that the end of training sends again. -/
structure Port where
  sent : Nat
  kept : List (Nat × Packet × Nat)
  want : Nat
  asks : Bool
  training : Bool
  widen : Bool
  bad : BitVec 8
  cut : Nat
deriving DecidableEq, Repr

def Port.reset : Port := ⟨0, [], 0, false, false, false, 0, 0⟩

/-- An entry of a router's combining table (R311): its key, its number, its reply point, and the merged requesters. -/
structure Merge where
  key : List Nat
  id : Nat
  dest : Nat × Nat
  more : List (Nat × Nat)
deriving DecidableEq, Repr

/-- A multicast (R441): its bytes with their failing beats, where they go, and the next beat of each position that has not
taken them all. -/
structure Multicast where
  bytes : List Byte
  bad : List Nat
  dst : Nat
  left : List (Nat × Nat)
  count : Nat
deriving DecidableEq, Repr

/-! ## Dense tiles -/

/-- The status of a stream (R202, R206, R404). -/
inductive StreamStatus where
  | run | wait | halting | halted | stopped
deriving DecidableEq, Repr

/-- A loop record of a stream (R235, R271): an induction register of 0 is none. -/
structure DtLoop where
  count : BitVec 32
  start : Nat
  last : Nat
  ind : BitVec 4
  step : BitVec 8
deriving DecidableEq, Repr

/-- What a stream or a command waits for (R212, R272): a queue identifier of a tile, or the address of a granule or a
word, which is to be full or empty. -/
inductive DtWhat where
  | code (tile : Nat) (c : Nat)
  | address (a : Nat) (full : Bool)
deriving DecidableEq, Repr

/-- A wait, its limit (R212), and the instant at which it was last found to go on: twice the ck, and one more where the ck was
closing (R313). -/
structure DtWait where
  what : DtWhat
  deadline : Option Nat
  seen : Nat
deriving DecidableEq, Repr

/-- A command in a queue of a tile, or a matrix item (R204, R224, R259, R404): its number, the index of its word, the
captured index registers and records, the resume cursor, whether it has started, and the unit order of R232. phys are
the physical registers of an mdrain, occ the occurrence of an xce, buf the elements that the present unit has read so far, sent tells
that the writes of the present unit are on their way, clearing that its source granules are being emptied, checked
counts its destination granules that were found empty, reqs are its requests on their way, and capA and capB the
capabilities of its records. -/
structure DtCmd where
  id : Nat
  idx : Nat
  instr : Instr
  ja : BitVec 32
  jb : BitVec 32
  recA : List Byte
  recB : List Byte
  cursor : Nat
  started : Bool
  desc : Bool
  phys : List Nat
  occ : Option Nat
  buf : List (Nat × Nat)
  sent : Bool
  clearing : Bool
  checked : Nat
  reqs : List Nat
  capA : Option (Quad × Bool)
  capB : Option (Quad × Bool)
  wait : Option DtWait
  bundle : BitVec 128 := 0
deriving DecidableEq, Repr

/-- A token queue (R209): its head, its occupancy, and its eight entries, each with the ck of its push. -/
structure TokenQueue where
  head : BitVec 3
  count : Nat
  slots : Vector (BitVec 12 × Nat) 8
deriving DecidableEq, Repr

def TokenQueue.none : TokenQueue := ⟨0, 0, Vector.replicate 8 (0, 0)⟩

/-- The pushes of an instruction that it has still to make (R205, R211): the index of its word, the push bits and their
count bits, the command that must finish first, whether every earlier instruction must, and the limit of its wait. -/
structure DtPush where
  idx : Nat
  tok : BitVec 4
  two : BitVec 4
  cmd : Option Nat
  all : Bool
  deadline : Option Nat
deriving DecidableEq, Repr

/-- An instruction that has issued and holds its stream: xwait, xwait.bar, or the vector item of a bundle, with the
turn of the rotating window at its issue, the index register it reads, its requests on their way, the number below
which its earlier commands lie, and the pushes of its word or bundle. got holds the granules that a vld has read so far, sent
tells that its writes are on their way, and trapped that it has trapped (R242). -/
structure DtHeld where
  idx : Nat
  instr : Instr
  rrb : BitVec 8
  jn : BitVec 32
  reqs : List Nat
  born : Nat
  tok : BitVec 4
  two : BitVec 4
  cmd : Option Nat
  all : Bool
  got : List Nat := []
  sent : Bool := false
  trapped : Bool := false
deriving DecidableEq, Repr

/-- One stream of a tile (R202). The loop records stand innermost first. The last two fields are the model's own: the
command that holds the stream, and the ck after that of the last issue. -/
structure DtStream where
  pc : Nat
  j : Vector (BitVec 32) 16
  loops : List DtLoop
  status : StreamStatus
  queue : List DtCmd
  pushes : List DtPush
  wait : Option DtWait
  held : Option DtHeld
  issuedAt : Nat
deriving DecidableEq, Repr

/-- A stream before a launch. -/
def DtStream.reset : DtStream := ⟨0, Vector.replicate 16 0, [], .halted, [], [], none, none, 0⟩

/-- The direction of an endpoint (R219). -/
inductive EpDir where
  | unbound | inbound | outbound
deriving DecidableEq, Repr

/-- A round of the audit (R422): the permits at its marker, those that have come since, and the ck of the marker. -/
structure AuditRound where
  p : Nat
  c : Nat
  sentAt : Nat
deriving DecidableEq, Repr

/-- A link endpoint (R219, R403, R425): its peer's device, tile and endpoint; the occupancy flags, the head slot and
the byte offset of an inbound one; the permits of an outbound one, whether it has had its peer's grant, and its fill
count; a pending grant with its source; the close mark; an off in progress; broken; and held, with whether its own hold
has been answered (R399). owed counts the permits of freed slots that have not been sent, audit is the round in progress, and
audited the tick at which a round last began. -/
structure Endpoint where
  dir : EpDir
  peer : Nat × Nat × Nat
  occ : BitVec 32
  head : BitVec 5
  offset : Nat
  permits : Nat
  granted : Bool
  fill : Nat
  pend : Option (Nat × Nat × Nat)
  close : Bool
  closing : Bool
  broken : Bool
  held : Bool
  heldBack : Bool
  owed : Nat
  audit : Option AuditRound
  audited : Nat
deriving DecidableEq, Repr

/-- An unbound endpoint. -/
def Endpoint.none : Endpoint where
  dir := .unbound
  peer := (0, 0, 0)
  occ := 0
  head := 0
  offset := 0
  permits := 0
  granted := false
  fill := 0
  pend := Option.none
  close := false
  closing := false
  broken := false
  held := false
  heldBack := false
  owed := 0
  audit := Option.none
  audited := 0

/-- One dense tile (R202, R207, R208, R209, R219, R243, R245, R262, R306). Each token has the ck of its push. rrbNext is
an RRB that xset has written, with the ck of the write (R269). occs counts
the xce commands by scope table and step. The tile's stores stand in memory at the addresses of R414. -/
structure Tile where
  s : DtStream
  c : DtStream
  m : DtStream
  lwd : BitVec 5
  aq : BitVec 2
  fcsr : BitVec 9
  rrb : BitVec 8
  rrbNext : Option (Nat × BitVec 8)
  preds : Vector (BitVec 16) 8
  tokens : Vector TokenQueue 6
  pendFull : BitVec 4
  eps : Vector Endpoint 8
  occs : List (Nat × Nat)
  stopped : Bool
  valid : Bool
  code : BitVec 8
  strm : BitVec 2
  aux : BitVec 16
  val0 : Word
  val1 : Word
  launch : Option Nat
  late : List (Stream × BitVec 8 × Word × BitVec 16) := []
deriving DecidableEq, Repr

/-- A tile at reset (R207, R208, R243, R245). -/
def Tile.reset : Tile where
  s := DtStream.reset
  c := DtStream.reset
  m := DtStream.reset
  lwd := 10
  aq := 1
  fcsr := 0
  rrb := 0
  rrbNext := none
  preds := Vector.replicate 8 0
  tokens := Vector.replicate 6 TokenQueue.none
  pendFull := 0
  eps := Vector.replicate 8 Endpoint.none
  occs := []
  stopped := false
  valid := false
  code := 0
  strm := 0
  aux := 0
  val0 := 0
  val1 := 0
  launch := none

/-- A flit of an endpoint pair inside the device, or one that has come from another device (R219, R309). Requests of its tile with a
number from born on have been sent after it (R25). -/
structure LinkFlit where
  tile : Nat
  ep : Nat
  src : Nat × Nat × Nat
  body : LinkBody
  born : Nat
deriving DecidableEq, Repr

/-- A block on its way through a Firn codec (R304): who asked, whether it is encoded, where it lies, and its device (none
for this one); the elements to encode, or those that it holds when done; and what stopped it. A block that has been
encoded holds the counts of its non-finite elements and of those that it flushed (R61). -/
structure FirnJob where
  id : Nat
  src : Source
  encode : Bool
  block : FirnBlock
  dev : Option Nat
  elems : List Nat
  done : Bool
  failed : Option Word
  refused : Option Word
deriving DecidableEq, Repr

/-- What a ready flit says of a step (R267, R307). -/
structure CoachTerms where
  kind : BitVec 2
  op : BitVec 2
  sty : ElTy
  dty : ElTy
  n : Nat
deriving DecidableEq, Repr

/-- A step that Coach holds (R268, R306, R307): its tile and command, the key's occurrence, its peer, whether this rank is
the lower, its terms and whether it is posted; whether it has sent its ready flit, and what the peer's said; its own
elements, once they have been read; the flits sent and those acknowledged; the elements that have come, and the
destination elements written; whether it has failed and waits for a resume; and the limit of its wait for the peer. -/
structure CoachStep where
  tile : Nat
  cmd : DtCmd
  scope : Nat
  step : Nat
  occ : Nat
  peer : Nat
  lower : Bool
  terms : CoachTerms
  chain : Bool
  ready : Bool
  got : Option CoachTerms
  own : Option (List Nat)
  sent : Nat
  acked : Nat
  recv : List Nat
  written : Nat
  failed : Bool
  deadline : Option Nat
deriving DecidableEq, Repr

/-- A posted write to the host: bytes at a host address, or an MSI-X message (R456, R457). -/
inductive Post where
  | write (addr : Nat) (bytes : List Byte)
  | msix (v : Nat) (addr : Word) (data : BitVec 32)
deriving DecidableEq, Repr

/-- Why the machine stops. No meaning of this model stops the machine: every trap, refusal and lost packet of the spec
has a next state. -/
inductive Fault where
  /-- Raised by nobody. It stands for a unit number that no unit has; it is safe. -/
  | noSuchUnit
deriving DecidableEq, Repr

/-- Why the model gives no meaning. -/
inductive Refusal where
  /-- Raised by exec for an instruction that has no meaning yet; it is safe. -/
  | notModelled (mnemonic : String)
deriving DecidableEq, Repr

/-- The state of the device. The model's own fields are seq and turn, which give the free values and the next mover, the
unit that issues (core, ctx and tile), closing, which tells that all has
happened in this ck but for the limits that pass in it (R313), setNow, the register bits that have been set in this ck (R6), by
register and bit, acted, the granules of tile stores on which an act has been performed in this ck, each with the move (R216), nextId, which numbers requests, messages and commands, and ilast, the last detection of
the integrity log with its ck (R418). remote lists the requests that other devices are to answer, each
with its device. partials are the packets of which some flits have come, with the numbers of these (R419). portTurn is the last source that each destination port has served (R296), and lost
names the requests to other devices whose packets have been dropped here (R461), and recalled those that have been called back
(R82). romEnd tells how the ROM's check of the firmware package ended: 0 for a package that it has
started, or the number of the failure (R435). debugIr is the instruction register of the debug port (R447;
assumption 168). -/
structure State where
  ck : Nat
  closing : Bool
  seq : Nat
  turn : Turn
  core : Nat
  ctx : Fin 16
  tile : Nat
  cores : List (Nat × Core)
  mem : List Host.Cell
  empty : List Nat
  tags : List Nat
  failing : List Nat
  syndromes : List (Nat × BitVec 32)
  acted : List (Nat × Nat)
  nextId : Nat
  requests : List Request
  waiters : List Request
  watchers : List Request
  replies : List Reply
  messages : List Message
  answers : List (Nat × Bool)
  beats : List Beat
  portTurn : List (Nat × Nat)
  qrows : List QueuedRow
  walks : List Walk
  walkFaults : List (Source × Nat × Option Nat)
  tileTlbs : List (Nat × List TlbEntry)
  posts : List Post
  msixMask : BitVec 68
  msixPend : BitVec 68
  msixTable : List (Nat × Word)
  barOut : List (Nat × Nat × List Byte)
  stepJobs : List StepJob
  claims : List Claim
  tiles : List (Nat × Tile)
  flits : List LinkFlit
  firn : List FirnJob
  coach : List CoachStep
  readies : List (Nat × Nat × Nat × Nat × Nat × CoachTerms)
  inbox : List Payload
  remote : List (Nat × Request)
  lost : List Nat
  recalled : List Nat
  outbox : List Packet
  seqOut : List (Nat × Nat)
  regs : List (Nat × Word)
  setNow : List (Nat × Nat)
  launches : List (Nat × Launch)
  events : List Event
  ilast : Option (Nat × Word × Nat × Option Nat)
  queues : List (Nat × LaunchQueue)
  rr : Nat
  resvs : List Reservation
  homes : List HomeLaunch
  held : List HeldLaunch
  resets : List Reset
  preempts : List Preempt
  homePreempts : List HomePreempt
  ports : List (Nat × Port)
  seqIn : List (Nat × Nat)
  early : List Packet
  partials : List (Packet × List Nat)
  merges : List Merge
  frozen : Bool
  booted : Bool
  romEnd : Option Nat
  hbmReady : Bool
  tierReady : Bool
  flash : List (Nat × Byte)
  flashJob : Option (Nat × List Byte)
  mcast : Option Multicast
  attest : Option (Nat × List Byte)
  discAt : Nat
  reported : Bool
  lsub : Option (Nat × Nat)
  hostReqs : List HostReq
  hostOut : List (Nat × List Byte × Bool)
  scanSel : BitVec 32
  memAddr : Word
  debugIr : BitVec 8
  tdo : List Byte
  boundary : List Byte
deriving DecidableEq, Repr

/-- The device right after reset and on-die initialisation, before the service core's ROM starts (R213, R241, R430):
every core, tile, store, register and link at its reset value, nothing in flight, nothing in memory but zeros. MEAS1 holds the
digest of the fuse window (R436). -/
def State.reset : State where
  ck := 0
  closing := false
  seq := 0
  turn := .tick
  core := 2047
  ctx := 0
  tile := 0
  cores := []
  mem := []
  empty := []
  tags := []
  failing := []
  syndromes := []
  acted := []
  nextId := 0
  requests := []
  waiters := []
  watchers := []
  replies := []
  messages := []
  answers := []
  beats := []
  portTurn := []
  qrows := []
  walks := []
  walkFaults := []
  tileTlbs := []
  posts := []
  msixMask := BitVec.allOnes 68
  msixPend := 0
  msixTable := []
  barOut := []
  stepJobs := []
  claims := []
  tiles := []
  flits := []
  firn := []
  coach := []
  readies := []
  inbox := []
  remote := []
  lost := []
  recalled := []
  outbox := []
  seqOut := []
  regs := [(0x1120, 0x3a618ac46ea21bea), (0x1128, 0x76c4c52436a1ab74), (0x1130, 0x58726f4843699026),
    (0x1138, 0x477a825c9239db7a)]
  setNow := []
  launches := []
  events := []
  ilast := none
  queues := []
  rr := 0
  resvs := []
  homes := []
  held := []
  resets := []
  preempts := []
  homePreempts := []
  ports := []
  seqIn := []
  early := []
  partials := []
  merges := []
  frozen := false
  booted := false
  romEnd := none
  hbmReady := false
  tierReady := false
  flash := []
  flashJob := none
  mcast := none
  attest := none
  reported := false
  lsub := none
  discAt := 0
  hostReqs := []
  hostOut := []
  scanSel := 0
  memAddr := 0
  debugIr := 1
  tdo := []
  boundary := []

end Sys2Proof.Machine
end

