-- ==== Sys2Proof/Machine/Ops.lean ====
section
/-! DEFINITION. The named operations over the state: addresses and homes, memory and its bits, the registers of the
issuing context, the end of an instruction, taking a trap and returning from one, translation, and sending a request. -/

namespace Sys2Proof.Machine

abbrev Out := Host.Outcome State Fault Refusal

/-! ## Addresses (R26 to R30, R273) -/

/-- A 48-bit address of this device: unit and offset (R26). -/
def addrOf (unit off : Nat) : Nat := unit * 2 ^ 37 + off

def unitOf (a : Nat) : Nat := a / 2 ^ 37 % 2 ^ 11
def offOf (a : Nat) : Nat := a % 2 ^ 37

/-- The physical global address that names an address of this device (R26). -/
def gaWord (a : Nat) : Word := BitVec.ofNat 64 (0xFFFF * 2 ^ 48 + a % 2 ^ 48)

/-- The unit number that CTXID gives the service core (R76). -/
def serviceCore : Nat := 2047

def shmBase : Nat := addrOf 1536 0

/-- The address of a local-store offset of a core. The service core's store has no global address; the model keeps it
at offsets of unit 2047 that are not backed. -/
def lsAddr (u off : Nat) : Nat := if u = serviceCore then addrOf 2047 (0x1000000000 + off) else addrOf u off

/-- The storage that an address lies in (R28). regs is the register block. -/
inductive Storage where
  | localStore (u : Nat)
  | channel (u : Nat)
  | shard (u : Nat)
  | tileStore (n : Nat)
  | shm
  | pool
  | regs
  | none
deriving DecidableEq, Repr

/-- The unit map of R28. -/
def storageOf (a : Nat) : Storage :=
  let u := unitOf a
  let o := offOf a
  if u < 1008 then
    if o < 0x40000 then .localStore u
    else if 0x400000000 ≤ o ∧ o < 0x440000000 then .channel u
    else if 0x800000000 ≤ o ∧ o < 0x8C0000000 then .shard u
    else .none
  else if 1024 ≤ u ∧ u < 1056 then if o < 0x400000 then .tileStore (u - 1024) else .none
  else if u = 1536 then if o < 0x8000000 then .shm else .none
  else if u = 1537 then if o < 0x1000000000 then .pool else .none
  else if u = 2047 then if o < 0x28000 then .regs else .none
  else .none

/-- The bank of an SHM word (R23); every word of a scope table has the bank of the table's first word (R360). -/
def shmBank (off : Nat) : Nat :=
  let o := if 0x7FFC000 ≤ off then off / 256 * 256 else off
  let w := o / 8
  (w % 512) ^^^ (w / 512 % 512) ^^^ (w / 2 ^ 18 % 64)

/-- The home of an address, as a number (R273): a core, a tile, a bank, a pool channel or the register block. -/
def homeOf (a : Nat) : Nat :=
  match storageOf a with
  | .shm => 4096 + shmBank (offOf a)
  | .pool => 8192 + offOf a / 2 ^ 30
  | _ => unitOf a

/-- The unit of a full/empty bit: a 16-byte granule, or an SHM word (R24, R30). -/
def bitUnit (a : Nat) : Nat :=
  match storageOf a with
  | .shm => a / 8 * 8
  | _ => a / 16 * 16

/-! ## Memory -/

/-- What a byte that nothing has written reads as: every store is cleared at reset (R213, R241, R430). -/
def emptyByte : Byte := 0

def State.readByte (s : State) (a : Nat) : Byte := lookup emptyByte s.mem a

def State.readBytes (s : State) (a : Nat) : Nat → List Byte
  | 0 => []
  | n + 1 => s.readByte a :: s.readBytes (a + 1) n

/-- Mem(addr, bytes) as a number (R11). -/
def State.readNat (s : State) (a n : Nat) : Nat := bytesToNat (s.readBytes a n)

def State.writeByte (s : State) (a : Nat) (b : Byte) : State := { s with mem := storeAt emptyByte a b s.mem }

def State.writeBytes (s : State) (a : Nat) : List Byte → State
  | [] => s
  | b :: bs => (s.writeByte a b).writeBytes (a + 1) bs

/-- The canonical form of memory: addresses strictly rising, and no byte that an unlisted address reads as. -/
def Memory.wf : List Host.Cell → Bool
  | [] => true
  | [(_, b)] => b != emptyByte
  | (a, b) :: (a', b') :: rest => b != emptyByte && decide (a < a') && Memory.wf ((a', b') :: rest)

/-- Full(g) (R11). -/
def State.isFull (s : State) (a : Nat) : Bool := !s.empty.contains (bitUnit a)

def State.setFull (s : State) (a : Nat) : State := { s with empty := setRemove (bitUnit a) s.empty }

def State.setEmpty (s : State) (a : Nat) : State := { s with empty := setInsert (bitUnit a) s.empty }

/-- The bit units that n bytes at an address meet. -/
def unitsOf (a n : Nat) : List Nat :=
  let w := match storageOf a with
    | .shm => 8
    | _ => 16
  (List.range ((a % w + n + w - 1) / w)).map fun i => a / w * w + w * i

def State.setRangeFull (s : State) (a n : Nat) : State := (unitsOf a n).foldl State.setFull s

def State.setRangeEmpty (s : State) (a n : Nat) : State := (unitsOf a n).foldl State.setEmpty s

def State.rangeFull (s : State) (a n : Nat) : Bool := (unitsOf a n).all s.isFull

/-- The first failing beat among n bytes at an address (R414, R417). -/
def State.failedBeat (s : State) (a n : Nat) : Option Nat :=
  s.failing.find? fun b => decide (b < a + n) && decide (a < b + 64)

/-- How the check value of a failing beat that lands at an address differs from the CRC of its data: a free value other than 0
(R416, assumption 141). -/
def movedSyndrome (seq a : Nat) : BitVec 32 := if Config.syndrome seq a = 0 then BitVec.allOnes 32 else Config.syndrome seq a

/-- A whole beat that is written takes the check value of what is written, bad naming the beats that fail; a beat
written in part keeps its state (R416). -/
def State.recheck (s : State) (a n : Nat) (bad : List Nat) : State :=
  let whole (b : Nat) : Bool := decide (a ≤ b) && decide (b + 64 ≤ a + n)
  { s with
    failing := bad.foldl (fun l b => setInsert b l) (s.failing.filter fun b => !whole b)
    syndromes := bad.foldl (fun l b => insertAt b (movedSyndrome s.seq b) l) (s.syndromes.filter fun x => !whole x.1) }

/-- The tag of the pair that holds an SHM address (R24, R194). -/
def State.tagAt (s : State) (a : Nat) : Bool := s.tags.contains (a / 16 * 16)

/-- A write to any of n bytes clears the tags of the pairs it meets (R194). -/
def State.clearTags (s : State) (a n : Nat) : State :=
  { s with tags := s.tags.filter fun t => !(decide (t < a + n) && decide (a < t + 16)) }

/-! ## Cores, contexts and registers -/

/-- The reset value of a core: the service core is always in supervisor mode (R74, R77). -/
def coreReset (u : Nat) : Core :=
  if u = serviceCore then
    { Core.reset with ctxs := Vector.replicate 16 { Context.reset with ppv := true, prv := true } }
  else Core.reset

def State.coreAt (s : State) (u : Nat) : Core := lookup (coreReset u) s.cores u

def State.setCore (s : State) (u : Nat) (c : Core) : State := { s with cores := insertAt u c s.cores }

def State.ctxAt (s : State) (u : Nat) (k : Fin 16) : Context := (s.coreAt u).ctxs.get k

def Core.setCtx (c : Core) (k : Fin 16) (x : Context) : Core := { c with ctxs := vset c.ctxs k x }

def State.setCtx (s : State) (u : Nat) (k : Fin 16) (x : Context) : State := s.setCore u ((s.coreAt u).setCtx k x)

/-- The context number of an event's argument. -/
def ctxIdx (k : Nat) : Fin 16 := Fin.ofNat 16 k

/-- The core, and the context, that issues. -/
def State.myCore (s : State) : Core := s.coreAt s.core
def State.me (s : State) : Context := s.ctxAt s.core s.ctx
def State.setMe (s : State) (c : Context) : State := s.setCtx s.core s.ctx c
def State.setMyCore (s : State) (c : Core) : State := s.setCore s.core c

/-- Contexts per rotation: 16, or 8 in 8-context mode (R62). -/
def Core.nctx (c : Core) : Nat := if c.m8 then 8 else 16

/-- The context that owns the slot of this ck (R62). -/
def State.slotOf (s : State) (u : Nat) : Fin 16 :=
  ctxIdx ((s.ck + (s.coreAt u).phase) % (s.coreAt u).nctx)

/-- Contexts with fixed roles (R65). -/
def Core.transformCtx (c : Core) : Fin 16 := if c.m8 then 6 else 14
def Core.messageCtx (c : Core) : Fin 16 := if c.m8 then 7 else 15

/-- A user context number (R65, R190). -/
def Core.isUser (c : Core) (k : Nat) : Bool := decide (1 ≤ k) && decide (k < c.transformCtx.val)

/-- An x register; x0 reads as zero (R69). -/
def Context.xr (c : Context) (r : Reg) : Word := if r = 0 then 0 else c.x.get ⟨r.toNat, r.isLt⟩

/-- Writes an x register and sets its presence bit; a write to x0 is discarded (R69, R70). -/
def Context.setX (c : Context) (r : Reg) (v : Word) : Context :=
  if r = 0 then c
  else { c with x := vset c.x ⟨r.toNat, r.isLt⟩ v, xp := c.xp ||| BitVec.twoPow 32 r.toNat,
                failed := c.failed.filter (·.1 != r.toNat) }

def Context.wr (c : Context) (r : Reg) : Quad := c.w.get ⟨r.toNat, r.isLt⟩

/-- Writes a w register and sets its presence bit (R70). -/
def Context.setW (c : Context) (r : Reg) (v : Quad) : Context :=
  { c with w := vset c.w ⟨r.toNat, r.isLt⟩ v, wp := c.wp ||| BitVec.twoPow 32 r.toNat,
           failed := c.failed.filter (·.1 != 32 + r.toNat) }

def Context.cap (c : Context) (r : BitVec 4) : Quad := c.c.get ⟨r.toNat, r.isLt⟩

/-- Writes a capability register with its hidden tag (R69, R195). -/
def Context.setCap (c : Context) (r : BitVec 4) (v : Quad) (tag : Bool) : Context :=
  { c with c := vset c.c ⟨r.toNat, r.isLt⟩ v,
           ctag := if tag then c.ctag ||| BitVec.twoPow 16 r.toNat else c.ctag &&& ~~~BitVec.twoPow 16 r.toNat }

/-- Clears a presence bit: 0 to 31 for x, 32 to 63 for w; that of x0 always reads 1 (R69, R70). -/
def Context.absent (c : Context) (n : Nat) : Context :=
  if n = 0 then c
  else if n < 32 then { c with xp := c.xp &&& ~~~BitVec.twoPow 32 n }
  else { c with wp := c.wp &&& ~~~BitVec.twoPow 32 (n - 32) }

/-- The presence bit of a register (R70). -/
def Context.present (c : Context) (n : Nat) : Bool :=
  n == 0 || if n < 32 then c.xp.getLsbD n else c.wp.getLsbD (n - 32)

/-- The issuing context's registers. -/
def State.rx (s : State) (r : Reg) : Word := s.me.xr r
def State.rw (s : State) (r : Reg) : Quad := s.me.wr r
def State.wx (s : State) (r : Reg) (v : Word) : State := s.setMe (s.me.setX r v)
def State.ww (s : State) (r : Reg) (v : Quad) : State := s.setMe (s.me.setW r v)

/-- ORs flags into the context's FCSR (R42, R45). -/
def Context.raise (c : Context) (f : Flags) : Context := { c with fcsr := c.fcsr ||| f.zeroExtend 9 }

/-- The dynamic rounding mode and the narrow-conversion mode (R45). -/
def Context.rm (c : Context) : BitVec 3 := c.fcsr.extractLsb' 5 3
def Context.cvm (c : Context) : Bool := c.fcsr.getLsbD 8

/-- CSTAT as a register (R77). -/
def Context.cstat (c : Context) : Word :=
  zext c.lwd <<< 8 ||| ofBool c.tact <<< 2 ||| ofBool c.ppv <<< 1 ||| ofBool c.prv

/-- TCAUSE as a register (R79). -/
def Context.tcause (c : Context) : Word := zext c.aux <<< 32 ||| zext c.code

/-- The limit of a wait that begins now: 2^(L + 6) ck, none for L = 31 (R71, R177). -/
def limitOf (ck : Nat) (l : BitVec 5) : Option Nat := if l = 31 then none else some (ck + 2 ^ (l.toNat + 6))

/-! ## Cause codes (R81) -/

def causeIllegal : BitVec 8 := 0x01
def causePrivilege : BitVec 8 := 0x02
def causeMisaligned : BitVec 8 := 0x03
def causeTranslation : BitVec 8 := 0x04
def causeProtection : BitVec 8 := 0x05
def causeRange : BitVec 8 := 0x06
def causeCapability : BitVec 8 := 0x07
def causeStall : BitVec 8 := 0x08
def causeIntegrity : BitVec 8 := 0x09
def causeThreshold : BitVec 8 := 0x0A
def causeQueue : BitVec 8 := 0x0B
def causeRegister : BitVec 8 := 0x0C
def causeBreakpoint : BitVec 8 := 0x0D
def causeService : BitVec 8 := 0x0E

/-! ## The register block, launches and the notices of the device -/

/-- The reset value of a register of the register block (R459 and the chapters it names), by its offset. -/
def regDefault (off : Nat) : Word :=
  if 0x300 ≤ off ∧ off < 0x380 ∧ off % 16 = 0 then 0xFF30
  else if (0x300 ≤ off ∧ off < 0x380 ∧ off % 16 = 8) ∨ off = 0x380 then 0x20
  else if 0x18C0 ≤ off ∧ off < 0x1940 then BitVec.allOnes 64
  else if 0x12000 ≤ off ∧ off < 0x13000 ∧ off % 128 = 0x50 then 0xFFFFFFFF
  else if 0x20000 ≤ off ∧ off < 0x28000 then BitVec.allOnes 64
  else 0

def State.reg (s : State) (off : Nat) : Word := lookup (regDefault off) s.regs off

def State.setReg (s : State) (off : Nat) (v : Word) : State := { s with regs := insertAt off v s.regs }

/-- A field of a register. -/
def State.field (s : State) (off lo n : Nat) : Nat := bitsOf (s.reg off).toNat lo n

/-- A register with one field replaced. -/
def State.setField (s : State) (off lo n v : Nat) : State :=
  let w := (s.reg off).toNat
  s.setReg off (BitVec.ofNat 64 (w - bitsOf w lo n * 2 ^ lo + v % 2 ^ n * 2 ^ lo))

/-- A bit is noted as set in this ck: no clear in the same ck takes effect (R6). -/
def State.noteSet (s : State) (off bit : Nat) : State := { s with setNow := (off, bit) :: s.setNow }

/-- Whether a bit has been set in this ck (R6). -/
def State.justSet (s : State) (off bit : Nat) : Bool := s.setNow.contains (off, bit)

/-- The setting side of a bit sets it: hardware one of class W1C, software one of class RS (R6). -/
def State.setBit (s : State) (off bit : Nat) : State := (s.setField off bit 1 1).noteSet off bit

/-- The other side clears it, unless it has been set in the same ck (R6). -/
def State.clearBit (s : State) (off bit : Nat) : State := if s.justSet off bit then s else s.setField off bit 1 0

/-- The instant of the last try of a wait (R313): twice the ck, and one more where the ck is closing. -/
def State.instant (s : State) : Nat := 2 * s.ck + if s.closing then 1 else 0

/-- This device's index (R27, R459). -/
def State.dev (s : State) : Nat := (s.reg 0).toNat % 2 ^ 16

/-- A word of a launch record (R349). -/
def Launch.word (l : Launch) (off : Nat) : Nat := (l.record.getD (off / 8) 0).toNat

def Launch.id (l : Launch) : Nat := bitsOf (l.word 0) 32 32
def Launch.irq (l : Launch) : Bool := bitOf (l.word 0) 7
def Launch.unbounded (l : Launch) : Bool := bitOf (l.word 0) 6
def Launch.img (l : Launch) : Bool := bitOf (l.word 0) 5
def Launch.txpc (l : Launch) : Nat := bitsOf (l.word 0x08) 32 18
def Launch.lcpc (l : Launch) : Nat := bitsOf (l.word 0x08) 0 18
def Launch.lcCnt (l : Launch) : Nat := bitsOf (l.word 0x10) 16 10
def Launch.lcBase (l : Launch) : Nat := bitsOf (l.word 0x10) 0 10
def Launch.dtSet (l : Launch) : Nat := bitsOf (l.word 0x18) 0 32
def Launch.box (l : Launch) : Nat := bitsOf (l.word 0x28) 0 32

/-- The address of the launch's JCB (R349, R352). -/
def Launch.jcb (l : Launch) : Nat := shmBase + 256 * bitsOf (l.word 0x48) 8 19

def Launch.hasLc (l : Launch) (u : Nat) : Bool := decide (l.lcBase ≤ u) && decide (u < l.lcBase + l.lcCnt)
def Launch.hasDt (l : Launch) (n : Nat) : Bool := bitOf l.dtSet n
def Launch.binds (l : Launch) (tid : Nat) : Bool := bitOf (l.word (0xC0 + tid / 64 * 8)) (tid % 64)

/-- The launch of a partition. -/
def State.launchOf (s : State) (p : Nat) : Option Launch := (s.launches.find? (·.1 == p)).map (·.2)

/-- The partition and the launch that hold a core. -/
def State.lcLaunch (s : State) (u : Nat) : Option (Nat × Launch) :=
  ((s.coreAt u).launch).bind fun p => (s.launchOf p).map fun l => (p, l)

/-- A save or a restore stops the units of a partition (R397, R406). -/
def State.paused (s : State) (part : Option Nat) : Bool := s.preempts.any fun j => some j.part == part

/-- Extents of a device box, in the order a, b, c, d (R349). -/
def boxExtents (box : Nat) : List Nat :=
  [bitsOf box 16 2 + 1, bitsOf box 18 2 + 1, bitsOf box 20 6 + 1, bitsOf box 26 6 + 1]

/-- The fields a, b, c, d of a device index (R27). -/
def devFields (dev : Nat) : List Nat := [bitsOf dev 14 2, bitsOf dev 12 2, bitsOf dev 6 6, bitsOf dev 0 6]

def devOfFields : List Nat → Nat
  | [a, b, c, d] => a * 2 ^ 14 + b * 2 ^ 12 + c * 2 ^ 6 + d
  | _ => 0

def boxBase (box : Nat) : Nat := box % 2 ^ 16

/-- A box of this device alone (R351). -/
def boxAlone (box : Nat) : Bool := boxBase box == 0xFFFF && boxExtents box == [1, 1, 1, 1]

/-- Number of devices of a box. -/
def boxCount (box : Nat) : Nat := (boxExtents box).foldl (· * ·) 1

/-- The rank of a device in a box (R351). -/
def boxRank (own box dev : Nat) : Option Nat :=
  if boxAlone box then if dev = own then some 0 else none
  else
    let ds := (devFields dev).zip ((devFields (boxBase box)).zip (boxExtents box))
    if ds.all fun x => decide (x.2.1 ≤ x.1) && decide (x.1 < x.2.1 + x.2.2) then
      some (ds.foldl (fun r x => r * x.2.2 + (x.1 - x.2.1)) 0)
    else none

/-- The device of a rank in a box (R351). -/
def boxDev (own box rank : Nat) : Nat :=
  if boxAlone box then own
  else
    let es := boxExtents box
    let bs := devFields (boxBase box)
    let nd := es.getD 3 1
    let nc := es.getD 2 1
    let nb := es.getD 1 1
    devOfFields [bs.getD 0 0 + rank / (nd * nc * nb), bs.getD 1 0 + rank / (nd * nc) % nb,
      bs.getD 2 0 + rank / nd % nc, bs.getD 3 0 + rank % nd]

/-- Whether the box passes the top of a field (R350, R384). -/
def boxFits (box : Nat) : Bool :=
  boxAlone box ||
    (((devFields (boxBase box)).zip (boxExtents box)).zip [4, 4, 64, 64]).all fun x => decide (x.1.1 + x.1.2 ≤ x.2)

/-- The core identifier of a context (R171). -/
def State.coreId (s : State) (u k : Nat) : Word := BitVec.ofNat 64 (s.dev * 2 ^ 48 + u * 2 ^ 37 + k)

/-- An event for the supervisor (R366): it waits for its delivery in the order in which it arose. -/
def State.event (s : State) (code : BitVec 8) (part : Option Nat) (detail : Word) : State :=
  let x10 := match part.bind fun p => (s.launchOf p).map fun l => (p, l) with
    | some (p, l) => BitVec.ofNat 64 (p * 2 ^ 48 + l.queue * 2 ^ 40 + l.id)
    | none => 0
  { s with events := s.events ++ [⟨code, x10, detail⟩] }

/-- The integrity log (R418): KIND 1 a consumer, 2 transmission, 3 host delivery, 4 a controller read. -/
def State.logWord (s : State) (beat : Word) (kind : Nat) (part : Option Nat) : State :=
  let v := (s.reg 0x288).toNat
  let s := { s with ilast := some (s.ck, beat, kind, part) }
  if bitOf v 0 then
    s.setReg 0x288 (BitVec.ofNat 64 (v % 2 ^ 32 + min (v / 2 ^ 32 + 1) (2 ^ 32 - 1) * 2 ^ 32))
  else
    ((s.setReg 0x280 beat).setReg 0x288 (BitVec.ofNat 64 (2 ^ 32 + kind * 2 ^ 8 + 1))).event 10 part beat

/-- A failing beat of this device is logged. -/
def State.logBeat (s : State) (beat kind : Nat) (part : Option Nat) : State := s.logWord (gaWord beat) kind part

/-- A read of n bytes from an address for a launch's use: a failing beat among them is logged (R417, R418). -/
def State.logConsumed (s : State) (a n : Nat) (part : Option Nat) : State :=
  match s.failedBeat a n with
  | some b => s.logBeat b 1 part
  | none => s

/-- A beat of HBM4 or of the second tier, whose controller computes its check value at each read (R415). -/
def eccBeat (beat : Nat) : Bool :=
  match storageOf beat with
  | .channel _ | .shard _ | .pool => true
  | _ => false

/-- A controller of HBM4 or of the second tier reads a failing line (R415, R418). -/
def State.controllerRead (s : State) (beat : Nat) : State := if eccBeat beat then s.logBeat beat 4 none else s

/-- Whether the memory at an address has been initialised (R430). -/
def State.ready (s : State) (a : Nat) : Bool :=
  match storageOf a with
  | .channel _ => s.hbmReady
  | .shard _ => s.tierReady
  | .pool => if offOf a < 2 ^ 34 then s.hbmReady else s.tierReady
  | _ => true

/-! ## Answers, and the writes that waiting watchers see -/

/-- An answer of a home: to a unit of this device, or on to another device (R277, R460). Failing beats that leave the
device are logged (R417); so is a row that could not be folded, for which the home's own unit reads (R156). -/
def State.answer (s : State) (r : Reply) : State :=
  match r.req.src, r.req.act with
  | .remote dev _ id, .row .. | .remote dev _ id, .copy _ =>
    let sent := r.bad.foldl (fun st b => st.logBeat (r.req.addr / 64 * 64 + 64 * b) 2 none) s
    let s1 := match r.failed with
      | some b => s.logWord b 1 none
      | none => sent
    { s1 with outbox := s1.outbox ++ [⟨dev, s.dev, none, none, .rowAnswer id r.bytes r.bad r.failed.isSome, none⟩] }
  | .remote dev _ id, _ =>
    let s := match r.failed, r.req.act with
      | some b, .accumulate .. | some b, .overwrite .. => s.logWord b 1 none
      | some b, _ => s.logWord b 2 none
      | none, _ => s
    let own (w : Word) : Word := if w.toNat / 2 ^ 48 = 0xFFFF then BitVec.ofNat 64 (s.dev * 2 ^ 48 + w.toNat % 2 ^ 48) else w
    let how := match r.failed, r.trap with
      | some b, _ => AnswerEnd.failed (own b)
      | none, some t => .trap t.1 (own t.2.1) t.2.2
      | none, none => .ok
    { s with outbox := s.outbox ++ [⟨dev, s.dev, none, none, .answer id r.value how, none⟩] }
  | _, _ => { s with replies := s.replies ++ [r] }

/-- A reply that carries nothing. -/
def Request.ack (r : Request) : Reply := ⟨r, 0, false, 0, [], [], none, none⟩

/-- The condition of a waitv on a z-byte value (R180). -/
def waitHolds (c : WaitCond) (z : Nat) (b v : Word) : Bool :=
  match c with
  | .eq => extend z false v.toNat == extend z false b.toNat
  | .ne => extend z false v.toNat != extend z false b.toNat
  | .lt => (extend z true v.toNat).slt (extend z true b.toNat)
  | .ge => !(extend z true v.toNat).slt (extend z true b.toNat)
  | .ltn => (extend z false v.toNat).ult (extend z false b.toNat)
  | .gen => !(extend z false v.toNat).ult (extend z false b.toNat)
  | .anyBit => extend z false (v &&& b).toNat != 0
  | .noBit => extend z false (v &&& b).toNat == 0

/-- A stage barrier with its mark and its error bit set (R298, R300). -/
def barrierError (w : Nat) : Bool := bitOf w 63 && bitOf w 62

/-- What a bank answers to a waitv or to an xwait.bar for the value the word holds now: nothing, the value, or a trap
(R180, R300). -/
def State.watchResult (s : State) (r : Request) : Option Reply :=
  let word := r.addr / 8 * 8
  match r.act with
  | .watch cond z b =>
    let v := BitVec.ofNat 64 (s.readNat r.addr z)
    match s.failedBeat r.addr z with
    | some beat => some { r.ack with failed := some (gaWord beat) }
    | none =>
      if barrierError (s.readNat word 8) then some { r.ack with trap := some (causeIntegrity, gaWord word, 0) }
      else if waitHolds cond z b v then some { r.ack with value := v.zeroExtend 128 }
      else none
  | .barrier target =>
    match s.failedBeat r.addr 8 with
    | some beat => some { r.ack with failed := some (gaWord beat) }
    | none =>
      if bitOf (s.readNat word 8) 63 then some { r.ack with trap := some (causeIntegrity, gaWord word, 0) }
      else if target.toNat ≤ s.readNat word 8 % 2 ^ 32 then some r.ack
      else none
  | _ => none

/-- Tests the watchers of the words that n bytes at an address meet, in the order of their registration. -/
def State.testWatchers (s : State) (a n : Nat) : State :=
  s.watchers.foldl (fun st r =>
    if r.addr / 8 * 8 < a + n ∧ a < r.addr / 8 * 8 + 8 then
      match st.watchResult r with
      | some reply => { st with watchers := st.watchers.filter (·.id != r.id) }.answer reply
      | none => st
    else st) s

/-- What follows a write to n bytes: tags of SHM pairs are cleared, and watchers of SHM words are tested (R180, R194). -/
def State.wrote (s : State) (a n : Nat) : State :=
  match storageOf a with
  | .shm => (s.clearTags a n).testWatchers a n
  | _ => s

/-- A write of bytes at their home; bad names the beats whose check value fails. -/
def State.putBytes (s : State) (a : Nat) (bytes : List Byte) (bad : List Nat := []) : State :=
  ((s.writeBytes a bytes).recheck a bytes.length bad).wrote a bytes.length

/-- Mem(addr, z) := v. -/
def State.putNat (s : State) (a z v : Nat) : State := s.putBytes a (natToBytes z v)

/-- STATUS of a launch's JCB: LAUNCHID and STATE (R352). -/
def State.putStatus (s : State) (l : Launch) (state : Nat) : State := s.putNat l.jcb 8 (l.id * 2 ^ 32 + state)

/-- A unit of a launch stopped: STATE 4, where it does not stand already, and STOP0, once, and the event (R352, R365). -/
def State.recordStop (s : State) (part : Option Nat) (kind unit code sub : Nat) (event : BitVec 8) (detail : Word) :
    State :=
  let s' := match part.bind s.launchOf with
    | some l =>
      let s1 := if s.readNat l.jcb 8 = l.id * 2 ^ 32 + 4 then s else s.putStatus l 4
      if s1.readNat (l.jcb + 0x28) 8 = 0 then
        s1.putNat (l.jcb + 0x28) 8 (kind * 2 ^ 56 + unit * 2 ^ 37 + code * 2 ^ 16 + sub)
      else s1
    | none => s
  s'.event event part detail

/-- A recorded error of a launch: ERRN, ERR0 where it is the first, and event 3 (R148, R191, R352, R366). -/
def State.recordError (s : State) (part : Option Nat) (kind lc ctx : Nat) : State :=
  match part.bind s.launchOf with
  | some l =>
    let s1 := s.putNat (l.jcb + 0x18) 8 (s.readNat (l.jcb + 0x18) 8 + 1)
    if s1.readNat (l.jcb + 0x20) 8 = 0 then
      (s1.putNat (l.jcb + 0x20) 8 (kind * 2 ^ 56 + lc * 2 ^ 37 + ctx)).event 3 part (gaWord l.jcb)
    else s1
  | none => s

/-! ## Instructions as words -/

/-- Length of a lookup-core word in bytes (R85): bit 0 is clear in a compact word. -/
def wordLen (w : Word) : Nat := if w.getLsbD 0 then 4 else 2

/-- The word of an instruction, zero-extended, as trap values hold it (R81, R95). -/
def instrWord (i : Instr) : Word :=
  match encode i with
  | .lc32 w => zext w
  | .lc16 w => zext w
  | .sWord w => w
  | .cWord w => w
  | _ => 0

/-! ## The end of an instruction: the next PC and the loop-end test (R118, R123, R124) -/

/-- How an instruction leaves: on to the next, by a transfer (a call keeps every loop level), or past a loop body of
no iterations. -/
inductive Flow where
  | next
  | jump (t : BitVec 18) (call : Bool)
  | skip (t : BitVec 18)
deriving DecidableEq, Repr

/-- END as a number: the 18-bit field holds 2^18 as 0. -/
def LoopRec.lastNat (r : LoopRec) : Nat := if r.last = 0 then 2 ^ 18 else r.last.toNat

/-- Whether an address lies in the body. -/
def LoopRec.holds (r : LoopRec) (a : Nat) : Bool := decide (r.start.toNat ≤ a) && decide (a < r.lastNat)

/-- The two levels of the bank in use (R121). -/
def Context.level (c : Context) (outer : Bool) : Fin 4 :=
  match c.tact, outer with
  | false, true => 0
  | false, false => 1
  | true, true => 2
  | true, false => 3

/-- A level is active when V = 1 and T = CSTAT.TACT (R122). -/
def Context.activeAt (c : Context) (outer : Bool) : Bool :=
  (c.loops.get (c.level outer)).v && ((c.loops.get (c.level outer)).t == c.tact)

/-- One pass of a level ends: the next PC and the record (R123). -/
def Context.endPass (c : Context) (outer : Bool) : Context :=
  let l := c.level outer
  let r := c.loops.get l
  if r.count - 1 = 0 then { c with loops := vset c.loops l { r with count := 0, v := false }, pc := r.last }
  else { c with loops := vset c.loops l { r with count := r.count - 1 }, pc := r.start }

/-- The loop-end test of an instruction that transferred no control (R123). -/
def Context.loopTest (c : Context) (a len : Nat) : Context :=
  let seq := { c with pc := BitVec.ofNat 18 (a + len) }
  if c.activeAt false then
    let r := c.loops.get (c.level false)
    if r.holds a && a + len == r.lastNat then
      let c' := c.endPass false
      if (c'.loops.get (c.level false)).v then c'
      else if c'.activeAt true && (c'.loops.get (c.level true)).lastNat == r.lastNat then c'.endPass true
      else c'
    else seq
  else if c.activeAt true then
    let r := c.loops.get (c.level true)
    if r.holds a && a + len == r.lastNat then c.endPass true else seq
  else seq

/-- A transfer out of an active level ends it (R124). -/
def Context.leaveLevel (c : Context) (outer : Bool) (a t : Nat) : Context :=
  let l := c.level outer
  let r := c.loops.get l
  if c.activeAt outer && r.holds a && !r.holds t then { c with loops := vset c.loops l { r with v := false } } else c

/-- Whether the word at the PC straddles the END of the innermost active level (R123). -/
def Context.straddles (c : Context) (len : Nat) : Bool :=
  let a := c.pc.toNat
  if c.activeAt false then
    (c.loops.get (c.level false)).holds a && decide ((c.loops.get (c.level false)).lastNat < a + len)
  else c.activeAt true &&
    ((c.loops.get (c.level true)).holds a && decide ((c.loops.get (c.level true)).lastNat < a + len))

/-- The context after an instruction of a length that does not straddle (R118, R123, R124). -/
def Context.advance (c : Context) (len : Nat) (f : Flow) : Context :=
  let c := { c with since := none, parkRec := 0, window := c.window.filter fun b => !decide ((b.1 + 2 ^ 18 - c.pc.toNat) % 2 ^ 18 < len) }
  match f with
  | .next => c.loopTest c.pc.toNat len
  | .jump t true => { c with pc := t, window := [] }
  | .jump t false =>
    { (c.leaveLevel false c.pc.toNat t.toNat).leaveLevel true c.pc.toNat t.toNat with pc := t, window := [] }
  | .skip t => { c with pc := t, window := [] }

/-! ## Traps (R80, R81) -/

/-- A trap: its cause, its value and its detail (R79, R81). -/
structure TrapInfo where
  code : BitVec 8
  value : Word
  aux : BitVec 16
deriving DecidableEq, Repr

/-- Trap entry of a context (R80). A second trap stops the context: its PC stays, and the stop record is written. -/
def Context.enterTrap (c : Context) (t : TrapInfo) (tepc : BitVec 18) (ck : Nat) : Context :=
  if c.tact then
    { c with state := .stopped, stop := (t.code, t.value), park := .none, parkRec := 0, deadline := none, since := none }
  else
    { c with state := .run, park := .none, parkRec := 0, deadline := none, since := none, readyAt := ck + 1, window := [],
             tepc := tepc, aux := t.aux, code := t.code, tval := t.value,
             ppv := c.prv, prv := true, tact := true, pc := c.tvec }

/-- Return from a trap (R198): the records of the trap bank become invalid, the PC and the mode are restored. -/
def Context.leaveTrap (c : Context) : Context :=
  { c with loops := c.loops.map fun r => if r.t then { r with v := false } else r,
           pc := c.tepc, prv := c.ppv, tact := false, window := [] }

/-- What the device does when a trap stops a context (R64, R80, R365). -/
def State.noteStop (s : State) (u : Nat) (k : Fin 16) (code : BitVec 8) : State :=
  if (s.ctxAt u k).state = .stopped then
    s.recordStop (s.coreAt u).launch 1 u code.toNat k.val 1 (s.coreId u k.val)
  else s

/-- A trap of context k of core u. -/
def State.trapAt (s : State) (u : Nat) (k : Fin 16) (t : TrapInfo) (tepc : BitVec 18) : State :=
  (s.setCtx u k ((s.ctxAt u k).enterTrap t tepc s.ck)).noteStop u k t.code

/-- A trap of the issuing context whose TEPC is the trapping instruction (R81). -/
def State.trap (s : State) (code : BitVec 8) (value : Word) (aux : BitVec 16 := 0) : State :=
  s.trapAt s.core s.ctx ⟨code, value, aux⟩ s.me.pc

/-- The instruction w of context k of core u is complete: the next PC, or ILLEGAL where it straddles a loop end. -/
def State.leaveAt (s : State) (u : Nat) (k : Fin 16) (w : Word) (f : Flow) : State :=
  let c := s.ctxAt u k
  if c.straddles (wordLen w) then s.trapAt u k ⟨causeIllegal, w, 0⟩ c.pc
  else s.setCtx u k (c.advance (wordLen w) f)

/-- The instruction of the issuing context is complete. -/
def State.leave (s : State) (i : Instr) (f : Flow) : State := s.leaveAt s.core s.ctx (instrWord i) f

/-- The instruction is complete and the next one follows. -/
def State.done (s : State) (i : Instr) : State := s.leave i .next

/-- A trap whose TEPC is the next instruction, after the loop-end test (R123, R198). -/
def State.trapAfter (s : State) (i : Instr) (code : BitVec 8) (value : Word) (aux : BitVec 16 := 0) : State :=
  if s.me.straddles (wordLen (instrWord i)) then s.trap causeIllegal (instrWord i)
  else
    let c := s.me.advance (wordLen (instrWord i)) .next
    (s.setMe ({ c with pc := s.me.pc }.enterTrap ⟨code, value, aux⟩ c.pc s.ck)).noteStop s.core s.ctx code

/-- ILLEGAL with the word (R95, R170). -/
def State.illegal (s : State) (i : Instr) : State := s.trap causeIllegal (instrWord i)

/-! ## Parking -/

/-- A park record (R390). -/
def parkRecord (kind : Nat) (l : BitVec 5) (g : Bool) (detail : Nat) : Word :=
  BitVec.ofNat 64 (kind * 2 ^ 60 + l.toNat * 2 ^ 55 + (if g then 2 ^ 48 else 0) + detail % 2 ^ 48)

/-- Parks the issuing context on an instruction, with or without a limit (R63, R71, R390). -/
def State.park (s : State) (i : Instr) (p : Park) (deadline : Option Nat := none) (record : Word := 0) : State :=
  s.setMe { s.me with state := .parked, park := p, parkRec := record, parkedAt := s.ck, deadline := deadline,
                      ir := instrWord i }

/-- Puts a parked context on another wait of the same instruction. -/
def Context.repark (c : Context) (p : Park) : Context := { c with park := p }

/-- A context goes on: it may issue from the next ck (R64). -/
def Context.resume (c : Context) (ck : Nat) : Context :=
  { c with state := .run, park := .none, parkRec := 0, deadline := none, readyAt := ck + 1 }

/-- Context k of core u, which was parked, goes on to issue its instruction. -/
def State.resumeAt (s : State) (u : Nat) (k : Fin 16) : State := s.setCtx u k ((s.ctxAt u k).resume s.ck)

/-- Context k of core u, which was parked, has completed its instruction. -/
def State.finishAt (s : State) (u : Nat) (k : Fin 16) (f : Flow := .next) : State :=
  let w := (s.ctxAt u k).ir
  (s.resumeAt u k).leaveAt u k w f

/-! ## Issue (R63, R69, R70, R71, R74) -/

/-- A register an instruction names. -/
inductive RegUse where
  | x (r : Reg)
  | w (r : Reg)
deriving DecidableEq, Repr

/-- Its number in presence words and trap values (R71). -/
def RegUse.num : RegUse → Nat
  | .x r => r.toNat
  | .w r => 32 + r.toNat

/-- Whether it exists in the mode (R69). -/
def RegUse.exists (m8 : Bool) : RegUse → Bool
  | .x _ => true
  | .w r => m8 || decide (r.toNat < 16)

/-- The failed result with the lowest register number among those named: its cause and its value (R71). -/
def firstFailed (c : Context) (uses : List RegUse) : Option (BitVec 8 × Word) :=
  ((List.range 64).find? fun n => uses.any (·.num == n) && c.failed.any (·.1 == n)).bind fun n =>
    (c.failed.find? (·.1 == n)).map (·.2)

/-- What every lookup-core instruction checks before its effect: its registers exist (ILLEGAL), none holds a failed
relaxed result (INTEGRITY), and each is present (else the context parks). -/
def lcIssue (i : Instr) (uses : List RegUse) (f : State → State) (s : State) : State :=
  if uses.any fun r => !r.exists s.myCore.m8 then s.illegal i
  else match firstFailed s.me uses with
    | some (code, value) => s.trap code value
    | none =>
      if uses.all fun r => s.me.present r.num then f s
      else
        let absent := (List.range 64).find? fun n => uses.any (·.num == n) && !s.me.present n
        s.park i (.presence (uses.map RegUse.num)) (limitOf s.ck s.me.lwd) (parkRecord 1 s.me.lwd false (absent.getD 0))

/-- The check of a supervisor instruction (R74). -/
def supervisor (i : Instr) (f : State → State) (s : State) : State :=
  if s.me.prv then f s else s.trap causePrivilege (instrWord i)

/-- An instruction that reads registers and writes one x register. -/
def writeX (i : Instr) (d : Reg) (srcs : List Reg) (f : State → Word) (s : State) : Out :=
  .next (lcIssue i ((d :: srcs).map .x) (fun s => (s.wx d (f s)).done i) s)

end Sys2Proof.Machine
end

