-- ==== Sys2Proof/Machine/Stop.lean ====
section
/-! DEFINITION. How a tile stops: its streams, the trap record (R208, R240), a step of Coach that fails (R268), and a request of a
tile whose home says that it traps (R302, R313). -/

namespace Sys2Proof.Machine

/-- A queue identifier (R172). -/
def queueId (dev unit code : Nat) : Word := BitVec.ofNat 64 (dev * 2 ^ 48 + unit * 2 ^ 37 + code)

/-! ## Tiles and streams -/

def State.tileAt (s : State) (n : Nat) : Tile := lookup Tile.reset s.tiles n

def State.setTile (s : State) (n : Nat) (t : Tile) : State := { s with tiles := insertAt n t s.tiles }

def Tile.get (t : Tile) : Stream → DtStream
  | .s => t.s
  | .c => t.c
  | .m => t.m

def Tile.put (t : Tile) (st : Stream) (x : DtStream) : Tile :=
  match st with
  | .s => { t with s := x }
  | .c => { t with c := x }
  | .m => { t with m := x }

def State.strm (s : State) (n : Nat) (st : Stream) : DtStream := (s.tileAt n).get st

def State.setStrm (s : State) (n : Nat) (st : Stream) (x : DtStream) : State := s.setTile n ((s.tileAt n).put st x)

/-- STRM of a trap record, and the stream in a producer code (R208, R314). -/
def streamCode : Stream → Nat
  | .s => 0 | .c => 1 | .m => 2

/-- Register k of the block of tile n (R452). -/
def tReg (n k : Nat) : Nat := 0x12000 + 128 * n + 8 * k

/-! ## Walks, and requesters that are gone (R376, R377) -/

/-- Starts the walks that have a place: a walker runs 16, and a waiting walk for the same page joins (R377). The tags are the
multiples of 4, so that the level of a response can stand in the two bits below them (R379; assumption 135). -/
def startWalks (assisted : Bool) : Nat → Nat → List Walk → List Walk
  | 0, _, l => l
  | fuel + 1, cluster, l =>
    if 16 ≤ (l.filter fun w => w.cluster == cluster && w.started).length then l
    else match l.find? fun w => w.cluster == cluster && !w.started with
      | none => l
      | some w =>
        let same (x : Walk) : Bool := x.cluster == cluster && !x.started && x.root == w.root && x.vpn == w.vpn
        let who := (l.filter same).flatMap Walk.who
        let used := (l.filter fun x => x.cluster == cluster && x.started).map Walk.tag
        let tag := (((List.range 16).map (4 * ·)).find? fun t => !used.contains t).getD 0
        let l' := (l.filter fun x => !(same x && x.id != w.id)).map fun x =>
          if x.id = w.id then { x with started := true, assisted := assisted, tag := tag, who := who } else x
        startWalks assisted fuel cluster l'

/-- Requesters that are gone wait for no walk any more, and find no end of one (R376, R377). DESIGN CHOICE, unsafe (assumption 161): a
walk that nobody waits for any more is dropped, and its tag is free for another, also where the host has been asked already. The
places that become free go to the misses that wait for them. -/
def State.forgetWalks (s : State) (gone : Source → Bool) : State :=
  let rest := (s.walks.map fun (w : Walk) => { w with who := w.who.filter fun x => !gone x }).filter fun w => !w.who.isEmpty
  { s with
    walks := (rest.map Walk.cluster).foldl (fun l c => startWalks ((s.reg 0x20).getLsbD 0) rest.length c l) rest
    walkFaults := s.walkFaults.filter fun f => !gone f.1 }

/-! ## Traps (R208, R240) -/

/-- A tile trap: cause, values and detail. -/
structure DtTrap where
  code : BitVec 8
  val0 : Word
  val1 : Word := 0
  aux : BitVec 16 := 0
deriving DecidableEq, Repr

/-- A stream that a trap stops. Commands that are not in a write phase drop what they have read. -/
def DtStream.stop (x : DtStream) : DtStream :=
  { x with status := if x.status = .halted ∨ x.status = .halting then x.status else .stopped, wait := none,
           queue := x.queue.map fun (c : DtCmd) => if c.sent then { c with wait := none } else { c with buf := [], checked := 0, reqs := [], wait := none },
           held := x.held.map fun (h : DtHeld) => if h.sent then h else { h with reqs := [], got := [] },
           pushes := x.pushes.map fun (p : DtPush) => { p with deadline := none } }

/-- A trap in a stream of a tile: all three streams stop, and the record is written (R208, R240, R365). A crossing in a stopped tile,
by a unit that was in its write phase, is reported when the tile goes on (R50; assumption 144). -/
def State.tileTrap (s : State) (n : Nat) (st : Stream) (t : DtTrap) : State :=
  let x := s.tileAt n
  if x.stopped then
    (if t.code = causeThreshold then s.setTile n { x with late := x.late ++ [(st, t.code, t.val0, t.aux)] } else s)
  else
    let coachs (r : Request) : Bool := s.coach.any fun (c : CoachStep) => c.cmd.reqs.contains r.id
    let withdrawn (r : Request) : Bool := match r.src, r.act with
      | .tile m _, .await _ _ | .tile m _, .barrier _ => m == n && !coachs r
      | _, _ => false
    let mine (x : Source) : Bool := match x with
      | .tile m _ => m == n
      | _ => false
    let s0 := { s.forgetWalks mine with
      requests := s.requests.filter fun r => !withdrawn r
      waiters := s.waiters.filter fun r => !withdrawn r
      watchers := s.watchers.filter fun r => !withdrawn r
      remote := s.remote.filter fun r => !withdrawn r.2 }
    let s1 := s0.setTile n { x with
      stopped := true, valid := true, code := t.code, strm := BitVec.ofNat 2 (streamCode st), aux := t.aux, val0 := t.val0,
      val1 := t.val1, s := x.s.stop, c := x.c.stop, m := x.m.stop }
    (s1.noteSet (tReg n 1) 8).recordStop x.launch 2 (1024 + n) t.code.toNat (streamCode st) 2 (queueId s.dev (1024 + n) 0)

/-! ## Steps of Coach, and requests of a tile -/

/-- Replaces a step. -/
def State.setStep (s : State) (x : CoachStep) : State :=
  { s with coach := s.coach.map fun y => if y.cmd.id = x.cmd.id ∧ y.tile = x.tile then x else y }

/-- A step as it is before its rendezvous (R268, R398). -/
def CoachStep.fresh (x : CoachStep) : CoachStep :=
  { x with ready := false, got := none, own := none, sent := 0, acked := 0, recv := [], written := 0, deadline := none,
           cmd := { x.cmd with buf := [], sent := false, clearing := false, checked := 0, reqs := [], wait := none } }

/-- A step fails: it keeps cursor 0, and its tile stops (R268). -/
def State.coachFail (s : State) (x : CoachStep) (t : DtTrap) : State :=
  (s.setStep { x.fresh with failed := true }).tileTrap x.tile .s t

/-- A request of a tile that ends in a trap at its home: the tile, or the step of Coach that has made it, takes the trap in that
same instant (R302, R313). -/
def State.trapRequest (s : State) (n : Nat) (st : Stream) (id : Nat) (t : DtTrap) : State :=
  match s.coach.find? fun (x : CoachStep) => x.cmd.reqs.contains id with
  | some x => s.coachFail x t
  | none =>
    let x := s.strm n st
    if (x.queue.any fun (c : DtCmd) => c.reqs.contains id) || (x.held.map fun (h : DtHeld) => h.reqs.contains id) == some true then
      s.tileTrap n st t
    else s

end Sys2Proof.Machine
end

