-- ==== Sys2Proof/Machine/Table.lean ====
section
/-! DEFINITION. Embedding tables: the descriptor and its checks (R139, R383, R384), the home of a row (R385), the
shadow rows and the fold (R155, R156, R386), and the acts of a home on a row (R150, R153, R154). -/

namespace Sys2Proof.Machine

/-- The address of a table descriptor (R383). -/
def tdAddr (tid : Nat) : Nat := shmBase + 0x7FF4000 + 128 * tid

/-- Devices of a table's box times homes per device (R385). -/
def Table.homes (t : Table) : Nat := boxCount t.box * t.lcCnt

/-- Rows per home at most (R384). -/
def Table.rowsPerHome (t : Table) : Nat := (t.rows + t.homes - 1) / t.homes

/-- Elements of a row (R139). -/
def Table.elems (t : Table) : Nat := 8 * t.rb / t.fmt.width

/-- Bytes of a shadow row (R386). -/
def Table.shadowSize (t : Table) : Nat := 16 * (t.elems + 1)

/-- The conditions of a valid descriptor that follow from its fields (R384). -/
def Table.valid (t : Table) (own : Nat) : Bool :=
  let room := if t.hk then 3 * 2 ^ 30 else 2 ^ 30
  let rowEnd := t.rowOff + t.rowsPerHome * t.rb
  let shEnd := t.shOff + t.shadowSize * t.rowsPerHome
  decide (1 ≤ t.rows) && decide (t.rows ≤ 2 ^ 48) && decide (t.pol < 3) && decide (t.shf < 3) &&
    decide (1 ≤ t.lcCnt) && decide (t.lcBase + t.lcCnt ≤ 1008) && boxFits t.box && (boxRank own t.box own).isSome &&
    decide (t.fb ≤ 95) && !(t.exact && t.fmt == .n8) && t.rowOff % 64 == 0 && decide (rowEnd ≤ room) &&
    (!t.exact || (t.shOff % 16 == 0 && decide (shEnd ≤ 3 * 2 ^ 30) &&
      (!t.hk || decide (rowEnd ≤ t.shOff) || decide (shEnd ≤ t.rowOff))))

/-- The row formats (R139). -/
def rowFormat (code : Nat) : Option ElTy :=
  match code with
  | 4 => some .n8 | 8 => some .bf16 | 9 => some .fp16 | 10 => some .fp32 | 11 => some .e4m3 | 12 => some .e5m2
  | _ => none

/-- The descriptor of a table, if it is valid (R383, R384). DESIGN CHOICE, unsafe (assumption 159): the bits above the fields of the
words at 0x20, 0x28 and 0x30 count as reserved. Where a command's acceptance has not read the words one by one, all are read in one
act (assumption 164). -/
def State.readTable (s : State) (tid : Nat) : Option Table :=
  let a := tdAddr tid
  let w0 := s.readNat a 8
  let w1 := s.readNat (a + 8) 8
  let w2 := s.readNat (a + 0x10) 8
  let w3 := s.readNat (a + 0x18) 8
  let w4 := s.readNat (a + 0x20) 8
  let w5 := s.readNat (a + 0x28) 8
  let w6 := s.readNat (a + 0x30) 8
  let reserved := w0 / 2 ^ 49 + bitsOf w1 47 16 + bitsOf w1 33 7 + bitsOf w1 20 4 + bitsOf w1 17 1 +
    bitsOf w1 14 2 + bitsOf w1 4 4 + bitsOf w3 42 22 + bitsOf w3 26 6 + bitsOf w3 5 11 + bitsOf w3 2 2 +
    w4 / 2 ^ 32 + w5 / 2 ^ 37 + w6 / 2 ^ 37 + s.readNat (a + 0x38) 8 + s.readNat (a + 0x40) 8 + s.readNat (a + 0x48) 8 +
    s.readNat (a + 0x50) 8 + s.readNat (a + 0x58) 8
  match rowFormat (bitsOf w1 0 4) with
  | none => none
  | some fmt =>
    let t : Table :=
      { rows := bitsOf w0 0 49, rb := 64 * (bitsOf w1 8 6 + 1), fmt := fmt, zero := bitOf w1 16, pol := bitsOf w1 18 2,
        bk := bitsOf w1 24 8, exact := bitOf w1 32, fb := bitsOf w1 40 7, shf := bitsOf w3 0 2, hk := bitOf w3 4,
        lcBase := bitsOf w3 16 10, lcCnt := bitsOf w3 32 10, box := bitsOf w4 0 32, rowOff := bitsOf w5 0 37,
        shOff := bitsOf w6 0 37 }
    if bitOf w1 63 && reserved == 0 && w2 != 2 ^ 64 - 1 && t.valid s.dev then some t else none

/-- The first failing beat of a descriptor (R417). -/
def State.descriptorFails (s : State) (tid : Nat) : Option Nat := s.failedBeat (tdAddr tid) 128

/-- The home number and the local row of an identifier (R385). -/
def Table.shard (t : Table) (id : Nat) : Nat × Nat :=
  let h := t.homes
  match t.shf with
  | 0 => (id % h, id / h)
  | 1 =>
    let b := t.rowsPerHome
    (id / b, id % b)
  | _ =>
    let q := id / h
    ((id % h + q * 0x9E3779B97F4A7C15 % 2 ^ 64 / 2 ^ 32) % h, q)

/-- The device, the unit and the local row of an identifier (R385). -/
def Table.home (t : Table) (own id : Nat) : Nat × Nat × Nat :=
  let x := t.shard id
  (boxDev own t.box (x.1 / t.lcCnt), t.lcBase + x.1 % t.lcCnt, x.2)

/-- The address of a local row at a unit (R385). -/
def Table.rowAddr (t : Table) (u l : Nat) : Nat :=
  addrOf u ((if t.hk then 0x800000000 else 0x400000000) + t.rowOff + l * t.rb)

/-- The address of its shadow row (R386). -/
def Table.shadowAddr (t : Table) (u l : Nat) : Nat := addrOf u (0x800000000 + t.shOff + t.shadowSize * l)

/-- The step a core has taken for a table: S_L and S_h (R292). -/
def Core.stepOf (c : Core) (tid : Nat) : Word := lookup 0 c.steps tid

/-- The codes of the elements in the bytes of a row. -/
def rowCodes (fmt : ElTy) (bytes : List Byte) : List Nat :=
  lanes fmt.width (8 * bytes.length / fmt.width) (bytesToNat bytes)

/-- The bytes of a row of element codes. -/
def rowBytes (fmt : ElTy) (codes : List Nat) (n : Nat) : List Byte := natToBytes n (joinLanes fmt.width codes)

/-- One element folded: the shadow cell's sum is added with one rounding, or NaN where N is set (R156). -/
def foldElem (t : Table) (r cell : Nat) : Nat :=
  if bitOf cell 96 then t.fmt.nanBits
  else
    let v := bitsOf cell 0 96
    let i : Int := if 2 ^ 95 ≤ v then (v : Int) - 2 ^ 96 else v
    (addFp t.fmt .rne (decodeFp t.fmt r) (.fin (i < 0) i.natAbs (-(t.fb : Int)))).1

/-- The fold of a row at its home before it is served; a beat of the row or of its cells that fails is answered
(R156, R417). -/
def State.foldRow (s : State) (u tid : Nat) (t : Table) (l : Nat) : Except Nat State :=
  if !t.exact then .ok s
  else
    let sh := t.shadowAddr u l
    let ra := t.rowAddr u l
    let tag := s.readNat sh 8
    if tag = 2 ^ 64 - 1 ∨ ¬ tag < ((s.coreAt u).stepOf tid).toNat then .ok s
    else match s.failedBeat ra t.rb, s.failedBeat sh t.shadowSize with
    | some b, _ | none, some b => .error b
    | none, none =>
      let cells := lanes 128 t.elems (bytesToNat (s.readBytes (sh + 16) (16 * t.elems)))
      let codes := (rowCodes t.fmt (s.readBytes ra t.rb)).zipWith (foldElem t) cells
      .ok (((s.putBytes ra (rowBytes t.fmt codes t.rb)).putNat (sh + 16) (16 * t.elems) 0).putNat sh 8 (2 ^ 64 - 1))

/-- The failing beats of a row, by their numbers within it. -/
def State.badBeats (s : State) (a n : Nat) : List Nat :=
  (List.range (n / 64)).filter fun i => s.failing.contains (a + 64 * i)

/-- One element of a FLOAT table with a source element added (R153). -/
def addElem (fmt : ElTy) (r g : Nat) : Nat := (addFp fmt .rne (decodeFp fmt r) (decodeFp .fp32 g)).1

/-- One shadow cell with a contribution: V modulo 2^96, N an OR (R153, R155). -/
def addCell (cell g : Nat) : Nat :=
  (bitsOf cell 0 96 + bitsOf g 0 96) % 2 ^ 96 + (if bitOf cell 96 || bitOf g 96 then 2 ^ 96 else 0)

/-- An accumulate into a FLOAT table at the home, as one act (R153, R273), or the beat of the row that fails. -/
def State.accumulateRow (s : State) (u _tid : Nat) (t : Table) (l : Nat) (elems : List Nat) : Except Nat State :=
  let ra := t.rowAddr u l
  match s.failedBeat ra t.rb with
  | some b => .error b
  | none => .ok (s.putBytes ra (rowBytes t.fmt ((rowCodes t.fmt (s.readBytes ra t.rb)).zipWith (addElem t.fmt) elems) t.rb))

/-- A contribution to shadow cell i of a row of an EXACT table, as one act: the row is folded first where its tag is below S_h,
and then carries S_h (R153, R156, R273, R292). Every cell is checked before the first of them is written, so that the accumulate
is performed whole or not at all (R148). -/
def State.accumulateCell (s : State) (u tid : Nat) (t : Table) (l g i : Nat) : Except Nat State :=
  let sh := t.shadowAddr u l
  (s.foldRow u tid t l).bind fun s =>
    match (if i = 0 then s.failedBeat sh t.shadowSize else none) with
    | some b => .error b
    | none =>
      let a := sh + 16 + 16 * i
      .ok ((s.putNat a 16 (addCell (s.readNat a 16) g)).putNat sh 8 ((s.coreAt u).stepOf tid).toNat)

/-- A scatter at the home: an EXACT table folds first, and its cells are cleared after the write (R154). -/
def State.overwriteRow (s : State) (u tid : Nat) (t : Table) (l : Nat) (bytes : List Byte)
    (bad : List Nat) : Except Nat State :=
  (s.foldRow u tid t l).map fun s =>
    let s' := s.putBytes (t.rowAddr u l) bytes (bad.map fun i => t.rowAddr u l + 64 * i)
    if t.exact then s'.putNat (t.shadowAddr u l + 16) (16 * t.elems) 0 else s'

/-- The contribution of an element to an EXACT table: the integer nearest g × 2^FB, ties to even, modulo 2^96; a
non-finite element sets N alone (R153). -/
def exactContribution (fb : Nat) (g : Num) : Nat :=
  match g with
  | .fin neg m e =>
    let r := (roundAt neg m (e + fb) 0 .rne).1
    wrapInt 96 (if neg then -(r : Int) else r)
  | _ => 2 ^ 96

end Sys2Proof.Machine
end

