-- ==== Sys2Proof/Machine/Home.lean ====
section
/-! DEFINITION. What a home does with a request (R273 to R287): the act, the requests that wait on a full/empty bit
(R176), claims (R301, R302), arrivals at stage barriers (R299) and the counters of a JCB (R49, R50). -/

namespace Sys2Proof.Machine

/-! ## Arithmetic of the atomics (R178) -/

/-- F(kind, old, B) on z bytes, with the flags of fadd. -/
def amoResult (kind : AmoKind) (z old b : Nat) : Nat × Flags :=
  let x := extend z true old
  let y := extend z true b
  match kind with
  | .add => ((old + b) % 2 ^ (8 * z), 0)
  | .fadd => addFp .fp32 .rne (decodeFp .fp32 (old % 2 ^ 32)) (decodeFp .fp32 (b % 2 ^ 32))
  | .min => (if x.slt y then old else b, 0)
  | .max => (if x.slt y then b else old, 0)
  | .swap => (b, 0)
  | .and => (old &&& b, 0)
  | .or => (old ||| b, 0)
  | .xor => (old ^^^ b, 0)

/-- A barrier word after an arrival (R299). -/
def arrivalWord (old c : Nat) (err : Bool) : Nat :=
  let e := if err || bitOf old 63 then 2 ^ 63 else 0
  e + bitsOf old 32 31 * 2 ^ 32 + (old + c) % 2 ^ 32

/-! ## Claims and failed claims (R301, R302) -/

/-- Whether a claim covers any of n bytes at an address: they lie in its range, and their home holds it (R301). -/
def Claim.covers (c : Claim) (a n : Nat) : Bool :=
  c.homes.contains (homeOf a) && c.ranges.any fun r => decide (r.1 < a + n) && decide (a < r.2)

/-- Bytes of the unit of a full/empty bit. -/
def unitBytes (a : Nat) : Nat :=
  match storageOf a with
  | .shm => 8
  | _ => 16

/-- The trap value of a wait inside a failed claim: the barrier word, or what is waited on. -/
def State.failedClaim (s : State) (unit : Nat) : Option Word :=
  (s.claims.find? fun c => c.failed && c.covers unit (unitBytes unit)).map fun c => gaWord (c.barrier.getD unit)

/-- The homes of the units of a range. -/
def rangeHomes (ranges : List (Nat × Nat)) : List Nat :=
  ((ranges.flatMap fun r => (unitsOf r.1 (r.2 - r.1)).map homeOf)).foldl (fun l h => if l.contains h then l else l ++ [h]) []

/-- Records a claim at each home of its range that holds fewer than 64 (R301). -/
def State.addClaim (s : State) (ranges : List (Nat × Nat)) (producer : BitVec 16) (barrier : Option Nat) (cmd : Nat) : State :=
  let room (h : Nat) : Bool := decide ((s.claims.filter fun x => x.homes.contains h).length < 64)
  match (rangeHomes ranges).filter room with
  | [] => s
  | homes => { s with claims := s.claims ++ [⟨ranges, homes, producer, barrier, cmd, false⟩] }

/-- The producer code of the oldest claim that covers an address, 0 for none (R301, R315). -/
def State.claimProducer (s : State) (a : Nat) : BitVec 16 :=
  ((s.claims.find? fun c => !c.failed && c.covers a 1).map (·.producer)).getD 0

/-- What a home answers to a request that it drops at its deadline (R177, R181, R315). -/
def State.stallReply (s : State) (r : Request) : Reply :=
  { r.ack with trap := some (causeStall, gaWord (bitUnit r.addr), s.claimProducer r.addr) }

/-- A failed claim is removed when any unit of its range is next set full (R302). -/
def State.dropFailedClaims (s : State) (a n : Nat) : State :=
  { s with claims := s.claims.filter fun c => !(c.failed && c.ranges.any fun r => decide (r.1 < a + n) && decide (a < r.2)) }

/-! ## The requests that wait on a bit (R175, R176) -/

/-- The barrier error of the word that a load of z bytes reads, tested for the acquiring classes (R300). -/
def State.loadError (s : State) (a z : Nat) (acq : Bool) : Option (BitVec 8 × Word × BitVec 16) :=
  match storageOf a with
  | .shm =>
    if acq && (unitsOf a z).any fun w => barrierError (s.readNat w 8) then
      some (causeIntegrity, gaWord (((unitsOf a z).find? fun w => barrierError (s.readNat w 8)).getD a), 0)
    else none
  | _ => none

/-- What a load answers: the value, the failing beat or the barrier error (R300, R417). -/
def State.loadReply (s : State) (r : Request) (z : Nat) (acq : Bool) : Reply :=
  match s.failedBeat r.addr z with
  | some b => { r.ack with failed := some (gaWord b) }
  | none =>
    match s.loadError r.addr z acq with
    | some t => { r.ack with trap := some t }
    | none => { r.ack with value := BitVec.ofNat 128 (s.readNat r.addr z) }

/-- A sync-class request that its bit allows now: the state and the answer (R175). A fill of a local-store granule
writes 16 bytes as one act (R126). -/
def State.serveSync (s : State) (r : Request) : Option (State × Reply) :=
  match r.act with
  | .consume z =>
    if s.isFull r.addr then
      let reply := s.loadReply r z true
      if reply.failed.isSome || reply.trap.isSome then some (s, reply) else some (s.setEmpty r.addr, reply)
    else none
  | .peek z => if s.isFull r.addr then some (s, s.loadReply r z true) else none
  | .await full z =>
    if s.isFull r.addr = full then
      some (s, match s.failedBeat r.addr z with
        | some b => if full then { r.ack with failed := some (gaWord b) } else r.ack
        | none => { r.ack with value := BitVec.ofNat 128 (s.readNat r.addr z) })
    else none
  | .fill z v => if s.isFull r.addr then none else some (((s.putNat r.addr z v.toNat).setFull r.addr).dropFailedClaims r.addr z, r.ack)
  | _ => none

/-- Serves the waiting requests: the earliest that its bit allows, again and again (R176). -/
def State.serveWaiters : Nat → State → State
  | 0, s => s
  | n + 1, s =>
    match s.waiters.findSome? fun r => (s.serveSync r).map fun x => (r, x) with
    | none => s
    | some (r, s', reply) => State.serveWaiters n ({ s' with waiters := s'.waiters.filter (·.id != r.id) }.answer reply)

/-- After bits have changed: every request that can be served is (R176). -/
def State.bitsChanged (s : State) : State := s.serveWaiters s.waiters.length

/-! ## The acts of a ck on a tile store (R216) -/

/-- The granules of a tile store among n bytes, by their numbers. -/
def storeGranules (a n : Nat) : List Nat :=
  match storageOf a with
  | .tileStore _ => (List.range ((a % 16 + n + 15) / 16)).map (a / 16 + ·)
  | _ => []

/-- Whether another move has made an act on one of these granules in this ck: a tile performs one act on each granule per ck, and
what comes to a granule later waits for the next (R216). -/
def State.busy (s : State) (a n : Nat) : Bool :=
  (storeGranules a n).any fun g => s.acted.any fun p => p.1 == g && p.2 != s.seq

/-- The acts of this move on the granules of n bytes (R216). -/
def State.noteAct (s : State) (a n : Nat) : State := { s with acted := (storeGranules a n).map (·, s.seq) ++ s.acted }

/-- The waits of a stream, and of its commands. -/
def DtStream.waits (x : DtStream) : List (Option DtWait) := x.wait :: x.queue.map DtCmd.wait

/-- The order of the streams of a tile among the acts of one ck (R216). -/
def streamsAbove : Stream → List Stream
  | .s => []
  | .c => [.s]
  | .m => [.s, .c]

/-- A wait whose granule is as it is to be, so that its act can be made in this ck. -/
def State.waitMet (s : State) (a : Nat) (w : Option DtWait) : Bool :=
  match w.map DtWait.what with
  | some (.address b full) => b == a && s.isFull b == full
  | _ => false

/-- Whether a stream above stream st has an act to make in this ck on a granule of its tile: a write or a clear that it has begun, or
one for which it has waited (R216). The limits that pass at the end of a ck are those of waits that nobody goes before. -/
def State.outranked (s : State) (n : Nat) (st : Stream) (a : Nat) : Bool :=
  let t := s.tileAt n
  (streamsAbove st).any fun h =>
    (s.requests.any fun r => r.src == .tile n h && r.addr == a) ||
      (!s.closing && !t.stopped && !s.paused t.launch &&
        (((t.get h).waits.any (s.waitMet a)) || (h == .s && s.coach.any fun x => x.tile == n && s.waitMet a x.cmd.wait)))

/-- A write of an engine, the crossbar, Coach or a multicast: the bytes, and the bits set full, as one act (R25, R284). -/
def State.engineWrite (s : State) (a : Nat) (bytes : List Byte) (bad : List Nat := []) : State :=
  (((s.putBytes a bytes bad).setRangeFull a bytes.length).dropFailedClaims a bytes.length).bitsChanged

/-- Whether a waiting request is one that a failed claim traps: all but a wait for an empty granule (R302). -/
def Act.trapsInClaim : Act → Bool
  | .await full _ => full
  | _ => true

/-- A waiting request ends in a trap: the answer goes to its core or its device, and a tile takes the trap at once (R302, R313). -/
def State.trapWaiter (s : State) (r : Request) (code : BitVec 8) (value : Word) (aux : BitVec 16) : State :=
  match r.src with
  | .tile n st => s.trapRequest n st r.id ⟨code, value, 0, aux⟩
  | _ => s.answer { r.ack with trap := some (code, value, aux) }

/-- The trap of a wait for a full granule that lies in a failed claim (R302). -/
def State.claimTrap (s : State) (w : Option DtWait) : Option DtTrap :=
  match w.map DtWait.what with
  | some (.address a true) => (s.failedClaim a).map fun v => ⟨causeIntegrity, v, 0, 0⟩
  | _ => none

/-- The tiles that wait for granules of their own inside failed claims take the trap (R302). -/
def State.trapTiles (s : State) : State :=
  let one (st : State) (p : Nat × Stream) : State :=
    match (st.strm p.1 p.2).waits.findSome? st.claimTrap with
    | some t => st.tileTrap p.1 p.2 t
    | none => st
  let steps := s.coach.foldl (fun st x => match st.claimTrap x.cmd.wait with
    | some t => st.coachFail x t
    | none => st) s
  (s.tiles.flatMap fun t => [(t.1, Stream.s), (t.1, Stream.c), (t.1, Stream.m)]).foldl one steps

/-- The claims of a command become failed claims, and what waits inside them is trapped at once (R302). -/
def State.failClaims (s : State) (cmd : Nat) : State :=
  let s1 := { s with claims := s.claims.map fun (c : Claim) => if c.cmd = cmd then { c with failed := true } else c }
  let hit (r : Request) : Bool := r.act.trapsInClaim && (s1.failedClaim (bitUnit r.addr)).isSome
  (((s1.waiters ++ s1.watchers).filter hit).foldl
    (fun (st : State) (r : Request) => st.trapWaiter r causeIntegrity ((s1.failedClaim (bitUnit r.addr)).getD 0) 0)
    { s1 with waiters := s1.waiters.filter fun r => !hit r, watchers := s1.watchers.filter fun r => !hit r }).trapTiles

/-- The claims of a command go away with its arrival (R301). -/
def State.endClaims (s : State) (cmd : Nat) : State := { s with claims := s.claims.filter (·.cmd != cmd) }

/-- A claim on the barrier word of its command. -/
def Claim.onBarrier (c : Claim) : Bool := c.barrier.any fun a => c.ranges == [(a, a + 8)]

/-- A command has made its arrival, or ends without one: its claims go away, or, with its error bit set, those on its destination
become failed claims (R301, R302). -/
def State.settleClaims (s : State) (cmd : Nat) (err : Bool) : State :=
  if err then { s with claims := s.claims.filter fun c => !(c.cmd == cmd && c.onBarrier) }.failClaims cmd else s.endClaims cmd

/-- One arrival at a barrier word (R299). -/
def State.arrive (s : State) (a c : Nat) (err : Bool) : State := s.putNat a 8 (arrivalWord (s.readNat a 8) c err)

/-! ## Capabilities in memory (R193, R194, R382) -/

/-- A field of a capability (R193). -/
def capDev (q : Quad) : Nat := bitsOf q.toNat 112 16
def capUnit (q : Quad) : Nat := bitsOf q.toNat 101 11
def capBase (q : Quad) : Nat := bitsOf q.toNat 64 37
def capLen (q : Quad) : Nat := bitsOf q.toNat 27 37
def capPerm (q : Quad) : Nat := bitsOf q.toNat 20 7
def capTid (q : Quad) : Nat := bitsOf q.toNat 12 8

/-- Whether a sweep's registers match a capability (R382). -/
def State.sweepHits (s : State) (q : Quad) : Bool :=
  let r0 := (s.reg 0x208).toNat
  let hi := bitsOf (s.reg 0x210).toNat 0 37
  let same (d : Nat) : Nat := if d = 0xFFFF then s.dev else d
  same (capDev q) == same (bitsOf r0 48 16) && capUnit q == bitsOf r0 37 11 && capLen q != 0 && decide (capBase q ≤ hi) &&
    decide (bitsOf r0 0 37 < capBase q + capLen q)

/-- A tag as a cld, cst or cmk delivers it: a sweep in progress takes it from a capability that matches (R382). -/
def State.sweptTag (s : State) (q : Quad) (tag : Bool) : Bool :=
  tag && !(bitOf (s.reg 0x218).toNat 2 && s.sweepHits q)

/-! ## Scopes (R192, R360) -/

def scopeAddr (n : Nat) : Nat := shmBase + 0x7FFC000 + 256 * n

/-- Number of LC bits set in a scope table. -/
def State.scopeCount (s : State) (n : Nat) : Nat := countBits 1008 (s.readNat (scopeAddr n) 128)

/-! ## The act of a home -/

/-- What an act comes to: an answer, a wait, or another act of the same request to come. -/
inductive ActEnd where
  | answer (r : Reply)
  | wait
  | watch
  | more (r : Request)
  | silent

/-- Failing data of an atomic: the home writes nothing (R178, R417). -/
def State.amoFails (s : State) (r : Request) (z : Nat) : Option Reply :=
  (s.failedBeat r.addr z).map fun b => { r.ack with failed := some (gaWord b) }

/-- The first aligned 8-byte word of a line that holds masked bytes (R282). -/
def firstWord (mask : BitVec 64) : Option Nat :=
  (List.range 8).find? fun w => mask.extractLsb' (8 * w) 8 != 0

/-- The masked bytes of one word of a line, written (R282). -/
def State.writeMasked (s : State) (a w : Nat) (mask : BitVec 64) (bytes : List Byte) : State :=
  let old := s.readBytes (a + 8 * w) 8
  let new := (List.range 8).map fun j =>
    if mask.getLsbD (8 * w + j) then bytes.getD (8 * w + j) 0 else old.getD j 0
  s.putBytes (a + 8 * w) new

/-- A request for a row, performed at the home unit of its address. -/
def rowReply (r : Request) (ok : Except Nat State) (s : State) (bytes : State → List Byte) (bad : State → List Nat) :
    State × ActEnd :=
  match ok with
  | .error b => (s, .answer { r.ack with failed := some (gaWord (b / 64 * 64)) })
  | .ok s' => (s', .answer { r.ack with bytes := bytes s', bad := bad s' })

/-- The act that a request asks for; of several tsteps that race with one expected value, one advances the step and the
others answer the STEP that they read (assumption 127) (R126, R156, R175, R178, R180, R191, R192, R195, R282, R299). -/
def State.perform (s : State) (r : Request) : State × ActEnd :=
  match r.act with
  | .load z acq =>
    match storageOf r.addr, decide (z = 16) with
    | .localStore _, _ | .tileStore _, _ | _, false => (s, .answer (s.loadReply r z acq))
    | _, true =>
      let low := s.loadReply r 8 acq
      if low.failed.isSome || low.trap.isSome then (s, .answer low)
      else (s, .more { r with act := .loadHigh (low.value.setWidth 64) acq, addr := r.addr + 8 })
  | .loadHigh low acq =>
    let high := s.loadReply r 8 acq
    (s, .answer { high with value := low.zeroExtend 128 ||| (high.value <<< 64) })
  | .store z v =>
    match storageOf r.addr, decide (z = 16) with
    | .localStore _, _ | _, false => (s.putNat r.addr z v.toNat, .answer r.ack)
    | _, true => (s.putNat r.addr 8 v.toNat, .more { r with act := .store 8 (v >>> 64), addr := r.addr + 8 })
  | .line mask bytes =>
    match firstWord mask with
    | none => (s, .answer r.ack)
    | some w =>
      (s.writeMasked r.addr w mask bytes, .more { r with act := .line (mask &&& ~~~((0xFF : BitVec 64) <<< (8 * w))) bytes })
  | .amo kind z v =>
    match s.amoFails r z with
    | some reply => (s, .answer reply)
    | none =>
      let old := s.readNat r.addr z
      let new := amoResult kind z old (v.toNat % 2 ^ (8 * z))
      (s.putNat r.addr z new.1, .answer { r.ack with value := BitVec.ofNat 128 old, flags := new.2 })
  | .cas z expect new =>
    match s.amoFails r z with
    | some reply => (s, .answer reply)
    | none =>
      let old := s.readNat r.addr z
      let s' := if old = expect.toNat % 2 ^ (8 * z) then s.putNat r.addr z new.toNat else s
      (s', .answer { r.ack with value := BitVec.ofNat 128 old })
  | .arrive c err =>
    match s.amoFails r 8 with
    | some reply => (s, .answer reply)
    | none => (s.arrive r.addr c.toNat err, .answer { r.ack with value := BitVec.ofNat 128 (s.readNat r.addr 8) })
  | .clear => ((s.setEmpty r.addr).bitsChanged, .answer r.ack)
  | .copy z => (s, .answer { r.ack with bytes := s.readBytes r.addr z, bad := if (s.failedBeat r.addr z).isSome then [0] else [] })
  | .write mask bytes full =>
    let new := (s.readBytes r.addr bytes.length).zipWith (fun (o : Byte) (x : Byte × Byte) => (o &&& ~~~x.1) ||| (x.2 &&& x.1)) (mask.zip bytes)
    (if full then s.engineWrite r.addr new else s.putBytes r.addr new, .answer r.ack)
  | .consume _ | .peek _ | .fill _ _ | .await _ _ =>
    match s.serveSync r with
    | some (s', reply) => (s'.bitsChanged, .answer reply)
    | none =>
      match (if r.act.trapsInClaim then s.failedClaim (bitUnit r.addr) else none) with
      | some v => (s, .answer { r.ack with trap := some (causeIntegrity, v, 0) })
      | none => (s, .wait)
  | .watch _ _ _ | .barrier _ =>
    match s.watchResult r with
    | some reply => (s, .answer reply)
    | none =>
      match s.failedClaim (bitUnit r.addr) with
      | some v => (s, .answer { r.ack with trap := some (causeIntegrity, v, 0) })
      | none => (s, .watch)
  | .capLoad =>
    match s.failedBeat r.addr 16 with
    | some b => (s, .answer { r.ack with failed := some (gaWord b) })
    | none =>
      let q : Quad := BitVec.ofNat 128 (s.readNat r.addr 16)
      (s, .answer { r.ack with value := q, tag := s.sweptTag q (s.tagAt r.addr) })
  | .capStore v tag =>
    let s' := s.putNat r.addr 16 v.toNat
    ({ s' with tags := if s.sweptTag v tag then setInsert (r.addr / 16 * 16) s'.tags else s'.tags }, .answer r.ack)
  | .join =>
    match s.amoFails r 32 with
    | some reply => (s, .answer reply)
    | none =>
    let old := s.readNat r.addr 8
    let s' := s.putNat r.addr 8 ((old + 2 ^ 64 - 1) % 2 ^ 64)
    if old = 1 then
      let target := BitVec.ofNat 64 (s.readNat (r.addr + 8) 8)
      let epc := BitVec.ofNat 64 (s.readNat (r.addr + 16) 8)
      let arg := BitVec.ofNat 64 (s.readNat (r.addr + 24) 8)
      (s', .answer { r.ack with value := 1, bytes := natToBytes 8 target.toNat ++ natToBytes 8 epc.toNat ++ natToBytes 8 arg.toNat })
    else (s', .answer r.ack)
  | .scope lc put =>
    match s.amoFails r 128 with
    | some reply => (s, .answer reply)
    | none =>
    let s' := match lc with
      | some n =>
        let a := r.addr + n / 8
        let b := (s.readByte a).toNat
        let m := 2 ^ (n % 8)
        s.putNat a 1 (if put then b ||| m else if bitOf b (n % 8) then b - m else b)
      | none => s
    (s', .answer { r.ack with value := BitVec.ofNat 128 (countBits 1008 (s'.readNat r.addr 128)) })
  | .step tid expect inv =>
    let a := tdAddr tid + 0x10
    match s.amoFails { r with addr := a } 8 with
    | some reply => (s, .answer reply)
    | none =>
      let old := s.readNat a 8
      let adv := old == expect.toNat && decide (old < 2 ^ 64 - 2)
      let s' := if adv then s.putNat a 8 (old + 1) else s
      if adv || inv then
        ({ s' with stepJobs := s'.stepJobs ++
            [⟨tid, if adv then some (BitVec.ofNat 64 (old + 1)) else none, inv, List.range 1008, some r, BitVec.ofNat 64 old⟩] },
          .silent)
      else (s', .answer { r.ack with value := BitVec.ofNat 128 old })
  | .row tid t l =>
    let u := unitOf r.addr
    rowReply r (s.foldRow u tid t l) s (fun s => s.readBytes (t.rowAddr u l) t.rb) (fun s => s.badBeats (t.rowAddr u l) t.rb)
  | .accumulate tid t l elems i =>
    if t.exact then
      match s.accumulateCell (unitOf r.addr) tid t l (elems.getD i 0) i with
      | .error b => (s, .answer { r.ack with failed := some (gaWord (b / 64 * 64)) })
      | .ok s' =>
        (s', if i + 1 < elems.length then .more { r with act := .accumulate tid t l elems (i + 1) } else .answer r.ack)
    else rowReply r (s.accumulateRow (unitOf r.addr) tid t l elems) s (fun _ => []) (fun _ => [])
  | .overwrite tid t l bytes bad =>
    rowReply r (s.overwriteRow (unitOf r.addr) tid t l bytes bad) s (fun _ => []) (fun _ => [])

/-- The bytes that an access of a context touches. -/
def Act.size : Act → Nat
  | .load z _ | .copy z | .store z _ | .amo _ z _ | .cas z _ _ | .consume z | .peek z | .fill z _ | .await _ z | .watch _ z _ => z
  | .capLoad | .capStore _ _ => 16
  | .join => 32
  | .line _ _ => 64
  | .scope _ _ => 128
  | .write _ bytes _ => bytes.length
  | _ => 8

/-! ## Counters of a JCB (R48 to R50) -/

/-- The JCB offset of a counter (R48). -/
def Counter.offset : Counter → Nat
  | .satn => 0x40 | .ftzn => 0x48 | .nann => 0x50 | .nfsn => 0x58

/-- One add to a counter: it stays at 2^64 − 1, and answers whether it crossed its threshold (R49, R50). Where the beat of the
counters fails, the add is dropped and logged (R417; assumption 167). -/
def State.countAdd (s : State) (jcb : Nat) (c : Counter) (n : Nat) : State × Bool :=
  if n = 0 then (s, false)
  else if (s.failedBeat (jcb + 0x40) 64).isSome then (s.logConsumed (jcb + 0x40) 64 ((s.launches.find? fun x => x.2.jcb = jcb).map (·.1)), false)
  else
    let a := jcb + c.offset
    let v := s.readNat a 8
    let v' := min (v + n) (2 ^ 64 - 1)
    let l := s.readNat (a + 0x20) 8
    (s.putNat a 8 v', decide (v ≤ l) && decide (l < v') && l != 2 ^ 64 - 1)

/-- How many of the counts name a counter. -/
def tally (counts : List (Option Counter)) (c : Counter) : Nat := (counts.filter (· == some c)).length

/-- The adds of one unit of output, in ascending JCB offset, and the mask of the counters that crossed (R49, R50). -/
def State.countAll (s : State) (jcb : Nat) (counts : List (Option Counter)) : State × BitVec 16 :=
  let x0 := s.countAdd jcb .satn (tally counts .satn)
  let x1 := x0.1.countAdd jcb .ftzn (tally counts .ftzn)
  let x2 := x1.1.countAdd jcb .nann (tally counts .nann)
  let x3 := x2.1.countAdd jcb .nfsn (tally counts .nfsn)
  (x3.1, (BitVec.ofBool x3.2 ++ BitVec.ofBool x2.2 ++ BitVec.ofBool x1.2 ++ BitVec.ofBool x0.2).zeroExtend 16)

/-- The JCB offset of the lowest counter that crossed (R50). -/
def lowestCrossed (mask : BitVec 16) : Word :=
  if mask.getLsbD 0 then 0x40 else if mask.getLsbD 1 then 0x48 else if mask.getLsbD 2 then 0x50 else 0x58

end Sys2Proof.Machine
end

