-- ==== Sys2Proof/Machine/Operands.lean ====
section
/-! DEFINITION. Operand forms: immediates, branch and jump targets (R87, R116, R117), effective addresses of the
x-base form (R125), and the results of the integer operations (R112). -/

namespace Sys2Proof.Machine

/-- The target of a branch, jal or compact jump: halfwords from the instruction's own address, modulo 2^18 (R87, R118). -/
def relTarget {n : Nat} (pc : BitVec 18) (imm : BitVec n) : BitVec 18 := pc + (imm.signExtend 18 <<< 1)

/-- The link value: the next sequential PC of a 32-bit word (R117, R118). -/
def linkOf (pc : BitVec 18) (len : Nat) : BitVec 18 := pc + BitVec.ofNat 18 len

/-- EA := (base + x[b] + sext(off) × Z) mod 2^64 (R87, R125). -/
def effAddr (base index : Word) (off : BitVec 5) (z : Nat) : Word := base + index + sext off * BitVec.ofNat 64 z

/-! ## Results of R112 -/

def shiftAmount (b : Word) : Nat := b.toNat % 64

def resSll (a b : Word) : Word := a <<< shiftAmount b
def resSrl (a b : Word) : Word := a >>> shiftAmount b
def resSra (a b : Word) : Word := a.sshiftRight (shiftAmount b)
def resSlt (a b : Word) : Word := ofBool (a.slt b)
def resSltn (a b : Word) : Word := ofBool (a.ult b)
def resMulh (a b : Word) : Word := BitVec.ofInt 64 (a.toInt * b.toInt / 2 ^ 64)
def resMulhn (a b : Word) : Word := BitVec.ofNat 64 (a.toNat * b.toNat / 2 ^ 64)
def resDiv (a b : Word) : Word := if b = 0 then BitVec.allOnes 64 else a.sdiv b
def resDivn (a b : Word) : Word := if b = 0 then BitVec.allOnes 64 else a / b
def resRem (a b : Word) : Word := if b = 0 then a else a.srem b
def resRemn (a b : Word) : Word := if b = 0 then a else a % b
def resMin (a b : Word) : Word := if a.slt b then a else b
def resMax (a b : Word) : Word := if a.slt b then b else a
def resMinn (a b : Word) : Word := if a.ult b then a else b
def resMaxn (a b : Word) : Word := if a.ult b then b else a
def resClz (a : Word) : Word := BitVec.ofNat 64 (leadingZeros 64 a.toNat)
def resCtz (a : Word) : Word := BitVec.ofNat 64 (trailingZeros 64 a.toNat)
def resPopc (a : Word) : Word := BitVec.ofNat 64 (countBits 64 a.toNat)
def resSel (a b e : Word) : Word := if e ≠ 0 then a else b

/-- The position and the width of ext and ins (R112). -/
def fieldPos (b : Word) : Nat := b.toNat % 64
def fieldWidth (b e : Word) : Nat := min (e.toNat % 128) (64 - fieldPos b)

def resExt (a b e : Word) : Word := BitVec.ofNat 64 (bitsOf a.toNat (fieldPos b) (fieldWidth b e))

/-- ins: the bits [p + w − 1 : p] of the old value take the low bits of A. -/
def resIns (old a b e : Word) : Word :=
  let p := fieldPos b
  let mask : Word := BitVec.ofNat 64 ((2 ^ fieldWidth b e - 1) * 2 ^ p)
  (old &&& ~~~mask) ||| ((a <<< p) &&& mask)

def resRev (g : RevGran) (a : Word) : Word :=
  match g with
  | .bits => BitVec.ofNat 64 (reverseGranules 1 64 a.toNat)
  | .bytes => BitVec.ofNat 64 (reverseGranules 8 8 a.toNat)
  | .halves => BitVec.ofNat 64 (reverseGranules 16 4 a.toNat)
  | .words => BitVec.ofNat 64 (reverseGranules 32 2 a.toNat)

/-- The value of an s register that an instruction issued at a ck reads: the last write visible to it (R73). -/
def SReg.read (r : SReg) (ck : Nat) : Word :=
  r.pend.foldl (fun v p => if p.1 ≤ ck then p.2 else v) r.cur

/-- A write issued at a ck, seen from a later one; writes already seen are folded into the value (R73). -/
def SReg.write (r : SReg) (ck seen : Nat) (v : Word) : SReg :=
  ⟨r.read ck, r.pend.filter (fun p => decide (ck < p.1)) ++ [(seen, v)]⟩

end Sys2Proof.Machine
end

