-- ==== Sys2Proof/Machine/Access.lean ====
section
/-! DEFINITION. How an access of a context leaves its core: the map of logical cores (R15, R18, R439), translation
and its misses (R370 to R377), the checks of R125 and R196, the classes of R30, the outstanding relaxed accesses
(R128), the combining buffer (R281 to R283), the release drain (R174) and the requests that travel to homes (R286). -/

namespace Sys2Proof.Machine

/-! ## The map of logical cores (R15, R18, R439) -/

/-- A 2-byte entry of a map window of the register block. -/
def State.halfReg (s : State) (off : Nat) : Nat := bitsOf (s.reg (off / 8 * 8)).toNat (8 * (off % 8)) 16

/-- Row and column of a core; the service core is P(0,0) (R16). -/
def State.position (s : State) (u : Nat) : Nat × Nat :=
  if u = serviceCore then (0, 0)
  else
    let e := s.halfReg (0x2000 + 2 * u)
    (bitsOf e 5 5, bitsOf e 0 5)

/-- The cluster of a position (R15). -/
def clusterOf (p : Nat × Nat) : Nat := 8 * (p.1 / 4) + p.2 / 4

/-- The local index of a position in its cluster (R47). -/
def localIndex (p : Nat × Nat) : Nat := 4 * (p.1 % 4) + p.2 % 4

/-- The die of a position: mesh rows 0 to 15 are die 0 (R15). -/
def dieOf (p : Nat × Nat) : Nat := p.1 / 16

def State.cluster (s : State) (u : Nat) : Nat := clusterOf (s.position u)

/-- The cluster whose walker serves a tile (R377). -/
def tileCluster (n : Nat) : Nat := 32 * (n / 16) + 2 * (n % 16)

/-! ## Workspaces (R66, R67) -/

/-- The bytes of a context's workspace, its extension included. -/
def Core.workspace (c : Core) (k : Fin 16) : Nat × Nat :=
  ((c.ctxs.get k).wsp.toNat, if c.m8 then 2048 else 1024)

/-- Whether any of n bytes at a local-store offset of core u lies in a bound workspace. -/
def State.bound (s : State) (u off n : Nat) : Bool :=
  let c := s.coreAt u
  (List.finRange 16).any fun k =>
    decide (k.val < c.nctx) && (c.ctxs.get k).state != .free &&
      decide ((c.workspace k).1 < off + n) && decide (off < (c.workspace k).1 + (c.workspace k).2)

/-- The same for bytes at an address of this device. -/
def State.boundAt (s : State) (a n : Nat) : Bool :=
  match storageOf a with
  | .localStore u => s.bound u (offOf a) n
  | _ => false

/-! ## Translation (R370 to R377) -/

/-- What a leaf must allow (R375): loads, stores, floes. -/
structure Need where
  r : Bool
  w : Bool
  s : Bool := false
deriving DecidableEq, Repr

/-- What a translation comes to: a device (none for this one), an address there and the global address; a trap; or a
miss. -/
inductive Translated where
  | ok (dev : Option Nat) (a : Nat) (ga : Word)
  | trap (t : TrapInfo)
  | miss
deriving DecidableEq, Repr

def TlbEntry.covers (e : TlbEntry) (va : Nat) : Bool := va / 2 ^ e.size == e.page / 2 ^ e.size

/-- The leaf bits that an access needs (R375). -/
def TlbEntry.allows (e : TlbEntry) (n : Need) (user : Bool) : Bool :=
  (!n.r || e.r) && (!n.w || e.w) && (!n.s || e.s) && (!user || e.u)

/-- A virtual address through the entries of a TLB. -/
def translateVirtual (tlb : List TlbEntry) (ea : Word) (n : Need) (user : Bool) : Translated :=
  match tlb.find? fun e => e.covers ea.toNat with
  | none => .miss
  | some e =>
    if e.allows n user then
      let a := e.frame + ea.toNat % 2 ^ e.size
      .ok none a (gaWord a)
    else .trap ⟨causeProtection, ea, 0⟩

/-- An effective address of a context (R370). -/
def State.translate (s : State) (u : Nat) (k : Fin 16) (ea : Word) (n : Need) : Translated :=
  let prv := (s.ctxAt u k).prv
  let dev := ea.toNat / 2 ^ 48
  if dev = 0 then translateVirtual (s.coreAt u).tlb ea n (!prv)
  else if !prv then .trap ⟨causeTranslation, ea, 0⟩
  else if dev = 0xFFFF ∨ dev = s.dev then .ok none (ea.toNat % 2 ^ 48) ea
  else .trap ⟨causeCapability, ea, 4⟩

/-- A miss: it joins a walk in progress for its root and page, or begins one (R377). -/
def State.miss (s : State) (src : Source) (cluster : Nat) (root ea : Word) : State :=
  let vpn := ea.toNat / 2 ^ 18
  let joins (w : Walk) : Bool := w.cluster == cluster && w.started && w.root == root && w.vpn == vpn
  if s.walks.any joins then
    { s with walks := s.walks.map fun w => if joins w then { w with who := w.who ++ [src] } else w }
  else
    let walks := s.walks ++ [⟨s.nextId, cluster, root, vpn, 0, false, false, false, false, 0, root.toNat % 2 ^ 48 / 4096 * 4096, [src]⟩]
    { s with walks := startWalks ((s.reg 0x20).getLsbD 0) walks.length cluster walks, nextId := s.nextId + 1 }

/-- The issuing context is to issue its instruction anew, and completes it whatever happens to its launch (R200, R397): its limits
count from this slot, or from the one before in which it first issued it. -/
def State.keepSlot (s : State) : State := s.setMe { s.me with since := some ((s.me.since).getD s.ck) }

/-- The miss of the issuing context: it parks without limit, and issues again when the walk ends (R125, R377). -/
def State.missPark (s : State) (i : Instr) (ea : Word) : State :=
  ((s.miss (.ctx s.core s.ctx.val) (s.cluster s.core) s.myCore.ptroot ea).keepSlot).park i (.walk ea)

/-! ## The classes of access (R29, R30) -/

/-- What reaches storage: the class of R30, with what the register block asks for. -/
inductive Kind where
  | load (plain : Bool)
  | store (plain : Bool)
  | sync (store : Bool)
  | atomic
  /-- Only SHM (arrive, waitv, capabilities in memory, join records). -/
  | shmOnly (store : Bool)
deriving DecidableEq, Repr

def Kind.stores : Kind → Bool
  | .store _ | .atomic | .sync true | .shmOnly true => true
  | _ => false

/-- The allocated offsets of the register block (R452). -/
def regAllocated (o : Nat) : Bool :=
  o % 8 == 0 &&
    (decide (o ≤ 0x48) || (decide (0x100 ≤ o) && decide (o < 0x160)) || (decide (0x180 ≤ o) && decide (o ≤ 0x198)) ||
     (decide (0x200 ≤ o) && decide (o ≤ 0x218)) || o == 0x280 || o == 0x288 || (decide (0x300 ≤ o) && decide (o ≤ 0x380)) ||
     o == 0x400 || (decide (0x1000 ≤ o) && decide (o < 0x11C0)) || (decide (0x1800 ≤ o) && decide (o < 0x1A00)) ||
     (decide (0x2000 ≤ o) && decide (o < 0x27E0)) || (decide (0x2800 ≤ o) && decide (o < 0x3000)) ||
     (decide (0x4000 ≤ o) && decide (o < 0x5000)) ||
     (decide (0x10000 ≤ o) && decide (o < 0x11000) && decide (o % 64 ≤ 0x28)) ||
     (decide (0x11000 ≤ o) && decide (o < 0x11400) && decide (o % 64 ≤ 0x30)) ||
     (decide (0x12000 ≤ o) && decide (o < 0x13000) && decide (o % 128 ≤ 0x50)) ||
     (decide (0x20000 ≤ o) && decide (o < 0x28000)))

/-- Whether R29 or R30 refuses an access of z bytes. own is the issuing core where the storage is on its device. -/
def refuses (own : Option Nat) (prv : Bool) (kind : Kind) (z a : Nat) : Bool :=
  match storageOf a, kind with
  | .shm, .sync _ => z == 16
  | .shm, _ => false
  | _, .shmOnly _ => true
  | .localStore v, .load _ => decide (v ≥ 1008)
  | .localStore v, _ => own != some v
  | .channel _, .sync _ | .shard _, .sync _ => true
  | .channel _, _ | .shard _, _ => false
  | .regs, .load plain | .regs, .store plain => !(plain && prv && z == 8 && regAllocated (offOf a))
  | _, _ => true

/-- The tables that a user-mode store may not reach: descriptors (R383) and scopes (R360). -/
def inTables (a : Nat) : Bool :=
  match storageOf a with
  | .shm => decide (0x7FF4000 ≤ offOf a)
  | _ => false

/-- The checks after translation, in the order of R125: RANGE, the protected tables, bound workspaces. -/
def State.checkHome (s : State) (dev : Option Nat) (a : Nat) (ga : Word) (z : Nat) (kind : Kind) : Option TrapInfo :=
  let own := if dev.isNone then some s.core else none
  if refuses own s.me.prv kind z a then some ⟨causeRange, ga, 0⟩
  else if kind.stores && !s.me.prv && inTables a then some ⟨causeProtection, ga, 0⟩
  else if dev.isNone && s.boundAt a z then some ⟨causeProtection, ga, 0⟩
  else none

/-! ## The fabric's extents (R459, R464) -/

/-- NA, NB, NC, ND. -/
def State.extents (s : State) : List Nat :=
  let c := (s.reg 8).toNat
  [bitsOf c 16 2 + 1, bitsOf c 18 2 + 1, bitsOf c 20 6 + 1, bitsOf c 26 6 + 1]

/-- Whether an index names a position of the fabric. -/
def State.inFabric (s : State) (dev : Nat) : Bool :=
  ((devFields dev).zip s.extents).all fun x => decide (x.1 < x.2)

/-- Whether a Device field names this device or a position of the fabric (R27, R464). -/
def State.names (s : State) (dev : Nat) : Bool := dev == 0xFFFF || dev == s.dev || s.inFabric dev

/-! ## Requests (R286, R287) -/

/-- The unit a request comes from; pair order is kept for each unit and home (R286). -/
def Source.unit : Source → Nat
  | .ctx u _ | .gather u _ | .stream u _ | .engine u => u
  | .tile n _ => 1024 + n
  | .walker n _ => 3072 + n
  | .remote dev unit _ => 8192 + 4096 * dev + unit
  | .device => 2048

/-- No request of a unit is on its way to a home, so that what the unit itself does there keeps the order of R286. -/
def State.pairClear (s : State) (unit home : Nat) : Bool :=
  !s.requests.any fun r => r.src.unit == unit && homeOf r.addr == home

/-- The requests of a unit that are on their way to a home: what the unit sends there now stands behind them (R286). -/
def State.pairBehind (s : State) (unit home : Nat) : List Nat :=
  (s.requests.filter fun r => r.src.unit == unit && homeOf r.addr == home).map Request.id

/-- The core that a message is for. -/
def MsgBody.target : MsgBody → Nat
  | .register u _ _ _ | .active u _ _ _ | .spawn u _ _ | .continuation u _ _ => u

/-- A message leaves its source: it stands behind what the source has sent to that core (R286). -/
def State.addMessage (s : State) (id : Nat) (src : Source) (body : MsgBody) : State :=
  { s with messages := s.messages ++
      [({ id := id, src := src, body := body, behind := s.pairBehind src.unit body.target } : Message)] }

/-- A packet to another device. One with an order carries its number for its source and home (R287). -/
def State.sendPacket (s : State) (dev : Nat) (order : Option (Nat × Nat)) (body : Payload) : State :=
  match order with
  | none => { s with outbox := s.outbox ++ [⟨dev, s.dev, none, none, body, none⟩] }
  | some (src, home) =>
    let key := (dev * 2 ^ 12 + src) * 2 ^ 16 + home
    let n := lookup 0 s.seqOut key
    { s with outbox := s.outbox ++ [⟨dev, s.dev, none, some (src, home, n), body, none⟩], seqOut := insertAt key (n + 1) s.seqOut }

/-- What an act asks of another device (R30, R175, R282). -/
def Act.remote : Act → Option RemoteOp
  | .load z acq => some (.load z acq)
  | .store z v => some (.store z v)
  | .line mask bytes => some (.line mask bytes)
  | .consume z => some (.consume z)
  | .peek z => some (.peek z)
  | .fill z v => some (.fill z v)
  | .await full z => some (.await full z)
  | .clear => some .clear
  | .write mask bytes full => some (.write mask bytes full)
  | .copy z => some (.copy z)
  | _ => none

/-- Sends a request to its home, on this device or another; its deadline travels with it (R177). The request keeps number id. -/
def State.sendRequest (s : State) (dev : Option Nat) (r : Request) : State :=
  match dev, r.act.remote with
  | some d, some op =>
    ({ s with remote := s.remote ++ [(d, r)] }).sendPacket d (some (r.src.unit, homeOf r.addr))
      (.access r.id r.src.unit r.addr op r.deadline)
  | _, _ => { s with requests := s.requests ++ [r] }

/-- A fresh number for a request, a message or a command. -/
def State.fresh (s : State) : State := { s with nextId := s.nextId + 1 }

/-! ## The combining buffer (R281 to R283) -/

def overlaps (a n b m : Nat) : Bool := decide (a < b + m) && decide (b < a + n)

def Line.covers (l : Line) (k : Nat) (dev : Option Nat) (a n : Nat) : Bool :=
  l.ctx == k && l.dev == dev && overlaps l.addr 64 a n

/-- Whether every byte lies in the line's mask. -/
def Line.holds (l : Line) (a n : Nat) : Bool :=
  decide (l.addr ≤ a) && decide (a + n ≤ l.addr + 64) && (List.range n).all fun j => l.mask.getLsbD (a - l.addr + j)

/-- Bytes put into a line. -/
def Line.put (l : Line) (a : Nat) (bytes : List Byte) : Line :=
  let o := a - l.addr
  { l with mask := l.mask ||| BitVec.ofNat 64 ((2 ^ bytes.length - 1) * 2 ^ o),
           bytes := (List.range 64).map fun j => if o ≤ j ∧ j < o + bytes.length then bytes.getD (j - o) 0 else l.bytes.getD j 0 }

/-- A line is sent as one request; its entry stays held (R282). -/
def State.sendLine (s : State) (u : Nat) (l : Line) : State :=
  let c := s.coreAt u
  let s' := s.setCore u { c with lines := c.lines.filter (·.id != l.id) }
  s'.sendRequest l.dev ⟨l.id, .ctx u l.ctx, .line l.mask l.bytes, l.addr, .none, true, none⟩

/-- Every line of a context is sent (R282). -/
def State.sendLines (s : State) (u k : Nat) : State :=
  ((s.coreAt u).lines.filter (·.ctx == k)).foldl (fun st l => st.sendLine u l) s

/-! ## Outstanding accesses (R128, R174, R278) -/

/-- Whether an earlier access of context k to n bytes at an address waits for its acknowledgement (R278 case b). -/
def Core.held (c : Core) (k : Nat) (dev : Option Nat) (a n : Nat) : Bool :=
  c.relaxed.any fun r => r.ctx == k && r.dev == dev && overlaps r.addr r.len a n

/-- Whether a relaxed access of context k finds an entry: those that parked before it come first (R128). -/
def Core.entryFree (c : Core) (k : Nat) : Bool :=
  let ahead := (c.entryQueue.takeWhile (· != k)).length
  decide (c.relaxed.length + ahead < 64)

/-- Context k has no access or command left that a release drain waits for (R174). -/
def Core.drained (c : Core) (k : Nat) : Bool :=
  !(c.relaxed.any fun r => r.ctx == k && r.store) && !(c.lines.any (·.ctx == k)) && !(c.gcmds.any (·.ctx == k))

/-! ## Sends -/

/-- A request of context k of core u, which parks until the reply (R127, R175). The limit of a request to another device stays
with the context too, for the case that its packet is lost (R461). -/
def State.sendAccess (s : State) (u : Nat) (k : Fin 16) (dev : Option Nat) (act : Act) (a : Nat) (dest : Dest)
    (deadline : Option Nat) : State :=
  let id := s.nextId
  let s' := s.fresh.setCtx u k
    { s.ctxAt u k with state := .parked, park := .reply id, deadline := if dev.isSome then deadline else none }
  s'.sendRequest dev ⟨id, .ctx u k.val, act, a, dest, false, deadline⟩

/-- Sends a message of context k of core u, which parks until the answer (R183, R186, R190). -/
def State.sendMessage (s : State) (u : Nat) (k : Fin 16) (dev : Option Nat) (body : MsgBody) (d : Reg)
    (refusal : Option (BitVec 8 × Word)) (spawnPc : Option Word) : State :=
  let id := s.nextId
  let s' := s.fresh.setCtx u k { s.ctxAt u k with state := .parked, park := .answer id d refusal spawnPc }
  let target (t : Nat) : Word := BitVec.ofNat 64 ((dev.getD 0xFFFF) * 2 ^ 48 + t * 2 ^ 37)
  match dev, body with
  | none, _ => s'.addMessage id (.ctx u k.val) body
  | some dv, .register t tctx treg v =>
    s'.sendPacket dv (some (u, t)) (.register id u (target t + zext tctx) treg.toNat v)
  | some dv, .active t hidx arg source => s'.sendPacket dv (some (u, t)) (.active id u (target t) hidx arg source)
  | some dv, .spawn t pc args => s'.sendPacket dv (some (u, t)) (.spawn id u (target t) pc args)
  | some dv, .continuation t epc arg => s'.sendPacket dv (some (u, t)) (.continuation (target t) epc arg)

/-- Whether a send of context k waits in its core: for an earlier access to its bytes (R278 case b), or for the release drain
(R174). -/
def Core.sendWaits (c : Core) (k : Nat) (n : Send) (drain : Bool) : Bool :=
  (match n with
    | .access dev act a _ _ => c.held k dev a act.size
    | _ => false) || (drain && !c.drained k)

/-- Writes the result of an access or a load served early. -/
def Context.writeDest (c : Context) (dest : Dest) (v : Quad) (tag : Bool) : Context :=
  match dest with
  | .none => c
  | .x d z sgn => c.setX d (extend z sgn v.toNat)
  | .w d => c.setW d v
  | .cap d => c.setCap d v tag

/-! ## Loads and stores (R126 to R128, R173 to R175, R281 to R283) -/

/-- What an access does once its checks have passed: it is held in the core behind earlier accesses to its bytes, or behind the
release drain, within its limit, and is then sent (R174, R278). -/
def State.holdOrSend (s : State) (i : Instr) (dev : Option Nat) (act : Act) (a n : Nat) (dest : Dest)
    (drain : Bool) (deadline : Option Nat) (record : Word) : State :=
  let k := s.ctx.val
  let touched := s.myCore.lines.filter fun l => drain || l.covers k dev a n
  let s1 := (touched.filter (·.ctx == k)).foldl (fun st l => st.sendLine s.core l) s
  let next := Send.access dev act a dest deadline
  let s2 := s1.park i (.hold next drain) deadline record
  if s1.myCore.sendWaits k next drain then s2 else s2.sendAccess s.core s.ctx dev act a dest deadline

/-- A load of a blocking class: from the combining buffer, or from the home (R127, R173, R283). -/
def State.blockingLoad (s : State) (i : Instr) (dev : Option Nat) (a z : Nat) (dest : Dest) (acq : Bool) : State :=
  match s.myCore.lines.find? fun l => l.ctx == s.ctx.val && l.dev == dev && l.holds a z with
  | some l =>
    let v : Quad := BitVec.ofNat 128 (bytesToNat ((l.bytes.drop (a - l.addr)).take z))
    (s.setMe (s.me.writeDest dest v false)).done i
  | none => s.holdOrSend i dev (.load z acq) a z dest false none 0

/-- The registers that a destination names: 0 to 31 for x, 32 to 63 for w. -/
def Dest.reg : Dest → Option Nat
  | .x d _ _ => if d = 0 then Option.none else some d.toNat
  | .w d => some (32 + d.toNat)
  | _ => Option.none

/-- A relaxed access takes an entry and goes out; the context goes on (R128, R179). Behind an earlier access to its bytes it
stands in the core until that is acknowledged; a line that it overlaps is sent (R278 case b, R282). -/
def State.relaxedSend (s : State) (i : Instr) (dev : Option Nat) (act : Act) (a n : Nat) (load store : Bool)
    (dest : Dest) : State :=
  let k := s.ctx.val
  let s0 := (s.myCore.lines.filter fun l => l.covers k dev a n).foldl (fun st l => st.sendLine s.core l) s
  let c := s0.myCore
  if !c.entryFree k then
    ((s0.setMyCore { c with entryQueue := if c.entryQueue.contains k then c.entryQueue else c.entryQueue ++ [k] }).keepSlot).park i
      .entry
  else
    let id := s0.nextId
    let r : Request := ⟨id, .ctx s.core k, act, a, dest, true, none⟩
    let waits := c.held k dev a n
    let s1 := s0.fresh.setMyCore { c with entryQueue := setRemove k c.entryQueue,
                                          relaxed := c.relaxed ++ [⟨id, k, store, load, dev, a, n⟩],
                                          waiting := if waits then c.waiting ++ [(dev, r)] else c.waiting }
    let s2 := match dest.reg with
      | some r => s1.setMe { (s1.me.absent r) with pending := s1.me.pending ++ [PendingReg.mk r id] }
      | none => s1
    (if waits then s2 else s2.sendRequest dev r).done i

/-- A relaxed access that stands in its core behind no earlier access to its bytes any more (R278 case b). -/
def Core.mayLeave (c : Core) (w : Option Nat × Request) : Bool :=
  match w.2.src with
  | .ctx _ k => !((c.relaxed.takeWhile fun r => r.id != w.2.id).any fun r =>
      r.ctx == k && r.dev == w.1 && overlaps r.addr r.len w.2.addr w.2.act.size)
  | _ => true

/-- The relaxed accesses of core u that may leave it do so. -/
def State.releaseWaiting (s : State) (u : Nat) : State :=
  let c := s.coreAt u
  (c.waiting.filter c.mayLeave).foldl (fun st w => st.sendRequest w.1 w.2)
    (s.setCore u { c with waiting := c.waiting.filter fun w => !c.mayLeave w })

/-- A relaxed load: the combining buffer serves it, or it is sent (R128, R283). -/
def State.relaxedLoad (s : State) (i : Instr) (dev : Option Nat) (a z : Nat) (dest : Dest) : State :=
  match s.myCore.lines.find? fun l => l.ctx == s.ctx.val && l.dev == dev && l.holds a z with
  | some l =>
    let v : Quad := BitVec.ofNat 128 (bytesToNat ((l.bytes.drop (a - l.addr)).take z))
    (s.setMe (s.me.writeDest dest v false)).done i
  | none => s.relaxedSend i dev (.load z false) a z true false dest

/-- The home channel or shard of another core, here or on another device (R281). -/
def State.combinable (s : State) (dev : Option Nat) (a : Nat) : Bool :=
  match storageOf a with
  | .channel u | .shard u => dev.isSome || u != s.core
  | _ => false

/-- A relaxed store: it merges into a line, takes one, or is sent (R128, R281, R282). -/
def State.relaxedStore (s : State) (i : Instr) (dev : Option Nat) (a z : Nat) (v : Quad) : State :=
  let k := s.ctx.val
  let c := s.myCore
  let bytes := natToBytes z v.toNat
  match c.lines.find? fun l => l.covers k dev a z with
  | some l =>
    (s.setMyCore { c with lines := c.lines.map fun x => if x.id = l.id then x.put a bytes else x }).done i
  | none =>
    if s.combinable dev a && Config.combines s.seq && c.entryFree k && !c.held k dev (a / 64 * 64) 64 then
      let s1 := if c.lines.length < 8 then s else match c.lines with
        | l :: _ => s.sendLine s.core l
        | [] => s
      let id := s1.nextId
      let c1 := s1.myCore
      let line : Line := { id := id, ctx := k, dev := dev, addr := a / 64 * 64, mask := 0, bytes := List.replicate 64 0, bornAt := s.ck }
      (s1.fresh.setMyCore { c1 with entryQueue := setRemove k c1.entryQueue, lines := c1.lines ++ [line.put a bytes],
                                    relaxed := c1.relaxed ++ [⟨id, k, true, false, dev, a / 64 * 64, 64⟩] }).done i
    else s.relaxedSend i dev (.store z v) a z false true .none

/-! ## The checks of R125 and R196 -/

/-- The trap of an access of a context that is not aligned: R125 gives MISALIGNED with its address, before any global address is
formed, and R453 RANGE with the global address, where that lies in a register block. Which of the two it is there is open
(assumption 142). -/
def State.misaligned (s : State) (ea : Word) (ga : Option Word) : TrapInfo :=
  match ga with
  | some g => if storageOf (g.toNat % 2 ^ 48) == .regs && Config.blockRange s.seq then ⟨causeRange, g, 0⟩ else ⟨causeMisaligned, ea, 0⟩
  | none => ⟨causeMisaligned, ea, 0⟩

/-- The global address that an effective address of the issuing context has at once: its own, or that of a page in the TLB. -/
def State.globalOf (s : State) (ea : Word) : Option Word :=
  match s.translate s.core s.ctx ea ⟨false, false, false⟩ with
  | .ok _ _ ga => some ga
  | _ => none

/-- An access of an effective address: the checks in order, and then f with the address. -/
def State.virtualAccess (s : State) (i : Instr) (ea : Word) (z : Nat) (kind : Kind) (need : Need)
    (f : Nat → State → State) : State :=
  if ea.toNat % z ≠ 0 then
    let t := s.misaligned ea (s.globalOf ea)
    s.trap t.code t.value t.aux
  else match s.translate s.core s.ctx ea need with
    | .trap t => s.trap t.code t.value t.aux
    | .miss => s.missPark i ea
    | .ok dev a ga =>
      match s.checkHome dev a ga z kind with
      | some t => s.trap t.code t.value t.aux
      | none => f a s

/-- An access with a capability base (R196, R464). -/
def State.capAccess (s : State) (c : BitVec 4) (index : Word) (off : BitVec 5) (z : Nat) (kind : Kind)
    (needR needW : Bool) (f : Option Nat → Nat → State → State) : State :=
  let q := s.me.cap c
  let o : Int := index.toNat + off.toInt * z
  let offset : Nat := (((capBase q : Int) + o) % (2 ^ 37 : Int)).toNat
  let a := addrOf (capUnit q) offset
  let ga : Word := BitVec.ofNat 64 (capDev q * 2 ^ 48 + a)
  let dev := if capDev q = 0xFFFF ∨ capDev q = s.dev then none else some (capDev q)
  if offset % z ≠ 0 then
    let t := s.misaligned ga (some ga)
    s.trap t.code t.value t.aux
  else if !s.me.ctag.getLsbD c.toNat then s.trap causeCapability ga 1
  else if (needR && !bitOf (capPerm q) 6) || (needW && !bitOf (capPerm q) 5) then s.trap causeCapability ga 2
  else if o < 0 ∨ (capLen q : Int) < o + z then s.trap causeCapability ga 3
  else match s.checkHome dev a ga z kind with
    | some t => s.trap t.code t.value t.aux
    | none => if dev.isSome && !s.inFabric (capDev q) then s.trap causeRange ga else f dev a s

end Sys2Proof.Machine
end

