-- ==== Sys2Proof/Machine/Crossbar.lean ====
section
/-! DEFINITION. The ports of the crossbar, and the order in which they serve what waits for them (R25, R296). -/

namespace Sys2Proof.Machine

/-! ## Ports (R25, R296) -/

/-- The port to which an address belongs: of a cluster, of a tile, or of the SHM of a die. Which banks lie behind which die port is
open (assumption 138). -/
def State.destPort (s : State) (a : Nat) : Nat :=
  match storageOf a with
  | .localStore u => s.cluster u
  | .tileStore n => 64 + n
  | _ => 96 + shmBank (offOf a) / 256

/-- The port from which a beat comes. -/
def State.sourcePort (s : State) (b : Beat) : Nat := if b.src.unit < 1024 then s.cluster b.src.unit else 64 + b.src.unit - 1024

/-- The ports between which a request of a tile for SHM or for the store of another tile moves data: a write from the tile, a read to
it. What moves no data, and what stays in its tile, takes no port; the reads and writes of the homes of cores take the slots of
their message contexts instead (assumption 138). -/
def State.portsOf (s : State) (r : Request) : Option (Nat × Nat) :=
  match r.src with
  | .tile n _ =>
    let far : Bool := match storageOf r.addr with
      | .tileStore m => m != n
      | .shm => true
      | _ => false
    if !far then none
    else match r.act with
      | .write _ _ _ => some (64 + n, s.destPort r.addr)
      | .load _ _ | .await true _ | .capLoad => some (s.destPort r.addr, 64 + n)
      | _ => none
  | _ => none

/-! ## What waits for a port -/

/-- What waits for a port: the port that it comes from, its age there, and whether it can be served. -/
structure Crosser where
  src : Nat
  born : Nat
  ready : Bool
deriving DecidableEq, Repr

/-- A beat behind which no request of its core to the same home is left (R286). -/
def State.beatReady (s : State) (b : Beat) : Bool := !s.requests.any fun r => b.behind.contains r.id

/-- Whether a request is the first of its unit to its home (R286). -/
def State.pairFirst (s : State) (r : Request) : Bool :=
  (s.requests.find? fun x => x.src.unit == r.src.unit && homeOf x.addr == homeOf r.addr).map Request.id == some r.id

/-- An endpoint of a tile by its number. -/
def Tile.epAt (t : Tile) (l : Nat) : Endpoint := t.eps.get (Fin.ofNat 8 l)

/-- Whether an endpoint is being restored and waits for the moved flit of its peer (R406). -/
def State.awaitsMove (s : State) (t l : Nat) : Bool :=
  (s.preempts.any fun j => j.restore && j.phase == 1 && j.map.any (·.2 == t)) && !((s.tileAt t).epAt l).heldBack

/-- Whether a flit is a slot, which crosses as beats. -/
def LinkFlit.isSlot (f : LinkFlit) : Bool :=
  match f.body with
  | .slot _ _ => true
  | _ => false

/-- What waits for a port: beats, requests of tiles that move data, and slots between the tiles of the device. -/
def State.crossers (s : State) (p : Nat) : List Crosser :=
  (s.beats.zipIdx.filterMap fun b => if s.destPort b.1.addr = p then some ⟨s.sourcePort b.1, b.2, s.beatReady b.1⟩ else none) ++
  (s.requests.filterMap fun r => match s.portsOf r with
    | some (q, p') => if p' = p then some ⟨q, r.id, s.pairFirst r⟩ else none
    | none => none) ++
  (s.flits.filterMap fun f =>
    if f.isSlot && f.src.1 == s.dev && 64 + f.tile == p then some ⟨64 + f.src.2.1, f.born, !s.awaitsMove f.tile f.ep⟩ else none)

/-- What a port serves next: of the first source in turn, after the one that it has served last, whose oldest can be served, that
oldest; one source's beats keep their order (R25, R296). -/
def State.crossNext (s : State) (p : Nat) : Option (Nat × Nat) :=
  let all := s.crossers p
  let heads := all.filter fun x => x.ready && !all.any fun y => y.src == x.src && decide (y.born < x.born)
  let last := lookup 0 s.portTurn p
  let turn (x : Crosser) : Nat := (x.src + 97 - last) % 98
  (heads.foldl (fun best x => match best with
    | some y => if turn x < turn y then some x else some y
    | none => some x) none).map fun x => (x.src, x.born)

/-- Whether a request may be performed as far as its port goes. -/
def State.laneFree (s : State) (r : Request) : Bool :=
  match s.portsOf r with
  | none => true
  | some (q, p) => s.crossNext p == some (q, r.id)

/-- The port of a request has served it. -/
def State.useLane (s : State) (r : Request) : State :=
  match s.portsOf r with
  | none => s
  | some (q, p) => { s with portTurn := insertAt p q s.portTurn }

/-- The beat that a port serves next. -/
def State.beatNext (s : State) (p : Nat) : Option Beat :=
  match s.crossNext p with
  | some (q, _) => if q < 64 then s.beats.find? fun b => s.destPort b.addr == p && s.sourcePort b == q else none
  | none => none

end Sys2Proof.Machine
end

