-- ==== Sys2Proof/Machine/Memory.lean ====
section
/-! DEFINITION. The loads and stores of the lookup core in every ordering class (R125 to R128, R173 to R177, R196),
and kld and kst (R94). -/

namespace Sys2Proof.Machine

/-- Bytes of a size (R89). -/
def Size.bytes : Size → Nat
  | .b => 1 | .h => 2 | .w => 4 | .d => 8

/-- The sync classes (R30). -/
def MemOrd.isSync : MemOrd → Bool
  | .consume | .fill | .peek => true
  | _ => false

/-- The class of R30 of a load or a store. -/
def loadKind (o : MemOrd) : Kind := if MemOrd.isSync o then .sync false else .load (o == .plain)
def storeKind (o : MemOrd) : Kind := if MemOrd.isSync o then .sync true else .store (o == .plain)

/-- The offset field of a load or store that is not sync-class; a sync class holds L there (R89). -/
def memOffset (o : MemOrd) (off : BitVec 5) : BitVec 5 := if MemOrd.isSync o then 0 else off

/-- Whether the context's launch refuses waits without a limit (R177). A context of no launch may have them. -/
def State.refusesUnbounded (s : State) : Bool :=
  match s.lcLaunch s.core with
  | some (_, l) => !l.unbounded
  | none => false

/-- The slot from which a limit counts: that of the first issue (R177). -/
def State.issueSlot (s : State) : Nat := (s.me.since).getD s.ck

/-- A load of a class, after its checks (R127, R128, R173, R175). ea is the address in the park record. -/
def State.loadClass (s : State) (i : Instr) (o : MemOrd) (l : BitVec 5) (dev : Option Nat) (a z : Nat) (dest : Dest)
    (ea : Word) (global : Bool) : State :=
  let record := parkRecord 2 l global ea.toNat
  match o with
  | .relaxed => s.relaxedLoad i dev a z dest
  | .acquire => s.blockingLoad i dev a z dest true
  | .consume => s.holdOrSend i dev (.consume z) a z dest false (limitOf s.issueSlot l) record
  | .peek => s.holdOrSend i dev (.peek z) a z dest false (limitOf s.issueSlot l) record
  | .plain | .release | .fill => s.blockingLoad i dev a z dest false

/-- A store of a class, after its checks (R127, R128, R174, R175). -/
def State.storeClass (s : State) (i : Instr) (o : MemOrd) (l : BitVec 5) (dev : Option Nat) (a z : Nat) (v : Quad)
    (ea : Word) (global : Bool) : State :=
  match o with
  | .relaxed => s.relaxedStore i dev a z v
  | .release => s.holdOrSend i dev (.store z v) a z .none true none 0
  | .fill =>
    s.holdOrSend i dev (.fill z v) a z .none true (limitOf s.issueSlot l) (parkRecord 2 l global ea.toNat)
  | .plain | .acquire | .consume | .peek => s.holdOrSend i dev (.store z v) a z .none false none 0

/-- L = 31 in a sync class is refused where the launch forbids it (R177). -/
def State.checkLimit (s : State) (i : Instr) (sync : Bool) (l : BitVec 5) (f : State → State) : State :=
  if sync && l == 31 && s.refusesUnbounded then s.illegal i else f s

/-- What a load needs of the page (R375): consume-sync writes the bit. -/
def loadNeed (o : MemOrd) : Need := ⟨true, o == .consume, false⟩

/-- A load with an x base. -/
def loadX (i : Instr) (o : MemOrd) (off : BitVec 5) (a b : Reg) (z : Nat) (dest : Dest) (s : State) : State :=
  s.checkLimit i (MemOrd.isSync o) off fun s =>
    let ea := effAddr (s.rx a) (s.rx b) (memOffset o off) z
    s.virtualAccess i ea z (loadKind o) (loadNeed o) fun addr s =>
      s.loadClass i o off none addr z dest ea (ea.toNat / 2 ^ 48 != 0)

/-- A store with an x base. -/
def storeX (i : Instr) (o : MemOrd) (off : BitVec 5) (a b : Reg) (z : Nat) (v : Quad) (s : State) : State :=
  s.checkLimit i (MemOrd.isSync o) off fun s =>
    let ea := effAddr (s.rx a) (s.rx b) (memOffset o off) z
    s.virtualAccess i ea z (storeKind o) ⟨false, true, false⟩ fun addr s =>
      s.storeClass i o off none addr z v ea (ea.toNat / 2 ^ 48 != 0)

/-- A load with a capability base (R196). -/
def loadC (i : Instr) (o : MemOrd) (off : BitVec 5) (a b : Reg) (z : Nat) (dest : Dest) (s : State) : State :=
  s.checkLimit i (MemOrd.isSync o) off fun s =>
    s.capAccess (a.setWidth 4) (s.rx b) (memOffset o off) z (loadKind o) true (o == .consume) fun dev addr s =>
      s.loadClass i o off dev addr z dest (BitVec.ofNat 64 addr) true

/-- A store with a capability base (R196). -/
def storeC (i : Instr) (o : MemOrd) (off : BitVec 5) (a b : Reg) (z : Nat) (v : Quad) (s : State) : State :=
  s.checkLimit i (MemOrd.isSync o) off fun s =>
    s.capAccess (a.setWidth 4) (s.rx b) (memOffset o off) z (storeKind o) false true fun dev addr s =>
      s.storeClass i o off dev addr z v (BitVec.ofNat 64 addr) true

/-! ## The instructions -/

def execLd (m : MemOp) (s : State) : Out :=
  .next (lcIssue (.ld m) [.x m.a, .x m.b, .x m.d]
    (loadX (.ld m) m.ord m.off m.a m.b (Size.bytes m.size) (.x m.d (Size.bytes m.size) true)) s)

def execLdn (m : MemOp) (s : State) : Out :=
  .next (lcIssue (.ldn m) [.x m.a, .x m.b, .x m.d]
    (loadX (.ldn m) m.ord m.off m.a m.b (Size.bytes m.size) (.x m.d (Size.bytes m.size) false)) s)

def execSt (m : MemOp) (s : State) : Out :=
  .next (lcIssue (.st m) [.x m.a, .x m.b, .x m.d]
    (fun s => storeX (.st m) m.ord m.off m.a m.b (Size.bytes m.size) ((s.rx m.d).zeroExtend 128) s) s)

def execLdq (m : QuadOp) (s : State) : Out :=
  .next (lcIssue (.ldq m) [.x m.a, .x m.b, .w m.d] (loadX (.ldq m) m.ord m.off m.a m.b 16 (.w m.d)) s)

def execStq (m : QuadOp) (s : State) : Out :=
  .next (lcIssue (.stq m) [.x m.a, .x m.b, .w m.d]
    (fun s => storeX (.stq m) m.ord m.off m.a m.b 16 (s.rw m.d) s) s)

def execLdCap (m : MemOp) (s : State) : Out :=
  .next (lcIssue (.ldCap m) [.x m.b, .x m.d]
    (loadC (.ldCap m) m.ord m.off m.a m.b (Size.bytes m.size) (.x m.d (Size.bytes m.size) true)) s)

def execLdnCap (m : MemOp) (s : State) : Out :=
  .next (lcIssue (.ldnCap m) [.x m.b, .x m.d]
    (loadC (.ldnCap m) m.ord m.off m.a m.b (Size.bytes m.size) (.x m.d (Size.bytes m.size) false)) s)

def execStCap (m : MemOp) (s : State) : Out :=
  .next (lcIssue (.stCap m) [.x m.b, .x m.d]
    (fun s => storeC (.stCap m) m.ord m.off m.a m.b (Size.bytes m.size) ((s.rx m.d).zeroExtend 128) s) s)

def execLdqCap (m : QuadOp) (s : State) : Out :=
  .next (lcIssue (.ldqCap m) [.x m.b, .w m.d] (loadC (.ldqCap m) m.ord m.off m.a m.b 16 (.w m.d)) s)

def execStqCap (m : QuadOp) (s : State) : Out :=
  .next (lcIssue (.stqCap m) [.x m.b, .w m.d]
    (fun s => storeC (.stqCap m) m.ord m.off m.a m.b 16 (s.rw m.d) s) s)

/-- kld: ld.d with a base and no offset (R94). -/
def execKld (d b : Reg) (s : State) : Out :=
  .next (lcIssue (.kld d b) [.x b, .x d] (loadX (.kld d b) .plain 0 b 0 8 (.x d 8 true)) s)

/-- kst: st.d with a base and no offset (R94). -/
def execKst (a b : Reg) (s : State) : Out :=
  .next (lcIssue (.kst a b) [.x a, .x b] (fun s => storeX (.kst a b) .plain 0 b 0 8 ((s.rx a).zeroExtend 128) s) s)

end Sys2Proof.Machine
end

