-- ==== Sys2Proof/Machine/Sync.lean ====
section
/-! DEFINITION. Atomics and arrivals (R178, R179), waitv (R180, R181), fences (R182, R288) and scopes (R192). -/

namespace Sys2Proof.Machine

/-! ## Atomics (R178, R179) -/

/-- An atomic at x[a] with its act, in its class. -/
def atomicX (i : Instr) (o : MemOrd) (a d : Reg) (z : Nat) (act : State → Act) (s : State) : State :=
  let ea := s.rx a
  s.virtualAccess i ea z .atomic ⟨true, true, false⟩ fun addr s =>
    match o with
    | .relaxed => s.relaxedSend i none (act s) addr z true true (.x d z true)
    | .release => s.holdOrSend i none (act s) addr z (.x d z true) true none 0
    | .plain | .acquire | .consume | .fill | .peek => s.holdOrSend i none (act s) addr z (.x d z true) false none 0

/-- Bytes of an atomic (R89). -/
def amoBytes (wide : Bool) : Nat := if wide then 8 else 4

/-- amo of a kind. -/
def amo (i : Instr) (kind : AmoKind) (m : AmoOp) (s : State) : Out :=
  .next (lcIssue i [.x m.a, .x m.b, .x m.d]
    (atomicX i m.ord m.a m.d (amoBytes m.wide) (fun s => .amo kind (amoBytes m.wide) (s.rx m.b))) s)

def execAmoadd (m : AmoOp) (s : State) : Out := amo (.amoadd m) .add m s
def execAmofadd (m : AmoOp) (s : State) : Out := amo (.amofadd m) .fadd m s
def execAmomin (m : AmoOp) (s : State) : Out := amo (.amomin m) .min m s
def execAmomax (m : AmoOp) (s : State) : Out := amo (.amomax m) .max m s
def execAmoswap (m : AmoOp) (s : State) : Out := amo (.amoswap m) .swap m s
def execAmoand (m : AmoOp) (s : State) : Out := amo (.amoand m) .and m s
def execAmoor (m : AmoOp) (s : State) : Out := amo (.amoor m) .or m s
def execAmoxor (m : AmoOp) (s : State) : Out := amo (.amoxor m) .xor m s

/-- amocas: x[d] holds the expected value, read at issue. -/
def execAmocas (m : AmoOp) (s : State) : Out :=
  .next (lcIssue (.amocas m) [.x m.a, .x m.b, .x m.d]
    (atomicX (.amocas m) m.ord m.a m.d (amoBytes m.wide) (fun s => .cas (amoBytes m.wide) (s.rx m.d) (s.rx m.b))) s)

/-- arrive: a release-class arrival at an SHM word (R178, R299). -/
def execArrive (d a b : Reg) (s : State) : Out :=
  .next (lcIssue (.arrive d a b) [.x a, .x b, .x d] (fun s =>
    if s.rx b >>> 33 ≠ 0 then s.illegal (.arrive d a b)
    else
      s.virtualAccess (.arrive d a b) (s.rx a) 8 (.shmOnly true) ⟨true, true, false⟩ fun addr s =>
        s.holdOrSend (.arrive d a b) none (.arrive ((s.rx b).setWidth 32) ((s.rx b).getLsbD 32)) addr 8
          (.x d 8 true) true none 0) s)

/-! ## waitv (R180, R181) -/

def execWaitv (cond : WaitCond) (wide : Bool) (lw : BitVec 5) (d a b : Reg) (s : State) : Out :=
  .next (lcIssue (.waitv cond wide lw d a b) [.x a, .x b, .x d] (fun s =>
    s.checkLimit (.waitv cond wide lw d a b) true lw fun s =>
      let z := amoBytes wide
      let ea := s.rx a
      s.virtualAccess (.waitv cond wide lw d a b) ea z (.shmOnly false) ⟨true, false, false⟩ fun addr s =>
        s.holdOrSend (.waitv cond wide lw d a b) none (.watch cond z (s.rx b)) addr z (.x d z true) false
          (limitOf s.issueSlot lw) (parkRecord 3 lw (ea.toNat / 2 ^ 48 != 0) ea.toNat)) s)

/-! ## Fences (R182, R288) -/

/-- Whether a fence of a level covers the home of an access of core u (R182). -/
def State.covers (s : State) (lv : Level) (u : Nat) (dev : Option Nat) (a : Nat) : Bool :=
  let near (v : Nat) : Bool :=
    match lv with
    | .core => v == u
    | .cluster => s.cluster v == s.cluster u
    | .die => dieOf (s.position v) == dieOf (s.position u)
    | .device | .fabric => true
  match lv, dev with
  | .fabric, _ => true
  | _, some _ => false
  | .device, none => true
  | _, none =>
    match storageOf a with
    | .localStore v | .channel v | .shard v => near v
    | .shm => lv == .die && shmBank (offOf a) / 256 == dieOf (s.position u)
    | .tileStore n => lv == .die && n / 16 == dieOf (s.position u)
    | _ => false

/-- The accesses that a fence of context k of core u waits for are done (R182). -/
def State.fenceDone (s : State) (u k : Nat) (lv : Level) : Bool :=
  let c := s.coreAt u
  (c.relaxed.all fun r => r.ctx != k || !(r.load || (r.store && s.covers lv u r.dev r.addr))) &&
    !(c.lines.any fun l => l.ctx == k) && !(c.gcmds.any fun g => g.ctx == k)

/-- Parks on a fence; a fence with nothing to wait for is complete. -/
def State.fenceAt (s : State) (i : Instr) (lv : Level) : State :=
  let s1 := s.sendLines s.core s.ctx.val
  if s1.fenceDone s.core s.ctx.val lv then s1.done i else s1.park i (.fence lv)

def execFence (lv : Level) (s : State) : Out := .next (lcIssue (.fence lv) [] (fun s => s.fenceAt (.fence lv) lv) s)

/-- The level of a scope table for the issuing core: the lowest whose homes include its members (R288). -/
def State.scopeLevel (s : State) (u n : Nat) : Level :=
  let a := scopeAddr n
  let mask := s.readNat a 128
  let dts := s.readNat (a + 0x80) 4
  let list := s.readNat (a + 0x88) 8
  let box := list % 2 ^ 32
  let lcs := (List.range 1008).filter fun v => bitOf mask v
  let abroad := bitOf list 63 && !(boxAlone box || (boxCount box == 1 && boxBase box == s.dev))
  if abroad then .fabric
  else if dts = 0 ∧ lcs.all (· == u) then .core
  else if dts = 0 ∧ lcs.all fun v => s.cluster v == s.cluster u then .cluster
  else if (lcs.all fun v => dieOf (s.position v) == dieOf (s.position u)) &&
      ((List.range 32).all fun t => !bitOf dts t || t / 16 == dieOf (s.position u)) then .die
  else .device

/-- A scope table with a failing beat is read as a load reads it (R417). -/
def execFenceScope (n : BitVec 6) (s : State) : Out :=
  .next (lcIssue (.fenceScope n) [] (fun s =>
    match s.failedBeat (scopeAddr n.toNat) 256 with
    | some b => (s.logBeat b 1 ((s.lcLaunch s.core).map (·.1))).trap causeIntegrity (gaWord b)
    | none => s.fenceAt (.fenceScope n) (s.scopeLevel s.core n.toNat)) s)

/-! ## Scopes (R192) -/

/-- The bit of the issuing core in a scope table; the service core has none. -/
def State.scopeBit (s : State) : Option Nat := if s.core < 1008 then some s.core else none

def scopeAct (i : Instr) (put : Bool) (d a : Reg) (s : State) : Out :=
  .next (lcIssue i [.x a, .x d] (fun s =>
    if 64 ≤ (s.rx a).toNat then s.illegal i
    else
      s.holdOrSend i none (.scope s.scopeBit put) (scopeAddr (s.rx a).toNat) 128 (.x d 8 false) false none 0) s)

def execSjoin (d a : Reg) (s : State) : Out := scopeAct (.sjoin d a) true d a s
def execSleave (d a : Reg) (s : State) : Out := scopeAct (.sleave d a) false d a s

end Sys2Proof.Machine
end

