-- ==== Sys2Proof/Machine/Messages.lean ====
section
/-! DEFINITION. Messages and work: core identifiers (R171), sendr (R183), wait (R184), senda, hld and unhld (R185 to
R188), spawn, fork, join, steal, start and reap (R189 to R191), and the ends of contexts. -/

namespace Sys2Proof.Machine

/-! ## Core identifiers (R171, R172) -/

/-- The device of an identifier: none for this one. -/
def State.devOf (s : State) (v : Word) : Option Nat :=
  let d := v.toNat / 2 ^ 48
  if d = 0xFFFF ∨ d = s.dev then none else some d

def unitOfId (v : Word) : Nat := bitsOf v.toNat 37 11

/-- The checks of R171 and R464; the launch is that of the issuing unit. ctxUsed allows bits [3:0]. -/
def State.checkId (s : State) (launch : Option Launch) (v : Word) (ctxUsed : Bool) : Option TrapInfo :=
  let unit := unitOfId v
  let dev := (s.devOf v).getD s.dev
  if 1007 < unit then some ⟨causeRange, v, 0⟩
  else if bitsOf v.toNat 4 33 ≠ 0 ∨ (!ctxUsed ∧ bitsOf v.toNat 0 4 ≠ 0) then some ⟨causeRange, v, 0⟩
  else if (match launch with
      | some l => (boxRank (if boxAlone l.box then l.home else s.dev) l.box dev).isNone || !l.hasLc unit
      | none => false) then some ⟨causeProtection, v, 0⟩
  else if (s.devOf v).isSome && !s.inFabric dev then some ⟨causeRange, v, 0⟩
  else none

/-- The launch of the issuing core. -/
def State.myLaunch (s : State) : Option Launch := (s.lcLaunch s.core).map (·.2)

/-! ## Starting and ending contexts (R184, R189, R190, R395) -/

/-- Whether a context may be taken for new work (R189). -/
def Core.eligible (c : Core) (k : Fin 16) : Bool :=
  c.isUser k.val && (c.ctxs.get k).state == .free && (c.ctxs.get k).fwd.isNone

/-- The lowest-numbered eligible context. -/
def Core.firstEligible (c : Core) : Option (Fin 16) := (List.finRange 16).find? c.eligible

/-- Writes values to x registers from xn on. -/
def Context.setArgs (c : Context) (n : Nat) : List Word → Context
  | [] => c
  | v :: vs => (c.setX (BitVec.ofNat 5 n) v).setArgs (n + 1) vs

/-- Where the workspace of a context keeps TVEC (R79). -/
def State.tvecAddr (s : State) (u : Nat) (k : Fin 16) : Nat := lsAddr u ((s.ctxAt u k).wsp.toNat + 0x328)

/-- The registers of a context that begins (R189, R361): TVEC is what its workspace holds, and a free value where that beat fails
(R417; assumption 167). -/
def State.freshContext (s : State) (u : Nat) (k : Fin 16) : Context :=
  let old := s.ctxAt u k
  let base := ((coreReset u).ctxs.get k)
  let tvec := match s.failedBeat (s.tvecAddr u k) 8 with
    | some _ => (Config.freeWord s.seq).toNat
    | none => s.readNat (s.tvecAddr u k) 8
  { base with wsp := old.wsp, tvec := BitVec.ofNat 18 (bitsOf tvec 1 17 * 2), readyAt := s.ck + 1 }

/-- The stream slots of a context become free. -/
def Core.freeSlots (c : Core) (k : Nat) : Core :=
  { c with slots := c.slots.map fun x => if x.isOpen && x.owner == k then StreamSlot.none else x }

/-- A context enters RUN at an entry PC with x10 on (R189). -/
def State.startContext (s : State) (u : Nat) (k : Fin 16) (pc : Word) (args : List Word) (origin : Origin) : State :=
  let c := (s.freshContext u k).setArgs 10 args
  let reaper := if origin = .started then BitVec.ofNat 64 (0xFFFF * 2 ^ 48 + u * 2 ^ 37) else 0
  let s' := (s.logConsumed (s.tvecAddr u k) 8 ((s.lcLaunch u).map (·.1))).setCtx u k { c with state := .run, pc := pc.setWidth 18, origin := origin, reaper := reaper }
  s'.setCore u ((s'.coreAt u).freeSlots k.val)

/-- Waiting continuations take eligible contexts in arrival order (R191). -/
def State.serveConts (s : State) (u : Nat) : Nat → State
  | 0 => s
  | n + 1 =>
    let c := s.coreAt u
    match c.conts, c.firstEligible with
    | x :: rest, some k => ((s.setCore u { c with conts := rest }).startContext u k x.epc [x.arg, 0, 0, 0] .joined).serveConts u n
    | _, _ => s

/-- Forwarding entries that lead to a context are cleared, hop by hop (R395). -/
def State.clearForward (s : State) (u k : Nat) : Nat → State
  | 0 => s
  | n + 1 =>
    let target := BitVec.ofNat 64 (0xFFFF * 2 ^ 48 + u * 2 ^ 37 + k)
    let hit := s.cores.findSome? fun x =>
      ((List.finRange 16).find? fun j => ((x.2.ctxs.get j).fwd.map Forward.target) == some target).map fun j => (x.1, j)
    match hit with
    | none => s
    | some (v, j) =>
      let s1 := s.setCtx v j { s.ctxAt v j with fwd := none }
      (s1.clearForward v j.val n).serveConts v 64

/-- A context becomes FREE, and its workspace is unbound (R184, R190). -/
def State.freeContext (s : State) (u : Nat) (k : Fin 16) : State :=
  let s1 := s.setCtx u k { s.ctxAt u k with state := .free, park := .none, parkRec := 0, deadline := none, moved := false }
  let s2 := s1.setCore u ((s1.coreAt u).freeSlots k.val)
  (s2.clearForward u k.val 4096).serveConts u 64

/-- Where a context is now: the chain of forwarding entries (R395). -/
def State.follow (s : State) (u : Nat) (k : Fin 16) : Nat → Nat × Fin 16
  | 0 => (u, k)
  | n + 1 =>
    match (s.ctxAt u k).fwd with
    | some f => s.follow (unitOfId f.target) (ctxIdx (f.target.toNat % 16)) n
    | none => (u, k)

/-- A slot that start and reap see as FREE: one that also holds no forwarding entry (R200). -/
def Context.slotFree (c : Context) : Bool := c.state == .free && c.fwd.isNone

/-- The lowest-numbered user context that is not FREE (R184). -/
def Core.firstBusy (c : Core) : Option (Fin 16) :=
  (List.finRange 16).find? fun k => c.isUser k.val && !(c.ctxs.get k).slotFree

/-- The stores of a context are acknowledged and it holds no buffered line (R282). -/
def Core.storesDone (c : Core) (k : Nat) : Bool :=
  !(c.relaxed.any fun r => r.ctx == k && r.store) && !(c.lines.any (·.ctx == k))

/-- Whether the end of a context may come now (R184, R282). -/
def State.mayEnd (s : State) (u : Nat) (k : Fin 16) : Bool :=
  (s.coreAt u).storesDone k.val && (k != 0 || (s.coreAt u).firstBusy.isNone)

/-- The end of the program of a head or user context (R184). -/
def State.endContext (s : State) (u : Nat) (k : Fin 16) : State :=
  let c := s.ctxAt u k
  if k = 0 ∨ c.origin = .started then
    let s1 := s.setCtx u k { c with state := .done, park := .none, parkRec := 0, deadline := none }
    s1.setCore u ((s1.coreAt u).freeSlots k.val)
  else s.freeContext u k

/-! ## Sends with a release drain (R174) -/

/-- fork: a task for the deque, newest first (R190). -/
def State.pushTask (s : State) (u : Nat) (k : Fin 16) (d : Reg) (pc : Word) : State :=
  let c := s.coreAt u
  let x := s.ctxAt u k
  if c.deque.length < 64 then
    let task : Task := ⟨pc, [x.xr 10, x.xr 11, x.xr 12, x.xr 13], c.launch⟩
    let s1 := s.setCore u { c with deque := task :: c.deque }
    (s1.setCtx u k ((s1.ctxAt u k).setX d 0)).finishAt u k
  else (s.setCtx u k (x.setX d 1)).finishAt u k

/-- start: a FREE and eligible context takes the entry (R190). -/
def State.startNow (s : State) (u : Nat) (k : Fin 16) (d : Reg) (j : Nat) (pc : Word) : State :=
  let x := s.ctxAt u k
  if (s.coreAt u).eligible (ctxIdx j) then
    let s1 := s.startContext u (ctxIdx j) pc [x.xr 10, x.xr 11, x.xr 12, x.xr 13] .started
    (s1.setCtx u k ((s1.ctxAt u k).setX d 0)).finishAt u k
  else (s.setCtx u k (x.setX d 1)).finishAt u k

/-- A send whose waits are over. -/
def State.performSend (s : State) (u : Nat) (k : Fin 16) (n : Send) : State :=
  match n with
  | .access dev act a dest deadline => s.sendAccess u k dev act a dest deadline
  | .message dev body d refusal spawnPc => s.sendMessage u k dev body d refusal spawnPc
  | .fork d pc => s.pushTask u k d pc
  | .start d j pc => s.startNow u k d j pc

/-- A release-ordered instruction: the drain, and what an access waits for besides, then the send (R174, R278 case b). -/
def State.releaseSend (s : State) (i : Instr) (n : Send) : State :=
  let s1 := (s.sendLines s.core s.ctx.val).park i (.hold n true)
  if s1.myCore.sendWaits s.ctx.val n true then s1 else s1.performSend s.core s.ctx n

/-! ## sendr, senda, hld, unhld (R183, R185, R186) -/

def execSendr (tctx : BitVec 4) (treg : BitVec 6) (d a b : Reg) (s : State) : Out :=
  let i := Instr.sendr tctx treg d a b
  let pair := if treg.toNat < 32 then [] else [RegUse.x (b + 1)]
  .next (lcIssue i ([.x a, .x b, .x d] ++ pair) (fun s =>
    let t := s.rx a
    match s.checkId s.myLaunch t false with
    | some tr => s.trap tr.code tr.value tr.aux
    | none =>
      let value : Quad := if treg.toNat < 32 then (s.rx b).zeroExtend 128 else s.rx (b + 1) ++ s.rx b
      let named := BitVec.ofNat 64 (t.toNat / 2 ^ 37 * 2 ^ 37 + treg.toNat * 2 ^ 4 + tctx.toNat)
      let refusal := if d = 0 then some (causeRegister, named) else none
      s.releaseSend i (.message (s.devOf t) (.register (unitOfId t) tctx treg value) d refusal none)) s)

def execSenda (hidx : BitVec 8) (d a b : Reg) (s : State) : Out :=
  let i := Instr.senda hidx d a b
  .next (lcIssue i [.x a, .x b, .x d] (fun s =>
    let t := s.rx a
    match s.checkId s.myLaunch t false with
    | some tr => s.trap tr.code tr.value tr.aux
    | none =>
      let refusal := if d = 0 then some (causeQueue, queueId ((s.devOf t).getD s.dev) (unitOfId t) 1) else none
      s.releaseSend i (.message (s.devOf t) (.active (unitOfId t) hidx (s.rx b) (s.coreId s.core s.ctx.val)) d refusal none)) s)

/-- The HOLD bits that a selection in a ck sees (R185). -/
def Core.holdBits (c : Core) (ck : Nat) : BitVec 256 := if c.holdAt < ck then c.holdNext else c.hold

/-- hld and unhld: the bit changes for selections from the next ck on. -/
def setHold (i : Instr) (h : BitVec 8) (put : Bool) (s : State) : Out :=
  .next (lcIssue i [] (fun s =>
    let c := s.myCore
    let cur := c.holdBits s.ck
    let bit := BitVec.twoPow 256 h.toNat
    let latest := if c.holdAt < s.ck then cur else c.holdNext
    let new := if put then latest ||| bit else latest &&& ~~~bit
    (s.setMyCore { c with hold := cur, holdNext := new, holdAt := s.ck }).done i) s)

def execHld (h : BitVec 8) (s : State) : Out := setHold (.hld h) h true s
def execUnhld (h : BitVec 8) (s : State) : Out := setHold (.unhld h) h false s

/-! ## spawn, fork, join, steal, start, reap (R190, R191) -/

/-- The check of an entry PC (R189). -/
def badPc (v : Word) : Bool := v.getLsbD 0 || decide (2 ^ 18 ≤ v.toNat)

/-- x10 to x13. -/
def argRegs : List RegUse := [.x 10, .x 11, .x 12, .x 13]

def execSpawn (d a b : Reg) (s : State) : Out :=
  let i := Instr.spawn d a b
  .next (lcIssue i ([.x a, .x b, .x d] ++ argRegs) (fun s =>
    let t := s.rx a
    match s.checkId s.myLaunch t false with
    | some tr => s.trap tr.code tr.value tr.aux
    | none =>
      if badPc (s.rx b) then s.trap causeMisaligned (s.rx b)
      else
        s.releaseSend i (.message (s.devOf t) (.spawn (unitOfId t) (s.rx b) [s.rx 10, s.rx 11, s.rx 12, s.rx 13]) d none
          (some (s.rx b)))) s)

def execFork (d b : Reg) (s : State) : Out :=
  let i := Instr.fork d b
  .next (lcIssue i ([.x b, .x d] ++ argRegs) (fun s =>
    if badPc (s.rx b) then s.trap causeMisaligned (s.rx b) else s.releaseSend i (.fork d (s.rx b))) s)

/-- join: the decrement at the bank of COUNT (R191). The record is 32 bytes of SHM. -/
def execJoin (a : Reg) (s : State) : Out :=
  let i := Instr.join a
  .next (lcIssue i [.x a] (fun s =>
    s.virtualAccess i (s.rx a) 32 (.shmOnly true) ⟨true, true, false⟩ fun addr s =>
      s.releaseSend i (.access none .join addr .none none)) s)

/-- The task that steal takes: its core and its place in that deque (R190). -/
def State.findTask (s : State) : Option (Nat × Nat × Task) :=
  let c := s.myCore
  let mine (t : Task) : Bool := t.launch == c.launch
  match c.deque.findIdx? mine with
  | some n => (c.deque[n]?).map fun t => (s.core, n, t)
  | none =>
    let near := (List.range 1008).filter fun u => u != s.core && s.cluster u == s.cluster s.core
    let byIndex := (List.range 16).filterMap fun j => near.find? fun u => localIndex (s.position u) == j
    byIndex.findSome? fun u =>
      let q := (s.coreAt u).deque
      let old := q.reverse
      (old.findIdx? mine).bind fun n => (old[n]?).map fun t => (u, q.length - 1 - n, t)

def execSteal (d : Reg) (s : State) : Out :=
  let i := Instr.steal d
  .next (lcIssue i [.x d] (fun s =>
    match s.myCore.firstEligible with
    | none => (s.wx d (BitVec.allOnes 64)).done i
    | some k =>
      match s.findTask with
      | none => (s.wx d (BitVec.allOnes 64 - 1)).done i
      | some (u, n, t) =>
        let s1 := s.setCore u { s.coreAt u with deque := (s.coreAt u).deque.eraseIdx n }
        ((s1.startContext s.core k t.pc t.args .spawned).wx d (BitVec.ofNat 64 k.val)).done i) s)

def execStart (d a b : Reg) (s : State) : Out :=
  let i := Instr.start d a b
  .next (lcIssue i ([.x a, .x b, .x d] ++ argRegs) (fun s =>
    if s.ctx ≠ 0 then s.illegal i
    else if !s.myCore.isUser (s.rx a).toNat then s.illegal i
    else if badPc (s.rx b) then s.trap causeMisaligned (s.rx b)
    else s.releaseSend i (.start d (s.rx a).toNat (s.rx b))) s)

/-- Whether a reap may end: the context is DONE, and its commands and its accesses have completed (R190, R278). -/
def State.reapReady (s : State) (u : Nat) (k : Fin 16) : Bool :=
  let t := s.follow u k 4096
  (s.ctxAt t.1 t.2).state == .done && !((s.coreAt t.1).gcmds.any (·.ctx == t.2.val)) &&
    (s.coreAt t.1).storesDone t.2.val && !((s.coreAt t.1).relaxed.any (·.ctx == t.2.val))

/-- The end of a reap by the head of core u: xd takes x10, and the context becomes FREE (R190, R395). -/
def State.reapNow (s : State) (u : Nat) (d : Reg) (k : Fin 16) : State :=
  let t := s.follow u k 4096
  let v := (s.ctxAt t.1 t.2).xr 10
  let s1 := s.freeContext t.1 t.2
  (s1.setCtx u 0 ((s1.ctxAt u 0).setX d v)).finishAt u 0

def execReap (d a : Reg) (s : State) : Out :=
  let i := Instr.reap d a
  .next (lcIssue i [.x a, .x d] (fun s =>
    let k := (s.rx a).toNat
    if s.ctx ≠ 0 then s.illegal i
    else if !s.myCore.isUser k then s.illegal i
    else if (s.myCore.ctxs.get (ctxIdx k)).slotFree then (s.wx d (BitVec.allOnes 64)).done i
    else
      let s1 := s.park i (.reap d k) (limitOf s.ck s.me.lwd) (parkRecord 4 s.me.lwd false k)
      if s1.reapReady s.core (ctxIdx k) then s1.reapNow s.core d (ctxIdx k) else s1) s)

/-! ## wait (R184) -/

/-- End of the program or the handler. -/
def waitEnd (i : Instr) (s : State) : State :=
  let c := s.myCore
  if s.ctx = c.transformCtx then s.illegal i
  else if s.ctx = c.messageCtx then
    (s.setMyCore { c with handling := false }).setMe
      { s.me with state := .parked, park := .queue, deadline := none, parkRec := 0, parkedAt := s.ck, since := none }
  else
    let s1 := s.sendLines s.core s.ctx.val
    if s1.mayEnd s.core s.ctx then s1.endContext s.core s.ctx
    else
      let limit := if s.ctx = 0 then limitOf s.ck s.me.lwd else none
      let busy := (s1.myCore.firstBusy.map (·.val)).getD 0
      s1.park i .ending limit (if s.ctx = 0 then parkRecord 4 s.me.lwd false busy else 0)

/-- The registers of a mask: bit n for xn, bit 32 + n for wn; bit 0 is ignored. -/
def maskRegs (m : Word) : List RegUse :=
  (List.range 64).filterMap fun n =>
    if n = 0 ∨ !m.getLsbD n then none
    else if n < 32 then some (.x (BitVec.ofNat 5 n)) else some (.w (BitVec.ofNat 5 (n - 32)))

/-- Arms registers: their presence bits are cleared. -/
def State.arm (s : State) (regs : List RegUse) : State := s.setMe (regs.foldl (fun c r => c.absent r.num) s.me)

def execWait (d a : Reg) (s : State) : Out :=
  let i := Instr.wait d a
  if d = 0 ∧ a = 0 then .next (lcIssue i [] (waitEnd i) s)
  else if a = 0 then .next (lcIssue i [.x d] (fun s => (s.arm [.x d]).done i) s)
  else
    .next (lcIssue i [.x a] (fun s =>
      lcIssue i (maskRegs (s.rx a)) (fun s => (s.arm (maskRegs (s.rx a))).done i) s) s)

end Sys2Proof.Machine
end

