-- ==== Sys2Proof/Machine/Capabilities.lean ====
section
/-! DEFINITION. cld, cst, cmk and cinfo (R193 to R195). -/

namespace Sys2Proof.Machine

def execCld (d : BitVec 4) (a b : Reg) (s : State) : Out :=
  let i := Instr.cld d a b
  .next (lcIssue i [.x a, .x b] (fun s =>
    s.virtualAccess i (s.rx a + s.rx b) 16 (.shmOnly false) ⟨true, true, false⟩ fun addr s =>
      s.holdOrSend i none .capLoad addr 16 (.cap d) false none 0) s)

/-- cst: the stored tag is the register's tag AND its D permission. -/
def execCst (d : BitVec 4) (a b : Reg) (s : State) : Out :=
  let i := Instr.cst d a b
  .next (lcIssue i [.x a, .x b] (fun s =>
    s.virtualAccess i (s.rx a + s.rx b) 16 (.shmOnly true) ⟨true, true, false⟩ fun addr s =>
      let q := s.me.cap d
      s.holdOrSend i none (.capStore q (s.me.ctag.getLsbD d.toNat && bitOf (capPerm q) 0)) addr 16 .none false none 0) s)

/-- A capability with BASE, LEN and permissions replaced (R193). -/
def capWith (q : Quad) (base len perm : Nat) : Quad :=
  BitVec.ofNat 128 (bitsOf q.toNat 101 27 * 2 ^ 101 + base % 2 ^ 37 * 2 ^ 64 + len % 2 ^ 37 * 2 ^ 27 + perm * 2 ^ 20 +
    bitsOf q.toNat 0 20)

def execCmk (d a : BitVec 4) (b : Reg) (s : State) : Out :=
  let i := Instr.cmk d a b
  .next (lcIssue i [.x b, .x (b + 1)] (fun s =>
    let x := (s.rx b).toNat
    let y := (s.rx (b + 1)).toNat
    if x / 2 ^ 44 ≠ 0 ∨ y / 2 ^ 37 ≠ 0 then s.illegal i
    else
      let q := s.me.cap a
      let o := bitsOf x 0 37
      let n := bitsOf y 0 37
      let perm := capPerm q &&& bitsOf x 37 7
      let tag := s.me.ctag.getLsbD a.toNat && bitOf (capPerm q) 0 && decide (o + n ≤ capLen q)
      let q' := capWith q (capBase q + o) n perm
      (s.setMe (s.me.setCap d q' (s.sweptTag q' tag))).done i) s)

/-- A field of a capability register, tagged or not (R195). -/
def capField (q : Quad) (tag : Bool) (sel : BitVec 3) : Word :=
  match sel.toNat with
  | 0 => BitVec.ofNat 64 (capBase q)
  | 1 => BitVec.ofNat 64 (capLen q)
  | 2 => BitVec.ofNat 64 (capPerm q)
  | 3 => BitVec.ofNat 64 (capTid q)
  | 4 => ofBool tag
  | 5 => BitVec.ofNat 64 (capDev q)
  | 6 => BitVec.ofNat 64 (capUnit q)
  | _ => BitVec.ofNat 64 (capDev q * 2 ^ 48 + capUnit q * 2 ^ 37 + capBase q)

def execCinfo (d : Reg) (a : BitVec 4) (sel : BitVec 3) (s : State) : Out :=
  .next (lcIssue (.cinfo d a sel) [.x d] (fun s =>
    (s.wx d (capField (s.me.cap a) (s.me.ctag.getLsbD a.toNat) sel)).done (.cinfo d a sel)) s)

end Sys2Proof.Machine
end

