-- ==== Sys2Proof/Machine/Rings.lean ====
section
/-! DEFINITION. What the device sends to the host: MSI-X messages (R457) and the records of the three host rings (R454
to R456). -/

namespace Sys2Proof.Machine

/-- A word of the MSI-X table in BAR2: 0 the message address of a vector, 1 its data and its control (R450). -/
def State.msixWord (s : State) (v i : Nat) : Word := lookup 0 s.msixTable (2 * v + i)

/-- The message of a vector, as the table has it. -/
def State.msixPost (s : State) (v : Nat) : Post := .msix v (s.msixWord v 0) ((s.msixWord v 1).setWidth 32)

/-- An MSI-X message of a vector; a masked vector keeps it pending (R457). -/
def State.msix (s : State) (v : Nat) : State :=
  if s.msixMask.getLsbD v then { s with msixPend := s.msixPend ||| BitVec.twoPow 68 v }
  else { s with posts := s.posts ++ [s.msixPost v] }

/-- The offset of a register of ring k: 0 HRBASE, 1 HRCFG, 2 HRPROD, 3 HRCONS (R452). -/
def ringReg (k n : Nat) : Nat := 0x100 + 32 * k + 8 * n

/-- Whether ring k may take a record (R455). -/
def State.ringRoom (s : State) (k : Nat) : Bool :=
  let cfg := (s.reg (ringReg k 1)).toNat
  let prod := (s.reg (ringReg k 2)).toNat % 2 ^ 32
  let cons := (s.reg (ringReg k 3)).toNat % 2 ^ 32
  bitOf cfg 8 && decide ((prod + 2 ^ 32 - cons) % 2 ^ 32 < 2 ^ (cfg % 32))

/-- A record of two words into ring k: the write, then PROD, then the message (R454, R456). -/
def State.ringWrite (s : State) (k : Nat) (w0 w1 : Word) : Option State :=
  if s.ringRoom k then
    let base := (s.reg (ringReg k 0)).toNat / 64 * 64
    let size := 2 ^ ((s.reg (ringReg k 1)).toNat % 32)
    let prod := (s.reg (ringReg k 2)).toNat % 2 ^ 32
    let s1 := { s with posts := s.posts ++ [Post.write (base + 16 * (prod % size)) (natToBytes 8 w0.toNat ++ natToBytes 8 w1.toNat)] }
    some ((s1.setReg (ringReg k 2) (BitVec.ofNat 64 ((prod + 1) % 2 ^ 32))).msix (64 + k))
  else none

end Sys2Proof.Machine
end

