-- ==== Sys2Proof/Machine/System.lean ====
section
/-! DEFINITION. Control registers (R75 to R79, R197), workspaces and the context switch of WSP (R66, R68), and the
system instructions svc, eret, brk, ifence, repart and tlbinv (R83, R84, R198, R199, R201), with kbrk (R94). -/

namespace Sys2Proof.Machine

/-! ## Workspaces as bytes (R66, R121, R390) -/

/-- A loop record as its two words (R121). -/
def LoopRec.words (r : LoopRec) : Nat :=
  r.count.toNat + 2 ^ 64 * ((if r.v then 2 ^ 63 else 0) + (if r.t then 2 ^ 62 else 0) + r.last.toNat * 2 ^ 18 + r.start.toNat)

/-- A loop record from its two words. -/
def loopOfWords (v : Nat) : LoopRec :=
  ⟨BitVec.ofNat 64 v, bitOf v 127, bitOf v 126, BitVec.ofNat 18 (v / 2 ^ 82), BitVec.ofNat 18 (v / 2 ^ 64 / 2 * 2)⟩

/-- The first 1 KiB of a workspace as a number, x0 written as zero. -/
def Context.workspaceWord (c : Context) : Nat :=
  let xs := joinLanes 64 ((List.finRange 32).map fun n => if n = 0 then 0 else (c.x.get n).toNat)
  let ws := joinLanes 128 ((List.range 16).map fun n => (c.wr (BitVec.ofNat 5 n)).toNat)
  let cs := joinLanes 128 ((List.finRange 16).map fun n => (c.c.get n).toNat)
  let stop : List Nat := if c.state = .stopped then [c.stop.1.toNat, c.stop.2.toNat] else [0, 0]
  let control := joinLanes 64
    ([c.pc.toNat, c.fcsr.toNat, c.wp.toNat * 2 ^ 32 + c.xp.toNat, c.ctag.toNat, c.cstat.toNat, c.tvec.toNat,
      c.tcause.toNat, c.tval.toNat, c.tepc.toNat, c.parkRec.toNat])
  let loop (l : Fin 4) : Nat := (c.loops.get l).words
  xs + ws * 2 ^ 0x800 + cs * 2 ^ 0x1000 + control * 2 ^ 0x1800 + loop 0 * 2 ^ (8 * 0x350) + loop 1 * 2 ^ (8 * 0x360) +
    joinLanes 64 stop * 2 ^ (8 * 0x370) + loop 2 * 2 ^ (8 * 0x380) + loop 3 * 2 ^ (8 * 0x390)

/-- The extension: w16 to w31 (R66). -/
def Context.extensionWord (c : Context) : Nat :=
  joinLanes 128 ((List.range 16).map fun n => (c.wr (BitVec.ofNat 5 (n + 16))).toNat)

/-- The bytes of a workspace, with its extension in 8-context mode. -/
def Context.workspaceBytes (c : Context) (m8 : Bool) : List Byte :=
  natToBytes 1024 c.workspaceWord ++ (if m8 then natToBytes 1024 c.extensionWord else [])

/-- A context as a workspace holds it; what is not in the workspace is kept. DESIGN CHOICE, unsafe (assumption 125): R45
speaks of a write of a reserved rounding mode and is silent on one that comes by a load; RM 101 to 111 is kept as it stands
here and rounds as RNE. DESIGN CHOICE, unsafe (assumption 153): a result that a ddp or a tstep has still to write is dropped. DESIGN
CHOICE, unsafe (assumption 155): LWD 31 that comes by a load is kept, also where R77 would turn a write of it into 30. -/
def Context.load (c : Context) (m8 sup : Bool) (v ext : Nat) : Context :=
  let word (o : Nat) : Nat := bitsOf v (8 * o) 64
  let st := word 0x320
  let cause := word 0x330
  { c with
    x := Vector.ofFn fun n => if n = 0 then 0 else BitVec.ofNat 64 (v / 2 ^ (64 * n.val)),
    w := Vector.ofFn fun n =>
      if n.val < 16 then BitVec.ofNat 128 (v / 2 ^ (0x800 + 128 * n.val))
      else if m8 then BitVec.ofNat 128 (ext / 2 ^ (128 * (n.val - 16))) else 0,
    c := Vector.ofFn fun n => BitVec.ofNat 128 (v / 2 ^ (0x1000 + 128 * n.val)),
    pc := BitVec.ofNat 18 (word 0x300 / 2 * 2),
    fcsr := BitVec.ofNat 9 (word 0x308),
    xp := BitVec.ofNat 32 (word 0x310) ||| 1,
    wp := BitVec.ofNat 32 (word 0x310 / 2 ^ 32),
    ctag := BitVec.ofNat 16 (word 0x318),
    lwd := BitVec.ofNat 5 (st / 2 ^ 8), tact := bitOf st 2, ppv := sup || bitOf st 1, prv := sup || bitOf st 0,
    tvec := BitVec.ofNat 18 (word 0x328 / 2 * 2),
    code := BitVec.ofNat 8 cause, aux := BitVec.ofNat 16 (cause / 2 ^ 32),
    tval := BitVec.ofNat 64 (word 0x338),
    tepc := BitVec.ofNat 18 (word 0x340 / 2 * 2),
    loops := #v[loopOfWords (bitsOf v (8 * 0x350) 128), loopOfWords (bitsOf v (8 * 0x360) 128),
      loopOfWords (bitsOf v (8 * 0x380) 128), loopOfWords (bitsOf v (8 * 0x390) 128)],
    pending := [], failed := [], window := [] }

/-- The hardware writes a context's workspace (R66). -/
def State.writeBack (s : State) (u : Nat) (k : Fin 16) : State :=
  let c := s.ctxAt u k
  s.putBytes (lsAddr u c.wsp.toNat) (c.workspaceBytes (s.coreAt u).m8)

/-- A context loaded from a workspace at an offset of its local store. -/
def State.loadedFrom (s : State) (u : Nat) (k : Fin 16) (base : BitVec 18) : Context :=
  let m8 := (s.coreAt u).m8
  { (s.ctxAt u k).load m8 (u == serviceCore) (s.readNat (lsAddr u base.toNat) 1024)
      (if m8 then s.readNat (lsAddr u (base.toNat + 1024)) 1024 else 0) with wsp := base }

/-! ## The WSP switch (R68) -/

/-- No relaxed load of context k is outstanding. -/
def Core.loadsDone (c : Core) (k : Nat) : Bool := !(c.relaxed.any fun r => r.ctx == k && r.load)

/-- The partition of the launch that holds a core. -/
def State.partOf (s : State) (u : Nat) : Option Nat := (s.lcLaunch u).map (·.1)

/-- A trap of context k of core u at its present instruction. -/
def State.trapHere (s : State) (u : Nat) (k : Fin 16) (t : TrapInfo) : State := s.trapAt u k t (s.ctxAt u k).pc

/-- INTEGRITY for a failing beat that context k of core u was to consume (R417, R418). -/
def State.integrityAt (s : State) (u : Nat) (k : Fin 16) (beat : Word) : State :=
  (s.logWord beat 1 (s.partOf u)).trapHere u k ⟨causeIntegrity, beat, 0⟩

/-- The switch: the csrw is complete, the old workspace is written and the new one loaded; four slots are bubbles. A new workspace that
fails its check traps the csrw, and nothing is switched (R417; assumption 146). DESIGN CHOICE, unsafe (assumption 156): whether the
new workspace overlaps another is tested when the csrw issues, and not again here. -/
def State.switchWsp (s : State) (u : Nat) (k : Fin 16) (base : BitVec 18) : State :=
  let s1 := s.finishAt u k
  if (s.ctxAt u k).straddles 4 then s1
  else match s.failedBeat (lsAddr u base.toNat) (if (s.coreAt u).m8 then 2048 else 1024) with
  | some b => s.integrityAt u k (gaWord b)
  | none =>
    let s2 := s1.writeBack u k
    s2.setCtx u k { s2.loadedFrom u k base with readyAt := s.ck + 4 * (s.coreAt u).nctx + 1 }

/-- The checks of a value written to WSP; then the switch, which waits for relaxed loads. -/
def State.writeWsp (s : State) (i : Instr) (v : Word) : State :=
  let c := s.myCore
  let n := if c.m8 then 2048 else 1024
  let base := v.toNat
  if v.toNat / 2 ^ 18 ≠ 0 ∨ v.toNat % 1024 ≠ 0 then s.trap causeMisaligned v
  else if c.m8 ∧ v.getLsbD 10 then s.trap causeMisaligned v
  else if (List.finRange 16).any fun k => k != s.ctx && decide (k.val < c.nctx) && (c.ctxs.get k).state != .free &&
      overlaps (c.workspace k).1 n base n then s.trap causeProtection v
  else
    let s1 := s.park i (.wsp (v.setWidth 18))
    if c.loadsDone s.ctx.val then s1.switchWsp s.core s.ctx (v.setWidth 18) else s1

/-! ## Control registers (R75 to R79, R197) -/

/-- A control register (R75). -/
inductive Csr where
  | fcsr | ctxid | cycle | cstat | wsp | tvec | tcause | tval | tepc | cflags
deriving DecidableEq, Repr

def Csr.ofNum (n : BitVec 10) : Option Csr :=
  match n.toNat with
  | 0x000 => some .fcsr | 0x001 => some .ctxid | 0x002 => some .cycle | 0x100 => some .cstat | 0x101 => some .wsp
  | 0x102 => some .tvec | 0x103 => some .tcause | 0x104 => some .tval | 0x105 => some .tepc | 0x120 => some .cflags
  | _ => none

def Csr.readOnly : Csr → Bool
  | .ctxid | .cycle | .cflags => true
  | _ => false

def Csr.user : Csr → Bool
  | .fcsr | .ctxid | .cycle => true
  | _ => false

/-- The flags of a core's contexts, 5 bits each, FREE contexts giving none (R47). -/
def Core.flagWord (c : Core) : Nat :=
  joinLanes 5 ((List.finRange 16).map fun k => if (c.ctxs.get k).state = .free then 0 else (c.ctxs.get k).fcsr.toNat % 32)

/-- The flags of a core as a read of CFLAGS at a ck sees them: what stood 32 ck ago and longer is settled, and a flag
that changed since may be old or new (R47). -/
def Core.flagsSeen (c : Core) (ck : Nat) (pick : BitVec 80) : Nat :=
  let recent := c.flagLog.takeWhile fun p => decide (ck < p.1 + 32)
  let settled := ((c.flagLog.drop recent.length).head?.map (·.2)).getD c.flagBase
  let states := settled :: recent.map (·.2)
  let low := states.foldl (· &&& ·) (2 ^ 80 - 1)
  let high := states.foldl (· ||| ·) 0
  low ||| (high &&& pick.toNat)

/-- The flags of context k in a word of a core's flags, replaced. -/
def putFlags (k f w : Nat) : Nat := w - bitsOf w (5 * k) 5 * 2 ^ (5 * k) + f * 2 ^ (5 * k)

/-- From this ck on, every read of CFLAGS finds flags f for context k: a context that moves leaves one core and joins another at
once (R47). -/
def Core.settleFlags (c : Core) (k f : Nat) : Core :=
  { c with flagLog := c.flagLog.map fun p => (p.1, putFlags k f p.2), flagBase := putFlags k f c.flagBase }

/-- CFLAGS of the issuing core's cluster (R47). -/
def State.cflags (s : State) : Word :=
  let near := (List.range 1008).filter fun u => s.cluster u == s.cluster s.core
  near.foldl (fun (v : Word) u =>
    let f := (s.coreAt u).flagsSeen s.ck (Config.cflags s.seq u)
    let all := (lanes 5 16 f).foldl (· ||| ·) 0
    let nv := if bitOf all 4 then 2 ^ (16 + localIndex (s.position u)) else 0
    v ||| BitVec.ofNat 64 (all + nv)) 0

/-- CTXID (R76). -/
def State.ctxid (s : State) : Word := s.coreId s.core s.ctx.val ||| (ofBool s.myCore.m8 <<< 4)

/-- CYCLE (R62, R75). -/
def State.cycle (s : State) : Word := BitVec.ofNat 64 (s.ck + s.myCore.phase)

def State.csrRead (s : State) : Csr → Word
  | .fcsr => zext s.me.fcsr
  | .ctxid => s.ctxid
  | .cycle => s.cycle
  | .cstat => s.me.cstat
  | .wsp => zext s.me.wsp
  | .tvec => zext s.me.tvec
  | .tcause => s.me.tcause
  | .tval => s.me.tval
  | .tepc => zext s.me.tepc
  | .cflags => s.cflags

/-- A write of the RW fields of a register other than WSP. -/
def State.csrPut (s : State) (r : Csr) (v : Word) : State :=
  let c := s.me
  match r with
  | .fcsr => s.setMe { c with fcsr := writeFcsr c.fcsr (v.setWidth 9) }
  | .cstat =>
    let lwd : BitVec 5 := (v >>> 8).setWidth 5
    s.setMe { c with lwd := if lwd = 31 ∧ s.refusesUnbounded then c.lwd else lwd, tact := v.getLsbD 2,
                     ppv := if s.core = serviceCore then c.ppv else v.getLsbD 1 }
  | .tvec => s.setMe { c with tvec := (v.setWidth 18) &&& 0x3FFFE }
  | .tcause => s.setMe { c with code := v.setWidth 8, aux := (v >>> 32).setWidth 16 }
  | .tval => s.setMe { c with tval := v }
  | .tepc => s.setMe { c with tepc := (v.setWidth 18) &&& 0x3FFFE }
  | .ctxid | .cycle | .wsp | .cflags => s

/-- The checks of R197, then the access. -/
def csrAccess (i : Instr) (n : BitVec 10) (writes : Bool) (f : Csr → State → State) (s : State) : State :=
  match Csr.ofNum n with
  | none => s.illegal i
  | some r =>
    if writes && r.readOnly then s.illegal i
    else if !r.user && !s.me.prv then s.trap causePrivilege (instrWord i)
    else f r s

/-- csrw, csrs and csrc: the value is computed from the old one and x[a]. -/
def csrWrite (i : Instr) (n : BitVec 10) (a : Reg) (value : Word → Word → Word) (s : State) : Out :=
  .next (lcIssue i [.x a] (csrAccess i n true fun r s =>
    let v := value (s.csrRead r) (s.rx a)
    if r = .wsp then s.writeWsp i v else (s.csrPut r v).done i) s)

def execCsrr (d : Reg) (n : BitVec 10) (s : State) : Out :=
  .next (lcIssue (.csrr d n) [.x d]
    (csrAccess (.csrr d n) n false fun r s => (s.wx d (s.csrRead r)).done (.csrr d n)) s)

def execCsrw (n : BitVec 10) (a : Reg) (s : State) : Out := csrWrite (.csrw n a) n a (fun _ v => v) s
def execCsrs (n : BitVec 10) (a : Reg) (s : State) : Out := csrWrite (.csrs n a) n a (fun old v => old ||| v) s
def execCsrc (n : BitVec 10) (a : Reg) (s : State) : Out := csrWrite (.csrc n a) n a (fun old v => old &&& ~~~v) s

/-! ## svc, brk, eret, ifence (R198, R199) -/

def execSvc (imm : BitVec 10) (s : State) : Out :=
  .next (lcIssue (.svc imm) [] (fun s => s.trapAfter (.svc imm) causeService (zext imm)) s)

def execBrk (imm : BitVec 10) (s : State) : Out :=
  .next (lcIssue (.brk imm) [] (fun s => s.trap causeBreakpoint (zext imm)) s)

/-- kbrk is brk 0 (R94). -/
def execKbrk (s : State) : Out := .next (lcIssue .kbrk [] (fun s => s.trap causeBreakpoint 0) s)

/-- eret: on the service core the mode stays supervisor (R74). -/
def execEret (s : State) : Out :=
  .next (lcIssue .eret [] (supervisor .eret fun s =>
    if s.me.straddles 4 then s.illegal .eret else s.setMe { s.me.leaveTrap with since := none }) s)

/-- The stores of a context to its own local store have been performed (R199). -/
def Core.ownStoresDone (c : Core) (u k : Nat) : Bool :=
  c.relaxed.all fun r => r.ctx != k || !r.store || r.dev.isSome || storageOf r.addr != .localStore u

/-- The end of an ifence: the fetch window is discarded. -/
def State.ifenceNow (s : State) (u : Nat) (k : Fin 16) : State :=
  let s1 := s.finishAt u k
  s1.setCtx u k { s1.ctxAt u k with window := [] }

def execIfence (s : State) : Out :=
  .next (lcIssue .ifence [] (fun s =>
    let s1 := s.park .ifence .ifence
    if s.myCore.ownStoresDone s.core s.ctx.val then s1.ifenceNow s.core s.ctx else s1) s)

/-! ## repart (R83, R84) -/

/-- Whether a request of another unit is on its way to core u (R65). -/
def State.remoteOpFor (s : State) (u : Nat) : Bool :=
  s.requests.any fun r => homeOf r.addr == u && r.src.unit != u && decide (homeOf r.addr < 1008)

/-- A transform context on its empty queue, with no current segment. -/
def Core.transformIdle (c : Core) : Bool :=
  let t := c.ctxs.get c.transformCtx
  t.state == .free || (t.state == .parked && (match t.park with | .queue | .pop _ => true | _ => false) && c.txq.isEmpty && c.cursor.isNone)

/-- Whether a request of context k of core u has not been answered yet. -/
def State.requestOut (s : State) (u k : Nat) : Bool :=
  let mine (r : Request) : Bool := r.src == .ctx u k
  s.requests.any mine || s.stepJobs.any (fun j => (j.req.map mine).getD false) || s.remote.any (fun r => mine r.2) ||
    s.replies.any (fun r => mine r.req)

/-- The core is quiescent (R83). -/
def State.quiescent (s : State) (u : Nat) : Bool :=
  let c := s.coreAt u
  let m := c.ctxs.get c.messageCtx
  c.firstBusy.isNone && c.transformIdle &&
    (m.state == .free || (m.state == .parked && !c.handling && !s.remoteOpFor u)) &&
    !(c.relaxed.any (·.ctx == 0)) && (c.ctxs.get 0).pending.isEmpty && !s.requestOut u 0 && !(c.lines.any (·.ctx == 0)) && !(c.gcmds.any (·.ctx == 0)) &&
    c.msgq.isEmpty && c.txq.isEmpty && !(s.qrows.any (·.u == u))

/-- x10 to x13 of the head and the transform context at a wake (R361, R362). -/
def Launch.args (l : Launch) (u : Nat) : List Word :=
  [BitVec.ofNat 64 (l.word 0x40), BitVec.ofNat 64 (l.rank * 1008 + u), BitVec.ofNat 64 (l.rank * l.lcCnt + (u - l.lcBase)),
   BitVec.ofNat 64 (l.lcCnt * boxCount l.box)]

/-- The transform and message contexts of a core enter PARKED on their queues (R84, R362). -/
def State.parkRoles (s : State) (u : Nat) : State :=
  let c := s.coreAt u
  let m := s.freshContext u c.messageCtx
  let s1 := (s.logConsumed (s.tvecAddr u c.messageCtx) 8 (s.coreAt u).launch).setCtx u c.messageCtx { m with state := .parked, park := .queue, parkedAt := s.ck }
  match s.lcLaunch u with
  | some (_, l) =>
    if l.txpc = 0 then s1
    else
      let t := (s1.freshContext u c.transformCtx).setArgs 10 (l.args u)
      (s1.logConsumed (s.tvecAddr u c.transformCtx) 8 (s.coreAt u).launch).setCtx u c.transformCtx { t with state := .parked, park := .queue, pc := BitVec.ofNat 18 l.txpc, parkedAt := s.ck }
  | none => s1

/-- Writes TVEC into the workspaces of a core's contexts from number k on, and sets their WSP (R84, R359). -/
def State.layWorkspaces (s : State) (u base stride : Nat) (tvec : BitVec 18) (ks : List (Fin 16)) : State :=
  ks.foldl (fun st k =>
    let w := base + stride * k.val
    (st.putNat (lsAddr u (w + 0x328)) 8 tvec.toNat).setCtx u k { st.ctxAt u k with wsp := BitVec.ofNat 18 w }) s

/-- The change of mode (R84); the head context traps where its workspace cannot be laid out. -/
def State.repartNow (s : State) (u : Nat) (m8 : Bool) : State :=
  let c := s.coreAt u
  let h := c.ctxs.get 0
  let w := h.wsp.toNat
  let rest := (List.finRange 16).filter fun k => k != 0
  if c.m8 = m8 then s.finishAt u 0
  else if (m8 ∧ bitOf w 10) ∨ 2 ^ 18 < w + 16384 then s.trapAt u 0 ⟨causeMisaligned, zext h.wsp, 0⟩ h.pc
  else
    let h' := { h with w := Vector.ofFn fun n => if n.val < 16 then h.w.get n else 0, wp := h.wp ||| 0xFFFF0000,
                       failed := h.failed.filter fun f => decide (f.1 < 48) }
    let c' := { c with m8 := m8, ctxs := vset (Vector.replicate 16 ((coreReset u).ctxs.get 0)) 0 h' }
    let n := if m8 then 8 else 16
    let s1 := (s.setCore u c').layWorkspaces u w (if m8 then 0x800 else 0x400) h.tvec (rest.filter fun k => decide (k.val < n))
    (s1.parkRoles u).finishAt u 0

/-- DESIGN CHOICE, unsafe (assumption 126): in user mode, on a context other than the head, R83's ILLEGAL comes before
R198's PRIVILEGE; neither rule gives the order. -/
def execRepart (m8 : Bool) (s : State) : Out :=
  let i := Instr.repart m8
  .next (lcIssue i [] (fun s =>
    if s.ctx ≠ 0 then s.illegal i
    else supervisor i (fun s =>
      let s1 := s.park i (.repart m8) (limitOf s.ck s.me.lwd) (parkRecord 5 s.me.lwd false 0)
      if s1.quiescent s.core then s1.repartNow s.core m8 else s1) s) s)

/-! ## tlbinv (R201) -/

/-- Whether an entry holds the page of an address, or all are named. -/
def TlbEntry.named (e : TlbEntry) (page : Option Nat) : Bool :=
  match page with
  | some va => e.covers va
  | none => true

/-- Whether a walk may be for a page that a tlbinv names: the size of its page is not known before its end, and the largest is
1 GiB (R370, R373). -/
def Walk.named (w : Walk) (page : Option Nat) : Bool :=
  match page with
  | some va => w.vpn / 2 ^ 12 == va / 2 ^ 30
  | none => true

/-- The walks in flight for a page that is invalidated start again: what they are reading is not used, and the answer of the
host to the request that has been made is discarded (R201, R378, R379). -/
def State.restartWalks (s : State) (page : Option Nat) : State :=
  let again (id : Nat) : Bool := s.walks.any fun w => w.id == id && w.named page
  let read (x : Source) : Bool := match x with
    | .walker _ id => again id
    | _ => false
  { s with
    walks := s.walks.map fun w =>
      if w.named page then { w with level := 0, table := w.root.toNat % 2 ^ 48 / 4096 * 4096, stale := w.asked } else w
    requests := s.requests.filter fun r => !read r.src
    replies := s.replies.filter fun r => !read r.req.src }

/-- The units whose TLBs a tlbinv names: this core, or every LC and DT of the device. -/
def tlbUnits (all : Bool) (u : Nat) : List Nat :=
  if all then List.range 1008 ++ [serviceCore] ++ (List.range 32).map (1024 + ·) else [u]

def execTlbinv (kind : BitVec 2) (a : Reg) (s : State) : Out :=
  let i := Instr.tlbinv kind a
  .next (lcIssue i [.x a] (supervisor i fun s =>
    let page := if kind.getLsbD 0 then none else some (s.rx a).toNat
    s.park i (.tlbinv page (tlbUnits (kind.getLsbD 1) s.core))) s)

end Sys2Proof.Machine
end

