-- ==== Sys2Proof/Machine/Wake.lean ====
section
/-! DEFINITION. What comes back to a lookup core: results and acknowledgements (R127, R128, R173, R179), the end of
parks (R63, R64) and of their limits (R71, R177, R181, R313 to R315), the age of a combining line (R282), and the
messages that reach a core (R72, R183 to R191). -/

namespace Sys2Proof.Machine

/-- The 48-bit address in a global address of this device. -/
def localAddr (w : Word) : Nat := w.toNat % 2 ^ 48

/-! ## Results (R127, R128, R173, R179) -/

/-- The end of a blocking access: the trap, or the result and the next instruction. -/
def State.completeReply (s : State) (u : Nat) (k : Fin 16) (r : Reply) : State :=
  match r.failed, r.trap with
  | some beat, _ => s.integrityAt u k beat
  | none, some (code, value, aux) => s.trapHere u k ⟨code, value, aux⟩
  | none, none =>
    (s.setCtx u k (((s.ctxAt u k).writeDest r.req.dest r.value r.tag).raise r.flags)).finishAt u k

/-- Whether a context waits for the reply to a request. -/
def Context.awaits (c : Context) (id : Nat) : Bool :=
  c.state == .parked && (match c.park with | .reply n => n == id | _ => false)

def execPlainAccessComplete (n : Nat) (s : State) : Out :=
  match s.replies.find? fun r => r.req.id == n && !r.req.relaxed with
  | none => .next s
  | some r =>
    let s1 := { s with replies := s.replies.filter fun x => x.req.id != n }
    match r.req.src with
    | .ctx u k => .next (if (s.ctxAt u (ctxIdx k)).awaits n then s1.completeReply u (ctxIdx k) r else s1)
    | _ => .next s

/-- The entry of a relaxed access is given back, and what stood behind it may leave the core (R128, R278 case b). -/
def State.dropEntry (s : State) (u id : Nat) : State :=
  let c := s.coreAt u
  (s.setCore u { c with relaxed := c.relaxed.filter (·.id != id) }).releaseWaiting u

/-- A relaxed result is written, or its failure is kept for the next use of the register (R71, R128, R179). So is the refusal
of a home on another device, with its own cause (assumption 28). -/
def State.relaxedResult (s : State) (u : Nat) (k : Fin 16) (r : Reply) : State :=
  let c := s.ctxAt u k
  match c.pending.find? (·.id == r.req.id) with
  | none => s.dropEntry u r.req.id
  | some p =>
    let c1 := { c with pending := c.pending.filter (·.id != r.req.id) }
    let s1 := s.dropEntry u r.req.id
    match r.failed, r.trap with
    | some beat, _ =>
      (s1.setCtx u k { c1 with failed := c1.failed ++ [(p.reg, causeIntegrity, beat)] }).logWord beat 1 (s.partOf u)
    | none, some (code, value, _) => s1.setCtx u k { c1 with failed := c1.failed ++ [(p.reg, code, value)] }
    | none, none => s1.setCtx u k ((c1.writeDest r.req.dest r.value false).raise r.flags)

/-- A relaxed result that no register waits for: only its flags, and a failure that is logged. -/
def State.relaxedNoReg (s : State) (u : Nat) (k : Fin 16) (r : Reply) : State :=
  let s1 := (s.dropEntry u r.req.id).setCtx u k ((s.ctxAt u k).raise r.flags)
  match r.failed with
  | some beat => s1.logWord beat 1 (s.partOf u)
  | none => s1

def execRelaxedResultReturn (n : Nat) (s : State) : Out :=
  match s.replies.find? fun r => r.req.id == n && r.req.relaxed with
  | none => .next s
  | some r =>
    let s1 := { s with replies := s.replies.filter fun x => x.req.id != n }
    match r.req.src, r.req.act with
    | .ctx _ _, .store _ _ | .ctx _ _, .line _ _ => .next s
    | .ctx u k, _ =>
      if r.req.dest.reg.isNone then .next (s1.relaxedNoReg u (ctxIdx k) r) else .next (s1.relaxedResult u (ctxIdx k) r)
    | _, _ => .next s

/-- The home acknowledges a relaxed store or a combining line (R128, R282). -/
def execRelaxedStoreAck (n : Nat) (s : State) : Out :=
  match s.replies.find? fun r => r.req.id == n && r.req.relaxed with
  | none => .next s
  | some r =>
    let s1 := { s with replies := s.replies.filter fun x => x.req.id != n }
    match r.req.src, r.req.act with
    | .ctx u _, .store _ _ | .ctx u _, .line _ _ => .next (s1.dropEntry u n)
    | _, _ => .next s

/-! ## The age of a combining line (R282) -/

/-- Line l of core u, 256 ck after its first store, is sent. -/
def execCombiningLineTimeout (u l : Nat) (s : State) : Out :=
  match (s.coreAt u).lines.find? (·.id == l) with
  | some x => .next (if x.bornAt + 256 ≤ s.ck then s.sendLine u x else s)
  | none => .next s

/-! ## The end of a park (R63, R64) -/

/-- The answer to a message of context k of core u (R183, R186, R190). -/
def State.takeAnswer (s : State) (u : Nat) (k : Fin 16) (ok : Bool) (d : Reg) (refusal : Option (BitVec 8 × Word))
    (spawnPc : Option Word) : State :=
  let c := s.ctxAt u k
  match ok, spawnPc, refusal with
  | true, _, _ => (s.setCtx u k (c.setX d 0)).finishAt u k
  | false, some pc, _ =>
    (s.setCtx u k (c.setX d (zext (linkOf c.pc 4)))).finishAt u k (.jump (pc.setWidth 18) true)
  | false, none, some t => s.trapHere u k ⟨t.1, t.2, 0⟩
  | false, none, none => (s.setCtx u k (c.setX d 1)).finishAt u k

/-- A TLB drops what a tlbinv names (R201). -/
def State.dropTlb (s : State) (unit : Nat) (page : Option Nat) : State :=
  let s1 :=
    if 1024 ≤ unit ∧ unit < 1056 then
      { s with tileTlbs := insertAt (unit - 1024) ((lookup [] s.tileTlbs (unit - 1024)).filter fun e => !e.named page) s.tileTlbs }
    else s.setCore unit { s.coreAt unit with tlb := (s.coreAt unit).tlb.filter fun e => !e.named page }
  s1.restartWalks page

/-- What the end of its wait makes of a parked context; none where it still waits, or where another step ends it. A
stream command goes on in the steps of its own file. -/
def State.wakeUp (s : State) (u : Nat) (k : Fin 16) : Option State :=
  let c := s.ctxAt u k
  let core := s.coreAt u
  if c.state ≠ .parked then none
  else match c.park with
    | .presence regs =>
      if (regs.all c.present) || (regs.any fun n => c.failed.any (·.1 == n)) then some (s.resumeAt u k) else none
    | .entry => if core.entryFree k.val then some (s.resumeAt u k) else none
    | .hold next drain =>
      if core.sendWaits k.val next drain then none else some (s.performSend u k next)
    | .answer id d refusal pc =>
      (s.answers.find? (·.1 == id)).map fun a =>
        { s with answers := s.answers.filter (·.1 != id) }.takeAnswer u k a.2 d refusal pc
    | .fence lv => if s.fenceDone u k.val lv then some (s.finishAt u k) else none
    | .ifence => if core.ownStoresDone u k.val then some (s.ifenceNow u k) else none
    | .ending => if s.mayEnd u k then some (s.endContext u k) else none
    | .reap d j => if s.reapReady u (ctxIdx j) then some (s.reapNow u d (ctxIdx j)) else none
    | .repart m8 => if s.quiescent u then some (s.repartNow u m8) else none
    | .wsp base => if core.loadsDone k.val then some (s.switchWsp u k base) else none
    | .tlbinv page waiting =>
      match waiting with
      | [] => some ((s.restartWalks page).finishAt u k)
      | _ =>
        let n := waiting.getD (Config.choice s.seq % waiting.length) 0
        some ((s.dropTlb n page).setCtx u k (c.repark (.tlbinv page (waiting.filter (· != n)))))
    | .queue =>
      if k = core.transformCtx ∧ (core.cursor.isSome ∨ !core.txq.isEmpty) then some (s.resumeAt u k) else none
    | .pop d => core.cursor.map fun cur => (s.setCtx u k (c.setX d (BitVec.ofNat 64 cur.seg.index))).finishAt u k
    | .none | .walk _ | .acceptance | .reply _ | .stream .. | .decode .. | .migrate .. => none

/-- The parks whose end is a condition that holds or does not, so that the context goes on in the ck in which it comes to hold
(R64). The others end by an answer, which is on its way for as long as it takes, or in steps of their own. -/
def Park.isCondition : Park → Bool
  | .presence _ | .entry | .hold _ _ | .fence _ | .ifence | .ending | .reap _ _ | .repart _ | .wsp _ | .queue | .pop _ => true
  | _ => false

/-- Context k of core u is parked on a condition that holds (R64). -/
def State.mustWake (s : State) (u : Nat) (k : Fin 16) : Bool :=
  (s.ctxAt u k).park.isCondition && (s.wakeUp u k).isSome

/-! ## The limits of parks (R71, R313 to R315) -/

/-- A producer code of KIND 01: a context (R314). -/
def producerCtx (u k : Nat) : BitVec 16 := BitVec.ofNat 16 (2 ^ 14 + u % 1024 * 16 + k)

/-- A producer code of KIND 11: an engine (R314). -/
def producerEngine (eng detail : Nat) : BitVec 16 := BitVec.ofNat 16 (3 * 2 ^ 14 + eng * 2 ^ 10 + detail % 2 ^ 10)

/-- The home of an access as a producer (R315). -/
def State.producerHome (s : State) (dev : Option Nat) (a : Nat) : BitVec 16 :=
  match dev, storageOf a with
  | some _, _ => producerEngine 6 0
  | none, .shm => producerEngine 7 (shmBank (offOf a))
  | none, .localStore v | none, .channel v | none, .shard v => producerCtx v (s.coreAt v).messageCtx.val
  | none, _ => 0

/-- The address that a STALL of a sync-class access names: the first byte of the granule or word (R177). -/
def stallAddress (dev : Option Nat) (a : Nat) : Word :=
  match dev with
  | some d => BitVec.ofNat 64 (d * 2 ^ 48 + bitUnit a)
  | none => gaWord (bitUnit a)

/-- What a STALL of a park names: its value and its producer (R71, R83, R177, R184, R190, R315). A sync-class access whose limit
passes while it stands in its core, or after it was sent to another device, stalls at its context (R313, R461). -/
def State.stallOf (s : State) (u : Nat) (k : Fin 16) : Option TrapInfo :=
  let c := s.ctxAt u k
  let core := s.coreAt u
  match c.park with
  | .presence regs =>
    let n := ((List.range 64).find? fun n => regs.contains n && !c.present n).getD 0
    let producer := match c.pending.find? (·.reg == n) with
      | some p => match core.relaxed.find? (·.id == p.id) with
        | some r => s.producerHome r.dev r.addr
        | none => 0
      | none => 0
    some ⟨causeStall, BitVec.ofNat 64 n, producer⟩
  | .ending =>
    let n := (core.firstBusy.map (·.val)).getD 0
    some ⟨causeStall, queueId s.dev u (16 + n), producerCtx u n⟩
  | .reap _ j => some ⟨causeStall, queueId s.dev u (16 + j), producerCtx u j⟩
  | .repart _ =>
    let n := (((List.finRange 16).find? fun j => (core.ctxs.get j).state != .free).map (·.val)).getD k.val
    some ⟨causeStall, 0, producerCtx u n⟩
  | .hold (.access dev _ a _ _) _ =>
    some ⟨causeStall, stallAddress dev a, if dev.isNone then s.claimProducer a else 0⟩
  | .reply id => (s.remote.find? (·.2.id == id)).map fun r => ⟨causeStall, stallAddress (some r.1) r.2.addr, 0⟩
  | _ => none

/-- A request to another device that nobody waits for any more. -/
def State.forget (s : State) (p : Park) : State :=
  match p with
  | .reply id => { s with remote := s.remote.filter (·.2.id != id), lost := s.lost.filter (· != id),
                           recalled := s.recalled.filter (· != id) }
  | _ => s

/-- Whether a request to another device, or its answer, is lost: dropped here, or elsewhere, where nothing reports it (R461). -/
def State.packetLost (s : State) (id : Nat) : Bool := s.lost.contains id || Config.packetLost id

/-- The limit of a park of context k of core u passes in this ck; a park whose condition holds now does not stall. A request to
another device stalls by the answer of its home, which drops it at its deadline (R177), and here only where it is lost (R461). -/
def execPresenceWaitStall (u k : Nat) (s : State) : Out :=
  let c := s.ctxAt u (ctxIdx k)
  match c.deadline with
  | some t =>
    let here : Bool := match c.park with
      | .reply id => s.packetLost id
      | _ => true
    if c.state = .parked ∧ t ≤ s.ck ∧ here ∧ (s.wakeUp u (ctxIdx k)).isNone then
      match s.stallOf u (ctxIdx k) with
      | some tr => .next ((s.forget c.park).trapHere u (ctxIdx k) tr)
      | none => .next s
    else .next s
  | none => .next s

/-- The home drops a sync-class request, a waitv or a wait of a tile at its deadline, and its context or its tile of this device takes
STALL in that ck (R177, R181, R212, R313). -/
def execSyncRequestDrop (n : Nat) (s : State) : Out :=
  let all := s.requests ++ s.waiters ++ s.watchers
  match all.find? (·.id == n) with
  | none => .next s
  | some r =>
    match r.deadline with
    | none => .next s
    | some t =>
      if t ≤ s.ck then
        let s1 := { s with requests := s.requests.filter (·.id != n), waiters := s.waiters.filter (·.id != n),
                           watchers := s.watchers.filter (·.id != n) }
        match r.src with
        | .ctx u k => .next (if (s.ctxAt u (ctxIdx k)).awaits n then s1.completeReply u (ctxIdx k) (s.stallReply r) else s1)
        | _ => .next (s1.trapWaiter r causeStall (gaWord (bitUnit r.addr)) (s.claimProducer r.addr))
      else .next s

/-! ## Messages (R72, R183 to R191) -/

/-- The answer to a message: to its sender here, or to another device. -/
def State.reply (s : State) (src : Source) (id : Nat) (ok : Bool) : State :=
  match src with
  | .remote dev _ rid => s.sendPacket dev none (.answer rid 0 (if ok then .ok else .refused))
  | _ => { s with answers := s.answers ++ [(id, ok)] }

/-- Whether a register message is accepted (R72, R183). -/
def State.acceptsRegister (s : State) (u : Nat) (k : BitVec 4) (r : Nat) : Bool :=
  let core := s.coreAt u
  let c := s.ctxAt u (ctxIdx k.toNat)
  decide (k.toNat < core.nctx) && r != 0 && (core.m8 || decide (r < 48)) && (c.state == .run || c.state == .parked) &&
    !c.present r && !(c.pending.any (·.reg == r))

/-- Who keeps the order of his messages: a context, and a unit of another device, whose packets carry one sequence (R186, R287). -/
def Source.sender : Source → Source
  | .remote dev unit _ => .remote dev unit 0
  | x => x

/-- A message that no earlier one of the same sender to the same core precedes (R183, R186, R395), and that no request stands
before which left its source earlier (R286, R287). -/
def State.firstMessage (s : State) (n : Nat) : Option Message :=
  match s.messages.find? (·.id == n) with
  | none => none
  | some m =>
    match s.messages.find? fun x => x.src.sender == m.src.sender && x.body.target == m.body.target && x.relayed == m.relayed with
    | some x => if x.id = n ∧ !(s.requests.any fun r => m.behind.contains r.id) then some m else none
    | none => none

/-- Whether a context is in a move (R394): register messages to it wait for its end (R395). -/
def State.moving (s : State) (u k : Nat) : Bool :=
  s.cores.any fun x => (List.finRange 16).any fun j => match (x.2.ctxs.get j).park with
    | .migrate _ v m _ _ => v == u && m == k && (x.2.ctxs.get j).state == .parked
    | _ => false

def execRegisterMessage (n : Nat) (s : State) : Out :=
  match s.firstMessage n with
  | some ⟨_, src, .register u tctx treg value, _, _⟩ =>
    let rest := s.messages.filter (·.id != n)
    let c := s.ctxAt u (ctxIdx tctx.toNat)
    if s.moving u tctx.toNat then .next s
    else match c.fwd with
    | some f =>
      let body := MsgBody.register (unitOfId f.target) (BitVec.ofNat 4 f.target.toNat) treg value
      .next { s with messages := rest ++ [⟨n, src, body, [], some u⟩] }
    | none =>
      let s1 := { s with messages := rest }
      if s.acceptsRegister u tctx treg.toNat then
        let c' := if treg.toNat < 32 then c.setX (treg.setWidth 5) (value.setWidth 64) else c.setW (treg.setWidth 5) value
        .next ((s1.setCtx u (ctxIdx tctx.toNat) c').reply src n true)
      else .next (s1.reply src n false)
  | _ => .next s

def execActiveMessage (n : Nat) (s : State) : Out :=
  match s.firstMessage n with
  | some ⟨_, src, .active u hidx arg source, _, _⟩ =>
    let s1 := { s with messages := s.messages.filter (·.id != n) }
    let c := s.coreAt u
    if c.msgq.length < 64 then
      .next ((s1.setCore u { c with msgq := c.msgq ++ [⟨hidx, arg, source⟩] }).reply src n true)
    else .next (s1.reply src n false)
  | _ => .next s

/-- The address of the handler table entry of a handler (R185). -/
def handlerAddr (u : Nat) (h : BitVec 8) : Nat := lsAddr u (0x3F800 + 8 * h.toNat)

/-- The handler table entry of a handler, read as V = 0 inside a bound workspace (R185), and where its beat fails
(R417; assumption 136). -/
def State.handlerEntry (s : State) (u : Nat) (h : BitVec 8) : Nat :=
  if s.bound u (0x3F800 + 8 * h.toNat) 8 || (s.failedBeat (handlerAddr u h) 8).isSome then 0 else s.readNat (handlerAddr u h) 8

/-- The entry of the message queue that the selector of core u takes now: the oldest whose handler is valid and not held, where no
handler runs (R187). -/
def State.handlerPick (s : State) (u : Nat) : Option Nat :=
  let c := s.coreAt u
  let m := s.ctxAt u c.messageCtx
  if c.handling || m.state != .parked || m.park != .queue || s.paused c.launch then none
  else
    let hold := c.holdBits s.ck
    c.msgq.findIdx? fun e => bitOf (s.handlerEntry u e.hidx) 0 && !hold.getLsbD e.hidx.toNat

/-- The failing beats of handler table entries that the selector meets are logged (R418). -/
def State.logHandlers (s : State) (u : Nat) : State :=
  (s.coreAt u).msgq.foldl (fun st e =>
    match s.failedBeat (handlerAddr u e.hidx) 8 with
    | some b => st.logBeat b 1 (s.partOf u)
    | none => st) s

/-- The selector takes an entry and starts its handler (R187). -/
def execHandlerSelect (u : Nat) (s : State) : Out :=
    let c := s.coreAt u
    let m := s.ctxAt u c.messageCtx
    match s.handlerPick u with
    | none => .next (s.logHandlers u)
    | some n =>
      match c.msgq[n]? with
      | none => .next s
      | some e =>
        let pc := bitsOf (s.handlerEntry u e.hidx) 1 17 * 2
        let s1 := s.setCore u { c with msgq := c.msgq.eraseIdx n, handling := true }
        let m1 := (((m.resume s.ck).setX 10 e.arg).setX 11 e.source).setX 12 (zext e.hidx)
        .next (s1.setCtx u c.messageCtx { m1 with pc := BitVec.ofNat 18 pc, tact := false, prv := u == serviceCore, window := [] })

/-- A spawn reaches its core: the lowest eligible context takes it, or it is refused (R190, R191). -/
def execSpawnRequest (n : Nat) (s : State) : Out :=
  match s.firstMessage n with
  | some ⟨_, src, .spawn u pc args, _, _⟩ =>
    let s1 := { s with messages := s.messages.filter (·.id != n) }.serveConts u 64
    match (s1.coreAt u).firstEligible with
    | some k => .next ((s1.startContext u k pc args .spawned).reply src n true)
    | none => .next (s1.reply src n false)
  | _ => .next s

/-- A continuation reaches its core: it waits for an eligible context, or is discarded and recorded (R191). -/
def execJoinContinuation (n : Nat) (s : State) : Out :=
  match s.firstMessage n with
  | some ⟨_, _, .continuation u epc arg, _, _⟩ =>
    let s1 := { s with messages := s.messages.filter (·.id != n) }
    let c := s.coreAt u
    if 64 ≤ c.conts.length then .next (s1.recordError (s.partOf u) 2 u 0)
    else .next ((s1.setCore u { c with conts := c.conts ++ [⟨epc, arg⟩] }).serveConts u 64)
  | _ => .next s

/-! ## Page walks (R374 to R379) -/

/-- Where a table or a root may lie (R374). -/
def tableHome (a : Nat) : Bool :=
  match storageOf a with
  | .shm | .channel _ | .shard _ => true
  | _ => false

/-- A leaf as an entry of a TLB (R373, R376). -/
def leafOf (e level vpn : Nat) : Option TlbEntry :=
  let size := if level = 1 then 30 else if level = 2 then 24 else 18
  if level = 0 ∨ 3 < level then none
  else if !bitOf e 0 ∨ !bitOf e 1 then none
  else if e / 2 ^ 48 ≠ 0 ∨ bitsOf e 6 12 ≠ 0 then none
  else if (level = 1 ∧ bitsOf e 18 12 ≠ 0) ∨ (level = 2 ∧ bitsOf e 18 6 ≠ 0) then none
  else some ⟨vpn * 2 ^ 18 / 2 ^ size * 2 ^ size, size, bitsOf e 18 30 * 2 ^ 18, bitOf e 5, bitOf e 4, bitOf e 3, bitOf e 2⟩

/-- What an entry makes of a walk: the next table, a leaf or a fault (R374). -/
inductive WalkStep where
  | next (table : Nat)
  | leaf (e : TlbEntry)
  | fault
deriving DecidableEq, Repr

/-- The index of a level into its table (R371). -/
def walkIndex (level vpn : Nat) : Nat :=
  match level with
  | 0 => bitsOf vpn 21 9
  | 1 => bitsOf vpn 12 9
  | 2 => bitsOf vpn 6 6
  | _ => bitsOf vpn 0 6

/-- Whether PTROOT lets a walk begin (R372, R374). -/
def Walk.rootOk (w : Walk) : Bool :=
  let root := w.root.toNat
  bitOf root 0 && root / 2 ^ 48 == 0xFFFF && bitsOf root 1 11 == 0

/-- The entry that a walk reads next (R371, R374). -/
def Walk.entryAddr (w : Walk) : Nat := w.table + 8 * walkIndex w.level w.vpn

/-- What an entry that has been read makes of a walk (R373, R374). -/
def Walk.take (w : Walk) (e : Nat) : WalkStep :=
  if !bitOf e 0 then .fault
  else if bitOf e 1 then
    match leafOf e w.level w.vpn with
    | some l => .leaf l
    | none => .fault
  else if e / 2 ^ 48 ≠ 0 ∨ bitsOf e 2 7 ≠ 0 then .fault
  else
    let t := bitsOf e 9 39 * 2 ^ 9
    if w.level = 3 then .fault
    else if w.level = 0 ∧ bitsOf t 9 3 ≠ 0 then .fault
    else .next t

/-- The leaf that the tables give a page as they stand, from the entry of a walk on; none for one that the host would give, and for a
fault (R374, R379). -/
def State.leafFrom (s : State) : Nat → Walk → Option TlbEntry
  | 0, _ => none
  | fuel + 1, w =>
    if !tableHome w.table then none
    else match w.take (s.readNat w.entryAddr 8) with
      | .next t => s.leafFrom fuel { w with level := w.level + 1, table := t }
      | .leaf e => some e
      | .fault => none

def State.tableLeaf (s : State) (root : Word) (vpn : Nat) : Option TlbEntry :=
  let w : Walk := ⟨0, 0, root, vpn, 0, false, false, false, false, 0, root.toNat % 2 ^ 48 / 4096 * 4096, []⟩
  if (s.reg 0x20).getLsbD 0 ∨ !w.rootOk then none else s.leafFrom 4 w

/-- An entry enters a TLB of n places (R376). -/
def fillTlb (n victim : Nat) (e : TlbEntry) (tlb : List TlbEntry) : List TlbEntry :=
  let rest := tlb.filter fun x => !(x.page == e.page && x.size == e.size)
  if rest.length < n then rest ++ [e] else rest.eraseIdx (victim % rest.length) ++ [e]

/-- How a walk ends for those that wait for it. -/
inductive WalkEnd where
  | leaf (e : TlbEntry)
  | fault
  | failed (a : Nat)
deriving DecidableEq, Repr

/-- A requester takes the end of its walk: the TLB is filled and the access is made anew, or it traps (R376, R377). A
gather unit or a stream of a tile finds the end in its notes. -/
def State.endWalkFor (s : State) (vpn : Nat) (e : WalkEnd) (src : Source) : State :=
  let filled : State := match e, src with
    | .leaf l, .ctx u _ | .leaf l, .gather u _ | .leaf l, .stream u _ =>
      s.setCore u { s.coreAt u with tlb := fillTlb 32 (Config.tlbVictim s.seq) l (s.coreAt u).tlb }
    | .leaf l, .tile n _ =>
      { s with tileTlbs := insertAt n (fillTlb 64 (Config.tlbVictim s.seq) l (lookup [] s.tileTlbs n)) s.tileTlbs }
    | _, _ => s
  match src, e with
  | .ctx u k, .leaf _ =>
    match (s.ctxAt u (ctxIdx k)).park with
    | .walk _ => filled.resumeAt u (ctxIdx k)
    | _ => filled
  | .ctx u k, .fault =>
    match (s.ctxAt u (ctxIdx k)).park with
    | .walk va => s.trapHere u (ctxIdx k) ⟨causeTranslation, va, 0⟩
    | _ => s
  | .ctx u k, .failed a =>
    match (s.ctxAt u (ctxIdx k)).park with
    | .walk _ => (s.logBeat (a / 64 * 64) 1 (s.partOf u)).trapHere u (ctxIdx k) ⟨causeIntegrity, gaWord a, 0⟩
    | _ => s
  | _, .leaf _ => filled
  | _, _ => { filled with walkFaults := filled.walkFaults ++ [(src, vpn, match e with | .failed a => some a | _ => none)] }

/-- The end of a walk for a page that a unit finds in its notes: the trap (R374, R377). -/
def State.walkFault (s : State) (src : Source) (va : Word) : Option (State × TrapInfo) :=
  (s.walkFaults.find? fun f => f.1 == src && f.2.1 == va.toNat / 2 ^ 18).map fun f =>
    ({ s with walkFaults := s.walkFaults.filter (· != f) },
      match f.2.2 with
      | some a => ⟨causeIntegrity, gaWord a, 0⟩
      | none => ⟨causeTranslation, va, 0⟩)

/-- The beat of an INTEGRITY trap is logged as a consumer's (R418). -/
def State.logTrap (s : State) (t : TrapInfo) (part : Option Nat) : State :=
  if t.code = causeIntegrity then s.logBeat (localAddr t.value / 64 * 64) 1 part else s

/-- A walk ends: its place goes to the next that waits. -/
def State.endWalk (s : State) (w : Walk) (e : WalkEnd) : State :=
  let rest := s.walks.filter (·.id != w.id)
  w.who.foldl (fun st src => st.endWalkFor w.vpn e src) { s with walks := startWalks ((s.reg 0x20).getLsbD 0) rest.length w.cluster rest }

/-- The next entry of a walk is asked for at its home, unless the walk faults without a read (R374). -/
def State.walkRead (s : State) (w : Walk) : State :=
  if !w.rootOk ∨ !tableHome w.table then s.endWalk w .fault
  else { s.fresh with requests := s.requests ++
      [⟨s.nextId, .walker w.cluster w.id, .load 8 false, w.entryAddr, .none, true, none⟩] }

/-- The entry that a walk has asked for is there (R374). -/
def State.walkTake (s : State) (w : Walk) (r : Reply) : State :=
  let s1 := { s with replies := s.replies.filter (·.req.id != r.req.id) }
  match r.failed, w.take r.value.toNat with
  | some _, _ => s1.endWalk w (.failed w.entryAddr)
  | none, .next t =>
    { s1 with walks := s1.walks.map fun x => if x.id = w.id then { x with level := x.level + 1, table := t } else x }
  | none, .leaf l => s1.endWalk w (.leaf l)
  | none, .fault => s1.endWalk w .fault

/-- A step of walk n: it asks the home of its next entry for it, or takes it when it has come; or, in host-assisted mode, it
writes its request to the host (R374, R377, R379). DESIGN CHOICE, unsafe (assumption 162): in that mode the place of the root is not
tested against R374, since no table is read. -/
def execPageWalk (n : Nat) (s : State) : Out :=
  match s.walks.find? (·.id == n) with
  | none => .next s
  | some w =>
    if !w.started ∨ w.asked then .next s
    else if w.assisted then
      if !w.rootOk then .next (s.endWalk w .fault)
      else
      match s.ringWrite 1 (BitVec.ofNat 64 (w.vpn * 2 ^ 18))
          (BitVec.ofNat 64 (w.root.toNat / 2 ^ 12 * 2 ^ 12 + w.cluster * 2 ^ 6 + w.tag)) with
      | some s1 => .next { s1 with walks := s1.walks.map fun x => if x.id = n then { x with asked := true } else x }
      | none => .next s
    else match s.replies.find? fun r => r.req.src == .walker w.cluster n with
      | some r => .next (s.walkTake w r)
      | none => .next (if s.requests.any fun r => r.src == .walker w.cluster n then s else s.walkRead w)

/-- The host answers a translation request: TRESP1 submits the pair of a leaf and its level (R374, R379, R455). The answer to a
request that a tlbinv has made void is discarded, and the walk asks anew (R378). -/
def execTranslationResponse (v : Word) (s : State) : Out :=
  let s1 := s.setReg 0x188 v
  match s.walks.find? fun w => w.asked && w.cluster == bitsOf v.toNat 6 6 && w.tag / 4 == bitsOf v.toNat 2 4 with
  | none => .next s1
  | some w =>
    if w.stale then
      .next { s1 with walks := s1.walks.map fun x => if x.id = w.id then { x with asked := false, stale := false } else x }
    else match leafOf (s.reg 0x180).toNat (bitsOf v.toNat 0 2) w.vpn with
    | some l => .next (s1.endWalk w (.leaf l))
    | none => .next (s1.endWalk w .fault)

end Sys2Proof.Machine
end

