-- ==== Sys2Proof/Machine/Gather.lean ====
section
/-! DEFINITION. The gather unit: gth, ddp, sred, sadd, scst and tstep from issue to arrival (R137 to R158), their
claims (R301, R302) and the row cache (R158). -/

namespace Sys2Proof.Machine

/-! ## The sparse control word (R141, R143) -/

def scwTid (v : Word) : Nat := bitsOf v.toNat 56 8
def scwMode (v : Word) : Nat := bitsOf v.toNat 52 4
def scwAux (v : Word) : Nat := bitsOf v.toNat 34 18
def scwSeg (v : Word) : Nat := bitsOf v.toNat 16 16
def scwN (v : Word) : Nat := bitsOf v.toNat 0 16

/-- Whether the fields a member does not use are zero and its mode is listed. -/
def scwOk (kind : GatherKind) (v : Word) : Bool :=
  let free := bitsOf v.toNat 32 2 == 0
  match kind with
  | .gth => free && scwAux v == 0 && scwSeg v == 0 && scwMode v % 8 == 0
  | .ddp => free && scwAux v == 0 && scwSeg v == 0 && scwMode v == 0 && scwTid v == 0
  | .sred => free && decide (scwMode v < 8) && scwMode v % 4 != 3
  | .sadd => free && scwAux v == 0 && scwSeg v == 0 && decide (scwMode v < 2)
  | .scst => free && scwAux v == 0 && scwSeg v == 0 && scwMode v == 0

/-! ## Checks of operands (R138, R142, R145, R146) -/

/-- A local-store operand of n bytes (R138). DESIGN CHOICE, unsafe (assumption 147): the TVAL of PROTECTION is the global
address of the first byte of the range, that of MISALIGNED and RANGE the offset; R138 and R145 do not say which. -/
def State.localOperand (s : State) (u : Nat) (v : Word) (n align : Nat) : Option TrapInfo :=
  if v.toNat % align ≠ 0 then some ⟨causeMisaligned, v, 0⟩
  else if 2 ^ 18 ≤ v.toNat ∨ 2 ^ 18 < v.toNat + n then some ⟨causeRange, v, 0⟩
  else if n ≠ 0 && s.bound u v.toNat n then some ⟨causeProtection, gaWord (lsAddr u v.toNat), 0⟩
  else none

/-- What the check of a destination comes to: its pages, a trap, or a page that misses the TLB. -/
inductive Checked where
  | ok (pages : List (Nat × Nat))
  | trap (t : TrapInfo)
  | miss (va : Word)
deriving DecidableEq, Repr

/-- A translation for an engine: its pages are checked as for user mode (R370). A requester whose walk has ended in a fault meets
that fault, whatever the TLB holds by then (R377). DESIGN CHOICE, unsafe (assumption 163): a global address is an operand like any
other where the issuing context is in supervisor mode. -/
def State.translateEngine (s : State) (src : Source) (u : Nat) (k : Fin 16) (ea : Word) (n : Need) : Translated :=
  if ea.toNat / 2 ^ 48 ≠ 0 then s.translate u k ea n
  else if (s.walkFault src ea).isSome then .miss
  else translateVirtual (s.coreAt u).tlb ea n true

/-- Whether a store of an engine to an address is refused to it as to user mode: what it reaches through a page lies in the tables
(R360, R370, R383), or a global address does and its context is in user mode. -/
def State.engineBarred (s : State) (u : Nat) (k : Fin 16) (ea : Word) (a : Nat) : Bool :=
  inTables a && (ea.toNat / 2 ^ 48 == 0 || !(s.ctxAt u k).prv)

/-- One 64-byte beat of a destination (R146): own local store, SHM or a tile store. -/
def State.checkBeat (s : State) (u : Nat) (k : Fin 16) (ea : Word) : Option Checked :=
  match s.translateEngine (.gather u k.val) u k ea ⟨false, true, false⟩ with
  | .trap t => some (.trap t)
  | .miss => some (.miss ea)
  | .ok _ a ga =>
    let kindOk := match storageOf a with
      | .localStore v => v == u
      | .shm | .tileStore _ => true
      | _ => false
    if !kindOk then some (.trap ⟨causeRange, ga, 0⟩)
    else if s.engineBarred u k ea a then some (.trap ⟨causeProtection, ga, 0⟩)
    else if s.boundAt a 64 then some (.trap ⟨causeProtection, ga, 0⟩)
    else none

/-- The frame of a page, once its beats have passed. -/
def State.frameOf (s : State) (u : Nat) (k : Fin 16) (page : Nat) : Nat :=
  match s.translateEngine (.gather u k.val) u k (BitVec.ofNat 64 (page * 2 ^ 18)) ⟨false, true, false⟩ with
  | .ok _ a _ => a
  | _ => 0

/-- A destination of n bytes, beat by beat. -/
def State.checkDest (s : State) (u : Nat) (k : Fin 16) (va : Word) (n : Nat) : Checked :=
  if va.toNat % 64 ≠ 0 then .trap ⟨causeMisaligned, va, 0⟩
  else match (List.range (n / 64)).findSome? fun i => s.checkBeat u k (va + BitVec.ofNat 64 (64 * i)) with
    | some c => c
    | none =>
      let first := va.toNat / 2 ^ 18
      let last := (va.toNat + n - 1) / 2 ^ 18
      .ok ((List.range (if n = 0 then 0 else last - first + 1)).map fun j => (first + j, s.frameOf u k (first + j)))

/-- A barrier operand (R142), checked as a store (R138, R383): none for 0, else an aligned SHM word. RANGE names the virtual address
of one that is not aligned, and the global address of one that is not SHM (assumption 129). -/
def State.checkBarrier (s : State) (u : Nat) (k : Fin 16) (va : Word) : Checked × Option Nat :=
  if va = 0 then (.ok [], none)
  else if va.toNat % 8 ≠ 0 then (.trap ⟨causeRange, va, 0⟩, none)
  else match s.translateEngine (.gather u k.val) u k va ⟨false, true, false⟩ with
    | .trap t => (.trap t, none)
    | .miss => (.miss va, none)
    | .ok _ a ga =>
      if storageOf a ≠ .shm then (.trap ⟨causeRange, ga, 0⟩, none)
      else if s.engineBarred u k va a then (.trap ⟨causeProtection, ga, 0⟩, none)
      else (.ok [], some a)

/-! ## Lists (R142, R145) -/

/-- A list of z-byte entries of a local store. -/
def State.readList (s : State) (u off z n : Nat) : List Nat := lanes (8 * z) n (s.readNat (lsAddr u off) (z * n))

/-- Bytes of a source row of sadd (R153). -/
def Table.sourceBytes (t : Table) (wide : Bool) : Nat := if wide then (4 * t.elems + 63) / 64 * 64 else t.rb

/-- Bytes of a pooled row of sred (R152). -/
def Table.pooledBytes (t : Table) (bf : Bool) : Nat := (t.elems * (if bf then 2 else 4) + 63) / 64 * 64

/-- The first failing check on the contents of a list (R145). -/
def State.checkLists (s : State) (u : Nat) (i : Instr) (kind : GatherKind) (t : Table) (list aux : Nat) (ids offs : List Nat) :
    Option TrapInfo :=
  match kind with
  | .ddp => none
  | .gth | .sadd | .scst =>
    if t.zero then none
    else (ids.findIdx? fun id => decide (t.rows ≤ id)).map fun j => ⟨causeRange, gaWord (lsAddr u (list + 8 * j)), 0⟩
  | .sred =>
    match ids.findIdx? fun k => decide (2 ^ 18 < aux + (k + 1) * t.rb) with
    | some j => some ⟨causeRange, gaWord (lsAddr u (list + 4 * j)), 0⟩
    | none =>
      match ids.find? fun k => s.bound u (aux + k * t.rb) t.rb with
      | some k => some ⟨causeProtection, gaWord (lsAddr u (aux + k * t.rb)), 0⟩
      | none =>
        if offs.headD 0 ≠ 0 ∨ (offs.zip offs.tail).any (fun x => decide (x.2 < x.1)) ∨ offs.getLastD 0 ≠ ids.length then
          some ⟨causeIllegal, instrWord i, 0⟩
        else none

/-! ## Acceptance (R140, R144, R145) -/

/-- The member and the operand registers of a gather-unit command. -/
def gatherOp : Instr → Option (GatherKind × XOp)
  | .gth x => some (.gth, x) | .ddp x => some (.ddp, x) | .sred x => some (.sred, x)
  | .sadd x => some (.sadd, x) | .scst x => some (.scst, x)
  | _ => none

/-- A descriptor that ddp does not read. -/
def Table.none : Table :=
  ⟨1, 64, .n8, false, 0, 0, false, 0, 0, false, 0, 1, 0xFFFF, 0, 0⟩

/-- The table of a command: binding, validity, format (R140, R144, R384). DESIGN CHOICE, unsafe (assumption 158): the ILLEGAL of a
queue-mode gth in a launch without a transform context (R163) comes after these. -/
def State.gatherTable (s : State) (u : Nat) (i : Instr) (kind : GatherKind) (scw : Word) : Except TrapInfo Table :=
  if kind = .ddp then .ok Table.none
  else
    let tid := scwTid scw
    let slot := gaWord (tdAddr tid)
    match s.lcLaunch u with
    | none => .error ⟨causeProtection, slot, 0⟩
    | some (_, l) =>
      if !l.binds tid then .error ⟨causeProtection, slot, 0⟩
      else match s.descriptorFails tid, s.readTable tid with
      | some beat, _ => .error ⟨causeIntegrity, gaWord beat, 0⟩
      | none, read => match read with
        | none => .error ⟨causeRange, slot, 0⟩
        | some t =>
          if (kind = .sred ∨ kind = .sadd) ∧ t.fmt = .n8 then .error ⟨causeIllegal, instrWord i, 0⟩
          else if kind = .gth ∧ bitOf (scwMode scw) 3 ∧ l.txpc = 0 then .error ⟨causeIllegal, instrWord i, 0⟩
          else .ok t

/-- The producer code of the gather unit of a core (R301, R314). -/
def gatherProducer (u : Nat) : BitVec 16 := producerEngine 0 u

/-- Where byte off of a command's destination lies. -/
def GatherCmd.target (g : GatherCmd) (off : Nat) : Nat :=
  lookup 0 g.pages ((g.dest + off) / 2 ^ 18) + (g.dest + off) % 2 ^ 18

/-- The pieces of a destination of n bytes, each within one page. -/
def GatherCmd.pieces (g : GatherCmd) (n : Nat) : List (Nat × Nat) :=
  g.pages.filterMap fun p =>
    let lo := max g.dest (p.1 * 2 ^ 18)
    let hi := min (g.dest + n) ((p.1 + 1) * 2 ^ 18)
    if lo < hi then some (p.2 + lo % 2 ^ 18, hi - lo) else none

/-- Copies of a row, or of all rows of a table, leave the row cache; rows on their way are not cached (R145, R157, R158). -/
def Core.dropRows (c : Core) (tid : Nat) (row : Option Nat) : Core :=
  let hit (id : Nat) : Bool := match row with
    | some r => r == id
    | none => true
  { c with
    cache := c.cache.filter fun (x : CacheRow) => !(x.tid == tid && hit x.row)
    gcmds := c.gcmds.map fun (g : GatherCmd) =>
      if g.tid == tid then
        { g with flight := g.flight.map fun (f : Flight) => if hit (g.ids.getD f.entry 0) then { f with cache := false } else f }
      else g }

/-- The arguments of an acceptance: member, registers and their values. -/
structure GatherArgs where
  kind : GatherKind
  x : XOp
  a : Word
  b : Word
  d : Word
  scw : Word

/-- Bytes of the destination of a command (R150, R151, R152). -/
def destBytes (kind : GatherKind) (t : Table) (scw : Word) : Nat :=
  match kind with
  | .gth => if bitOf (scwMode scw) 3 then 0 else scwN scw * t.rb
  | .sred => scwSeg scw * t.pooledBytes (scwMode scw / 4 == 1)
  | .ddp | .sadd | .scst => 0

/-- Bytes of the list of a command (R142). -/
def listBytes (kind : GatherKind) (scw : Word) : Nat := if kind = .sred then 4 * (scwN scw + scwSeg scw + 1) else 8 * scwN scw

/-- The checks of an acceptance, in the order of R145: a trap, a miss, or the command. Of the operands, the list comes first, then
b, and then the barrier (assumption 130). -/
def State.checkCommand (s : State) (u : Nat) (k : Fin 16) (i : Instr) (g : GatherArgs) : Checked × Option GatherCmd :=
  let n := scwN g.scw
  match s.gatherTable u i g.kind g.scw with
  | .error t => (.trap t, none)
  | .ok t =>
    let wide := g.kind = .sadd ∧ bitOf (scwMode g.scw) 0
    let queued := g.kind = .gth ∧ bitOf (scwMode g.scw) 3
    let local2 := match g.kind with
      | .ddp => s.localOperand u g.b (12 * n) 8
      | .sadd | .scst => s.localOperand u g.b (n * t.sourceBytes wide) 64
      | .gth | .sred => none
    let dest : Checked := match g.kind with
      | .gth | .sred => if queued then .ok [] else s.checkDest u k g.b (destBytes g.kind t g.scw)
      | .ddp | .sadd | .scst => Checked.ok []
    let bar := if g.kind = .ddp then (Checked.ok [], none) else s.checkBarrier u k g.d
    let ids := if g.kind = .sred then s.readList u g.a.toNat 4 n else s.readList u g.a.toNat 8 n
    let offs := if g.kind = .sred then s.readList u (g.a.toNat + 4 * n) 4 (scwSeg g.scw + 1) else []
    match s.localOperand u g.a (listBytes g.kind g.scw) (if g.kind = .sred then 4 else 8), local2, dest, bar.1 with
    | some tr, _, _, _ | none, some tr, _, _ => (.trap tr, none)
    | none, none, .ok pages, .ok _ =>
      match s.failedBeat (lsAddr u g.a.toNat) (listBytes g.kind g.scw), s.checkLists u i g.kind t g.a.toNat (scwAux g.scw) ids offs with
      | some beat, _ => (.trap ⟨causeIntegrity, gaWord beat, 0⟩, none)
      | none, some tr => (.trap tr, none)
      | none, none =>
        (.ok [], some {
                        id := s.nextId, ctx := k.val, kind := g.kind, tid := scwTid g.scw, mode := scwMode g.scw, table := t,
                        ids := ids, offs := offs, src := if g.kind = GatherKind.sred then scwAux g.scw else g.b.toNat,
                        dest := if g.kind = GatherKind.ddp then lsAddr u g.b.toNat else g.b.toNat, pages := pages, barrier := bar.2,
                        d := g.x.d, limit := (s.ctxAt u k).lwd, sl := (s.coreAt u).stepOf (scwTid g.scw), next := 0, pos := 0,
                        acc := [], left := [], uniq := [], flight := [], count := 0, err := false, waitFrom := none })
    | none, none, .ok _, c => (c, none)
    | none, none, c, _ => (c, none)

/-- The bytes that ddp writes, by their offsets, and whether each is written (R151). -/
def ddpOutput (ids : List Nat) : List Nat × List (Option Byte) :=
  let uniq := ids.foldl (fun l id => if l.contains id then l else l ++ [id]) []
  let head := (uniq.flatMap fun id => natToBytes 8 id).map some
  let gap := List.replicate (8 * (ids.length - uniq.length)) none
  let inv := (ids.flatMap fun id => natToBytes 4 (uniq.idxOf id)).map some
  (uniq, head ++ gap ++ inv)

/-- The claims of a command on its destination and on its barrier word (R301). -/
def State.claimFor (s : State) (u : Nat) (ranges : List (Nat × Nat)) (barrier : Option Nat) (cmd : Nat) : State :=
  let s1 := s.addClaim ranges (gatherProducer u) barrier cmd
  match barrier with
  | some a => s1.addClaim [(a, a + 8)] (gatherProducer u) barrier cmd
  | none => s1

/-- What an accepted command does at once: its claims are recorded, listed rows leave the cache, and the place is taken (R145, R301).
The destination units in local store or SHM are emptied after that, one by one. DESIGN CHOICE (assumption 154): R145 empties them
although they may be granules of the rows that an sred has still to read, which then waits for them to its limit. -/
def State.acceptCommand (s : State) (u : Nat) (g : GatherCmd) (scw : Word) : State :=
  let n := destBytes g.kind g.table scw
  let pieces := if g.kind = .ddp then [(g.dest, 12 * g.ids.length)] else g.pieces n
  let empties := pieces.flatMap fun p =>
    match storageOf p.1 with
    | .tileStore _ => []
    | _ => if p.2 = 0 then [] else unitsOf p.1 p.2
  let barred := s.claimFor u (pieces.map fun p => (p.1, p.1 + p.2)) g.barrier g.id
  let g1 := if g.kind = .ddp then
      { g with uniq := (ddpOutput g.ids).1, left := unitsOf g.dest (12 * g.ids.length), empties := empties }
    else { g with empties := empties }
  let c := barred.coreAt u
  let c1 := match g.kind with
    | .sadd | .scst => { (g.ids.foldl (fun (c : Core) id => c.dropRows g.tid (some id)) c) with noMerge := setInsert g.tid c.noMerge }
    | _ => c
  barred.fresh.setCore u { c1 with gcmds := c1.gcmds ++ [g1], gwait := c1.gwait.filter (·.1 != g.ctx), gread := [] }

/-- Replaces a command of core u. -/
def State.setCmd (s : State) (u : Nat) (g : GatherCmd) : State :=
  let c := s.coreAt u
  s.setCore u { c with gcmds := c.gcmds.map fun (x : GatherCmd) => if x.id = g.id then g else x }

/-- The park of the context whose command has been accepted ends, once its destination has been emptied (R145); xd of ddp is not
present until the command is over (R151). -/
def State.leaveAcceptance (s : State) (u : Nat) (g : GatherCmd) : State :=
  let k := ctxIdx g.ctx
  let s1 := s.finishAt u k
  if g.kind = .ddp ∧ g.d ≠ 0 then
    let c := s1.ctxAt u k
    s1.setCtx u k { c.absent g.d.toNat with pending := c.pending ++ [⟨g.d.toNat, g.id⟩] }
  else s1

/-- One unit of the destination of an accepted command is emptied, behind what its core has sent there (R145, R285, R286). One that
lies in a workspace bound since then is left as it is. -/
def State.emptyStep (s : State) (u : Nat) (g : GatherCmd) : State :=
  let a := g.empties.getD (Config.choice s.seq % g.empties.length) 0
  if !s.pairClear u (homeOf a) then s
  else
    let rest := g.empties.filter (· != a)
    let s1 := s.setCmd u { g with empties := rest }
    let s2 := if s.boundAt a (unitBytes a) then s1 else (s1.setEmpty a).bitsChanged
    if rest.isEmpty then s2.leaveAcceptance u g else s2

/-- A command that is not accepted: its context traps (R145). -/
def State.refuseCommand (s : State) (u : Nat) (k : Fin 16) (t : TrapInfo) : State := (s.logTrap t (s.partOf u)).trapHere u k t

/-- The home of an identifier as seen by the issuing core. -/
def State.homeOfId (s : State) (g : GatherCmd) (id : Nat) : Nat × Nat × Nat := g.table.home s.dev id

/-- A range that an access of a command touches: its device (none for this one), its first address and its length. -/
abbrev Touch := Option Nat × Nat × Nat

/-- What the unit reads before it accepts a command: its list and its descriptor. -/
def touchedFirst (u : Nat) (g : GatherArgs) : List Touch :=
  let list : List Touch := if g.a.toNat < 2 ^ 18 then [(none, lsAddr u g.a.toNat, listBytes g.kind g.scw)] else []
  if g.kind = .ddp then list else list ++ [(none, tdAddr (scwTid g.scw), 128)]

/-- What a command reads and writes from then on: source rows, destination, barrier, and rows at their homes. -/
def State.touchedBy (s : State) (u : Nat) (g : GatherCmd) : List Touch :=
  let here (a n : Nat) : Touch := (none, a, n)
  let pieces := if g.kind = .ddp then [(g.dest, 12 * g.ids.length)] else g.pieces (g.table.rb * g.ids.length + 2 ^ 18)
  let sources := match g.kind with
    | .sadd | .scst => [here (lsAddr u g.src) (g.ids.length * g.table.sourceBytes (g.kind == .sadd && bitOf g.mode 0))]
    | .sred => g.ids.map fun k => here (lsAddr u (g.src + k * g.table.rb)) g.table.rb
    | .gth | .ddp => []
  let rows : List Touch := match g.kind with
    | .gth | .sadd | .scst => (g.ids.filter fun id => decide (id < g.table.rows)).map fun id =>
        let h := s.homeOfId g id
        (if h.1 = s.dev then none else some h.1, g.table.rowAddr h.2.1 h.2.2, g.table.rb)
    | .sred | .ddp => []
  sources ++ pieces.map (fun p => here p.1 p.2) ++ ((g.barrier.map fun a => here a 8).toList) ++ rows

/-- What the accesses of a command wait for, as accesses of the context that issues it (R149): a line of the context that they
overlap is sent (R282), and its earlier relaxed accesses to the same bytes are acknowledged (R278 case b). Nothing is left to
wait for where there is none. -/
def State.waitsBehind (s : State) (u : Nat) (k : Fin 16) (ts : List Touch) : Option State :=
  let c := s.coreAt u
  let lines := c.lines.filter fun l => ts.any fun t => l.covers k.val t.1 t.2.1 t.2.2
  if !lines.isEmpty then some (lines.foldl (fun st l => st.sendLine u l) s)
  else if ts.any fun t => c.held k.val t.1 t.2.1 t.2.2 then some s
  else none

/-- The unit's own reads of these bytes keep the order of R286 behind the requests of its core. -/
def State.touchClear (s : State) (u : Nat) (ts : List Touch) : Bool := ts.all fun t => s.pairClear u (homeOf t.2.1)

/-! ### The reads of an acceptance (R145, R285, R383) -/

/-- What is read for an acceptance, act by act: the words of the descriptor, but for those that are software's, and then the list. -/
def firstReads (u : Nat) (g : GatherArgs) : List Nat :=
  (if g.kind = .ddp then [] else (List.range 12).map fun i => tdAddr (scwTid g.scw) + 8 * i) ++
    (if g.a.toNat + listBytes g.kind g.scw ≤ 2 ^ 18 ∧ 0 < listBytes g.kind g.scw then unitsOf (lsAddr u g.a.toNat) (listBytes g.kind g.scw) else [])

/-- One of these reads. -/
def State.readAct (s : State) (u a : Nat) : State :=
  let c := s.coreAt u
  let n := unitBytes a
  s.setCore u { c with gread := c.gread ++ [(a, s.readBytes a n, (s.failedBeat a n).isSome)] }

/-- The state as the unit of core u has read it: the list and the descriptor hold what each act found. -/
def State.asRead (s : State) (u : Nat) : State :=
  let r := (s.coreAt u).gread
  let beats := r.map fun x => x.1 / 64 * 64
  let bad := r.filterMap fun x => if x.2.2 then some (x.1 / 64 * 64) else none
  { s with mem := (r.foldl (fun (st : State) x => st.writeBytes x.1 x.2.1) s).mem,
           failing := bad.foldl (fun l b => setInsert b l) (s.failing.filter fun b => !beats.contains b) }

/-- The context that parked first for a place of core u has its command accepted, or traps, once its list and its descriptor have
been read (R145). It waits behind the earlier accesses of its context to what the command touches. -/
def execCommandAcceptance (u : Nat) (s : State) : Out :=
  let c := s.coreAt u
  match c.gwait with
  | [] => .next s
  | (kn, i) :: _ =>
    let k := ctxIdx kn
    if 8 ≤ c.gcmds.length then .next s
    else match gatherOp i with
      | none => .next s
      | some (kind, x) =>
        let x0 := s.ctxAt u k
        let src := Source.gather u kn
        let leaveQueue (st : State) : State :=
          st.setCore u { st.coreAt u with gwait := (st.coreAt u).gwait.filter (·.1 != kn), gread := [] }
        let args : GatherArgs := ⟨kind, x, x0.xr x.a, x0.xr x.b, x0.xr x.d, x0.xr x.e⟩
        let first := touchedFirst u args
        match s.waitsBehind u k first, (firstReads u args).find? fun a => !c.gread.any (·.1 == a) with
        | some s1, _ => .next s1
        | none, some a => .next (if s.touchClear u first then s.readAct u a else s)
        | none, none => match (s.asRead u).checkCommand u k i args with
        | (.trap t, _) => .next ((leaveQueue s).refuseCommand u k t)
        | (.miss va, _) =>
          match s.walkFault src va with
          | some (s1, t) => .next ((leaveQueue s1).refuseCommand u k t)
          | none =>
            if s.walks.any fun w => w.who.contains src then .next s
            else .next (s.miss src (s.cluster u) c.ptroot va)
        | (.ok _, none) => .next s
        | (.ok _, some g) =>
          match s.waitsBehind u k (s.touchedBy u g) with
          | some s1 => .next s1
          | none =>
          let s1 := s.acceptCommand u g (x0.xr x.e)
          .next (if ((s1.coreAt u).gcmds.find? (·.id == g.id)).any fun y => !y.empties.isEmpty then s1 else s1.leaveAcceptance u g)

/-- Issue: the limits of the SCW, then the park for a place (R137, R145). -/
def gatherIssue (i : Instr) (kind : GatherKind) (x : XOp) (s : State) : Out :=
  .next (lcIssue i [.x x.a, .x x.b, .x x.d, .x x.e] (fun s =>
    let scw := s.rx x.e
    if !scwOk kind scw then s.illegal i
    else if kind = .gth ∧ bitOf (scwMode scw) 3 ∧ s.rx x.b ≠ 0 then s.illegal i
    else
      let c := s.myCore
      (s.setMyCore { c with gwait := c.gwait ++ [(s.ctx.val, i)] }).park i .acceptance) s)

def execGth (x : XOp) (s : State) : Out := gatherIssue (.gth x) .gth x s
def execDdp (x : XOp) (s : State) : Out := gatherIssue (.ddp x) .ddp x s
def execSred (x : XOp) (s : State) : Out := gatherIssue (.sred x) .sred x s
def execSadd (x : XOp) (s : State) : Out := gatherIssue (.sadd x) .sadd x s
def execScst (x : XOp) (s : State) : Out := gatherIssue (.scst x) .scst x s

/-! ## The course of a command -/

/-- Entries or segments of a command. -/
def GatherCmd.total (g : GatherCmd) : Nat :=
  match g.kind with
  | .sred => g.offs.length - 1
  | .ddp => 0
  | .gth | .sadd | .scst => g.ids.length

/-- A beat leaves core u for an address: the requests of the core to the same homes that have not been performed stand before it
(R286). -/
def State.sendBeat (s : State) (u a : Nat) (bytes : List Byte) (failed : Bool) (src : Source) (entry : Nat) : State :=
  let left := unitsOf a 64
  let before := s.requests.filter fun r => r.src.unit == u && left.any fun x => homeOf x == homeOf r.addr
  { s with beats := s.beats ++ [⟨a, bytes, failed, src, entry, left, before.map Request.id⟩] }

/-- A list in an order that is open. -/
def shuffled (free : Nat → Nat) : Nat → List Nat → List Nat
  | 0, _ => []
  | fuel + 1, l =>
    match l[free fuel % l.length]? with
    | none => []
    | some x => x :: shuffled free fuel (l.eraseIdx (free fuel % l.length))

/-- The beats of an entry of a command leave for its destination from byte off on, in no architected order (R284); bad lists its
failing beats. -/
def State.sendBeats (s : State) (u : Nat) (g : GatherCmd) (entry off : Nat) (bytes : List Byte) (bad : List Nat) : State :=
  let n := bytes.length / 64
  (shuffled (fun i => Config.choice (s.seq + i)) n (List.range n)).foldl (fun st j =>
    st.sendBeat u (g.target (off + 64 * j)) ((bytes.drop (64 * j)).take 64) (bad.contains j) (.gather u g.id) entry) s

/-- A row of gth goes to its destination, or to the transform queue (R150, R163). -/
def State.deliverRow (s : State) (u : Nat) (g : GatherCmd) (entry : Nat) (bytes : List Byte) (bad : List Nat) : State :=
  if bitOf g.mode 3 then { s with qrows := s.qrows ++ [⟨u, g.id, ⟨bytes, entry, g.ids.getD entry 0, bad⟩⟩] }
  else s.sendBeats u g entry (entry * g.table.rb) bytes bad

/-- An entry has begun. -/
def GatherCmd.begin (g : GatherCmd) (f : Flight) : GatherCmd := { g with next := g.next + 1, flight := g.flight ++ [f] }

/-- Whether an earlier accepted command of the core has still to send a row request to a home (R149). -/
def State.rowsAhead (s : State) (u : Nat) (g : GatherCmd) (dev unit : Nat) : Bool :=
  let earlier := (s.coreAt u).gcmds.takeWhile fun (x : GatherCmd) => x.id != g.id
  earlier.any fun x =>
    (match x.kind with | .gth | .sadd | .scst => true | .ddp | .sred => false) && !x.err &&
      (x.ids.drop x.next).any fun id =>
        decide (id < x.table.rows) && (s.homeOfId x id).1 == dev && (s.homeOfId x id).2.1 == unit

/-- A row request, on this device or to another (R149, R286, R311). -/
def State.sendRow (s : State) (u : Nat) (g : GatherCmd) (id : Nat) (act : Act) (remote : Nat → Payload) : State :=
  let h := s.homeOfId g id
  let req : Request := ⟨s.nextId, .gather u g.id, act, g.table.rowAddr h.2.1 h.2.2, .none, true, none⟩
  if h.1 = s.dev then { s.fresh with requests := s.requests ++ [req] }
  else ({ s.fresh with remote := s.remote ++ [(h.1, req)] }).sendPacket h.1 (some (u, h.2.1)) (remote h.2.1)

/-- A copy in the row cache that may serve a gth (R158, R293). A copy may also have been evicted. -/
def State.cachedRow (s : State) (u : Nat) (g : GatherCmd) (id : Nat) : Option CacheRow :=
  if g.table.pol = 0 ∨ Config.choice s.seq % 2 = 0 then none
  else (s.coreAt u).cache.find? fun x =>
    x.tid == g.tid && x.row == id && (g.table.pol == 2 || decide (g.sl.toNat - x.tf.toNat ≤ g.table.bk))

/-- The next entry of gth (R150). -/
def State.gthEntry (s : State) (u : Nat) (g : GatherCmd) : State :=
  let id := g.ids.getD g.next 0
  if g.table.rows ≤ id then
    (s.setCmd u (g.begin ⟨g.next, 0, false, 0⟩)).deliverRow u g g.next (List.replicate g.table.rb 0) []
  else
    let h := s.homeOfId g id
    match s.cachedRow u g id with
    | some x => (s.setCmd u (g.begin ⟨g.next, 0, false, 0⟩)).deliverRow u g g.next x.bytes x.bad
    | none =>
      if s.rowsAhead u g h.1 h.2.1 then s
      else
        let sl := (s.coreAt u).stepOf g.tid
        let own := h.1 = s.dev ∧ h.2.1 = u
        let s1 := s.setCmd u (g.begin ⟨g.next, s.nextId, g.table.pol != 0 && !own, sl⟩)
        s1.sendRow u g id (.row g.tid g.table h.2.2)
          fun unit => .rowRead s.nextId u unit g.tid id sl.toNat g.table.pol ((s.coreAt u).noMerge.contains g.tid) s.dev

/-- The elements that a source row of sadd contributes: fp32 codes, or integers for an EXACT table (R153). -/
def sourceElems (t : Table) (wide : Bool) (bytes : List Byte) : List Nat :=
  let fmt := if wide then .fp32 else t.fmt
  ((rowCodes fmt bytes).take t.elems).map fun c =>
    if t.exact then exactContribution t.fb (decodeFp fmt c) else (convertEl fmt .fp32 .rne false c).bits

/-! ### The reads of a row of the local store (R285) -/

/-- Granules of a row of n bytes that are still to be read, by their numbers within it. -/
def GatherCmd.unread (g : GatherCmd) (n : Nat) : List Nat := (List.range (n / 16)).filter fun p => !g.got.any (·.1 == p)

/-- The granule that is read next: the order is open (R285). -/
def GatherCmd.nextGranule (g : GatherCmd) (seq n : Nat) : Nat := (g.unread n).getD (Config.choice seq % (g.unread n).length) 0

/-- A row of n bytes that has been read, with the numbers of its failing beats. -/
def GatherCmd.row (g : GatherCmd) (n : Nat) : List Byte × List Nat :=
  ((List.range (n / 16)).flatMap fun p => ((g.got.find? (·.1 == p)).map fun x => x.2.1).getD (List.replicate 16 0),
   (List.range (n / 64)).filter fun b => g.got.any fun x => x.1 / 4 == b && x.2.2)

/-- One granule of the row of n bytes at an address is read, as one act. -/
def State.readGranule (s : State) (g : GatherCmd) (a n : Nat) : GatherCmd :=
  let p := g.nextGranule s.seq n
  { g with got := g.got ++ [(p, s.readBytes (a + 16 * p) 16, (s.failedBeat (a + 16 * p) 16).isSome)], waitFrom := none }

/-- The next move of an entry of sadd or scst: a granule of its source row is read, or the row has been read and leaves (R153,
R154). A source row of sadd that fails its check stops the command, and so does one that lies in a workspace bound since its
acceptance (R67, R145; assumption 137). -/
def State.sourceEntry (s : State) (u : Nat) (g : GatherCmd) : State :=
  let id := g.ids.getD g.next 0
  if g.table.rows ≤ id then s.setCmd u { g with next := g.next + 1, count := g.count + 1 }
  else
    let h := s.homeOfId g id
    let wide := g.kind == .sadd && bitOf g.mode 0
    let n := g.table.sourceBytes wide
    let a := lsAddr u (g.src + g.next * n)
    if s.rowsAhead u g h.1 h.2.1 ∨ !s.pairClear u u then s
    else if !(g.unread n).isEmpty then
      if s.boundAt (a + 16 * g.nextGranule s.seq n) 16 then s.setCmd u { g with err := true }
      else s.setCmd u (s.readGranule g a n)
    else
      let row := g.row n
      let g1 := { g with got := [] }
      if g.kind = .sadd then
        match row.2 with
        | j :: _ => (s.setCmd u { g1 with err := true }).logBeat (a + 64 * j) 1 (s.partOf u)
        | [] =>
          let elems := sourceElems g.table wide row.1
          (s.setCmd u (g1.begin ⟨g.next, s.nextId, false, 0⟩)).sendRow u g id (.accumulate g.tid g.table h.2.2 elems)
            fun unit => .accumulate s.nextId u unit g.tid id elems
      else
        (s.setCmd u (g1.begin ⟨g.next, s.nextId, false, 0⟩)).sendRow u g id (.overwrite g.tid g.table h.2.2 row.1 row.2)
          fun unit => .overwrite s.nextId u unit g.tid id row.1 row.2

/-- One element of sred: the sum or the maximum (R152). -/
def pool (mode : Nat) (acc v : Nat) : Nat :=
  if mode % 4 = 2 then
    let a := decodeFp .fp32 acc
    let b := decodeFp .fp32 v
    if a.isNan || b.isNan then ElTy.fp32.nanBits else if lessFp a b then v else acc
  else (addFp .fp32 .rne (decodeFp .fp32 acc) (decodeFp .fp32 v)).1

/-- A quotient rounded once to fp32: the mean of n rows (R152). -/
def divideRound (x : Num) (n : Nat) : Nat :=
  match x with
  | .fin neg m e =>
    -- m × 2^40 / n, with a sticky bit below for the remainder
    let scaled := m * 2 ^ 80
    let q := scaled / n
    let sticky := if scaled % n = 0 then 2 * q else 2 * q + 1
    (roundFp .fp32 neg sticky (e - 81) .rne).1
  | .inf neg => signed .fp32 neg ElTy.fp32.infBits
  | .nan _ => ElTy.fp32.nanBits

/-- One element of a pooled row: mean, and the output type (R152). -/
def pooled (mode len : Nat) (acc : Nat) : Nat :=
  let x := if mode % 4 = 1 ∧ len ≠ 0 then divideRound (decodeFp .fp32 acc) len else acc
  if mode / 4 = 1 then (convertEl .fp32 .bf16 .rne false x).bits else x

/-- Whether the destination of sred meets a row that it reads: its pooled rows are then written when every row has been read, as
if every source were read first (R105). -/
def GatherCmd.overlapped (g : GatherCmd) (u : Nat) : Bool :=
  let ob := g.table.pooledBytes (g.mode / 4 == 1)
  (g.pieces (g.total * ob)).any fun p => g.ids.any fun k => overlaps p.1 p.2 (lsAddr u (g.src + k * g.table.rb)) g.table.rb

/-- A pooled row leaves for its place. -/
def State.emitPooled (s : State) (u : Nat) (g : GatherCmd) (entry : Nat) (bytes : List Byte) : State :=
  (s.setCmd u { g with flight := g.flight ++ [⟨entry, 0, false, 0⟩] }).sendBeats u g entry (entry * bytes.length) bytes []

/-- Whether sred waits for granules of the row at an address: before it reads a row all of it is to be full, and while it reads what
is left (R30, R152). -/
def State.rowWaits (s : State) (g : GatherCmd) (a : Nat) : Bool := !(g.unread g.table.rb).all fun p => s.isFull (a + 16 * p)

/-- The next granule of a row, the sum of a row that has been read, or the end of a segment of sred (R152). -/
def State.sredStep (s : State) (u : Nat) (g : GatherCmd) : State :=
  let lo := g.offs.getD g.next 0
  let hi := g.offs.getD (g.next + 1) 0
  if lo + g.pos < hi then
    let a := lsAddr u (g.src + g.ids.getD (lo + g.pos) 0 * g.table.rb)
    if !s.pairClear u u then s
    else if !(g.unread g.table.rb).isEmpty then
      if s.boundAt a g.table.rb then s.setCmd u { g with err := true, waitFrom := none }
      else if s.rowWaits g a then s.setCmd u { g with waitFrom := some (g.waitFrom.getD s.ck) }
      else s.setCmd u (s.readGranule g a g.table.rb)
    else match (g.row g.table.rb).2 with
      | j :: _ => (s.setCmd u { g with err := true, got := [] }).logBeat (a + 64 * j) 1 (s.partOf u)
      | [] =>
        let row := (rowCodes g.table.fmt (g.row g.table.rb).1).map fun c => (convertEl g.table.fmt .fp32 .rne false c).bits
        let acc := if g.pos = 0 then row else g.acc.zipWith (pool g.mode) row
        s.setCmd u { g with pos := g.pos + 1, acc := acc, got := [] }
  else
    let elems := if lo = hi then List.replicate g.table.elems 0 else g.acc
    let codes := elems.map (pooled g.mode (hi - lo))
    let bf := g.mode / 4 == 1
    let ob := g.table.pooledBytes bf
    let bytes := natToBytes ob (joinLanes (if bf then 16 else 32) codes)
    let g1 := { g with next := g.next + 1, pos := 0, acc := [] }
    if g.overlapped u then s.setCmd u { g1 with kept := g.kept ++ [(g.next, bytes)] } else s.emitPooled u g1 g.next bytes

/-- A pooled row that has been kept back leaves once the last row has been read. -/
def State.sredRelease (s : State) (u : Nat) (g : GatherCmd) : State :=
  match g.kept with
  | [] => s
  | p :: rest => s.emitPooled u { g with kept := rest } p.1 p.2

/-- One granule of the output of ddp is written and set full (R151). One that lies in a workspace bound since the acceptance is
not written, which is an error of the command (R67, R145; assumption 137). -/
def State.ddpStep (s : State) (u : Nat) (g : GatherCmd) : State :=
  if g.left.isEmpty ∨ !s.pairClear u u then s
  else
    let a := g.left.getD (Config.choice s.seq % g.left.length) 0
    let out := (ddpOutput g.ids).2
    let old := s.readBytes a 16
    let new := (List.range 16).map fun j =>
      if g.dest ≤ a + j then ((out.getD (a + j - g.dest) none).getD (old.getD j 0)) else old.getD j 0
    let g1 := { g with left := g.left.filter (· != a) }
    if s.boundAt a 16 then s.setCmd u { g1 with err := true } else (s.setCmd u g1).engineWrite a new

/-- An entry is done: its effect is complete and counted (R147). -/
def State.entryDone (s : State) (u id entry : Nat) : State :=
  match (s.coreAt u).gcmds.find? (·.id == id) with
  | none => s
  | some g =>
    if g.flight.any (·.entry == entry) then s.setCmd u { g with flight := g.flight.filter (·.entry != entry), count := g.count + 1 }
    else s

/-- The row cache with a row put in: it holds 2 MiB, and which rows give way is open (R31, R158). -/
def cachePut (free : Nat → Nat) : Nat → List CacheRow → CacheRow → List CacheRow
  | 0, _, x => [x]
  | fuel + 1, l, x =>
    if (l.map fun (y : CacheRow) => y.bytes.length).sum + x.bytes.length ≤ 2 ^ 21 then l ++ [x]
    else cachePut free fuel (l.eraseIdx (free fuel % l.length)) x

/-- A row enters the cache of a core in place of an older copy of it. -/
def Core.cacheRow (c : Core) (x : CacheRow) (seq : Nat) : Core :=
  let rest := c.cache.filter fun y => !(y.tid == x.tid && y.row == x.row)
  { c with cache := cachePut (fun n => Config.choice (seq + n)) rest.length rest x }

/-- A row, or the acknowledgement of an accumulate or a scatter, comes back to its command (R147, R150, R158). A failure
at a home of another device comes as a trap; that device has logged it. Rows that are already on their way behind one whose fold
fails are delivered and counted (R148; assumption 128). -/
def State.takeRow (s : State) (u : Nat) (g : GatherCmd) (r : Reply) : State :=
  let s0 := { s with replies := s.replies.filter fun x => x.req.id != r.req.id }
  match g.flight.find? (·.req == r.req.id) with
  | none => s0
  | some f =>
    let ended := s0.setCmd u { g with err := true, flight := g.flight.filter (·.req != r.req.id) }
    if r.failed.isSome then ended.logWord ((r.failed).getD 0) 1 (s.partOf u)
    else if r.trap.isSome then ended
    else match g.kind with
      | .gth =>
        let c := s0.coreAt u
        let id := g.ids.getD f.entry 0
        let kept := if f.cache then c.cacheRow ⟨g.tid, id, f.tf, r.bytes, r.bad⟩ s.seq else c
        (s0.setCore u kept).deliverRow u g f.entry r.bytes r.bad
      | _ => s0.entryDone u g.id f.entry

/-- An arrival at a barrier. -/
def Act.isArrival : Act → Bool
  | .arrive _ _ => true
  | _ => false

/-- A command goes on: it empties its destination, takes a row that has come back, or its next entry (R145). -/
def State.gatherStep (s : State) (u id : Nat) : State :=
  match (s.coreAt u).gcmds.find? (·.id == id) with
  | none => s
  | some g =>
    match s.replies.find? fun r => r.req.src == .gather u id && !r.req.act.isArrival with
    | some r => s.takeRow u g r
    | none =>
      if !g.empties.isEmpty then s.emptyStep u g
      else if g.kind = .ddp then s.ddpStep u g
      else if g.err || decide (g.total ≤ g.next) then s.sredRelease u g
      else match g.kind with
        | .gth => s.gthEntry u g
        | .sadd | .scst => s.sourceEntry u g
        | .sred => s.sredStep u g
        | .ddp => s

/-- One granule or word of a beat is written and set full, as one act (R25, R273, R284, R297). The check value is that of the beat
(R414), and comes with the first of its acts, so that no granule of the beat is full under the check value that stood before. What
lies in a workspace bound since the acceptance is not written. -/
def State.beatAct (s : State) (b : Beat) (a : Nat) (first : Bool) : State :=
  let n := unitBytes a
  let s1 := if first then s.recheck b.addr 64 (if b.failed then [b.addr] else []) else s
  if s.boundAt a n then s else s1.engineWrite a ((b.bytes.drop (a - b.addr)).take n)

/-- Command id of core u ends with its error bit set; entry is not counted. -/
def State.failEntry (s : State) (u id entry : Nat) : State :=
  match (s.coreAt u).gcmds.find? (·.id == id) with
  | none => s
  | some g => s.setCmd u { g with err := true, flight := g.flight.filter (·.entry != entry) }

/-- Beat n of the crossbar, where it is the one that its port serves, performs one of its acts in an order of its own (R25, R284,
R296). The last beat of an entry completes it, or fails it where the entry has met a bound workspace (R67; assumption 137). -/
def execBeatArrival (n : Nat) (s : State) : Out :=
  match s.beats[n]? with
  | none => .next s
  | some b =>
    if s.beatNext (s.destPort b.addr) ≠ some b then .next s
    else
      let a := b.left.getD (Config.choice s.seq % b.left.length) b.addr
      let rest := b.left.filter (· != a)
      if s.busy a (unitBytes a) then .next s else
      let s1 := (s.noteAct a (unitBytes a)).beatAct b a (b.left == unitsOf b.addr 64)
      let bound := s.boundAt a (unitBytes a)
      let s2 := match bound, b.src with
        | true, .gather u id => s1.failEntry u id b.entry
        | _, _ => s1
      if !rest.isEmpty then .next { s2 with beats := s2.beats.set n { b with left := rest } }
      else
        let s3 := { s2 with beats := s2.beats.eraseIdx n, portTurn := insertAt (s.destPort b.addr) (s.sourcePort b) s2.portTurn }
        if s3.beats.any fun x => x.src == b.src && x.entry == b.entry then .next s3
        else match b.src with
          | .gather u id => .next (s3.entryDone u id b.entry)
          | _ => .next s3

/-- Whether the transform queue of a core, the current segment among its entries, takes another row of n bytes (R163, R401). -/
def Core.queueRoom (c : Core) (n : Nat) : Bool :=
  let held := (c.cursor.map Cursor.seg).toList ++ c.txq
  decide (held.length < min 16 (16384 / n)) && decide ((held.map fun (x : Segment) => x.bytes.length).sum + n ≤ 16384)

/-- The code start and the code end of a segment, and whether its header is in error (R164). -/
def Segment.extent (g : Segment) : Nat × Nat × Bool :=
  let h := bytesToNat (g.bytes.take 8)
  let cs := 64 + 128 * bitsOf h 0 16
  let top := 8 * g.bytes.length
  let l := cs + bitsOf h 16 32
  if top < l then (cs, top, true) else (cs, l, false)

/-- A segment becomes current (R164, R166). -/
def Segment.load (g : Segment) : Cursor := ⟨g, g.extent.1, 0, g.extent.2.2⟩

/-- A segment for a core: it becomes current where there is none, and else waits in the queue (R166). -/
def Core.takeSegment (c : Core) (g : Segment) : Core :=
  if c.cursor.isNone && c.txq.isEmpty then { c with cursor := some g.load } else { c with txq := c.txq ++ [g] }

/-- The next row of a command in list order enters the transform queue (R163). -/
def execSegmentArrival (u : Nat) (s : State) : Out :=
  let c := s.coreAt u
  let ready (q : QueuedRow) : Bool :=
    q.u == u && c.queueRoom q.seg.bytes.length &&
      ((c.gcmds.find? (·.id == q.cmd)).map fun g => g.flight.all fun f => decide (q.seg.index ≤ f.entry)) == some true
  match s.qrows.find? ready with
  | none => .next s
  | some q =>
    let s1 := { s with qrows := s.qrows.filter fun x => !(x.cmd == q.cmd && x.seg.index == q.seg.index) }
    .next ((s1.setCore u (c.takeSegment q.seg)).entryDone u q.cmd q.seg.index)

/-! ## Completion (R147, R148, R301, R302) -/

/-- A command of the gather unit of core u sends its arrival to the bank of its barrier word, behind what the core has sent there
(R147, R286, R299). -/
def State.sendArrival (s : State) (u cmd a count : Nat) (err : Bool) : State :=
  { s.fresh with requests := s.requests ++
      [⟨s.nextId, .gather u cmd, .arrive (BitVec.ofNat 32 count) err, a, .none, true, none⟩] }

/-- The answer to the arrival of a command, once it has come. A word that fails its check has not been changed, and its failure is
logged (R417, R418). -/
def State.takeArrival (s : State) (u cmd : Nat) : Option State :=
  (s.replies.find? fun r => r.req.src == .gather u cmd && r.req.act.isArrival).map fun r =>
    let s1 := { s with replies := s.replies.filter fun x => x.req.id != r.req.id }
    match r.failed with
    | some beat => s1.logWord beat 1 none
    | none => s1

/-- A command is over: its place is free, and xd of ddp is written (R145, R151). -/
def State.endCommand (s : State) (u : Nat) (g : GatherCmd) : State :=
  let c := s.coreAt u
  let s1 := s.setCore u { c with gcmds := c.gcmds.filter (·.id != g.id) }
  let k := ctxIdx g.ctx
  let x := s1.ctxAt u k
  if g.kind = .ddp ∧ x.pending.any (·.id == g.id) then
    s1.setCtx u k ({ x with pending := x.pending.filter (·.id != g.id) }.setX g.d (BitVec.ofNat 64 g.uniq.length))
  else s1

/-- A command of core u has done what it does. With a barrier it sends its arrival, which settles its claims at the bank, and is
complete with the answer; without one it is complete at once, and its error is recorded (R147, R148, R151, R301, R302). -/
def execGatherCommandComplete (u j : Nat) (s : State) : Out :=
  match (s.coreAt u).gcmds.find? (·.id == j) with
  | none => .next s
  | some g =>
    let done := g.empties.isEmpty && g.flight.isEmpty && g.left.isEmpty && g.kept.isEmpty && (g.err || decide (g.total ≤ g.next))
    if !done then .next s
    else match g.barrier with
      | none =>
        let s1 := if g.err then s.recordError (s.partOf u) 1 u g.ctx else s
        .next ((s1.settleClaims j g.err).endCommand u g)
      | some a =>
        if g.sent then .next (((s.takeArrival u j).map fun s1 => s1.endCommand u g).getD s)
        else .next ((s.setCmd u { g with sent := true }).sendArrival u j a g.count g.err)

/-- The wait of sred for a row has reached its limit: the command stops with its error bit (R152). -/
def execSredRowWaitLimit (u j : Nat) (s : State) : Out :=
  match (s.coreAt u).gcmds.find? (·.id == j) with
  | none => .next s
  | some g =>
    match g.waitFrom, limitOf (g.waitFrom.getD 0) g.limit with
    | some _, some t =>
      let a := lsAddr u (g.src + g.ids.getD (g.offs.getD g.next 0 + g.pos) 0 * g.table.rb)
      if t ≤ s.ck ∧ s.rowWaits g a then .next (s.setCmd u { g with err := true, waitFrom := none }) else .next s
    | _, _ => .next s

/-! ## tstep (R157) -/

def execTstep (d a e : Reg) (s : State) : Out :=
  let i := Instr.tstep d a e
  .next (lcIssue i [.x a, .x d, .x e] (fun s =>
    let scw := s.rx e
    let tid := scwTid scw
    let slot := gaWord (tdAddr tid)
    if bitsOf scw.toNat 0 52 ≠ 0 ∨ 2 ≤ scwMode scw then s.illegal i
    else match s.lcLaunch s.core with
      | none => s.trap causeProtection slot
      | some (_, l) =>
        if !l.binds tid then s.trap causeProtection slot
        else if (s.descriptorFails tid).isSome then s.integrityAt s.core s.ctx (gaWord ((s.descriptorFails tid).getD 0))
        else if (s.readTable tid).isNone then s.trap causeRange slot
        else
          let id := s.nextId
          let req : Request := ⟨id, .ctx s.core s.ctx.val, .step tid (s.rx a) (bitOf (scwMode scw) 0), tdAddr tid + 0x10,
            .x d 8 false, true, none⟩
          let s1 := { s.fresh with requests := s.requests ++ [req] }
          let s2 := if d = 0 then s1
            else s1.setMe { (s1.me.absent d.toNat) with pending := s1.me.pending ++ [PendingReg.mk d.toNat id] }
          s2.done i) s)

/-- Core u takes the oldest step, or invalidation, that waits for it: S_L and S_h in one act (R157, R292, R387). The
last core lets the tstep write its result. DESIGN CHOICE, unsafe (assumption 160): the steps of tables at different banks are taken in
one order by every core. -/
def execStepTake (u : Nat) (s : State) : Out :=
  match s.stepJobs.findIdx? fun j => j.waiting.contains u with
  | none => .next s
  | some n =>
    match s.stepJobs[n]? with
    | none => .next s
    | some j =>
      let c := s.coreAt u
      let c1 := match j.step with
        | some v => { c with steps := storeAt 0 j.tid v c.steps, noMerge := setRemove j.tid c.noMerge }
        | none => c
      let c2 := if j.inv then c1.dropRows j.tid none else c1
      let s1 := s.setCore u c2
      let rest := j.waiting.filter (· != u)
      if rest.isEmpty then
        let s2 := { s1 with stepJobs := s1.stepJobs.eraseIdx n }
        match j.req with
        | some r => .next (s2.answer { r.ack with value := j.old.zeroExtend 128 })
        | none => .next s2
      else .next { s1 with stepJobs := s1.stepJobs.set n { j with waiting := rest } }

end Sys2Proof.Machine
end

