-- ==== Sys2Proof/Machine/Streams.lean ====
section
/-! DEFINITION. The sparse stream engine: sopen, snext, sint, smrg and sclose (R159 to R162). -/

namespace Sys2Proof.Machine

/-- The open slot of context k that an operand names (R160). -/
def Core.slotOf (c : Core) (k : Nat) (v : Word) : Option StreamSlot :=
  if h : v.toNat < 8 then
    let x := c.slots.get ⟨v.toNat, h⟩
    if x.isOpen && x.owner == k then some x else none
  else none

/-- Replaces a slot. -/
def Core.setSlot (c : Core) (v : Word) (x : StreamSlot) : Core :=
  { c with slots := vset c.slots (Fin.ofNat 8 v.toNat) x }

/-- Units set full, and what that lets go on (R175, R302). -/
def State.fillRange (s : State) (a n : Nat) : State := ((s.setRangeFull a n).dropFailedClaims a n).bitsChanged

/-! ## Issue -/

def execSopen (x : XOp) (s : State) : Out :=
  let i := Instr.sopen x
  .next (lcIssue i [.x x.a, .x x.b, .x x.d, .x x.e] (fun s =>
    let w := if s.rx x.e = 0 then 4 else 8
    if 1 < (s.rx x.e).toNat ∨ 2 ^ 32 ≤ (s.rx x.b).toNat then s.illegal i
    else if (s.rx x.a).toNat % w ≠ 0 then s.trap causeMisaligned (s.rx x.a)
    else
      let c := s.myCore
      match (List.finRange 8).find? fun n => !(c.slots.get n).isOpen with
      | none => (s.wx x.d (BitVec.allOnes 64)).done i
      | some n =>
        let slot : StreamSlot := ⟨true, s.rx x.a, (s.rx x.b).toNat, w, 0, s.ctx.val⟩
        ((s.setMyCore { c with slots := vset c.slots n slot }).wx x.d (BitVec.ofNat 64 n.val)).done i) s)

def execSclose (a : Reg) (s : State) : Out :=
  let i := Instr.sclose a
  .next (lcIssue i [.x a] (fun s =>
    match s.myCore.slotOf s.ctx.val (s.rx a) with
    | none => s.illegal i
    | some _ => (s.setMyCore (s.myCore.setSlot (s.rx a) StreamSlot.none)).done i) s)

def execSnext (d a : Reg) (s : State) : Out :=
  let i := Instr.snext d a
  .next (lcIssue i [.x a, .x d] (fun s =>
    match s.myCore.slotOf s.ctx.val (s.rx a) with
    | none => s.illegal i
    | some _ => s.park i (.stream .next ⟨0, 0, a, d⟩ 0 0 none none)) s)

/-- Issue of sint and smrg (R160, R162). -/
def mergeIssue (i : Instr) (op : StreamOp) (x : XOp) (s : State) : Out :=
  .next (lcIssue i [.x x.a, .x x.b, .x x.d, .x x.e] (fun s =>
    let c := s.myCore
    if (c.slotOf s.ctx.val (s.rx x.a)).isNone || (c.slotOf s.ctx.val (s.rx x.b)).isNone || s.rx x.a == s.rx x.b then s.illegal i
    else if (s.rx x.e).toNat % 8 ≠ 0 then s.trap causeMisaligned (s.rx x.e)
    else s.park i (.stream op x 0 (s.rx x.e) none none)) s)

def execSint (x : XOp) (s : State) : Out := mergeIssue (.sint x) .int x s
def execSmrg (x : XOp) (s : State) : Out := mergeIssue (.smrg x) .mrg x s

/-! ## Element reads (R161, R162) -/

/-- What an element read comes to: the element, a wait, or a trap. -/
inductive ElementRead where
  | value (s : State) (e : Element)
  | wait (s : State)
  | trap (s : State) (t : TrapInfo)

/-- The checks of the read of a slot's next element, for context k of core u, and its request. -/
def State.askElement (s : State) (u : Nat) (k : Fin 16) (x : StreamSlot) : ElementRead :=
  let ea := x.va + BitVec.ofNat 64 (x.pos * x.w)
  let src := Source.stream u k.val
  match s.translateEngine src u k ea ⟨true, false, false⟩ with
  | .trap t => .trap s t
  | .miss =>
    match s.walkFault src ea with
    | some (s1, t) => .trap (s1.logTrap t (s.partOf u)) t
    | none =>
      if s.walks.any fun w => w.who.contains src then .wait s
      else .wait (s.miss src (s.cluster u) (s.coreAt u).ptroot ea)
  | .ok _ a ga =>
    if refuses (some u) (s.ctxAt u k).prv (.load false) x.w a then .trap s ⟨causeRange, ga, 0⟩
    else if s.boundAt a x.w then .trap s ⟨causeProtection, ga, 0⟩
    else
      let lines := (s.coreAt u).lines.filter fun l => l.covers k.val none a x.w
      if !lines.isEmpty then .wait (lines.foldl (fun st l => st.sendLine u l) s)
      else if (s.coreAt u).held k.val none a x.w then .wait s
      else .wait { s.fresh with requests := s.requests ++ [⟨s.nextId, src, .load x.w false, a, .none, true, none⟩] }

/-- The read of a slot's next element as a relaxed request to its home: it is made once, and then its value comes (R161). -/
def State.readElement (s : State) (u : Nat) (k : Fin 16) (x : StreamSlot) : ElementRead :=
  let src := Source.stream u k.val
  match s.replies.find? fun r => r.req.src == src with
  | some r =>
    let ea := x.va + BitVec.ofNat 64 (x.pos * x.w)
    .value { s with replies := s.replies.filter fun y => y.req.id != r.req.id }
      ⟨r.value.toNat, if ea.toNat / 2 ^ 48 = 0 then gaWord r.req.addr else ea, r.failed.map localAddr⟩
  | none => if s.requests.any fun r => r.src == src then .wait s else s.askElement u k x

/-! ## The course of snext, sint and smrg (R160 to R162) -/

/-- The progress of a merge in its registers: xd and xe, with the granules that it wrote set full. -/
def State.mergeProgress (s : State) (u : Nat) (k : Fin 16) (x : XOp) (cnt : Nat) (out : Word) : State :=
  let c := s.ctxAt u k
  let e := c.xr x.e
  let c1 := c.setX x.d (c.xr x.d + BitVec.ofNat 64 cnt)
  let s1 := s.setCtx u k (if e = 0 then c1 else c1.setX x.e out)
  if e = 0 ∨ out = e then s1 else s1.fillRange (lsAddr u e.toNat) (out.toNat - e.toNat)

/-- A merge that stops at an element or an output word with a trap. -/
def State.mergeTrap (s : State) (u : Nat) (k : Fin 16) (x : XOp) (op : StreamOp) (cnt : Nat) (out : Word) (t : TrapInfo) :
    State :=
  (if op = .next then s else s.mergeProgress u k x cnt out).trapHere u k t

/-- INTEGRITY for an element that fails its check. -/
def State.elementFails (s : State) (u : Nat) (k : Fin 16) (x : XOp) (op : StreamOp) (cnt : Nat) (out : Word) (e : Element)
    (beat : Nat) : State :=
  (s.logBeat beat 1 (s.partOf u)).mergeTrap u k x op cnt out ⟨causeIntegrity, e.ga, 0⟩

/-- The checks of an output word (R67, R138, R162). -/
def State.checkEmit (s : State) (u : Nat) (out : Word) : Option TrapInfo :=
  if 2 ^ 18 ≤ out.toNat then some ⟨causeRange, out, 0⟩
  else if s.bound u out.toNat 8 then some ⟨causeProtection, out, 0⟩
  else none

/-- Emit: the word, and its granule, which is set full now or at the end (R160, R161). DESIGN CHOICE, unsafe (assumption 157): where
the output overlaps a source list, elements that are read later are read after the words written before. -/
def State.emit (s : State) (u : Nat) (out : Word) (y : Nat) : State :=
  let a := lsAddr u out.toNat
  let s1 := s.putNat a 8 y
  if Config.choice s.seq % 2 = 0 then s1.fillRange a 8 else s1

/-- A slot moves to its next element. -/
def State.stepSlot (s : State) (u : Nat) (v : Word) (x : StreamSlot) : State :=
  s.setCore u ((s.coreAt u).setSlot v { x with pos := x.pos + 1 })

/-- One comparison of a merge. An exhausted side compares as above all. -/
def State.compareStep (s : State) (u : Nat) (k : Fin 16) (op : StreamOp) (x : XOp) (cnt : Nat) (out : Word)
    (a b : StreamSlot) (ua vb : Option Element) : State :=
  let c := s.ctxAt u k
  let av := (ua.map Element.value).getD (2 ^ 64)
  let bv := (vb.map Element.value).getD (2 ^ 64)
  let emits := op == .mrg || av == bv
  let y := min av bv
  let s1 := if av ≤ bv then s.stepSlot u (c.xr x.a) a else s
  let s2 := if bv ≤ av then s1.stepSlot u (c.xr x.b) b else s1
  let ua' := if av ≤ bv then none else ua
  let vb' := if bv ≤ av then none else vb
  let go (st : State) (cnt : Nat) (out : Word) : State :=
    st.setCtx u k ((st.ctxAt u k).repark (.stream op x cnt out ua' vb'))
  if !emits then go s2 cnt out
  else if c.xr x.e = 0 then go s2 (cnt + 1) out
  else match s.checkEmit u out with
    | some t => s.mergeTrap u k x op cnt out t
    | none =>
      if (s.coreAt u).held k.val none (lsAddr u out.toNat) 8 ∨ !s.pairClear u u then s
      else go (s2.emit u out y) (cnt + 1) (out + 8)

/-- A side of a merge that has an element which has not been read: it is read, and nothing else happens. -/
def State.readSide (s : State) (u : Nat) (k : Fin 16) (op : StreamOp) (x : XOp) (cnt : Nat) (out : Word) (slot : StreamSlot)
    (put : Element → Park) : State :=
  match s.readElement u k slot with
  | .value s1 e => s1.setCtx u k ((s1.ctxAt u k).repark (put e))
  | .wait s1 => s1
  | .trap s1 t => s1.mergeTrap u k x op cnt out t

/-- The next step of a parked snext, sint or smrg. -/
def State.streamStep (s : State) (u : Nat) (k : Fin 16) (op : StreamOp) (x : XOp) (cnt : Nat) (out : Word)
    (ua vb : Option Element) : State :=
  let c := s.ctxAt u k
  let core := s.coreAt u
  match op, core.slotOf k.val (c.xr x.a), core.slotOf k.val (c.xr x.b) with
  | .next, some a, _ =>
    if a.n ≤ a.pos then (s.setCtx u k (c.setX x.d (BitVec.allOnes 64))).finishAt u k
    else match ua with
      | none => s.readSide u k op x cnt out a fun e => .stream op x cnt out (some e) none
      | some e => match e.failed with
        | some beat => s.elementFails u k x op cnt out e beat
        | none =>
          let s1 := s.stepSlot u (c.xr x.a) a
          (s1.setCtx u k ((s1.ctxAt u k).setX x.d (BitVec.ofNat 64 e.value))).finishAt u k
  | .int, some a, some b | .mrg, some a, some b =>
    let ra := decide (a.pos < a.n)
    let rb := decide (b.pos < b.n)
    if !((ra && rb) || (op == .mrg && (ra || rb))) then (s.mergeProgress u k x cnt out).finishAt u k
    else if ra && ua.isNone then s.readSide u k op x cnt out a fun e => .stream op x cnt out (some e) vb
    else if rb && vb.isNone then s.readSide u k op x cnt out b fun e => .stream op x cnt out ua (some e)
    else match ua.bind fun e => e.failed.map fun f => (e, f), vb.bind fun e => e.failed.map fun f => (e, f) with
      | some (e, f), _ | none, some (e, f) => s.elementFails u k x op cnt out e f
      | none, none => s.compareStep u k op x cnt out a b ua vb
  | _, _, _ => s

end Sys2Proof.Machine
end

