-- ==== Sys2Proof/Machine/Bitstream.lean ====
section
/-! DEFINITION. The bit-stream instructions of the transform context (R163 to R169). -/

namespace Sys2Proof.Machine

/-- CS and L of a cursor's segment (R164). -/
def Cursor.start (c : Cursor) : Nat := c.seg.extent.1
def Cursor.stop (c : Cursor) : Nat := c.seg.extent.2.1

/-- The bits of a segment as a number. -/
def Segment.bits (g : Segment) : Nat := bytesToNat g.bytes

/-- n bits from a position on, those at or beyond L read as 0 (R167). -/
def Cursor.peek (c : Cursor) (n : Nat) : Nat := bitsOf c.seg.bits c.p (min n (c.stop - c.p))

/-- Whether a failing beat holds any of the bits from lo to hi − 1. -/
def Segment.fails (g : Segment) (lo hi : Nat) : Bool := g.bad.any fun b => decide (512 * b < hi) && decide (lo < 512 * b + 512)

/-- How the decoding of one symbol ends (R165): its value and the position after it, or an error; with the end of the
bits that were read. -/
structure Symbol where
  value : Option Nat
  last : Nat
deriving DecidableEq, Repr

/-- The groups of a codeword from a position on; k is the number of groups read, v their value. -/
def decodeGroups (bits stop : Nat) : Nat → Nat → Nat → Nat → Symbol
  | 0, p, _, _ => ⟨none, p⟩
  | fuel + 1, p, k, v =>
    if stop < p + 4 then ⟨none, p⟩
    else
      let g := bitsOf bits p 4
      let v' := v + g % 8 * 8 ^ k
      if g < 8 then (if v' < 2 ^ 64 then ⟨some v', p + 4⟩ else ⟨none, p + 4⟩)
      else decodeGroups bits stop fuel (p + 4) (k + 1) v'

/-- One symbol at the cursor (R165). -/
def Cursor.symbol (c : Cursor) : Symbol :=
  if c.p < c.start ∨ (c.p - c.start) % 4 ≠ 0 then ⟨none, c.p⟩ else decodeGroups c.seg.bits c.stop 22 c.p 0 0

/-- Whether the beat that holds the header fails its check: what a segment's bounds are is then not known (R164, R417). -/
def Segment.headerFails (g : Segment) : Bool := g.fails 0 64

/-- What a cursor holds beside its segment (R166). -/
def Cursor.rest (c : Cursor) : Nat × Word × Bool := (c.p, c.acc, c.err)

/-- Sets the cursor of the issuing core. -/
def State.setCursor (s : State) (c : Option Cursor) : State := s.setMyCore { s.myCore with cursor := c }

/-- INTEGRITY for a failing beat of a segment; the queue's beats have no address that the spec gives. -/
def State.segmentFails (s : State) (u : Nat) (k : Fin 16) : State := s.integrityAt u k (Config.freeWord s.seq)

/-- What every bit-stream instruction but bsync checks: the transform context (R65) and a current segment (R166). -/
def bitIssue (i : Instr) (uses : List RegUse) (f : Cursor → State → State) (s : State) : State :=
  lcIssue i uses (fun s =>
    if s.ctx ≠ s.myCore.transformCtx then s.illegal i
    else match s.myCore.cursor with
      | none => s.illegal i
      | some c => if c.seg.headerFails then s.segmentFails s.core s.ctx else f c s) s

/-- bget and bpeek (R167). -/
def getBits (i : Instr) (d a : Reg) (moves : Bool) (s : State) : Out :=
  .next (bitIssue i [.x a, .x d] (fun c s =>
    let n := (s.rx a).toNat
    if n < 1 ∨ 64 < n then s.illegal i
    else if c.seg.fails c.p (min (c.p + n) c.stop) then s.segmentFails s.core s.ctx
    else
      let s1 := s.wx d (BitVec.ofNat 64 (c.peek n))
      (if moves then s1.setCursor (some { c with p := min (c.p + n) c.stop }) else s1).done i) s)

def execBget (d a : Reg) (s : State) : Out := getBits (.bget d a) d a true s
def execBpeek (d a : Reg) (s : State) : Out := getBits (.bpeek d a) d a false s

def execBskip (a : Reg) (s : State) : Out :=
  let i := Instr.bskip a
  .next (bitIssue i [.x a] (fun c s =>
    (s.setCursor (some { c with p := min (c.p + (s.rx a).toNat) c.stop })).done i) s)

def execBdec (d : Reg) (s : State) : Out :=
  let i := Instr.bdec d
  .next (bitIssue i [.x d] (fun c s =>
    if c.err then (s.wx d (BitVec.allOnes 64)).done i
    else
      let y := c.symbol
      if c.seg.fails c.p y.last then s.segmentFails s.core s.ctx
      else match y.value with
        | some v => ((s.wx d (BitVec.ofNat 64 v)).setCursor (some { c with p := y.last })).done i
        | none => ((s.wx d (BitVec.allOnes 64)).setCursor (some { c with err := true })).done i) s)

/-! ## bdecn (R168) -/

/-- Issue: the limit, the output offset and the barrier are checked, and the claims are recorded (R138, R142, R301). The
words of the output range are checked as they are written. -/
def execBdecn (x : XOp) (s : State) : Out :=
  let i := Instr.bdecn x
  .next (bitIssue i [.x x.a, .x x.b, .x x.d, .x x.e] (fun c s =>
    let n := (s.rx x.b).toNat
    if 65535 < n then s.illegal i
    else match s.localOperand s.core (s.rx x.a) 0 8, s.checkBarrier s.core s.ctx (s.rx x.e) with
      | some t, _ | none, (.trap t, _) => s.trap t.code t.value t.aux
      | none, (.miss va, _) => s.missPark i va
      | none, (.ok _, bar) =>
        let id := s.nextId
        let lo := lsAddr s.core (s.rx x.a).toNat
        (s.fresh.claimFor s.core [(lo, min (lo + 8 * n) (lsAddr s.core (2 ^ 18)))] bar id).park i (.decode x id 0 bar c)) s)

/-- The last output word of a run is full, whether or not its granule has two of them. -/
def State.fillLast (s : State) (u : Nat) (k : Fin 16) (x : XOp) (cnt : Nat) : State :=
  if cnt = 0 then s else s.fillRange (lsAddr u (((s.ctxAt u k).xr x.a).toNat + 8 * (cnt - 1))) 8

/-- A run is over: the cursor, the count and the next instruction. -/
def State.decodeDone (s : State) (u : Nat) (k : Fin 16) (x : XOp) (cnt : Nat) (c : Cursor) : State :=
  let s1 := s.setCore u { s.coreAt u with cursor := some c }
  (s1.setCtx u k ((s1.ctxAt u k).setX x.d (BitVec.ofNat 64 cnt))).finishAt u k

/-- The end of a run: with a barrier, its arrival is sent, and the run is over with the answer; the arrival settles the claims. -/
def State.decodeEnd (s : State) (u : Nat) (k : Fin 16) (x : XOp) (cmd cnt : Nat) (bar : Option Nat) (c : Cursor) : State :=
  match bar with
  | none => ((s.fillLast u k x cnt).settleClaims cmd c.err).decodeDone u k x cnt c
  | some b =>
    match s.takeArrival u cmd with
    | some s1 => s1.decodeDone u k x cnt c
    | none =>
      if (s.requests.any fun r => r.src == .gather u cmd) ∨ (s.coreAt u).held k.val none b 8 then s
      else (s.fillLast u k x cnt).sendArrival u cmd b cnt c.err

/-- One symbol of a run, or its end. A word that lies outside the local store or in a bound workspace is a trap (R67, R138). -/
def State.decodeStep (s : State) (u : Nat) (k : Fin 16) (x : XOp) (cmd cnt : Nat) (bar : Option Nat) (c : Cursor) : State :=
  let ctx := s.ctxAt u k
  if !(decide (cnt < (ctx.xr x.b).toNat) && decide (c.p < c.stop) && !c.err) then s.decodeEnd u k x cmd cnt bar c
  else
    let y := c.symbol
    if c.seg.fails c.p y.last then (s.endClaims cmd).segmentFails u k
    else match y.value with
      | none => s.setCtx u k ((s.ctxAt u k).repark (.decode x cmd cnt bar { c with err := true }))
      | some v =>
        let c1 := { c with p := y.last, acc := c.acc + BitVec.ofNat 64 v }
        let off := (ctx.xr x.a).toNat + 8 * cnt
        let a := lsAddr u off
        if (s.coreAt u).held k.val none a 8 ∨ !s.pairClear u u then s
        else if 2 ^ 18 ≤ off then (s.endClaims cmd).trapHere u k ⟨causeRange, BitVec.ofNat 64 off, 0⟩
        else if s.bound u off 8 then (s.endClaims cmd).trapHere u k ⟨causeProtection, gaWord a, 0⟩
        else
          let s1 := s.putNat a 8 c1.acc.toNat
          let s2 := if (off + 8) % 16 = 0 then s1.fillRange a 8 else s1
          s2.setCtx u k ((s2.ctxAt u k).repark (.decode x cmd (cnt + 1) bar c1))

/-! ## bsync (R169) -/

/-- Mode 0: the current segment goes; the next becomes current, or the context parks. The cursor keeps p, ACC and ERR. -/
def syncPop (i : Instr) (d : Reg) (s : State) : State :=
  let c := s.myCore
  match c.txq with
  | g :: rest => ((s.setMyCore { c with txq := rest, cursor := some g.load }).wx d (BitVec.ofNat 64 g.index)).done i
  | [] => (s.setMyCore { c with cursor := none, bare := (c.cursor.map Cursor.rest).getD c.bare }).park i (.pop d)

/-- Gap entry j of a segment; bits that the segment does not have are free. -/
def Segment.gap (g : Segment) (j : Nat) (free : Nat → Word) : Nat :=
  let v := bytesToNat ((g.bytes.drop (8 + 16 * j)).take 16)
  if 24 + 16 * j ≤ g.bytes.length then v else (free 0).toNat + 2 ^ 64 * (free 1).toNat

/-- Mode 1: to a gap entry. -/
def syncGap (i : Instr) (d : Reg) (j : Nat) (c : Cursor) (s : State) : State :=
  let count := bitsOf (bytesToNat (c.seg.bytes.take 8)) 0 16
  if j < count then
    if c.seg.fails (64 + 128 * j) (192 + 128 * j) then s.segmentFails s.core s.ctx
    else
      let e := c.seg.gap j fun n => Config.freeWord (2 * s.seq + n)
      ((s.setCursor (some { c with p := c.start + bitsOf e 64 32, acc := BitVec.ofNat 64 e, err := false })).wx d
        (BitVec.ofNat 64 (bitsOf e 96 32))).done i
  else ((s.setCursor (some { c with err := true })).wx d (BitVec.allOnes 64)).done i

/-- Mode 2: past the first group at or after a position that ends a codeword. -/
def syncScan (i : Instr) (d : Reg) (off : Nat) (c : Cursor) (s : State) : State :=
  let q := (c.start + off + 3) / 4 * 4
  let groups := (c.stop - q) / 4
  let hit := (List.range groups).find? fun n => !bitOf c.seg.bits (q + 4 * n + 3)
  let last := match hit with
    | some n => q + 4 * n + 4
    | none => c.stop
  if c.seg.fails q last then s.segmentFails s.core s.ctx
  else match hit with
    | some _ => ((s.setCursor (some { c with p := last, acc := 0, err := false })).wx d (BitVec.ofNat 64 (last - c.start))).done i
    | none => ((s.setCursor (some { c with p := c.stop, err := true })).wx d (BitVec.allOnes 64)).done i

/-- bsync; without a current segment, mode 1 finds no entry and mode 2 no group. -/
def execBsync (d a b : Reg) (s : State) : Out :=
  let i := Instr.bsync d a b
  .next (lcIssue i [.x a, .x b, .x d] (fun s =>
    if s.ctx ≠ s.myCore.transformCtx then s.illegal i
    else match (s.rx b).toNat, s.myCore.cursor with
      | 0, _ => syncPop i d s
      | 1, some c => if c.seg.headerFails then s.segmentFails s.core s.ctx else syncGap i d (s.rx a).toNat c s
      | 2, some c => if c.seg.headerFails then s.segmentFails s.core s.ctx else syncScan i d (s.rx a).toNat c s
      | 3, some c => ((s.setCursor (some { c with acc := s.rx a })).wx d c.acc).done i
      | 1, none | 2, none =>
        let c := s.myCore
        ((s.setMyCore { c with bare := (c.bare.1, c.bare.2.1, true) }).wx d (BitVec.allOnes 64)).done i
      | 3, none =>
        let c := s.myCore
        ((s.setMyCore { c with bare := (c.bare.1, s.rx a, c.bare.2.2) }).wx d c.bare.2.1).done i
      | _, _ => s.illegal i) s)

end Sys2Proof.Machine
end

