-- ==== Sys2Proof/Machine/Migrate.lean ====
section
/-! DEFINITION. Live migration (R200, R392 to R395), and the end of every park of a context (R64). -/

namespace Sys2Proof.Machine

/-- A context's number and core as a core identifier of this device, with DEV 0xFFFF (R389, R395). -/
def ownId (u k : Nat) : Word := BitVec.ofNat 64 (0xFFFF * 2 ^ 48 + u * 2 ^ 37 + k)

/-- Whether a move may take a context to core v (R392). -/
def State.suitable (s : State) (u k v : Nat) : Bool :=
  let src := s.coreAt u
  let dst := s.coreAt v
  let member := match s.lcLaunch u with
    | some (_, l) => l.hasLc v
    | none => dst.launch.isNone
  member && src.m8 == dst.m8 && dst.firstEligible.isSome &&
    (List.finRange 8).all fun i => !((src.slots.get i).isOpen && (src.slots.get i).owner == k && (dst.slots.get i).isOpen)

/-- The cores in the order of the hardware's search (R392): the source's cluster by local index, its die, the device. -/
def State.searchOrder (s : State) (u : Nat) : List Nat :=
  let p := s.position u
  let all := List.range 1008
  let near := (List.range 16).filterMap fun i => all.find? fun v =>
    clusterOf (s.position v) == clusterOf p && localIndex (s.position v) == i
  near ++ (all.filter fun v => dieOf (s.position v) == dieOf p) ++ all

/-- The target of a move: the one named, if it is suitable, or the first that the hardware finds. -/
def State.moveTarget (s : State) (u k : Nat) (target : Option Nat) : Option Nat :=
  match target with
  | some v => if s.suitable u k v then some v else none
  | none => (s.searchOrder u).find? (s.suitable u k)

/-- Whether an instruction that waits can be withdrawn: on a presence bit, or on a sync-class access or a waitv whose request has
not been performed, here or, as far as is known, on another device (R82, R200). -/
def State.withdrawable (s : State) (u k : Nat) : Bool :=
  let c := s.ctxAt u (ctxIdx k)
  c.state == .parked &&
    match c.park with
    | .presence _ => true
    | .reply id => bitsOf c.parkRec.toNat 60 4 != 0 &&
        ((s.requests ++ s.waiters ++ s.watchers).any (·.id == id) ||
          (s.remote.any fun r => r.2.id == id && (!s.recalled.contains id || s.lost.contains id)))
    | _ => false

/-- The context is to issue the instruction that waited afresh (R82, R390). Its park record is what its workspace is to show, and
goes when the workspace has been written (R390). -/
def State.issueAfresh (s : State) (u k : Nat) : State :=
  let c := s.ctxAt u (ctxIdx k)
  s.setCtx u (ctxIdx k) { (c.resume s.ck) with parkRec := c.parkRec, since := none }

/-- The acts that may wait at a home on another device. -/
def Act.waits : Act → Bool
  | .consume _ | .peek _ | .fill _ _ | .await _ _ | .watch _ _ _ | .barrier _ => true
  | _ => false

/-- A request that another device has is called back (R82). -/
def State.recall (s : State) (dev : Nat) (r : Request) : State :=
  s.sendPacket dev (some (r.src.unit, homeOf r.addr)) (.access r.id r.src.unit r.addr .withdraw none)

/-- The waits of some units at homes of other devices are called back, and forgotten here (R82, R364, R368). -/
def State.recallWaits (s : State) (mine : Source → Bool) : State :=
  let out := s.remote.filter fun r => mine r.2.src && r.2.act.waits
  out.foldl (fun st r => (if s.lost.contains r.2.id then st else st.recall r.1 r.2).forget (.reply r.2.id)) s

/-- The wait is withdrawn. A request that another device has is called back: it answers that it has withdrawn it, or what has come
of it before that. -/
def State.withdraw (s : State) (u k : Nat) : State :=
  match (s.ctxAt u (ctxIdx k)).park with
  | .reply id =>
    match s.remote.find? fun r => r.2.id == id && !s.lost.contains id with
    | some (d, r) =>
      ({ s with recalled := setInsert id s.recalled }).recall d r
    | none =>
      let s1 := (s.forget (.reply id)).issueAfresh u k
      { s1 with requests := s1.requests.filter (·.id != id), waiters := s1.waiters.filter (·.id != id),
                watchers := s1.watchers.filter (·.id != id) }
  | _ => s.issueAfresh u k

/-- Nothing of a context's accesses and commands is outstanding (R200, R393). -/
def State.settled (s : State) (u k : Nat) : Bool :=
  let c := s.coreAt u
  !(c.relaxed.any (·.ctx == k)) && !(c.lines.any (·.ctx == k)) && !(c.gcmds.any (·.ctx == k)) && !(c.gwait.any (·.1 == k)) &&
    (s.ctxAt u (ctxIdx k)).pending.isEmpty

/-- The move itself, into the lowest eligible context of core v (R393, R395). -/
def State.moveContext (s : State) (u k v : Nat) : State × Nat :=
  let src := s.ctxAt u (ctxIdx k)
  match (s.coreAt v).firstEligible with
  | none => (s, 0)
  | some j =>
    let moved : Context :=
      { src with state := .run, wsp := (s.ctxAt v j).wsp, moved := true, readyAt := s.ck + 1, window := [], since := none,
                 park := .none, parkRec := 0, deadline := none, fwd := none }
    let s1 := s.writeBack u (ctxIdx k)
    let slots := (s1.coreAt u).slots
    let s2 := (s1.setCtx v j moved).writeBack v j
    let c := s2.coreAt v
    let s3 := s2.setCore v { c with slots := Vector.ofFn fun i =>
      if (slots.get i).isOpen ∧ (slots.get i).owner = k then { slots.get i with owner := j.val } else c.slots.get i }
    let old : Context := { (coreReset u).ctxs.get (ctxIdx k) with
      wsp := src.wsp, fwd := some ⟨ownId v j.val, src.origin == .started && unitOfId src.reaper == u⟩ }
    let s4 := s3.setCtx u (ctxIdx k) old
    let s5 := s4.setCore u (((s4.coreAt u).freeSlots k).settleFlags k 0)
    (s5.setCore v ((s5.coreAt v).settleFlags j.val (src.fcsr.toNat % 32)), j.val)

/-- The migrate of context j of core i ends with a value in xd. -/
def State.migrateEnd (s : State) (i : Nat) (j : Fin 16) (d : Reg) (v : Word) : State :=
  (s.setCtx i j ((s.ctxAt i j).setX d v)).finishAt i j

/-- The migrate ends without a move: the context stays, and no longer shows the wait that was withdrawn (R200, R390). -/
def State.migrateStays (s : State) (i : Nat) (j : Fin 16) (d : Reg) (u k : Nat) : State :=
  (s.setCtx u (ctxIdx k) { s.ctxAt u (ctxIdx k) with parkRec := 0 }).migrateEnd i j d (BitVec.allOnes 64)

/-- The move, once its source has come to rest and its target is known; a move of the issuer completes at the target
(R394). -/
def State.migrateNow (s : State) (i : Nat) (j : Fin 16) (d : Reg) (u k v : Nat) : State :=
  let m := ((s.coreAt v).firstEligible.map (·.val)).getD 0
  let id := s.coreId v m
  if i = u ∧ j.val = k then ((s.migrateEnd i j d id).moveContext u k v).1
  else ((s.moveContext u k v).1).migrateEnd i j d id

/-- A migrate goes on: its source comes to rest, the host is asked where it chooses, and the context moves. -/
def State.migrateStep (s : State) (i : Nat) (j : Fin 16) (d : Reg) (u k : Nat) (target : Option Nat) (asked : Option Bool) :
    State :=
  let self := decide (i = u ∧ j.val = k)
  let src := s.ctxAt u (ctxIdx k)
  if !self && src.state != .run && src.state != .parked then s.migrateEnd i j d (BitVec.ofInt 64 (-2))
  else if (s.coreAt u).lines.any (·.ctx == k) then s.sendLines u k
  else if !self && s.withdrawable u k then s.withdraw u k
  else if (!self && (src.state != .run || src.since.isSome)) || !s.settled u k then s
  else match asked with
    | some true => s
    | some false =>
      let launch := match s.lcLaunch u with
        | some (_, l) => l.id
        | none => 0
      match s.ringWrite 2 (s.coreId u k) (BitVec.ofNat 64 launch) with
      | some s1 => s1.setCtx i j ((s1.ctxAt i j).repark (.migrate d u k target (some true)))
      | none => s
    | none =>
      match s.moveTarget u k target with
      | some v => s.migrateNow i j d u k v
      | none => s.migrateStays i j d u k

def execMigrate (d a : Reg) (s : State) : Out :=
  let i := Instr.migrate d a
  .next (lcIssue i [.x a, .x d] (fun s => supervisor i (fun s =>
    let id := s.rx a
    let want := s.rx d
    let free := want == BitVec.allOnes 64
    if (s.devOf id).isSome || (!free && (s.devOf want).isSome) then s.illegal i
    else match s.checkId s.myLaunch id true, (if free then none else s.checkId s.myLaunch want false) with
      | some t, _ | none, some t => s.trap t.code t.value t.aux
      | none, none =>
        let u := unitOfId id
        let k := id.toNat % 16
        if !(s.coreAt u).isUser k then s.illegal i
        else
          let src := s.ctxAt u (ctxIdx k)
          let self := decide (s.core = u ∧ s.ctx.val = k)
          if src.fwd.isSome || !(src.state == .run || src.state == .parked) || s.moving u k || s.paused ((s.coreAt u).launch) then
            (s.wx d (BitVec.ofInt 64 (-2))).done i
          else
            let asked := if free && (s.reg 0x20).getLsbD 4 then some false else none
            let s1 := s.park i (.migrate d u k (if free then none else some (unitOfId want)) asked)
            if self then s1 else s1.migrateStep s.core s.ctx d u k (if free then none else some (unitOfId want)) asked) s) s)

/-- The host answers a migration request: MRESP1 submits the pair (R392, R455). An answer that names no suitable core is
taken as none. -/
def execMigrationResponse (v : Word) (s : State) : Out :=
  let s1 := s.setReg 0x198 v
  let waiting (c : Context) : Option (Reg × Nat × Nat) := match c.park with
    | .migrate d u k _ (some true) => if c.state == .parked && s.coreId u k == v then some (d, u, k) else none
    | _ => none
  let hit := s.cores.findSome? fun x => (List.finRange 16).findSome? fun j =>
    (waiting (x.2.ctxs.get j)).map fun w => (x.1, j, w)
  match hit with
  | none => .next s1
  | some (i, j, d, u, k) =>
    let answer := s.reg 0x190
    let target := unitOfId answer
    let here := answer != BitVec.allOnes 64 && ((s.devOf answer).isNone && decide (target < 1008))
    let self := decide (i = u ∧ j.val = k)
    let src := s.ctxAt u (ctxIdx k)
    if !self && src.state != .run then .next (s1.migrateEnd i j d (BitVec.ofInt 64 (-2)))
    else if here && s1.suitable u k target then .next (s1.migrateNow i j d u k target)
    else .next (s1.migrateStays i j d u k)

/-! ## The end of a park (R64) -/

/-- Context k of core u, which is parked, goes on where its wait has ended. -/
def execContextWake (u k : Nat) (s : State) : Out :=
  let j := ctxIdx k
  let c := s.ctxAt u j
  if c.state ≠ .parked then .next s
  else match c.park with
    | .stream op x cnt out a b => .next (s.streamStep u j op x cnt out a b)
    | .decode x cmd cnt bar cur => .next (s.decodeStep u j x cmd cnt bar cur)
    | .migrate d v m target asked => .next (s.migrateStep u j d v m target asked)
    | _ => .next ((s.wakeUp u j).getD s)

end Sys2Proof.Machine
end

