-- ==== Sys2Proof/Machine/Tile.lean ====
section
/-! DEFINITION. The dense tile: its stores (R202, R213, R218, R225, R402), its streams, tokens and pushes (R202 to R211),
its waits (R212), its command queues (R204, R224, R239) and its traps (R208, R240). -/

namespace Sys2Proof.Machine

/-! ## The stores of a tile (R402, R414) -/

/-- An address of the tile store. -/
def tsAddr (n off : Nat) : Nat := addrOf (1024 + n) off

/-- The address of an offset of the DT section for storage that no access reaches (R414). -/
def dtAddr (n o : Nat) : Nat := addrOf (1024 + n) (0x1000000000 + o)

def bsramAddr (n col b : Nat) : Nat := dtAddr n (0x400000 + 0x20000 * col + b)
def accAddr (n plane row : Nat) : Nat := dtAddr n (0x1400000 + 0x10000 * plane + 512 * row)
def vregAddr (n p : Nat) : Nat := dtAddr n (0x1420000 + 64 * p)
def scaleAddr (n k : Nat) : Nat := dtAddr n (0x149A000 + 0x400 * k)
def pendAddr (n k : Nat) : Nat := dtAddr n (0x149B000 + 0x400 * k)
def shapeAddr (n r : Nat) : Nat := dtAddr n (0x1498000 + 64 * r)
def slotAddr (n ep slot : Nat) : Nat := dtAddr n (0x1450000 + 0x8000 * ep + 0x400 + 512 * slot)
def fillAddr (n ep : Nat) : Nat := dtAddr n (0x1450000 + 0x8000 * ep + 0x200)

/-- The address of a word or bundle of an instruction memory (R202, R402). -/
def imemAddr (n : Nat) (st : Stream) (idx : Nat) : Nat :=
  match st with
  | .s => dtAddr n (0x1430000 + 8 * idx)
  | .c => dtAddr n (0x1438000 + 8 * idx)
  | .m => dtAddr n (0x1440000 + 16 * idx)

/-! ## Streams -/

/-- An index register; j0 reads as zero (R202). -/
def DtStream.jr (x : DtStream) (n : BitVec 4) : BitVec 32 := if n = 0 then 0 else x.j.get ⟨n.toNat, n.isLt⟩

def DtStream.setJ (x : DtStream) (n : BitVec 4) (v : BitVec 32) : DtStream :=
  if n = 0 then x else { x with j := vset x.j ⟨n.toNat, n.isLt⟩ v }

/-- The launch of a tile. -/
def State.tileLaunch (s : State) (n : Nat) : Option (Nat × Launch) :=
  ((s.tileAt n).launch).bind fun p => (s.launchOf p).map fun l => (p, l)

/-- Whether the launch of a tile forbids waits without a limit (R207). -/
def State.tileBounded (s : State) (n : Nat) : Bool :=
  match s.tileLaunch n with
  | some (_, l) => !l.unbounded
  | none => false

/-- The name that the tile FCSR, which is not in the register block, has among the bits that have been set in a ck. -/
def tileFcsrKey (n : Nat) : Nat := 2 ^ 20 + n

/-- ORs flags into the tile FCSR (R42), and notes them as set in this ck (R46). -/
def State.tileFlags (s : State) (n : Nat) (f : Flags) : State :=
  let t := s.tileAt n
  (List.range 5).foldl (fun st i => if f.getLsbD i then st.noteSet (tileFcsrKey n) i else st)
    (s.setTile n { t with fcsr := t.fcsr ||| f.zeroExtend 9 })

/-- The flags of a tile that have been set in this ck (R46). -/
def State.flagsJustSet (s : State) (n : Nat) : BitVec 9 :=
  BitVec.ofNat 9 ((List.range 5).foldl (fun v i => if s.justSet (tileFcsrKey n) i then v + 2 ^ i else v) 0)

/-! ## Traps (R208, R240) -/

/-- INTEGRITY for a failing beat that a tile was to consume (R417, R418). -/
def State.tileIntegrity (s : State) (n : Nat) (beat : Nat) : State × DtTrap :=
  (s.logBeat beat 1 ((s.tileAt n).launch), ⟨causeIntegrity, gaWord beat, 0, 0⟩)

/-- ILLEGAL with an S or C word, or with a bundle (R104, R208). -/
def illegalWord (i : Instr) : DtTrap := ⟨causeIllegal, instrWord i, 0, 0⟩

def State.illegalBundle (s : State) (n idx : Nat) : DtTrap :=
  ⟨causeIllegal, BitVec.ofNat 64 (s.readNat (imemAddr n .m idx) 8), BitVec.ofNat 64 (s.readNat (imemAddr n .m idx + 8) 8), 0⟩

/-! ## Waits (R212) -/

/-- The limit of a wait of a tile that begins now. -/
def State.dtLimit (s : State) (n : Nat) : Option Nat := limitOf s.ck (s.tileAt n).lwd

/-- The wait a stream or command is in, begun now unless it was in it before. -/
def State.dtWait (s : State) (n : Nat) (old : Option DtWait) (what : DtWhat) : DtWait :=
  match old with
  | some w => if w.what = what then { w with seen := s.instant } else ⟨what, s.dtLimit n, s.instant⟩
  | none => ⟨what, s.dtLimit n, s.instant⟩

/-- A stream waits to issue, or for what holds it. -/
def State.streamWait (s : State) (n : Nat) (st : Stream) (what : DtWhat) : State :=
  let x := s.strm n st
  s.setStrm n st { x with status := .wait, wait := some (s.dtWait n x.wait what) }

/-! ## Tokens (R209 to R211) -/

/-- The queues that a stream's pop bits, and its push bits, name. -/
def popQueue (st : Stream) (second : Bool) : Fin 6 :=
  match st, second with
  | .s, false => 1 | .s, true => 3 | .c, false => 0 | .c, true => 5 | .m, false => 2 | .m, true => 4

def pushQueue (st : Stream) (second : Bool) : Fin 6 :=
  match st, second with
  | .s, false => 0 | .s, true => 2 | .c, false => 1 | .c, true => 4 | .m, false => 3 | .m, true => 5

/-- The streams that push and pop a queue (R209). -/
def queuePusher (q : Fin 6) : Stream :=
  match q.val with
  | 0 => .s | 1 => .c | 2 => .s | 3 => .m | 4 => .c | _ => .m

def queuePopper (q : Fin 6) : Stream :=
  match q.val with
  | 0 => .c | 1 => .s | 2 => .m | 3 => .s | 4 => .m | _ => .c

/-- The pops of a word with tok bits, and count bits that ask for two. -/
def popsOf (st : Stream) (tok two : BitVec 4) : List (Fin 6 × Nat) :=
  (if tok.getLsbD 0 then [(popQueue st false, if two.getLsbD 0 then 2 else 1)] else []) ++
    (if tok.getLsbD 1 then [(popQueue st true, if two.getLsbD 1 then 2 else 1)] else [])

def pushesOf (st : Stream) (tok two : BitVec 4) : List (Fin 6 × Nat) :=
  (if tok.getLsbD 2 then [(pushQueue st false, if two.getLsbD 2 then 2 else 1)] else []) ++
    (if tok.getLsbD 3 then [(pushQueue st true, if two.getLsbD 3 then 2 else 1)] else [])

/-- Entry i of a queue, from its head. -/
def TokenQueue.entry (q : TokenQueue) (i : Nat) : BitVec 12 × Nat := q.slots.get (q.head + BitVec.ofNat 3 i).toFin

/-- The tokens of a queue that a pop of this ck may take: those pushed before it (R205, R210). -/
def TokenQueue.ready (q : TokenQueue) (ck : Nat) : Nat :=
  ((List.range q.count).filter fun i => decide ((q.entry i).2 < ck)).length

def TokenQueue.pop (q : TokenQueue) (n : Nat) : TokenQueue := { q with head := q.head + BitVec.ofNat 3 n, count := q.count - n }

/-- A pop is given back. -/
def TokenQueue.unpop (q : TokenQueue) (n : Nat) : TokenQueue := { q with head := q.head - BitVec.ofNat 3 n, count := q.count + n }

def TokenQueue.push (q : TokenQueue) (x : BitVec 12 × Nat) : TokenQueue :=
  { q with count := q.count + 1, slots := vset q.slots (q.head + BitVec.ofNat 3 q.count).toFin x }

/-- The first pop that cannot be taken: a token pushed in a ck is there from the next (R205, R210). -/
def Tile.popMissing (t : Tile) (ck : Nat) (pops : List (Fin 6 × Nat)) : Option (Fin 6) :=
  (pops.find? fun p => decide ((t.tokens.get p.1).ready ck < p.2)).map (·.1)

def Tile.takePops (t : Tile) (pops : List (Fin 6 × Nat)) : Tile :=
  pops.foldl (fun t p => { t with tokens := vset t.tokens p.1 ((t.tokens.get p.1).pop p.2) }) t

/-- The first push that finds no room (R211). -/
def Tile.pushBlocked (t : Tile) (pushes : List (Fin 6 × Nat)) : Option (Fin 6) :=
  (pushes.find? fun p => decide (8 < (t.tokens.get p.1).count + p.2)).map (·.1)

def Tile.doPushes (t : Tile) (ck idx : Nat) (pushes : List (Fin 6 × Nat)) : Tile :=
  pushes.foldl (fun t p =>
    let q := (List.range p.2).foldl (fun q _ => q.push (BitVec.ofNat 12 idx, ck)) (t.tokens.get p.1)
    { t with tokens := vset t.tokens p.1 q }) t

/-- An instruction with pushes has issued (R205). -/
def State.notePush (s : State) (n : Nat) (st : Stream) (idx : Nat) (tok two : BitVec 4) (cmd : Option Nat) (all : Bool) : State :=
  if (pushesOf st tok two).isEmpty then s
  else
    let x := s.strm n st
    s.setStrm n st { x with pushes := x.pushes ++ [⟨idx, tok, two, cmd, all, none⟩] }

/-- Whether Coach still holds steps of a tile. -/
def State.coachBusy (s : State) (n : Nat) : Bool := s.coach.any (·.tile == n)

/-- Whether a command has not finished: it is queued, or Coach holds it. -/
def State.unfinished (s : State) (n : Nat) (st : Stream) (id : Nat) : Bool :=
  (s.strm n st).queue.any (·.id == id) || s.coach.any fun (c : CoachStep) => c.tile == n && c.cmd.id == id

/-- Every earlier command of a stream has finished; the steps of Coach are of the S stream. -/
def State.streamDrained (s : State) (n : Nat) (st : Stream) : Bool :=
  (s.strm n st).queue.isEmpty && (st != .s || !s.coachBusy n)

/-- An instruction at the front has finished and makes its pushes, or a halt finishes (R205, R206, R211). -/
def execDtInstructionFinish (n : Nat) (st : Stream) (s : State) : Out :=
  let x := s.strm n st
  match x.pushes with
  | p :: rest =>
    let done := (match p.cmd with | some id => !s.unfinished n st id | none => true) && (!p.all || s.streamDrained n st)
    if !done then .next s
    else
      let pushes := pushesOf st p.tok p.two
      match (s.tileAt n).pushBlocked pushes with
      | some _ =>
        .next (s.setStrm n st { x with pushes := { p with deadline := match p.deadline with
          | some t => some t
          | none => s.dtLimit n } :: rest })
      | none => .next ((s.setStrm n st { x with pushes := rest }).setTile n
          (((s.setStrm n st { x with pushes := rest }).tileAt n).doPushes s.ck p.idx pushes))
  | [] =>
    if x.status = .halting ∧ x.held.isNone ∧ s.streamDrained n st then .next (s.setStrm n st { x with status := .halted }) else .next s

/-! ## Issue of S and C words (R204, R210, R271) -/

/-- The loop-end test at the issue of the word at an index: the streams' next index (R271). -/
def loopEnd (idx : Nat) (next : Nat) : List DtLoop → DtStream → DtStream
  | [], x => { x with pc := next, loops := [] }
  | r :: rest, x =>
    if r.last = idx + 1 then
      let x1 := x.setJ r.ind (x.jr r.ind + r.step.zeroExtend 32)
      if r.count - 1 = 0 then loopEnd idx r.last rest x1
      else { x1 with pc := r.start, loops := { r with count := r.count - 1 } :: rest }
    else { x with pc := next, loops := r :: rest }

/-- The word at an index has passed: the next is next, or what the loops say. -/
def State.passWord (s : State) (n : Nat) (st : Stream) (idx next : Nat) : State :=
  let x := s.strm n st
  s.setStrm n st (loopEnd idx next x.loops x)

/-- A trap at the issue of a word, with what it leaves in the integrity log (R418). -/
def State.issueTrap (s : State) (n : Nat) (st : Stream) (t : DtTrap) : State :=
  (if t.code = causeIntegrity then s.logWord t.val0 1 ((s.tileAt n).launch) else s).tileTrap n st t

/-- An S or C word issues once its queue has room and its pops can be taken; else its stream waits. check is what can
still make it ILLEGAL, in which case nothing takes effect. -/
def State.issueWord (s : State) (n : Nat) (st : Stream) (tok : BitVec 4) (isCmd : Bool) (check : Option DtTrap)
    (f : State → State) : State :=
  let t := s.tileAt n
  let x := t.get st
  let pops := popsOf st tok 0
  if isCmd && decide (16 ≤ x.queue.length) then s.streamWait n st (.code n 0x40)
  else match t.popMissing s.ck pops with
    | some q => s.streamWait n st (.code n (0x20 + q.val))
    | none =>
      match check with
      | some tr => s.issueTrap n st tr
      | none => f (s.setTile n ((t.takePops pops).put st { x with status := .run, wait := none, issuedAt := s.ck + 1 }))

/-- A control word that finishes when it issues (R204). -/
def dtControl (st : Stream) (tok : BitVec 4) (check : State → Option DtTrap) (f : State → State) (s : State) : Out :=
  let n := s.tile
  let idx := (s.strm n st).pc
  .next (s.issueWord n st tok false (check s) fun s => ((f s).notePush n st idx tok 0 none false).passWord n st idx (idx + 1))

/-- The contents of a record that a command captures; record 64 is read when the command starts (R259). -/
def State.captureRecord (s : State) (n : Nat) (r : BitVec 7) : List Byte :=
  if r.toNat < 64 then s.readBytes (shapeAddr n r.toNat) 64 else []

/-- The first failing beat of the records that a word names, as a trap (R417). -/
def State.recordsFail (s : State) (n : Nat) (rs : List (BitVec 7)) : Option DtTrap :=
  (rs.findSome? fun r => if r.toNat < 64 then s.failedBeat (shapeAddr n r.toNat) 64 else none).map fun b =>
    ⟨causeIntegrity, gaWord b, 0, 0⟩

/-- Whether a command reads the staged record when it starts (R259). -/
def readsStaged : Instr → Bool
  | .xld o | .xst o | .xcp o | .cpack o | .cunpack o | .xstash o | .xrest o => o.sha == 64 || o.shb == 64
  | .cvt o => o.copy.sha == 64 || o.copy.shb == 64
  | .bscale o => o.sha == 64 || o.shb == 64
  | .skeep o => o.sha == 64 || o.shb == 64
  | .xceHalve o | .xceDbl o | .xceXchg o => o.sha == 64 || o.shb == 64
  | .xbld o => o.sha == 64
  | _ => false

/-- A failing beat of the staged record, which a command is to read as it starts (R417). -/
def State.stagedFails (s : State) (n : Nat) (c : DtCmd) : Option Nat :=
  if !c.started && readsStaged c.instr then s.failedBeat (shapeAddr n 64) 64 else none

/-- A command with what it captures at issue (R259). -/
def State.newCmd (s : State) (n : Nat) (st : Stream) (i : Instr) (ja jb : BitVec 4) (sha shb : BitVec 7) : DtCmd :=
  let x := s.strm n st
  { id := s.nextId, idx := x.pc, instr := i, ja := x.jr ja, jb := x.jr jb, recA := s.captureRecord n sha,
    recB := s.captureRecord n shb, cursor := 0, started := false, desc := false, phys := [], occ := none, buf := [],
    sent := false, clearing := false, checked := 0, reqs := [], capA := none, capB := none, wait := none }

/-! ## Commands (R204, R217, R224, R239) -/

/-- What a step of a command comes to: it goes on, it is finished, it waits, or it traps. A trap beside the first two
comes after their effect (R50). -/
inductive UnitEnd where
  | go (s : State) (c : DtCmd) (t : Option DtTrap)
  | finish (s : State) (t : Option DtTrap)
  | wait (s : State) (c : DtCmd) (w : DtWhat)
  | trap (s : State) (t : DtTrap)

/-- Replaces a command of a stream. -/
def State.setDtCmd (s : State) (n : Nat) (st : Stream) (c : DtCmd) : State :=
  let x := s.strm n st
  s.setStrm n st { x with queue := x.queue.map fun (y : DtCmd) => if y.id = c.id then c else y }

def State.dropDtCmd (s : State) (n : Nat) (st : Stream) (id : Nat) : State :=
  let x := s.strm n st
  s.setStrm n st { x with queue := x.queue.filter fun (y : DtCmd) => y.id != id }

/-- The path and the plane of a matrix item: the array, or the drain path (R224). -/
def matrixPath : Instr → Bool × Option Bool
  | .mma o | .mmas o => (false, some o.plane)
  | .mzero p => (false, some p)
  | .mdrain o => (true, some o.plane)
  | _ => (false, none)

/-- The bytes of tile-store rows that a matrix item has still to read or to write: each by its row and its length. -/
def DtCmd.rowsLeft (c : DtCmd) : List (Nat × Nat) :=
  let rows (first : BitVec 13) (z : Nat) : List (Nat × Nat) :=
    (List.range (128 - c.cursor)).map fun i => ((first.toNat + c.cursor + i) % 8192, z)
  match c.instr with
  | .mma o | .mmas o => match o.a with
    | .ts row => rows row (((o.k1.toNat + 1) * o.ty.width + 7) / 8)
    | .ep _ => []
  | .mdrain o => match o.target with
    | .ts row => rows row (16 * o.ty.width)
    | _ => []
  | _ => []

/-- Whether a matrix item has still to read or write a row that a later one names (R204). -/
def rowsMeet (b c : DtCmd) : Bool := b.rowsLeft.any fun p => c.rowsLeft.any fun q => p.1 == q.1

/-- Whether a matrix item is in progress or may start, after the items before it (R204, R224). -/
def mayRun (before : List DtCmd) (c : DtCmd) : Bool :=
  c.started || before.all fun (b : DtCmd) =>
    b.started && (matrixPath b.instr).1 != (matrixPath c.instr).1 && (matrixPath b.instr).2 != (matrixPath c.instr).2 && !rowsMeet b c

/-- The items of the matrix queue that are in progress or may start. -/
def runnable (before : List DtCmd) : List DtCmd → List DtCmd
  | [] => []
  | c :: rest => if mayRun before c then c :: runnable (before ++ [c]) rest else runnable (before ++ [c]) rest

/-- The commands of a stream that can make a step. -/
def DtStream.active (x : DtStream) (st : Stream) : List DtCmd :=
  match st with
  | .m => runnable [] x.queue
  | .s | .c => x.queue.take 1

/-- A step of a command, put into the state. -/
def State.endUnit (s : State) (n : Nat) (st : Stream) (c : DtCmd) (e : UnitEnd) : State :=
  let after (s : State) (t : Option DtTrap) : State := match t with
    | some t => s.tileTrap n st t
    | none => s
  match e with
  | .go s1 c1 t => after (s1.setDtCmd n st { c1 with wait := none }) t
  | .finish s1 t => after (s1.dropDtCmd n st c.id) t
  | .wait s1 c1 w => s1.setDtCmd n st { c1 with wait := some (s.dtWait n c.wait w) }
  | .trap s1 t => s1.tileTrap n st t

/-- The meaning of a command at a step of its own. -/
abbrev CmdRun := State → Nat → DtCmd → UnitEnd

/-- The active command that holds an instruction makes a step. In a stopped tile, or one whose launch is being
saved, only a unit in its write phase goes on (R240, R397), and what a bundle that has issued waits for. -/
def State.runCmd (s : State) (st : Stream) (i : Instr) (run : CmdRun) : State :=
  let t := s.tileAt s.tile
  match ((t.get st).active st).find? (·.instr == i) with
  | none => s
  | some c =>
    let mends := st == .m && t.m.held.isSome && !t.stopped
    if (t.stopped || s.paused t.launch && !mends) && !c.sent then s else match s.stagedFails s.tile c with
      | some b => let r := s.tileIntegrity s.tile b; s.endUnit s.tile st c (.trap r.1 r.2)
      | none => s.endUnit s.tile st c (run s s.tile c)

/-- A command word: it enters its queue, or its command makes a step. -/
def dtCommand (st : Stream) (i : Instr) (tok ja jb : BitVec 4) (sha shb : BitVec 7) (run : CmdRun) (s : State) : Out :=
  match s.turn with
  | .cmd _ _ => .next (s.runCmd st i run)
  | _ =>
    let n := s.tile
    let idx := (s.strm n st).pc
    .next (s.issueWord n st tok true (s.recordsFail n [sha, shb]) fun s =>
      let c := s.newCmd n st i ja jb sha shb
      let x := s.strm n st
      let s1 := s.fresh.setStrm n st { x with queue := x.queue ++ [c] }
      (s1.notePush n st idx tok 0 (some c.id) false).passWord n st idx (idx + 1))

/-- A matrix item: it enters the matrix queue, or it makes a step (R224). bad tells that it is ILLEGAL at issue, and
phys gives the physical registers that it keeps. The entry captures j15, which names the band of an mdrain (R230). -/
def dtMatrix (i : Instr) (bad : State → Bool) (phys : State → List Nat) (run : CmdRun) (s : State) : Out :=
  match s.turn with
  | .cmd _ _ => .next (s.runCmd .m i run)
  | _ =>
    let n := s.tile
    let x := s.strm n .m
    if 4 ≤ x.queue.length then .next (s.streamWait n .m (.code n 0x40))
    else if bad s then .next (s.tileTrap n .m (s.illegalBundle n x.pc))
    else
      let c := { s.newCmd n .m i 15 0 64 64 with
        phys := phys s, bundle := BitVec.ofNat 128 (s.readNat (imemAddr n .m x.pc) 16) }
      .next (s.fresh.setStrm n .m { x with queue := x.queue ++ [c] })

/-! ## Counters of a tile's launch (R49 to R51) -/

/-- The adds of one unit to the JCB, and the THRESHOLD that they raise. -/
def State.tileCount (s : State) (n : Nat) (counts : List (Option Counter)) : State × Option DtTrap :=
  match s.tileLaunch n with
  | none => (s, none)
  | some (_, l) =>
    let r := s.countAll l.jcb counts
    if r.2 = 0 then (r.1, none) else (r.1, some ⟨causeThreshold, lowestCrossed r.2, 0, r.2⟩)

end Sys2Proof.Machine
end

