-- ==== Sys2Proof/Machine/Fetch.lean ====
section
/-! DEFINITION. Instruction fetch of the lookup cores (R85, R95, R118, R119) with the fetch window of R199, of the S and C
streams and of the M stream (R202). -/

namespace Sys2Proof.Machine

/-! ## Lookup cores -/

/-- How far ahead of the next instruction a context may hold bytes: the words that begin within 16 bytes (R199). -/
def inWindow (pc a : Nat) : Bool := decide ((a + 2 ^ 18 - pc) % 2 ^ 18 < 20)

/-- One byte of the instruction stream of context k of core u: from its fetch window, or from its local store (R199). -/
def State.fetchByte (s : State) (u : Nat) (k : Fin 16) (off : Nat) : Byte :=
  match (s.ctxAt u k).window.find? fun b => b.1 == off with
  | some b => b.2
  | none => s.readByte (lsAddr u off)

/-- Two bytes at an offset, little-endian. -/
def State.fetchHalf (s : State) (u : Nat) (k : Fin 16) (off : Nat) : BitVec 16 :=
  s.fetchByte u k (off + 1) ++ s.fetchByte u k off

/-- What can stop the fetch of a halfword that the window does not hold: a bound workspace (R119), or a beat whose
check fails (R417). -/
def State.fetchTrap (s : State) (u : Nat) (k : Fin 16) (off : Nat) : Option TrapInfo :=
  if (s.ctxAt u k).window.any fun b => b.1 == off then none
  else if s.bound u off 2 then some ⟨causeProtection, BitVec.ofNat 64 off, 0⟩
  else (s.failedBeat (lsAddr u off) 2).map fun b => ⟨causeIntegrity, gaWord b, 0⟩

/-- The four bytes at the PC of context k of core u, or a trap: the second halfword belongs to a 32-bit word only. -/
def State.fetchWord (s : State) (u : Nat) (k : Fin 16) : Except TrapInfo (BitVec 32) :=
  let pc := (s.ctxAt u k).pc.toNat
  let pc2 := (pc + 2) % 2 ^ 18
  match s.fetchTrap u k pc with
  | some t => .error t
  | none =>
    let lo := s.fetchHalf u k pc
    if lo.getLsbD 0 then
      match s.fetchTrap u k pc2 with
      | some t => .error t
      | none => .ok (s.fetchHalf u k pc2 ++ lo)
    else .ok (lo.zeroExtend 32)

/-- Context k of core u fetches the next halfword ahead that it does not hold (R199). -/
def State.fetchAhead (s : State) (u : Nat) (k : Fin 16) : State :=
  let c := s.ctxAt u k
  let offs := (List.range 10).map fun i => (c.pc.toNat + 2 * i) % 2 ^ 18
  match offs.find? fun o => !(c.window.any fun b => b.1 == o) with
  | none => s
  | some o =>
    if c.state = .free ∨ (s.fetchTrap u k o).isSome then s
    else s.setCtx u k { c with window := c.window ++
      [(o, s.readByte (lsAddr u o)), (o + 1, s.readByte (lsAddr u (o + 1)))] }

/-- The window of a context that issues the word of len bytes at its PC: it holds the word until the instruction is complete,
since an instruction that waits is not fetched anew (R63). -/
def Context.holdWord (c : Context) (w : BitVec 32) (len : Nat) : Context :=
  let pc := c.pc.toNat
  let word := (List.range len).map fun i => ((pc + i) % 2 ^ 18, w.extractLsb' (8 * i) 8)
  { c with parkRec := 0, window := word ++ c.window.filter fun b => inWindow pc b.1 && !decide ((b.1 + 2 ^ 18 - pc) % 2 ^ 18 < len) }

/-! ## Dense tiles -/

/-- The S or C word at an index, decoded; the trap of a failing beat, of a word that is no
instruction, or of an index past the last (R104, R417). -/
def State.fetchStream (s : State) (n : Nat) (st : Stream) (idx : Nat) : State × Except DtTrap Instr :=
  let a := imemAddr n st idx
  if 4096 ≤ idx then (s, .error ⟨causeIllegal, 0, 0, 0⟩)
  else match s.failedBeat a 8 with
  | some b => let r := s.tileIntegrity n b; (r.1, .error r.2)
  | none =>
    let w := BitVec.ofNat 64 (s.readNat a 8)
    match (match st with | .s => decodeS w | _ => decodeC w) with
    | .ok i => (s, .ok i)
    | .reject _ => (s, .error ⟨causeIllegal, w, 0, 0⟩)

/-- The bundle at an index, decoded. -/
def State.fetchBundle (s : State) (n idx : Nat) : State × Except DtTrap Bundle :=
  let a := imemAddr n .m idx
  if 4096 ≤ idx then (s, .error ⟨causeIllegal, 0, 0, 0⟩)
  else match s.failedBeat a 16 with
  | some b => let r := s.tileIntegrity n b; (r.1, .error r.2)
  | none =>
    match decodeBundle (BitVec.ofNat 128 (s.readNat a 16)) with
    | .ok b => (s, .ok b)
    | .reject _ => (s, .error (s.illegalBundle n idx))

end Sys2Proof.Machine
end

