-- ==== Sys2Proof/Machine/Links.lean ====
section
/-! DEFINITION. Link endpoints (R219 to R223, R309): their buffers, permits and credits, xbind (R234), what their flits
do when they arrive, and the flits of a hold (R399, R406). -/

namespace Sys2Proof.Machine

/-! ## Endpoints and their flits -/

def Tile.ep (t : Tile) (l : BitVec 3) : Endpoint := t.eps.get ⟨l.toNat, l.isLt⟩

def State.ep (s : State) (n : Nat) (l : BitVec 3) : Endpoint := (s.tileAt n).ep l

def State.setEp (s : State) (n : Nat) (l : BitVec 3) (e : Endpoint) : State :=
  s.setTile n { s.tileAt n with eps := vset (s.tileAt n).eps ⟨l.toNat, l.isLt⟩ e }

/-- An endpoint as a number of a tile here. -/
def epIdx (l : Nat) : BitVec 3 := BitVec.ofNat 3 l

/-- A flit of endpoint l of tile n on its way to an endpoint: inside the device, or through the fabric in pair order
(R286, R287, R309). -/
def State.sendFlit (s : State) (n : Nat) (l : BitVec 3) (dest : Nat × Nat × Nat) (body : LinkBody) : State :=
  if dest.1 = s.dev then { s with flits := s.flits ++ [⟨dest.2.1, dest.2.2, (s.dev, n, l.toNat), body, s.nextId⟩] }
  else s.sendPacket dest.1 (some (1024 + n, 1024 + dest.2.1)) (.link dest.2.1 dest.2.2 s.dev n l.toNat body)

/-- A flit to the peer. -/
def State.sendPeer (s : State) (n : Nat) (l : BitVec 3) (body : LinkBody) : State := s.sendFlit n l (s.ep n l).peer body

/-- A wait on an endpoint (R212). -/
def epCode (n : Nat) (l : BitVec 3) : DtWhat := .code n (0x30 + l.toNat)

/-- PERMIT at the device: the event of an endpoint (R424). -/
def State.permitEvent (s : State) (n : Nat) (l : BitVec 3) (kind sum : Nat) : State :=
  s.event 6 ((s.tileAt n).launch)
    (BitVec.ofNat 64 (s.dev * 2 ^ 48 + (1024 + n) * 2 ^ 37 + sum % 2 ^ 8 * 2 ^ 8 + l.toNat * 2 ^ 4 + kind))

/-! ## Inbound (R222) -/

/-- Slots that hold data, from the head. -/
def Endpoint.filled (e : Endpoint) : Nat :=
  ((List.range 32).takeWhile fun i => e.occ.getLsbD ((e.head.toNat + i) % 32)).length

/-- Bytes that can be read now. -/
def Endpoint.avail (e : Endpoint) : Nat := if e.dir = .inbound ∧ !e.broken then 512 * e.filled - e.offset else 0

/-- The address of byte p after the place at which the endpoint stands. -/
def Endpoint.byteAddr (e : Endpoint) (n : Nat) (l : BitVec 3) (p : Nat) : Nat :=
  slotAddr n l.toNat ((e.head.toNat + (e.offset + p) / 512) % 32) + (e.offset + p) % 512

def State.epBytes (s : State) (n : Nat) (l : BitVec 3) (p m : Nat) : List Byte :=
  (List.range m).map fun i => s.readByte ((s.ep n l).byteAddr n l (p + i))

/-- The first failing beat among m bytes of the endpoint (R417). -/
def State.epFailed (s : State) (n : Nat) (l : BitVec 3) (p m : Nat) : Option Nat :=
  (List.range m).findSome? fun i => s.failedBeat ((s.ep n l).byteAddr n l (p + i)) 1

/-- The credits that an endpoint owes go out, up to eight permits in a flit, unless it is held (R309, R399). -/
def State.sendCredits (n : Nat) (l : BitVec 3) : Nat → State → State
  | 0, s => s
  | fuel + 1, s =>
    let e := s.ep n l
    if e.owed = 0 ∨ e.held then s
    else State.sendCredits n l fuel ((s.setEp n l { e with owed := e.owed - min 8 e.owed }).sendPeer n l (.credit (min 8 e.owed)))

/-- The head slot is freed (R222). -/
def Endpoint.freeHead (e : Endpoint) : Endpoint :=
  { e with occ := e.occ &&& ~~~BitVec.twoPow 32 e.head.toNat, head := e.head + 1, offset := 0, owed := e.owed + 1 }

/-- m bytes are consumed; at the end of a command the slot of the last byte goes as well (R222). -/
def consumeBytes : Nat → Nat → Bool → Endpoint → Endpoint
  | 0, _, _, e => e
  | fuel + 1, m, last, e =>
    if m = 0 then (if last && e.offset != 0 then e.freeHead else e)
    else if 512 - e.offset ≤ m then consumeBytes fuel (m - (512 - e.offset)) last e.freeHead
    else consumeBytes fuel 0 last { e with offset := e.offset + m }

def State.consumeEp (s : State) (n : Nat) (l : BitVec 3) (m : Nat) (last : Bool) : State :=
  (s.setEp n l (consumeBytes (m + 2) m last (s.ep n l))).sendCredits n l 32

/-! ## Outbound (R221) -/

/-- Whether the endpoint can send k slots now. -/
def Endpoint.canSend (e : Endpoint) (k : Nat) : Bool := k == 0 || (decide (k ≤ e.permits) && !e.held && !e.broken)

/-- The partly filled slot, padded with zeros, is sent (R221). -/
def State.ship (s : State) (n : Nat) (l : BitVec 3) : State :=
  let e := s.ep n l
  let a := fillAddr n l.toNat
  let bytes := s.readBytes a e.fill ++ List.replicate (512 - e.fill) 0
  let bad := ((List.range 8).filter fun i => decide (64 * i < e.fill) && s.failing.contains (a + 64 * i))
  let s1 := (s.setEp n l { e with fill := 0, permits := e.permits - 1 }).sendPeer n l (.slot bytes bad)
  let s1 := if e.peer.1 = s.dev then s1 else bad.foldl (fun st i => st.logBeat (a + 64 * i) 2 none) s1
  { s1 with mem := (s1.writeBytes a (List.replicate 512 0)).mem, failing := s1.failing.filter fun b => !decide (a ≤ b ∧ b < a + 512) }

/-- Bytes enter the outbound slot in order; each full slot is sent. -/
def State.putEp (n : Nat) (l : BitVec 3) : List Byte → State → State
  | [], s => s
  | b :: rest, s =>
    let e := s.ep n l
    let s1 := (s.writeByte (fillAddr n l.toNat + e.fill) b).setEp n l { e with fill := e.fill + 1 }
    State.putEp n l rest (if e.fill + 1 = 512 then s1.ship n l else s1)

/-! ## xbind (R234) -/

/-- Whether a device is in the set of the launch that holds a tile. -/
def State.inLaunchBox (s : State) (n dev : Nat) : Bool :=
  match s.tileLaunch n with
  | some (_, l) => (boxRank s.dev l.box dev).isSome
  | none => dev == s.dev

/-- The start checks of a bind: the endpoint is unbound, and the peer is in the launch and within the extents of FABCFG (R464). -/
def State.bindTrap (s : State) (n : Nat) (i : Instr) (o : BindOp) : Option DtTrap :=
  let dev := if o.dev = 0xFFFF then s.dev else o.dev.toNat
  if (s.ep n o.own).dir ≠ .unbound then some (illegalWord i)
  else if !s.inLaunchBox n dev || !s.names dev then some ⟨causeRange, BitVec.ofNat 64 (o.dev.toNat * 2 ^ 48 + addrOf (1024 + o.tile.toNat) 0), 0, 0⟩
  else none

/-- The peer of a bind, with its device index. -/
def State.bindPeer (s : State) (o : BindOp) : Nat × Nat × Nat :=
  (if o.dev = 0xFFFF then s.dev else o.dev.toNat, o.tile.toNat, o.ep.toNat)

def runBindIn (o : BindOp) : CmdRun := fun s n _ =>
  match s.bindTrap n (.xbindIn o) o with
  | some t => .trap s t
  | none =>
    let s1 := if (s.ep n o.own).pend.isSome then s.permitEvent n o.own 2 0 else s
    .finish ((s1.setEp n o.own { Endpoint.none with dir := .inbound, peer := s.bindPeer o }).sendPeer n o.own .grant) none

def runBindOut (o : BindOp) : CmdRun := fun s n _ =>
  match s.bindTrap n (.xbindOut o) o with
  | some t => .trap s t
  | none =>
    let e : Endpoint := { Endpoint.none with dir := .outbound, peer := s.bindPeer o }
    match (s.ep n o.own).pend with
    | none => .finish (s.setEp n o.own e) none
    | some src =>
      if src = e.peer then .finish (s.setEp n o.own { e with permits := 32, granted := true }) none
      else .finish ((s.permitEvent n o.own 2 0).setEp n o.own e) none

/-- The off of a bound endpoint (R234, R425). An outbound endpoint that is closing and holds no partly filled slot has sent its close
mark. -/
def runBindOff (own : BitVec 3) : CmdRun := fun s n c =>
  let e := s.ep n own
  match e.dir with
  | .unbound => .trap s (illegalWord c.instr)
  | .outbound =>
    if e.broken then .finish (s.setEp n own Endpoint.none) none
    else if !e.closing ∨ e.fill ≠ 0 then
      let s0 := if e.held then s else s.setEp n own { e with closing := true, audit := none }
      if e.held ∨ (e.fill ≠ 0 ∧ !e.canSend 1) then .wait s0 { c with started := true } (epCode n own)
      else
        let s1 := if e.fill ≠ 0 then s0.ship n own else s0
        .go (s1.sendPeer n own .close) { c with started := true } none
    else if e.permits = 32 then .finish (s.setEp n own Endpoint.none) none
    else .wait s c (epCode n own)
  | .inbound =>
    if e.broken then .finish (s.setEp n own Endpoint.none) none
    else if e.close ∧ e.occ = 0 ∧ e.owed = 0 then .finish (s.setEp n own Endpoint.none) none
    else .wait (s.setEp n own { e with closing := true }) { c with started := true } (epCode n own)

def execXbindIn (o : BindOp) (s : State) : Out :=
  dtCommand .s (.xbindIn o) o.tok 0 0 64 64 (runBindIn o) s

def execXbindOut (o : BindOp) (s : State) : Out :=
  dtCommand .s (.xbindOut o) o.tok 0 0 64 64 (runBindOut o) s

def execXbindOff (own : BitVec 3) (tok : BitVec 4) (s : State) : Out :=
  dtCommand .s (.xbindOff own tok) tok 0 0 64 64 (runBindOff own) s

/-! ## Arrivals (R220 to R222, R309, R399) -/

/-- Flit n, if no earlier flit of its pair is still on its way (R286). -/
def State.firstFlit (s : State) (n : Nat) : Option LinkFlit :=
  (s.flits[n]?).bind fun f =>
    if (s.flits.take n).any fun x => x.src == f.src && x.tile == f.tile && x.ep == f.ep then none else some f

def State.takeFlit (s : State) (n : Nat) : State := { s with flits := s.flits.eraseIdx n }

/-- A grant arrives (R220, R399, R424). DESIGN CHOICE, unsafe (assumption 133): R220 is silent on a grant of the named peer
at an endpoint bound inbound; it is refused with PERMIT of kind 2 and the pair is held. -/
def execGrantArrival (n : Nat) (s : State) : Out :=
  match s.firstFlit n with
  | some ⟨t, l, src, .grant, _⟩ =>
    let s1 := s.takeFlit n
    let e := s1.ep t (epIdx l)
    let own := e.dir != .unbound && e.peer == src
    if own && e.held then .next (s1.setEp t (epIdx l) { e with pend := some src })
    else if e.dir = .unbound then
      if e.pend.isSome then .next (s1.permitEvent t (epIdx l) 2 0) else .next (s1.setEp t (epIdx l) { e with pend := some src })
    else if e.dir = .outbound ∧ own ∧ !e.granted then
      let audit := e.audit.map fun a => { a with c := a.c + 32 }
      .next (s1.setEp t (epIdx l) { e with permits := e.permits + 32, granted := true, audit := audit })
    else .next ((if own then (s1.setEp t (epIdx l) { e with held := true, audit := none }).sendPeer t (epIdx l) .hold else s1).permitEvent t (epIdx l) 2 0)
  | _ => .next s

/-- Whether the port of its tile serves a slot now; one that has come from another device has no source port here (R25, R296). -/
def State.slotFree (s : State) (f : LinkFlit) : Bool :=
  f.src.1 != s.dev || s.crossNext (64 + f.tile) == some (64 + f.src.2.1, f.born)

/-- A slot is taken from its port. -/
def State.takeSlot (s : State) (n : Nat) (f : LinkFlit) : State :=
  if f.src.1 = s.dev then { s.takeFlit n with portTurn := insertAt (64 + f.tile) (64 + f.src.2.1) s.portTurn } else s.takeFlit n

/-- A slot arrives whole (R221). One that no bound endpoint waits for is lost. -/
def execSlotArrival (n : Nat) (s : State) : Out :=
  match s.firstFlit n with
  | some ⟨t, l, src, .slot bytes bad, born⟩ =>
    let f : LinkFlit := ⟨t, l, src, .slot bytes bad, born⟩
    if s.awaitsMove t l || !s.slotFree f then .next s else
    let s1 := s.takeSlot n f
    let e := s1.ep t (epIdx l)
    if e.dir = .inbound ∧ e.peer = src ∧ !e.broken ∧ e.filled < 32 then
      let slot := (e.head.toNat + e.filled) % 32
      let a := slotAddr t l slot
      let s2 := (s1.writeBytes a bytes).recheck a 512 (bad.map fun b => a + 64 * b)
      .next (s2.setEp t (epIdx l) { e with occ := e.occ ||| BitVec.twoPow 32 slot })
    else .next s1
  | _ => .next s

/-- An endpoint that is broken: its permits, its buffered slots and its partly filled slot are discarded (R425). -/
def Endpoint.break (e : Endpoint) : Endpoint :=
  { e with broken := true, occ := 0, offset := 0, permits := 0, fill := 0, owed := 0, audit := Option.none }

/-- A close mark arrives (R234), or word that the peer has been unbound by a partition reset (R425). -/
def execCloseMarkArrival (n : Nat) (s : State) : Out :=
  match s.firstFlit n with
  | some ⟨t, l, src, .close, _⟩ =>
    let s1 := s.takeFlit n
    let e := s1.ep t (epIdx l)
    if e.dir = .inbound ∧ e.peer = src then .next (s1.setEp t (epIdx l) { e with close := true }) else .next s1
  | some ⟨t, l, src, .gone, _⟩ =>
    let s1 := s.takeFlit n
    let e := s1.ep t (epIdx l)
    if e.dir ≠ .unbound ∧ e.peer = src then .next (s1.setEp t (epIdx l) e.break) else .next s1
  | _ => .next s

/-- A credit flit arrives (R222, R309). -/
def execCreditArrival (n : Nat) (s : State) : Out :=
  match s.firstFlit n with
  | some ⟨t, l, src, .credit k, _⟩ =>
    if s.awaitsMove t l then .next s else
    let s1 := s.takeFlit n
    let e := s1.ep t (epIdx l)
    if e.dir = .outbound ∧ e.peer = src ∧ !e.broken then
      .next (s1.setEp t (epIdx l) { e with permits := e.permits + k, audit := e.audit.map fun a => { a with c := a.c + k } })
    else .next s1
  | _ => .next s

/-- An endpoint is held: it first sends every credit it owes, and then the hold or its answer (R399). -/
def State.holdEp (s : State) (t : Nat) (l : BitVec 3) (body : LinkBody) : State :=
  let s1 := (s.setEp t l { s.ep t l with held := false }).sendCredits t l 32
  (s1.setEp t l { s1.ep t l with held := true, audit := none }).sendPeer t l body

/-- A hold arrives: an inbound endpoint first sends every credit it owes, and both answer with held (R399). -/
def execHoldFlit (n : Nat) (s : State) : Out :=
  match s.firstFlit n with
  | some ⟨t, l, src, .hold, _⟩ =>
    let s1 := s.takeFlit n
    let e := s1.ep t (epIdx l)
    if e.dir ≠ .unbound ∧ e.peer = src then .next (s1.holdEp t (epIdx l) .held)
    else .next (s1.sendFlit t (epIdx l) src .held)
  | _ => .next s

/-- The answer to a hold: nothing of the pair is in flight (R399). -/
def execHeldFlit (n : Nat) (s : State) : Out :=
  match s.firstFlit n with
  | some ⟨t, l, src, .held, _⟩ =>
    let s1 := s.takeFlit n
    let e := s1.ep t (epIdx l)
    if e.dir ≠ .unbound ∧ e.peer = src then .next (s1.setEp t (epIdx l) { e with heldBack := true }) else .next s1
  | _ => .next s

/-- The release of a held endpoint: a grant of its peer that came meanwhile is taken, and owed credits go out (R399). -/
def State.releaseEp (s : State) (t : Nat) (l : BitVec 3) : State :=
  let e := s.ep t l
  let take := e.dir == .outbound && !e.granted && e.pend == some e.peer
  (s.setEp t l { e with held := false, heldBack := false, pend := if e.pend = some e.peer then none else e.pend,
                        permits := if take then e.permits + 32 else e.permits, granted := e.granted || take }).sendCredits t l 32

/-- The tile that tile t of an image is restored to, in a restore of a partition that has written its state (R405). -/
def State.restoredTile (s : State) (part t : Nat) : Option Nat :=
  match s.preempts.find? fun j => j.part == part && j.restore with
  | some j => if j.phase = 1 then (j.map.find? (·.1 == t)).map (·.2) else none
  | none => none

/-- Whether a restore of a partition of this device, which has reserved it, brings tile t of its image back. -/
def State.restores (s : State) (part t : Nat) : Bool :=
  s.preempts.any fun j => j.part == part && j.restore && j.map.any (·.1 == t)

/-- The peer of an endpoint has been restored elsewhere: it is known under its new place, and the pair is released; an
endpoint that is itself being restored notes that the flit has come (R406). A tile of a device of the set that is of no image is a
peer outside the launch: its pair is released, and it answers as it does a hold (assumption 143). -/
def execMovedFlit (n : Nat) (s : State) : Out :=
  match s.firstFlit n with
  | some ⟨t, l, _, .moved dev tile ep none, _⟩ =>
    let s1 := s.takeFlit n
    let e := s1.ep t (epIdx l)
    if e.dir = .unbound then .next s1
    else .next ((s1.setEp t (epIdx l) { e with peer := (dev, tile, ep) }).releaseEp t (epIdx l))
  | some ⟨t, l, _, .moved dev tile ep (some p), _⟩ =>
    if !s.restores p t then
      let s1 := s.takeFlit n
      let e := s1.ep t (epIdx l)
      if e.dir = .unbound then .next (s1.sendFlit t (epIdx l) (dev, tile, ep) .held)
      else .next (((s1.setEp t (epIdx l) { e with peer := (dev, tile, ep) }).releaseEp t (epIdx l)).sendPeer t (epIdx l) .held)
    else match s.restoredTile p t with
    | none => .next s
    | some m =>
      let s1 := s.takeFlit n
      .next (s1.setEp m (epIdx l) { s1.ep m (epIdx l) with peer := (dev, tile, ep), heldBack := true })
  | _ => .next s

end Sys2Proof.Machine
end

