-- ==== Sys2Proof/Machine/Shape.lean ====
section
/-! DEFINITION. Shape records (R255 to R259), where their elements lie, and how a command of a tile reads, tests, writes
and empties them (R214 to R217, R221, R222, R258). -/

namespace Sys2Proof.Machine

/-! ## Records (R255 to R257) -/

/-- A shape record. -/
structure ShapeRec where
  addr : Word
  ty : ElTy
  kind : Nat
  param : Nat
  sub : Nat
  sizes : List Nat
  strides : List Int
deriving DecidableEq, Repr

/-- The count of a record's elements (R256). -/
def ShapeRec.count (r : ShapeRec) : Nat := r.sizes.foldl (· * ·) 1

/-- A two's-complement 64-bit number. -/
def signed64 (v : Nat) : Int := if 2 ^ 63 ≤ v then (v : Int) - 2 ^ 64 else v

/-- Whether a record describes a floe (R255). -/
def ShapeRec.isFloe (r : ShapeRec) : Bool := r.kind == 4 || (r.kind == 6 && r.sub == 4)

/-- A record read from its 64 bytes; none where it is invalid (R255, R257, R258). -/
def parseShape (bytes : List Byte) : Option ShapeRec :=
  let v := bytesToNat bytes
  match ElTy.ofCode (BitVec.ofNat 4 (bitsOf v 68 4)) with
  | none => none
  | some ty =>
    let nd := bitsOf v 72 2
    let r : ShapeRec :=
      { addr := BitVec.ofNat 64 v, ty := ty, kind := bitsOf v 64 4, param := bitsOf v 80 8, sub := bitsOf v 88 8,
        sizes := (List.range 4).map fun d => bitsOf v (128 + 32 * d) 32,
        strides := (List.range 4).map fun d => signed64 (bitsOf v (256 + 64 * d) 64) }
    let ok := decide (1 ≤ r.kind) && decide (r.kind ≤ 7) && bitsOf v 74 6 == 0 && bitsOf v 96 32 == 0 &&
      (if r.kind = 6 then decide (2 ≤ r.sub) && decide (r.sub ≤ 4) else r.sub == 0) &&
      (if r.isFloe then decide (r.param < 16) && decide (r.param % 8 ≤ 4) && (ty == .fp32 || ty == .bf16)
       else if r.kind = 5 then decide (r.param < 8) && r.addr == 0
       else r.param == 0) &&
      (r.sizes.all fun n => decide (0 < n)) && ((r.sizes.drop (nd + 1)).all fun n => n == 1) && decide (r.count < 2 ^ 32)
    if ok then some r else none

/-! ## Sides of a command -/

/-- What the elements of a record lie in. A capability gives its device, its unit and its kind (R257). -/
inductive Place where
  | tile (m : Nat)
  | virt (home : Bool)
  | cap (dev : Option Nat) (unit : Nat) (home : Bool)
  | ep (l : BitVec 3)
deriving DecidableEq, Repr

/-- One side of a command: a record with the offset of the command added. -/
structure Side where
  place : Place
  base : Int
  ty : ElTy
  sizes : List Nat
  strides : List Int
  count : Nat
deriving DecidableEq, Repr

/-- The offset of element i, in elements (R256). -/
def Side.elem (x : Side) (i : Nat) : Int :=
  match x.sizes, x.strides with
  | s0 :: s1 :: s2 :: _, t0 :: t1 :: t2 :: t3 :: _ =>
    (i % s0 : Nat) * t0 + (i / s0 % s1 : Nat) * t1 + (i / (s0 * s1) % s2 : Nat) * t2 + (i / (s0 * s1 * s2) : Nat) * t3
  | _, _ => i

/-- The byte at which element i lies or begins (R256). -/
def Side.byte (x : Side) (i : Nat) : Int := x.base + x.elem i * x.ty.width / 8

/-- The bit of that byte at which it begins. -/
def Side.bit (x : Side) (i : Nat) : Nat := if x.ty = .e2m1 ∧ x.elem i % 2 = 1 then 4 else 0

/-- Bytes of an element; an e2m1 element is part of one. -/
def elBytes (t : ElTy) : Nat := (t.width + 7) / 8

/-- The bytes of one act at the side's home: a granule, an SHM word, or 8 bytes of a home (R215, R273). -/
def Side.unit (x : Side) : Nat :=
  match x.place with
  | .tile _ => 16
  | _ => 8

/-- Whether the side has full/empty bits (R215). -/
def Side.hasBits (x : Side) : Bool :=
  match x.place with
  | .tile _ | .virt false | .cap _ _ false => true
  | _ => false

/-- The granule of element i, as a number within the side's place. -/
def Side.granule (x : Side) (i : Nat) : Int := x.byte i / x.unit

/-- The granule of the last byte of element i. It is the next one where a j offset that is no multiple of the element's size makes
it cross. -/
def Side.lastGranule (x : Side) (i : Nat) : Int := (x.byte i + elBytes x.ty - 1) / x.unit

def Side.crosses (x : Side) (i : Nat) : Bool := x.lastGranule i != x.granule i

/-- The elements of a list that lie in the granule of element i, and only there. -/
def Side.mates (x : Side) (i : Nat) (els : List Nat) : List Nat := els.filter fun j => x.granule j == x.granule i && !x.crosses j

/-- The bit of a granule at which element i begins; it is negative in the second granule of one that crosses. -/
def Side.bitIn (x : Side) (i : Nat) (g : Int) : Int := 8 * (x.byte i - x.unit * g) + x.bit i

/-- A number moved up by some bits, or down. -/
def shiftBy (v : Nat) (k : Int) : Nat := if 0 ≤ k then v * 2 ^ k.toNat else v / 2 ^ (-k).toNat

/-- An element, or its part, in the value of a granule. -/
def Side.pick (x : Side) (i : Nat) (g : Int) (v : Nat) : Nat :=
  shiftBy (v % 2 ^ (8 * x.unit)) (-x.bitIn i g) % 2 ^ x.ty.width

/-- The granules that the elements of a list lie in, each with its element. -/
def Side.parts (x : Side) (els : List Nat) : List (Nat × Int) :=
  els.flatMap fun i => (i, x.granule i) :: (if x.crosses i then [(i, x.lastGranule i)] else [])

/-- The first part in each granule. -/
def granuleHeads : List (Nat × Int) → List (Nat × Int)
  | [] => []
  | p :: rest => p :: (granuleHeads rest).filter fun q => q.2 != p.2

def Side.heads (x : Side) (els : List Nat) : List (Nat × Int) := granuleHeads (x.parts els)

/-! ## Translation in a tile (R258, R370, R377) -/

/-- Where a byte of a side lies: a device (none for this one) and an address; a miss; or a trap. -/
inductive Spot where
  | at (dev : Option Nat) (a : Nat)
  | miss (va : Word)
  | trap (t : DtTrap)

/-- A virtual address of a tile, as in user mode. A stream whose walk has ended in a fault meets that fault, whatever the TLB holds
by then (R377). -/
def State.tileTranslate (s : State) (n : Nat) (st : Stream) (va : Word) (need : Need) : Translated :=
  if va.toNat / 2 ^ 48 ≠ 0 then .trap ⟨causeTranslation, va, 0⟩
  else if (s.walkFault (.tile n st) va).isSome then .miss
  else translateVirtual (lookup [] s.tileTlbs n) va need true

/-- Whether an address has the storage that a kind names. -/
def kindHolds (home : Bool) (a : Nat) : Bool :=
  match storageOf a with
  | .shm => !home
  | .channel _ | .shard _ => home
  | _ => false

def State.spot (s : State) (n : Nat) (st : Stream) (x : Side) (byte : Int) (need : Need) : Spot :=
  match x.place with
  | .tile m => .at none (tsAddr m byte.toNat)
  | .ep _ => .at none 0
  | .virt home =>
    let va := BitVec.ofInt 64 byte
    match s.tileTranslate n st va need with
    | .miss => .miss va
    | .trap t => .trap ⟨t.code, t.value, 0, t.aux⟩
    | .ok dev a ga =>
      if !kindHolds home a then .trap ⟨causeRange, ga, 0, 0⟩
      else if need.w && inTables a then .trap ⟨causeProtection, ga, 0, 0⟩
      else .at dev a
  | .cap dev unit home =>
    let a := addrOf unit (byte % (2 ^ 37 : Int)).toNat
    let ga := BitVec.ofNat 64 (dev.getD 0xFFFF * 2 ^ 48 + a)
    if !kindHolds home a then .trap ⟨causeRange, ga, 0, 0⟩
    else if need.w && inTables a then .trap ⟨causeProtection, ga, 0, 0⟩
    else .at dev a

/-- The end of a walk that a stream of a tile has found (R377). -/
def State.takeFault (s : State) (src : Source) (va : Word) : Option (State × DtTrap) :=
  (s.walkFault src va).map fun x => (x.1.logTrap x.2 none, ⟨x.2.code, x.2.value, 0, x.2.aux⟩)

/-- A miss of a stream: it begins or joins a walk, and waits for its end without a limit of its own. -/
def State.tileMiss (s : State) (n : Nat) (st : Stream) (va : Word) : State :=
  let src := Source.tile n st
  let root := match s.tileLaunch n with
    | some (_, l) => BitVec.ofNat 64 (l.word 0x60)
    | none => 0
  if s.walks.any fun w => w.who.contains src && w.vpn == va.toNat / 2 ^ 18 then s
  else s.miss src (tileCluster n) root va

/-- A miss as the step of a command: the trap of a fault, or the wait. -/
def State.missUnit (s : State) (n : Nat) (st : Stream) (c : DtCmd) (va : Word) : UnitEnd :=
  match s.takeFault (.tile n st) va with
  | some (s1, t) => .trap s1 t
  | none => .go (s.tileMiss n st va) c none

/-! ## Requests of a command -/

/-- A request of a command to a home: outside its own tile store, or a write or a clear there. -/
def State.dtAsk (s : State) (n : Nat) (st : Stream) (c : DtCmd) (dev : Option Nat) (act : Act) (a : Nat) (waits : Bool) :
    State × DtCmd :=
  let id := s.nextId
  (s.fresh.sendRequest dev ⟨id, .tile n st, act, a, .none, false, if waits then s.dtLimit n else none⟩,
    { c with reqs := c.reqs ++ [id] })

/-- A reply to a command. -/
def State.dtReply (s : State) (c : DtCmd) : Option Reply := s.replies.find? fun r => c.reqs.contains r.req.id

/-- The command without a reply that it has taken. -/
def State.dropReply (s : State) (c : DtCmd) (r : Reply) : State × DtCmd :=
  ({ s with replies := s.replies.filter fun x => x.req.id != r.req.id }, { c with reqs := c.reqs.filter (· != r.req.id) })

/-- The trap of a reply: a failing beat, or what the home says. -/
def State.replyTrap (s : State) (n : Nat) (r : Reply) : Option (State × DtTrap) :=
  match r.failed, r.trap with
  | some beat, _ => some (s.logWord beat 1 ((s.tileAt n).launch), ⟨causeIntegrity, beat, 0, 0⟩)
  | none, some (code, value, aux) => some (s, ⟨code, value, 0, aux⟩)
  | none, none => none

/-! ## The read phase (R215, R217, R222, R232) -/

/-- How far a phase of a unit has come: it is done, with its values; or the command's step ends here. -/
inductive Phase where
  | done (s : State) (c : DtCmd) (vals : List Nat)
  | rest (e : UnitEnd)

/-- A granule of the own tile store under a read qualifier: the wait or the trap (R215, R302). -/
def State.tsWait (s : State) (a : Nat) (rq : BitVec 2) : Option (Except DtTrap DtWhat) :=
  if rq = 0 ∨ s.isFull a then none
  else match s.failedClaim (bitUnit a) with
    | some v => some (.error ⟨causeIntegrity, v, 0, 0⟩)
    | none => some (.ok (.address (bitUnit a) true))

/-- The values of elements that have been read, in their order. -/
def DtCmd.values (c : DtCmd) (els : List Nat) : List Nat := els.map fun i => lookup 0 c.buf i

/-- Where the first part of an element that crosses is kept until the second has been read. -/
def partKey (i : Nat) : Nat := 2 ^ 40 + i

/-- What the value of a granule adds to the elements that have been read; i is the element for which it was read. -/
def Side.noted (x : Side) (els : List Nat) (i v : Nat) (buf : List (Nat × Nat)) : List (Nat × Nat) :=
  if !x.crosses i then (x.mates i els).foldl (fun b j => insertAt j (x.pick j (x.granule i) v) b) buf
  else match buf.find? (·.1 == partKey i) with
    | none => insertAt (partKey i) (x.pick i (x.granule i) v) buf
    | some p => insertAt i (p.2 ||| x.pick i (x.lastGranule i) v) (buf.filter (·.1 != partKey i))

/-- The byte at which the part of element i begins that is to be read next. -/
def Side.nextByte (x : Side) (i : Nat) (buf : List (Nat × Nat)) : Int :=
  if buf.any (·.1 == partKey i) then x.lastGranule i * x.unit else x.byte i

/-- The elements lo to hi − 1 of an inbound endpoint: they are packed densely from the place where the unit begins
(R222, R223). -/
def State.readEp (s : State) (n : Nat) (c : DtCmd) (l : BitVec 3) (ty : ElTy) (lo hi : Nat) : Phase :=
  let w := ty.width
  let first := lo * w / 8
  let m := (hi * w + 7) / 8 - first
  if (s.ep n l).avail < m then .rest (.wait s c (epCode n l))
  else match s.epFailed n l 0 m with
    | some b => let r := s.tileIntegrity n b; .rest (.trap r.1 r.2)
    | none =>
      let v := bytesToNat (s.epBytes n l 0 m)
      .done s c ((List.range (hi - lo)).map fun i => bitsOf v ((lo + i) * w - 8 * first) w)

/-- The read phase of elements els of a side, which for an endpoint run from lo to hi − 1: each step reads one granule
or word, and leaves its elements in buf. -/
def State.readPhase (s : State) (n : Nat) (st : Stream) (c : DtCmd) (x : Side) (lo hi : Nat) (rq : BitVec 2) : Phase :=
  match x.place with
  | .ep l => s.readEp n c l x.ty lo hi
  | _ =>
    let els := (List.range (hi - lo)).map (lo + ·)
    let take (s : State) (c : DtCmd) (i v : Nat) : Phase :=
      .rest (.go s { c with buf := x.noted els i v c.buf } none)
    match els.find? fun i => !c.buf.any (·.1 == i) with
    | none => .done s c (c.values els)
    | some i =>
      match c.reqs, s.dtReply c with
      | _ :: _, none => .rest (.go s c none)
      | _, some r =>
        let d := s.dropReply c r
        match d.1.replyTrap n r with
        | some (s1, t) => .rest (.trap s1 t)
        | none => take d.1 d.2 i r.value.toNat
      | [], none =>
        match s.spot n st x (x.nextByte i c.buf) ⟨true, false, false⟩ with
        | .miss va => .rest (s.missUnit n st c va)
        | .trap t => .rest (.trap s t)
        | .at dev b =>
          let a := b / x.unit * x.unit
          if x.place = .tile n then
            match s.tsWait a rq with
            | some (.error t) => .rest (.trap s t)
            | some (.ok w) => .rest (.wait s c w)
            | none =>
              if s.busy a 16 || s.outranked n st a then .rest (.go s c none)
              else match s.failedBeat a 16 with
              | some b => let r := s.tileIntegrity n b; .rest (.trap r.1 r.2)
              | none => take (s.noteAct a 16) c i (s.readNat a 16)
          else
            let act : Act := if rq = 0 then .load x.unit false else .await true x.unit
            let r := s.dtAsk n st c dev act a (rq != 0)
            .rest (.go r.1 r.2 none)

/-! ## The write phase (R214, R215, R217, R221) -/

/-- A write of a command: an element of a side and its value. -/
abbrev Write := Nat × Nat

/-- The bytes that a list of writes gives a granule, with the mask of the bits that they write. -/
def Side.masked (x : Side) (g : Int) (ws : List Write) : List Byte × List Byte :=
  let mine := ws.filter fun p => x.granule p.1 == g || x.lastGranule p.1 == g
  let mask := mine.foldl (fun m p => m ||| shiftBy (2 ^ x.ty.width - 1) (x.bitIn p.1 g)) 0
  let v := mine.foldl (fun v p =>
    let hole := shiftBy (2 ^ x.ty.width - 1) (x.bitIn p.1 g)
    v - (v &&& hole) + shiftBy (p.2 % 2 ^ x.ty.width) (x.bitIn p.1 g)) 0
  (natToBytes x.unit mask, natToBytes x.unit v)

/-- Whether a write to n virtual or physical bytes can be made: the first element whose place cannot be reached. -/
def State.unreachable (s : State) (n : Nat) (st : Stream) (x : Side) (els : List Nat) (need : Need) : Option Spot :=
  (x.parts els).findSome? fun p =>
    match s.spot n st x (if x.granule p.1 = p.2 then x.byte p.1 else p.2 * x.unit) need with
    | .at _ _ => none
    | other => some other

/-- The tests before the write phase (R217): every place can be reached, each granule is empty under a qualifier, and an
endpoint has the permits. slots counts the slots that the unit fills. -/
def State.checkWrites (s : State) (n : Nat) (st : Stream) (c : DtCmd) (x : Side) (ws : List Write) (wq : BitVec 2)
    (slots : Nat) : Phase :=
  match x.place with
  | .ep l => if (s.ep n l).canSend slots then .done s c [] else .rest (.wait s c (epCode n l))
  | _ =>
    match s.unreachable n st x (ws.map (·.1)) ⟨false, true, false⟩ with
    | some (.miss va) => .rest (s.missUnit n st c va)
    | some (.trap t) => .rest (.trap s t)
    | some (.at _ _) | none =>
      if wq = 0 then .done s c []
      else if x.place = .tile n then
        match (x.heads (ws.map (·.1))).find? fun p => s.isFull (tsAddr n (16 * p.2).toNat) with
        | some p => .rest (.wait s c (.address (tsAddr n (16 * p.2).toNat) false))
        | none => .done s c []
      else
        match c.reqs, s.dtReply c with
        | _ :: _, none => .rest (.go s c none)
        | _, some r =>
          let d := s.dropReply c r
          match d.1.replyTrap n r with
          | some (s1, t) => .rest (.trap s1 t)
          | none => .rest (.go d.1 { d.2 with checked := c.checked + 1 } none)
        | [], none =>
          match (x.heads (ws.map (·.1)))[c.checked]? with
          | none => .done s c []
          | some p =>
            match s.spot n st x (p.2 * x.unit) ⟨false, true, false⟩ with
            | .at dev a => let r := s.dtAsk n st c dev (.await false x.unit) a true; .rest (.go r.1 r.2 none)
            | .miss va => .rest (s.missUnit n st c va)
            | .trap t => .rest (.trap s t)

/-- The writes of a unit, each a request to the home of its granule or word, and one act there (R216, R273). full tells of a granule
whether the command writes no later byte into it. -/
def State.doWrites (s : State) (n : Nat) (st : Stream) (c : DtCmd) (x : Side) (ws : List Write) (full : Nat × Int → Bool) :
    State × DtCmd :=
  match x.place with
  | .ep l =>
    let w := x.ty.width
    let v := joinLanes w (ws.map (·.2))
    (State.putEp n l (natToBytes ((ws.length * w + 7) / 8) v) s, c)
  | _ =>
    (x.heads (ws.map (·.1))).foldl (fun (r : State × DtCmd) p =>
      let m := x.masked p.2 ws
      match r.1.spot n st x (p.2 * x.unit) ⟨false, true, false⟩ with
      | .at dev a => r.1.dtAsk n st r.2 dev (.write m.1 m.2 (full p && x.hasBits)) a false
      | _ => r) (s, c)

/-- The source granules that a unit empties, each by a request to its home (R215). -/
def State.doClears (s : State) (n : Nat) (st : Stream) (c : DtCmd) (x : Side) (parts : List (Nat × Int)) : State × DtCmd :=
  (granuleHeads parts).foldl (fun (r : State × DtCmd) p =>
    match r.1.spot n st x (p.2 * x.unit) ⟨true, false, false⟩ with
    | .at dev a => r.1.dtAsk n st r.2 dev .clear a false
    | _ => r) (s, c)

/-- A command goes on once all its requests have been answered. -/
def State.dtSettled (s : State) (c : DtCmd) (fin : State → DtCmd → UnitEnd) : UnitEnd :=
  match c.reqs, s.dtReply c with
  | _ :: _, none => .go s c none
  | _, some r => let d := s.dropReply c r; .go d.1 d.2 none
  | [], none => fin s c

/-! ## The start of a command (R258) -/

/-- A search for the first number for which a test gives an answer. -/
def firstOf {α : Type} (f : Nat → Option α) : Nat → Nat → Option α
  | 0, _ => none
  | fuel + 1, i =>
    match f i with
    | some x => some x
    | none => firstOf f fuel (i + 1)

/-- The alignment of ADDR (R258). -/
def ShapeRec.misaligned (r : ShapeRec) (n : Nat) : Option DtTrap :=
  let w := if r.isFloe && r.kind = 4 then 64 else if r.kind = 6 then 16 else if r.kind = 5 then 1 else elBytes r.ty
  if r.addr.toNat % w = 0 then none
  else some ⟨causeMisaligned, if r.kind = 1 then BitVec.ofNat 64 (0xFFFF * 2 ^ 48 + addrOf (1024 + n) 0 + r.addr.toNat) else r.addr, 0, 0⟩

/-- The first element outside the tile store (R258). -/
def Side.outside (x : Side) (m : Nat) : Option DtTrap :=
  firstOf (fun i =>
    let b := x.byte i
    if b < 0 ∨ (0x400000 : Int) < b + elBytes x.ty then
      some ⟨causeRange, BitVec.ofInt 64 (((0xFFFF * 2 ^ 48 + addrOf (1024 + m) 0 : Nat) : Int) + b), 0, 0⟩
    else none) x.count 0

/-- The checks of R196 on every element of a capability's sequence, with the permissions that it needs. -/
def Side.capFails (x : Side) (q : Quad) (tag : Bool) (perms : List Nat) (inFabric : Bool) : Option DtTrap :=
  firstOf (fun i =>
    let b := x.byte i
    let ga := BitVec.ofNat 64 (capDev q * 2 ^ 48 + addrOf (capUnit q) (b % (2 ^ 37 : Int)).toNat)
    let o := b - capBase q
    if b % (elBytes x.ty : Int) ≠ 0 then some ⟨causeMisaligned, ga, 0, 0⟩
    else if !tag then some ⟨causeCapability, ga, 0, 1⟩
    else if perms.any fun p => !bitOf (capPerm q) p then some ⟨causeCapability, ga, 0, 2⟩
    else if o < 0 ∨ (capLen q : Int) < o + elBytes x.ty then some ⟨causeCapability, ga, 0, 3⟩
    else if !inFabric then some ⟨causeRange, ga, 0, 0⟩
    else none) x.count 0

/-- The side of a record for tile n, with its command's byte offset; the capability is that of a record of kind 6. -/
def ShapeRec.side (r : ShapeRec) (own n extra : Nat) (cap : Quad) : Side :=
  let place : Place := match r.kind with
    | 1 => .tile n
    | 2 => .virt false
    | 5 => .ep (BitVec.ofNat 3 r.param)
    | 6 => .cap (if capDev cap = 0xFFFF ∨ capDev cap = own then none else some (capDev cap)) (capUnit cap) (r.sub != 2)
    | 7 => .tile (unitOf r.addr.toNat - 1024)
    | _ => .virt true
  let base : Int := match r.kind with
    | 6 => (capBase cap + extra : Nat)
    | 7 => (offOf r.addr.toNat + extra : Nat)
    | _ => (r.addr.toNat + extra : Nat)
  ⟨place, base, r.ty, r.sizes, r.strides, r.count⟩

/-- The checks of a side when its command starts, after those of the record itself (R258). -/
def State.sideTrap (s : State) (n : Nat) (r : ShapeRec) (extra : Nat) (writes : Bool) (cap : Quad × Bool) (i : Instr) :
    Option DtTrap :=
  let x := r.side s.dev n extra cap.1
  match r.misaligned n with
  | some t => some t
  | none =>
    match r.kind with
    | 1 => x.outside n
    | 5 => if (s.ep n (BitVec.ofNat 3 r.param)).dir = (if writes then .outbound else .inbound) then none else some (illegalWord i)
    | 6 => x.capFails cap.1 cap.2 [if writes then 5 else 6] (s.names (capDev cap.1))
    | 7 =>
      let u := unitOf r.addr.toNat
      if r.addr.toNat / 2 ^ 48 ≠ 0xFFFF ∨ u < 1024 ∨ 1055 < u ∨ u = 1024 + n then some ⟨causeRange, r.addr, 0, 0⟩
      else x.outside (u - 1024)
    | _ => none

/-- The contents of a record of a command: record 64 is read when it starts (R259). -/
def State.recordOf (s : State) (n : Nat) (sh : BitVec 7) (captured : List Byte) (started : Bool) : List Byte :=
  if sh = 64 ∧ !started then s.readBytes (shapeAddr n 64) 64 else captured

/-- The capability that a record of kind 6 names: its pair is read with its tag in one act (R195, R258). second tells
which record of the command it is. -/
def State.capPhase (s : State) (n : Nat) (st : Stream) (c : DtCmd) (r : ShapeRec) (second : Bool) : Phase :=
  let have_ := if second then c.capB else c.capA
  if r.kind ≠ 6 ∨ have_.isSome then .done s c []
  else match r.misaligned n with
    | some t => .rest (.trap s t)
    | none =>
      match c.reqs, s.dtReply c with
      | _ :: _, none => .rest (.go s c none)
      | _, some rep =>
        let d := s.dropReply c rep
        match d.1.replyTrap n rep with
        | some (s1, t) => .rest (.trap s1 t)
        | none =>
          let v := some (rep.value, rep.tag)
          .rest (.go d.1 (if second then { d.2 with capB := v } else { d.2 with capA := v }) none)
      | [], none =>
        match s.tileTranslate n st r.addr ⟨true, false, false⟩ with
        | .miss => .rest (s.missUnit n st c r.addr)
        | .trap t => .rest (.trap s ⟨t.code, t.value, 0, t.aux⟩)
        | .ok dev a ga =>
          if !kindHolds false a then .rest (.trap s ⟨causeRange, ga, 0, 0⟩)
          else let q := s.dtAsk n st c dev .capLoad a false; .rest (.go q.1 q.2 none)

end Sys2Proof.Machine
end

