-- ==== Sys2Proof/Machine/Copy.lean ====
section
/-! DEFINITION. The copy loop of R232 and the commands that run it: xld, xst and xcp (R231), cvt, cpack and cunpack
(R260); and xbld (R233). -/

namespace Sys2Proof.Machine

/-- What a command of the copy loop does with its records. -/
structure CopyPlan where
  src : Side
  dst : Side
  rq : BitVec 2
  wq : BitVec 2
  /-- One element, as its bits, its flags and its count. -/
  conv : Nat → Converted

/-- Elements in a unit of 512 destination bytes (R232). -/
def Side.perUnit (y : Side) : Nat := 4096 / y.ty.width

/-- Units of a command (R232). -/
def Side.units (y : Side) : Nat := (y.count + y.perUnit - 1) / y.perUnit

/-- The unit that a cursor stands at, in the order the command chose (R232). -/
def DtCmd.unitAt (c : DtCmd) (units cursor : Nat) : Nat := if c.desc then units - 1 - cursor else cursor

/-- The cursor at which a unit is performed. -/
def DtCmd.turnOf (c : DtCmd) (units u : Nat) : Nat := if c.desc then units - 1 - u else u

/-! ## Overlap (R105, R232) -/

/-- Whether two sides may name the same bytes: one tile store, or SHM and the homes, which virtual addresses and capabilities both
reach. -/
def samePlace : Place → Place → Bool
  | .tile a, .tile b => a == b
  | .virt _, .virt _ | .virt _, .cap _ _ _ | .cap _ _ _, .virt _ | .cap _ _ _, .cap _ _ _ => true
  | _, _ => false

/-- Where a byte of a side is stored: a device, and an address there. A virtual address goes by the TLB of the tile, or else by the
tables as they stand; where these do not tell, it stands for itself, in a space of its own (assumption 134). -/
def State.bytePlace (s : State) (n : Nat) (x : Side) (b : Int) : Nat × Nat :=
  match x.place with
  | .tile m => (0xFFFF, tsAddr m b.toNat)
  | .cap dev unit _ => (dev.getD 0xFFFF, addrOf unit (b % (2 ^ 37 : Int)).toNat)
  | .virt _ =>
    let va := BitVec.ofInt 64 b
    match (lookup [] s.tileTlbs n).find? fun (e : TlbEntry) => e.covers va.toNat with
    | some e => (0xFFFF, e.frame + va.toNat % 2 ^ e.size)
    | none =>
      let root := match s.tileLaunch n with
        | some (_, l) => BitVec.ofNat 64 (l.word 0x60)
        | none => 0
      match s.tableLeaf root (va.toNat / 2 ^ 18) with
      | some e => (0xFFFF, e.frame + va.toNat % 2 ^ e.size)
      | none => (0x10000, va.toNat)
  | .ep _ => (0x10001, 0)

/-- The bytes of each element of a side as runs: a device, an address and a length. An element that crosses from one page into
another is a run for each byte. -/
def State.runs (s : State) (n : Nat) (x : Side) : List (List (Nat × Nat × Nat)) :=
  (List.range x.count).map fun i =>
    let z := elBytes x.ty
    let p := s.bytePlace n x (x.byte i)
    if s.bytePlace n x (x.byte i + (z - 1 : Nat)) = (p.1, p.2 + (z - 1)) then [(p.1, p.2, z)]
    else (List.range z).map fun (k : Nat) => let q := s.bytePlace n x (x.byte i + k); (q.1, q.2, 1)

/-- Whether two elements share a byte. -/
def clash (a b : List (Nat × Nat × Nat)) : Bool :=
  a.any fun p => b.any fun q => p.1 == q.1 && decide (p.2.1 < q.2.1 + q.2.2) && decide (q.2.1 < p.2.1 + p.2.2)

/-- Whether no unit reads a source byte that a unit before it has written, in ascending or in descending order; px and
py are the elements of a unit on either side. -/
def State.orderFree (s : State) (n : Nat) (x y : Side) (px py : Nat) (desc : Bool) : Bool :=
  !samePlace x.place y.place ||
    let xs := s.runs n x
    let ys := s.runs n y
    ((List.range x.count).zip xs).all fun a => ((List.range y.count).zip ys).all fun b =>
      !(clash a.2 b.2 && (if desc then decide (a.1 / px < b.1 / py) else decide (b.1 / py < a.1 / px)))

/-- The unit order of a copy; none where neither order serves. -/
def State.chooseOrder (s : State) (n : Nat) (x y : Side) : Option Bool :=
  if s.orderFree n x y y.perUnit y.perUnit false then some false
  else if s.orderFree n x y y.perUnit y.perUnit true then some true else none

/-! ## Units -/

/-- Whether no element of a later unit than that of a part's element lies in the part's granule. -/
def Side.lastIn (x : Side) (c : DtCmd) (per units : Nat) (p : Nat × Int) : Bool :=
  !(List.range x.count).any fun j =>
    (x.granule j == p.2 || x.lastGranule j == p.2) && decide (c.turnOf units (p.1 / per) < c.turnOf units (j / per))

/-- The parts of elements lo to hi − 1 whose granules no later unit touches. -/
def Side.lastParts (x : Side) (c : DtCmd) (per units lo hi : Nat) : List (Nat × Int) :=
  (x.parts ((List.range (hi - lo)).map (lo + ·))).filter (x.lastIn c per units)

/-- The end of a unit: the endpoint's bytes are consumed, the counts are made, and the cursor passes it (R49, R222,
R239). A command that still has a partly filled slot goes on to send it. -/
def State.endOfUnit (s : State) (n : Nat) (c : DtCmd) (src : Side) (lo hi units : Nat) (counts : List (Option Counter))
    (pads : Bool) : UnitEnd :=
  let last := decide (c.cursor + 1 = units)
  let w := src.ty.width
  let s1 := match src.place with
    | .ep l => s.consumeEp n l ((if last then (hi * w + 7) / 8 else hi * w / 8) - lo * w / 8) last
    | _ => s
  let r := s1.tileCount n counts
  let c1 := { c with cursor := c.cursor + 1, buf := [], sent := false, clearing := false, checked := 0, reqs := [] }
  if last && !pads then .finish r.1 r.2 else .go r.1 c1 r.2

/-- After the writes of a unit: what is still on its way, the granules that it empties, and its end. -/
def State.settleUnit (s : State) (n : Nat) (st : Stream) (c : DtCmd) (src : Side) (rq : BitVec 2)
    (cleared : List (Nat × Int)) (fin : State → DtCmd → UnitEnd) : UnitEnd :=
  s.dtSettled c fun s c =>
    if c.clearing || rq != 2 then fin s c
    else
      let r := s.doClears n st c src cleared
      if r.2.reqs.isEmpty then fin r.1 r.2 else .go r.1 { r.2 with clearing := true } none

/-- The partly filled slot of an outbound endpoint, which the end of a command sends (R221). -/
def State.padEp (s : State) (n : Nat) (c : DtCmd) (l : BitVec 3) : UnitEnd :=
  if (s.ep n l).fill = 0 then .finish s none
  else if (s.ep n l).canSend 1 then .finish (s.ship n l) none
  else .wait s c (epCode n l)

def State.finishCopy (s : State) (n : Nat) (c : DtCmd) (dst : Side) : UnitEnd :=
  match dst.place with
  | .ep l => s.padEp n c l
  | _ => .finish s none

/-- Whether an outbound side leaves a partly filled slot after so many bytes. -/
def State.padsAfter (s : State) (n : Nat) (dst : Side) : Bool :=
  match dst.place with
  | .ep l => (s.ep n l).fill != 0
  | _ => false

/-- The slots that bytes fill. -/
def State.slotsOf (s : State) (n : Nat) (dst : Side) (bytes : Nat) : Nat :=
  match dst.place with
  | .ep l => ((s.ep n l).fill + bytes) / 512
  | _ => 0

/-- A step of the copy loop (R217, R232). What a unit has read stays with it to its end, where its counts are made (R49). -/
def State.copyUnit (s : State) (n : Nat) (st : Stream) (c : DtCmd) (p : CopyPlan) : UnitEnd :=
  let units := p.dst.units
  let per := p.dst.perUnit
  if units ≤ c.cursor then s.finishCopy n c p.dst
  else
    let lo := c.unitAt units c.cursor * per
    let hi := min p.dst.count (lo + per)
    let cleared := p.src.lastParts c per units lo hi
    match s.readPhase n st c p.src lo hi p.rq with
    | .rest e => e
    | .done s1 c1 vals =>
      let conv := vals.map p.conv
      let fin (s : State) (c : DtCmd) : UnitEnd :=
        s.endOfUnit n c p.src lo hi units (conv.map (·.count)) (s.padsAfter n p.dst)
      if c.sent then s1.settleUnit n st c1 p.src p.rq cleared fin
      else
        let ws := ((List.range (hi - lo)).map (lo + ·)).zip (conv.map (·.bits))
        match s1.checkWrites n st c1 p.dst ws p.wq (s.slotsOf n p.dst ((ws.length * p.dst.ty.width + 7) / 8)) with
        | .rest e => e
        | .done s2 c2 _ =>
          let r := s2.doWrites n st c2 p.dst ws (p.dst.lastIn c per units)
          let s3 := r.1.tileFlags n (unionFlags (conv.map (·.flags)))
          s3.settleUnit n st { r.2 with sent := true } p.src p.rq cleared fin

/-! ## Start (R231, R258, R260) -/

/-- Whether a record of a memory kind may be a source or a destination that lies outside the own tile store. -/
def ShapeRec.outer (r : ShapeRec) : Bool := (r.kind == 2 || r.kind == 3 || r.kind == 5 || r.kind == 6 || r.kind == 7) && !r.isFloe

/-- Whether a side of a record has full/empty bits. -/
def ShapeRec.bits (r : ShapeRec) : Bool := r.kind == 1 || r.kind == 2 || r.kind == 7 || (r.kind == 6 && r.sub == 2)

/-- The start checks of a command of the copy loop, and its plan. types tells whether the types suit the command. -/
def State.startCopy (s : State) (n : Nat) (st : Stream) (c : DtCmd) (o : CopyOp) (srcOk dstOk : ShapeRec → Bool)
    (types : ElTy → ElTy → Bool) (conv : ElTy → ElTy → Nat → Converted) (run : CopyPlan → State → DtCmd → UnitEnd) : UnitEnd :=
  let recA := s.recordOf n o.sha c.recA c.started
  let recB := s.recordOf n o.shb c.recB c.started
  match parseShape recA, parseShape recB with
  | some a, some b =>
    if !srcOk a || !dstOk b || !types a.ty b.ty || a.count != b.count || (o.rq != 0 && !a.bits) || (o.wq != 0 && !b.bits) then
      .trap s (illegalWord c.instr)
    else
      let ea := c.ja.toNat * 2 ^ o.sa.toNat
      let eb := c.jb.toNat * 2 ^ o.sb.toNat
      let c0 := { c with recA := recA, recB := recB }
      match s.capPhase n st c0 a false with
      | .rest e => e
      | .done s1 c1 _ =>
        match s1.capPhase n st c1 b true with
        | .rest e => e
        | .done s2 c2 _ =>
          let qa := c2.capA.getD (0, false)
          let qb := c2.capB.getD (0, false)
          let plan : CopyPlan := ⟨a.side s.dev n ea qa.1, b.side s.dev n eb qb.1, o.rq, o.wq, conv a.ty b.ty⟩
          if c.started then run plan s2 c2
          else match s2.sideTrap n a ea false qa c.instr, s2.sideTrap n b eb true qb c.instr with
            | some t, _ => .trap s2 t
            | none, some t => .trap s2 t
            | none, none =>
              match s2.chooseOrder n plan.src plan.dst with
              | none => .trap s2 (illegalWord c.instr)
              | some desc => run plan s2 { c2 with started := true, desc := desc }
  | _, _ => .trap s (illegalWord c.instr)

/-- An element copied bit for bit. -/
def copied (v : Nat) : Converted := ⟨v, 0, none⟩

/-- xld, xst and xcp as commands. -/
def runCopy (o : CopyOp) (srcOk dstOk : ShapeRec → Bool) : CmdRun := fun s n c =>
  s.startCopy n .s c o srcOk dstOk (fun a b => a == b) (fun _ _ => copied) fun p s c => s.copyUnit n .s c p

def ShapeRec.own (r : ShapeRec) : Bool := r.kind == 1

def execXld (o : CopyOp) (s : State) : Out :=
  dtCommand .s (.xld o) o.tok o.ja o.jb o.sha o.shb (runCopy o ShapeRec.outer ShapeRec.own) s

def execXst (o : CopyOp) (s : State) : Out :=
  dtCommand .s (.xst o) o.tok o.ja o.jb o.sha o.shb (runCopy o ShapeRec.own ShapeRec.outer) s

def execXcp (o : CopyOp) (s : State) : Out :=
  dtCommand .s (.xcp o) o.tok o.ja o.jb o.sha o.shb (runCopy o (fun r => r.own || r.outer) fun r => r.own || r.outer) s

/-! ## Conversions (R260) -/

/-- Whether a conversion saturates or clamps: sat, or the mode of FCSR.CVM for e4m3 and e5m2 (R44, R45). -/
def saturates (d : ElTy) (sat : Bool) (fcsr : BitVec 9) : Bool := sat || (!d.isInt && !fcsr.getLsbD 8)

/-- The rounding mode of a tile (R38, R45). -/
def tileMode (fcsr : BitVec 9) (rm : BitVec 3) : Mode := Mode.ofCode (fcsr.extractLsb' 5 3) rm

/-- sat for a destination to which it does not apply: the word is ILLEGAL at decode (R260). A staged record is not known until the
command starts, and is checked then (assumption 70). -/
def cvtBad (o : CvtOp) (s : State) : Bool :=
  o.sat && decide (o.copy.shb.toNat < 64) && match parseShape (s.captureRecord s.tile o.copy.shb) with
    | some b => !(b.ty == .e4m3 || b.ty == .e5m2 || b.ty.isInt)
    | none => false

/-- A word that is ILLEGAL at decode, unless it is a step of its command. -/
def refuseWord (st : Stream) (i : Instr) (bad : State → Bool) (f : State → Out) (s : State) : Out :=
  match s.turn with
  | .cmd _ _ => f s
  | _ => if bad s then .next (s.tileTrap s.tile st (illegalWord i)) else f s

def execCvt (o : CvtOp) (s : State) : Out :=
  refuseWord .c (.cvt o) (cvtBad o) (dtCommand .c (.cvt o) o.copy.tok o.copy.ja o.copy.jb o.copy.sha o.copy.shb (fun s n c =>
    let fcsr := (s.tileAt n).fcsr
    s.startCopy n .c c o.copy ShapeRec.own ShapeRec.own
      (fun a b => a != b && (!o.sat || b == .e4m3 || b == .e5m2 || b.isInt))
      (fun a b v => convertEl a b (tileMode fcsr o.rm) (saturates b o.sat fcsr) v)
      fun p s c => s.copyUnit n .c c p)) s

def execCpack (o : CopyOp) (s : State) : Out :=
  dtCommand .c (.cpack o) o.tok o.ja o.jb o.sha o.shb (fun s n c =>
    s.startCopy n .c c o ShapeRec.own ShapeRec.own (fun a b => a == .n8 && b == .e2m1) (fun _ _ v => copied (v % 16))
      fun p s c => s.copyUnit n .c c p) s

def execCunpack (o : CopyOp) (s : State) : Out :=
  dtCommand .c (.cunpack o) o.tok o.ja o.jb o.sha o.shb (fun s n c =>
    s.startCopy n .c c o ShapeRec.own ShapeRec.own (fun a b => a == .e2m1 && b == .n8) (fun _ _ v => copied v)
      fun p s c => s.copyUnit n .c c p) s

/-! ## xbld (R233) -/

/-- The B types of mma and mmas (R226). -/
def isMatrixType (t : ElTy) : Bool := t == .bf16 || t == .fp16 || t == .e4m3 || t == .e5m2 || t == .e2m1

/-- A column of a B operand in its slice (R218, R233). Half a byte that the column does not reach keeps its value. DESIGN
CHOICE, unsafe (assumption 132): a whole column is written and read in one move, where R218 leaves the mix of old and new
16-byte pieces open. -/
def State.putColumn (s : State) (n col off : Nat) (w : Nat) (vals : List Nat) : State :=
  let a := bsramAddr n col (128 * off)
  let m := (vals.length * w + 7) / 8
  let rest := s.readNat a m / 2 ^ (vals.length * w) * 2 ^ (vals.length * w)
  let bytes := natToBytes m (joinLanes w vals + rest)
  (s.writeBytes a bytes).recheck a m []

/-- A step of xbld: one column is one unit. -/
def runBld (o : BldOp) : CmdRun := fun s n c =>
  let recA := s.recordOf n o.sha c.recA c.started
  match parseShape recA with
  | none => .trap s (illegalWord c.instr)
  | some r =>
    let k := r.sizes.getD 0 1
    let cols := r.sizes.getD 1 1
    if !r.outer || !isMatrixType r.ty || decide (128 < cols) || r.sizes.getD 2 1 != 1 || r.sizes.getD 3 1 != 1 ||
        decide (8 * 131072 < 8 * 128 * o.off.toNat + k * r.ty.width) || (o.rq != 0 && !r.bits) then .trap s (illegalWord c.instr)
    else
      let extra := c.ja.toNat * 2 ^ o.sa.toNat
      match s.capPhase n .s { c with recA := recA } r false with
      | .rest e => e
      | .done s1 c1 _ =>
        let q := c1.capA.getD (0, false)
        let x := r.side s.dev n extra q.1
        match if c.started then none else s1.sideTrap n r extra false q c.instr with
        | some t => .trap s1 t
        | none =>
          let c2 := { c1 with started := true }
          let lo := c.cursor * k
          let els := x.lastParts c2 k cols lo (lo + k)
          let fin (s : State) (c : DtCmd) : UnitEnd := s.endOfUnit n c x lo (lo + k) cols [] false
          if c.sent then s1.settleUnit n .s c2 x o.rq els fin
          else match s1.readPhase n .s c2 x lo (lo + k) o.rq with
            | .rest e => e
            | .done s2 c3 vals =>
              (s2.putColumn n c.cursor o.off.toNat x.ty.width vals).settleUnit n .s { c3 with sent := true } x o.rq els fin

def execXbld (o : BldOp) (s : State) : Out := dtCommand .s (.xbld o) o.tok o.ja 0 o.sha 64 (runBld o) s

end Sys2Proof.Machine
end

