-- ==== Sys2Proof/Machine/Firn.lean ====
section
/-! DEFINITION. Firn: the coding of a block (R54 to R61), the placement of a floe (R264, R303, R354), the codecs (R304), and
xstash and xrest (R265, R266). -/

namespace Sys2Proof.Machine

/-! ## The coding of a block (R55 to R61). A value is held as a multiple of 2^-172, exactly. -/

/-- A finite element; a non-finite one is none. -/
def firnValue (ty : ElTy) (code : Nat) : Option Int :=
  match decodeFp ty code with
  | .fin neg m e => let v := m * 2 ^ (e + 172).toNat; some (if neg then -(v : Int) else v)
  | _ => none

/-- Half a step Δ at an exponent E: E is at least −160 and k at most 12 (R55). -/
def halfStep (k : Nat) (e : Int) : Int := 2 ^ (e - k + 172).toNat

/-- The integer E with 2^(E − 1) ≤ m < 2^E (R55). -/
def exponentOf (m : Nat) : Int := (Nat.log2 m : Int) + 1 - 172

/-- E_d: the least integer with d + 2^(E − k) < 2^E (R57). -/
def deltaExponent (k : Nat) (d : Nat) : Int :=
  let e := exponentOf d
  if d + 2 ^ (e - k + 172).toNat < 2 ^ (e + 172).toNat then e else e + 1

/-- A code reconstructed (R56). -/
def codeValue (k : Nat) (e : Int) (q : Int) : Int := (2 * q + 1) * halfStep k e

/-- Restore's rounding (R60). -/
def firnRound (ty : ElTy) (v : Int) : Nat :=
  let r := roundFp ty (v < 0) v.natAbs (-172) .rne
  if (r.2 &&& flagOF) = flagOF then signed ty (v < 0) ty.maxBits else r.1

/-- The codes of a block in delta form, with the reconstructed values (R57). -/
def deltaCodes (k : Nat) (e : Int) : Int → List Int → List (Int × Int)
  | _, [] => []
  | acc, x :: rest =>
    let q := (x - acc) / (2 * halfStep k e)
    let y := acc + codeValue k e q
    (q, y) :: deltaCodes k e y rest

/-- D_max (R57). -/
def deltaMax : Int → List Int → Nat
  | _, [] => 0
  | prev, x :: rest => max (x - prev).natAbs (deltaMax x rest)

/-- An encoded block: its header, the codes of its real elements, and what each reconstructs as (none for a marker). -/
structure Encoded where
  header : Nat
  codes : List Int
  values : List (Option Int)
deriving DecidableEq, Repr

/-- The form of a block (R55 to R58). -/
def encodeBlock (k : Nat) (delta : Bool) (xs : List (Option Int)) : Encoded :=
  let fin := xs.map fun x => x.getD 0
  let bad := xs.any Option.isNone
  let M := fin.foldl (fun a x => max a x.natAbs) 0
  let marker : Int := -2 ^ (k - 1)
  if M = 0 then
    ⟨2 ^ 15 + (if bad then 2 ^ 14 else 0), xs.map fun x => if x.isNone then marker else 0, xs.map fun x => x.map fun _ => 0⟩
  else
    let ep := exponentOf M
    let plain (n : Bool) (e : Int) : Encoded :=
      let q (x : Int) : Int := x / (2 * halfStep k e)
      ⟨(if n then 2 ^ 14 else 0) + (e + 160).toNat, xs.map fun x => (x.map q).getD marker,
        xs.map fun x => x.map fun v => codeValue k e (q v)⟩
    if bad then plain true (ep + 1)
    else
      let ed := deltaExponent k (deltaMax 0 fin)
      if delta && decide (ed < ep) then
        let r := deltaCodes k ed 0 fin
        ⟨2 ^ 13 + (ed + 160).toNat, r.map (·.1), r.map fun p => some p.2⟩
      else plain false ep

/-- The bytes of a block: the header, the 64 codes and nothing for its padding (R54). -/
def Encoded.bytes (k : Nat) (b : Encoded) : List Byte :=
  natToBytes 2 b.header ++ natToBytes (8 * k) (joinLanes k (b.codes.map (wrapInt k)))

/-- The counts of an encoded block: its non-finite elements, and the nonzero ones that restore as zero (R61). -/
def Encoded.counts (ty : ElTy) (xs : List (Option Int)) (b : Encoded) : Nat × Nat :=
  ((xs.filter Option.isNone).length,
    ((xs.zip b.values).filter fun p => match p with
      | (some x, some y) => x != 0 && firnRound ty y % ty.signBit == 0
      | _ => false).length)

/-- The decoder in delta form: each value before it is rounded (R57). -/
def deltaValues (k : Nat) (e : Int) : Int → List Int → List Int
  | _, [] => []
  | acc, q :: rest => let y := acc + codeValue k e q; y :: deltaValues k e y rest

/-- A decoded block: 64 elements (R56 to R60, R266). -/
def decodeBlock (ty : ElTy) (k : Nat) (header codes : Nat) : List Nat :=
  let e : Int := (header % 2 ^ 9 : Nat) - 160
  let n := bitOf header 14
  let qs : List Int := (lanes k 64 codes).map fun (c : Nat) => if 2 ^ (k - 1) ≤ c then (c : Int) - 2 ^ k else (c : Int)
  let vals := if bitOf header 13 && !n then deltaValues k e 0 qs else qs.map (codeValue k e)
  (qs.zip vals).map fun p =>
    if n && p.1 == -2 ^ (k - 1) then ty.nanBits
    else if bitOf header 15 then 0
    else firnRound ty p.2

/-! ## Floes (R54, R264, R303) -/

/-- k of a floe record (R255). -/
def ShapeRec.floeK (r : ShapeRec) : Nat :=
  match r.param % 8 with
  | 0 => 3 | 1 => 4 | 2 => 6 | 3 => 8 | _ => 12

def ShapeRec.floeDelta (r : ShapeRec) : Bool := bitOf r.param 3

/-- Blocks of a floe (R54). -/
def ShapeRec.floeBlocks (r : ShapeRec) : Nat := (r.count + 63) / 64

/-- Bytes of the header plane (R54). -/
def ShapeRec.floeHead (r : ShapeRec) : Nat := 64 * ((r.floeBlocks + 31) / 32)

/-- The size of a floe (R54). -/
def ShapeRec.floeSize (r : ShapeRec) : Nat := r.floeHead + 8 * r.floeK * r.floeBlocks

/-- The floe offsets of a block's header, of its codes, and of the padding of the header plane in the act of the last
block (R54, R265). -/
def ShapeRec.blockBytes (r : ShapeRec) (b : Nat) (pad : Bool) : List Nat :=
  (List.range 2).map (2 * b + ·) ++ (List.range (8 * r.floeK)).map (r.floeHead + 8 * r.floeK * b + ·) ++
    (if pad && b + 1 == r.floeBlocks then (List.range (r.floeHead - 2 * r.floeBlocks)).map (2 * r.floeBlocks + ·) else [])

/-- The placement that holds an address: a home channel, or a pool channel or share of the partition (R303, R354). -/
def State.placement (s : State) (part : Option Nat) (a : Nat) : Option Nat :=
  match storageOf a with
  | .channel u => some u
  | .pool =>
    let p := offOf a / 2 ^ 30
    let mine := match part with
      | some q => (s.reg (0x11000 + 64 * q + 0x10)).getLsbD p
      | none => true
    if mine then some (8192 + p) else none
  | _ => none

/-- Where a byte of a floe lies. The base of a floe behind a capability is the capability's. -/
def State.floeSpot (s : State) (n : Nat) (r : ShapeRec) (extra : Nat) (cap : Quad) (need : Need) (o : Nat) : Spot :=
  if r.kind = 6 then
    let dev := if capDev cap = 0xFFFF ∨ capDev cap = s.dev then none else some (capDev cap)
    .at dev (addrOf (capUnit cap) ((capBase cap + extra + o) % 2 ^ 37))
  else
    let va := r.addr + BitVec.ofNat 64 (extra + o)
    match s.tileTranslate n .s va need with
    | .miss => .miss va
    | .trap t => .trap ⟨t.code, t.value, 0, t.aux⟩
    | .ok dev a _ => .at dev a

/-- The checks of R196 on a floe behind a capability, with the permissions of R258. -/
def State.floeCap (s : State) (r : ShapeRec) (extra : Nat) (cap : Quad × Bool) (perm : Nat) : Option DtTrap :=
  if r.kind ≠ 6 then none
  else
    let q := cap.1
    let at_ (o : Nat) : Word := BitVec.ofNat 64 (capDev q * 2 ^ 48 + addrOf (capUnit q) ((capBase q + extra + o) % 2 ^ 37))
    if (capBase q + extra) % 64 ≠ 0 then some ⟨causeMisaligned, at_ 0, 0, 0⟩
    else if !cap.2 then some ⟨causeCapability, at_ 0, 0, 1⟩
    else if !bitOf (capPerm q) perm || !bitOf (capPerm q) 1 then some ⟨causeCapability, at_ 0, 0, 2⟩
    else if capLen q < extra + r.floeSize then some ⟨causeCapability, at_ (capLen q - extra), 0, 3⟩
    else if !s.names (capDev q) then some ⟨causeRange, at_ 0, 0, 0⟩
    else none

/-- The global address of a byte of a floe. -/
def floeGa (dev : Option Nat) (a : Nat) : Word := BitVec.ofNat 64 (dev.getD 0xFFFF * 2 ^ 48 + a)

/-- The partition of a tile's launch. -/
def State.tilePart (s : State) (n : Nat) : Option Nat := (s.tileLaunch n).map (·.1)

/-- The start check of a floe's placement (R264, R303): page by page, each page must lie where the first byte lies. The
command keeps the placement and the first byte in phys, and counts the pages that it has passed. A command that goes on from a
launch image finds them anew. -/
def State.floePhase (s : State) (n : Nat) (c : DtCmd) (r : ShapeRec) (extra : Nat) (cap : Quad) (need : Need) : Phase :=
  let offset (p : Nat) : Nat :=
    if p = 0 then 0 else if r.kind = 6 then r.floeSize - 1
    else (r.addr.toNat + extra) / 2 ^ 18 * 2 ^ 18 + p * 2 ^ 18 - (r.addr.toNat + extra)
  let pages := if r.kind = 6 then 2 else (r.addr.toNat + extra + r.floeSize + 2 ^ 18 - 1) / 2 ^ 18 - (r.addr.toNat + extra) / 2 ^ 18
  if (c.started ∧ c.phys ≠ []) ∨ pages ≤ c.checked then .done s { c with checked := 0 } []
  else match s.floeSpot n r extra cap need (offset c.checked) with
    | .miss va => .rest (s.missUnit n .s c va)
    | .trap t => .rest (.trap s t)
    | .at dev a =>
      let here := match dev with
        | none => s.placement (s.tilePart n) a
        | some _ => s.placement none a
      let first := if c.checked = 0 then a else c.phys.getD 1 0
      match here with
      | none => .rest (.trap s ⟨causeRange, floeGa dev first, 0, 0⟩)
      | some p =>
        if c.checked = 0 then .rest (.go s { c with checked := 1, phys := [p, a] } none)
        else if c.phys.getD 0 0 = p then .rest (.go s { c with checked := c.checked + 1 } none)
        else .rest (.trap s ⟨causeRange, floeGa dev first, 0, 0⟩)

/-! ## The codecs (R304) -/

/-- The controller that serves a block. -/
def FirnJob.place (j : FirnJob) : Nat :=
  match storageOf (j.block.addrs.getD 0 0) with
  | .pool => 8192 + offOf (j.block.addrs.getD 0 0) / 2 ^ 30
  | _ => unitOf (j.block.addrs.getD 0 0)

/-- Job n, if it is the first that its controller serves in its direction. -/
def State.firstJob (s : State) (n : Nat) (encode : Bool) : Option FirnJob :=
  match s.firn.find? fun j => j.id == n && !j.done && j.dev.isNone && j.encode == encode with
  | none => none
  | some j =>
    match s.firn.find? fun x => !x.done && x.dev.isNone && x.encode == encode && x.place == j.place with
    | some x => if x.id = n then some j else none
    | none => none

/-- Bytes at scattered addresses; a whole beat among them takes their check value (R416). -/
def State.putScattered (s : State) (addrs : List Nat) (bytes : List Byte) : State :=
  let s1 := (addrs.zip bytes).foldl (fun st p => st.writeByte p.1 p.2) s
  let whole := addrs.filter fun a => a % 64 == 0 && (List.range 64).all fun i => addrs.contains (a + i)
  whole.foldl (fun st a => st.recheck a 64 []) s1

/-- A job that is done goes back to its tile, or to another device. -/
def State.jobDone (s : State) (j : FirnJob) : State :=
  match j.src with
  | .remote dev _ rid =>
    let rest := { s with firn := s.firn.filter (·.id != j.id) }
    let own (w : Word) : Word := BitVec.ofNat 64 (s.dev * 2 ^ 48 + w.toNat % 2 ^ 48)
    match j.failed, j.refused with
    | some b, _ => rest.sendPacket dev none (.answer rid 0 (.failed (own b)))
    | none, some a => rest.sendPacket dev none (.answer rid 0 (.trap causeRange (own a) 0))
    | none, none => rest.sendPacket dev none (.rowAnswer rid (j.elems.flatMap fun x => natToBytes 4 x) [] false)
  | _ => { s with firn := s.firn.map fun x => if x.id = j.id then { j with done := true } else x }

/-- An encoder codes a block and writes it, as one act at the floe's channel (R265, R304). -/
def execFirnBlockEncode (n : Nat) (s : State) : Out :=
  match s.firstJob n true with
  | none => .next s
  | some j =>
    if !j.block.addrs.all s.ready then .next s else
    let xs := j.elems.map (firnValue j.block.ty)
    let b := encodeBlock j.block.k j.block.delta xs
    let counts := b.counts j.block.ty xs
    let bytes := b.bytes j.block.k
    let s1 := s.putScattered j.block.addrs (bytes ++ List.replicate (j.block.addrs.length - bytes.length) 0)
    .next (s1.jobDone { j with elems := [counts.1, counts.2] })

/-- A decoder reads a block and reconstructs it (R266, R304, R417). -/
def execFirnBlockDecode (n : Nat) (s : State) : Out :=
  match s.firstJob n false with
  | none => .next s
  | some j =>
    if !j.block.addrs.all s.ready then .next s else
    match j.block.addrs.findSome? fun a => s.failedBeat a 1 with
    | some beat => .next (s.jobDone { j with elems := [], failed := some (gaWord beat) })
    | none =>
      let bytes := j.block.addrs.map s.readByte
      .next (s.jobDone { j with elems := decodeBlock j.block.ty j.block.k (bytesToNat (bytes.take 2)) (bytesToNat (bytes.drop 2)) })

/-! ## The commands -/

/-- The parts of a stash or a restore: the floe and the tensor, their offsets, and what the floe's pages must allow. -/
structure FirnPlan where
  floe : ShapeRec
  extra : Nat
  cap : Quad
  need : Need
  side : Side

/-- The addresses of a block's bytes; what stops it, where it cannot be reached. -/
def State.blockAddrs (s : State) (n : Nat) (p : FirnPlan) (offs : List Nat) : Except Spot (Option Nat × List Nat) :=
  match offs.findSome? fun o => match s.floeSpot n p.floe p.extra p.cap p.need o with
      | .at _ _ => none
      | other => some other with
  | some e => .error e
  | none =>
    let spots := offs.map fun o => match s.floeSpot n p.floe p.extra p.cap p.need o with
      | .at dev a => (dev, a)
      | _ => (none, 0)
    .ok ((spots.getD 0 (none, 0)).1, spots.map (·.2))

/-- A block goes to its codec, here or on another device. -/
def State.firnSend (s : State) (n : Nat) (c : DtCmd) (p : FirnPlan) (encode : Bool) (dev : Option Nat) (addrs elems : List Nat) :
    State × DtCmd :=
  let id := s.nextId
  let block : FirnBlock := ⟨addrs, p.floe.floeK, p.floe.floeDelta, p.floe.ty, c.phys.getD 1 0⟩
  let s1 := { s.fresh with firn := s.firn ++ [⟨id, .tile n .s, encode, block, dev, elems, false, none, none⟩] }
  let s2 := match dev with
    | none => s1
    | some d =>
      s1.sendPacket d (some (1024 + n, homeOf (addrs.getD 0 0)))
        (if encode then .firnWrite id (1024 + n) block elems (s.tilePart n) else .firnRead id (1024 + n) block (s.tilePart n))
  (s2, { c with occ := some id })

/-- What has become of a job: it is lost, it is on its way, it has trapped, or it is done with its elements. -/
inductive JobEnd where
  | lost
  | pending
  | trap (s : State) (t : DtTrap)
  | done (s : State) (elems : List Nat)

/-- A command looks for the end of its job, and takes it. -/
def State.takeJob (s : State) (n id : Nat) : JobEnd :=
  match s.firn.find? (·.id == id) with
  | none => .lost
  | some j =>
    if !j.done then .pending
    else
      let s1 := { s with firn := s.firn.filter (·.id != id) }
      match j.failed, j.refused with
      | some beat, _ => .trap (s1.logWord beat 1 ((s.tileAt n).launch)) ⟨causeIntegrity, beat, 0, 0⟩
      | none, some a => .trap s1 ⟨causeRange, a, 0, 0⟩
      | none, none => .done s1 j.elems

/-- The end of a block's translation that is no address. -/
def State.spotEnd (s : State) (n : Nat) (c : DtCmd) (e : Spot) : UnitEnd :=
  match e with
  | .miss va => s.missUnit n .s c va
  | .trap t => .trap s t
  | .at _ _ => .go s c none

/-- A block of a stash (R265): its elements are read, coded and written, its source granules emptied, and its counts
made. -/
def State.stashBlock (s : State) (n : Nat) (c : DtCmd) (p : FirnPlan) (rq : BitVec 2) : UnitEnd :=
  let units := p.floe.floeBlocks
  let lo := 64 * c.cursor
  let hi := min p.side.count (lo + 64)
  let cleared := p.side.lastParts c 64 units lo hi
  let settle (s : State) (c : DtCmd) : UnitEnd :=
    s.settleUnit n .s c p.side rq cleared fun s c =>
      s.endOfUnit n c p.side lo hi units
        (List.replicate (lookup 0 c.buf 0) (some .nfsn) ++ List.replicate (lookup 0 c.buf 1) (some .ftzn)) false
  if c.sent then
    match c.occ with
    | none => settle s c
    | some id =>
      match s.takeJob n id with
      | .lost => .go s { c with sent := false, occ := none, buf := [] } none
      | .pending => .go s c none
      | .trap s1 t => .trap (s1.setDtCmd n .s { c with sent := false, occ := none, buf := [] }) t
      | .done s1 elems => settle s1 { c with occ := none, buf := [(0, elems.getD 0 0), (1, elems.getD 1 0)] }
  else
    match s.readPhase n .s c p.side lo hi rq with
    | .rest e => e
    | .done s1 c1 vals =>
      match s1.blockAddrs n p (p.floe.blockBytes c.cursor true) with
      | .error e => s1.spotEnd n c1 e
      | .ok (dev, addrs) =>
        let r := s1.firnSend n c1 p true dev addrs vals
        .go r.1 { r.2 with sent := true } none

/-- A block of a restore (R266): it is read and decoded, and its elements are written. -/
def State.restBlock (s : State) (n : Nat) (c : DtCmd) (p : FirnPlan) (wq : BitVec 2) : UnitEnd :=
  let units := p.floe.floeBlocks
  let lo := 64 * c.cursor
  let hi := min p.side.count (lo + 64)
  let fin (s : State) (c : DtCmd) : UnitEnd := s.endOfUnit n c p.side lo hi units [] false
  if c.sent then s.settleUnit n .s c p.side 0 [] fin
  else match c.occ with
    | some id =>
      match s.takeJob n id with
      | .lost => .go s { c with occ := none } none
      | .pending => .go s c none
      | .trap s1 t => .trap (s1.setDtCmd n .s { c with occ := none }) t
      | .done s1 elems => .go s1 { c with occ := none, buf := ((List.range (hi - lo)).map (lo + ·)).zip elems } none
    | none =>
      if c.buf.isEmpty then
        match s.blockAddrs n p (p.floe.blockBytes c.cursor false) with
        | .error e => s.spotEnd n c e
        | .ok (dev, addrs) => let r := s.firnSend n c p false dev addrs []; .go r.1 r.2 none
      else
        match s.checkWrites n .s c p.side c.buf wq 0 with
        | .rest e => e
        | .done s2 c2 _ =>
          let r := s2.doWrites n .s c2 p.side c.buf (p.side.lastIn c 64 units)
          r.1.settleUnit n .s { r.2 with sent := true } p.side 0 [] fin

/-- The start of a stash or a restore (R258, R264), and its blocks. second tells that the floe is the second record. -/
def State.startFirn (s : State) (n : Nat) (c : DtCmd) (o : CopyOp) (second : Bool)
    (run : FirnPlan → State → DtCmd → UnitEnd) : UnitEnd :=
  let recA := s.recordOf n o.sha c.recA c.started
  let recB := s.recordOf n o.shb c.recB c.started
  match parseShape recA, parseShape recB with
  | some a, some b =>
    let f := if second then b else a
    let x := if second then a else b
    let ea := c.ja.toNat * 2 ^ o.sa.toNat
    let eb := c.jb.toNat * 2 ^ o.sb.toNat
    let ef := if second then eb else ea
    let ex := if second then ea else eb
    if !f.isFloe || !(x.kind == 1 || x.kind == 2) || f.ty != x.ty || f.count != x.count then .trap s (illegalWord c.instr)
    else match s.capPhase n .s { c with recA := recA, recB := recB } f second with
      | .rest e => e
      | .done s1 c1 _ =>
        let cap := (if second then c1.capB else c1.capA).getD (0, false)
        let need : Need := ⟨!second, second, true⟩
        let plan : FirnPlan := ⟨f, ef, cap.1, need, x.side s.dev n ex 0⟩
        let checks := [s1.sideTrap n x ex (!second) (0, false) c.instr, f.misaligned n, s1.floeCap f ef cap (if second then 5 else 6)]
        match (if c.started then none else checks.findSome? id) with
          | some t => .trap s1 t
          | none =>
            match s1.floePhase n c1 f ef cap.1 need with
            | .rest e => e
            | .done s2 c2 _ => run plan s2 { c2 with started := true }
  | _, _ => .trap s (illegalWord c.instr)

def execXstash (o : CopyOp) (s : State) : Out :=
  dtCommand .s (.xstash o) o.tok o.ja o.jb o.sha o.shb
    (fun s n c => s.startFirn n c o true fun p s c => s.stashBlock n c p o.rq) s

def execXrest (o : CopyOp) (s : State) : Out :=
  dtCommand .s (.xrest o) o.tok o.ja o.jb o.sha o.shb
    (fun s n c => s.startFirn n c o false fun p s c => s.restBlock n c p o.wq) s

end Sys2Proof.Machine
end

