-- ==== Sys2Proof/Machine/Coach.lean ====
section
/-! DEFINITION. Coach: the collective steps of xce (R267, R268), their keys, and their three phases (R306, R307). -/

namespace Sys2Proof.Machine

/-! ## The start of an xce (R267, R306) -/

/-- The kind of an xce and its fields: 0 halve, 1 dbl, 2 xchg. -/
def coachOp : Instr → Option (Nat × CoachOp)
  | .xceHalve o => some (0, o)
  | .xceDbl o => some (1, o)
  | .xceXchg o => some (2, o)
  | _ => none

/-- What a step comes to at its start: its peer, whether this rank is the lower, and its terms. -/
structure CoachStart where
  peer : Nat
  lower : Bool
  terms : CoachTerms
  src : ShapeRec
  dst : ShapeRec
deriving DecidableEq, Repr

/-- The devices of a scope table: its box, if the list is present (R360). -/
def State.scopeBox (s : State) (table : Nat) : Option Nat :=
  let w := s.readNat (scopeAddr table + 0x88) 8
  if bitOf w 63 && boxFits (w % 2 ^ 32) then some (w % 2 ^ 32) else none

/-- The checks of R267 on the device list, and on the types and counts; none is ILLEGAL. -/
def State.coachStart (s : State) (kind : Nat) (o : CoachOp) (recA recB : List Byte) : Option CoachStart :=
  match s.scopeBox o.scope.toNat, parseShape recA, parseShape recB with
  | some box, some a, some b =>
    let p := boxCount box
    let bit := 2 ^ o.step.toNat
    match boxRank s.dev box s.dev with
    | none => none
    | some r =>
      let half (t : ElTy) : Bool := t == .bf16 || t == .fp32
      let suits := match kind with
        | 0 => half a.ty && half b.ty && a.count % 2 == 0 && 2 * b.count == a.count
        | 1 => a.ty == b.ty && b.count == 2 * a.count
        | _ => a.ty == b.ty && b.count == a.count
      let mem (x : ShapeRec) : Bool := x.kind == 1 || x.kind == 2
      if !(p == 2 ^ Nat.log2 p) || decide (p < 2 * bit) || !mem a || !mem b || !suits then none
      else some ⟨boxDev s.dev box (r ^^^ bit), r / bit % 2 == 0, ⟨BitVec.ofNat 2 kind, o.op, a.ty, b.ty, a.count⟩, a, b⟩
  | _, _, _ => none

/-- A step handed to Coach, with its command. -/
def State.handOver (s : State) (n : Nat) (c : DtCmd) (o : CoachOp) (x : CoachStart) (occ : Nat) : State :=
  let step : CoachStep :=
    { tile := n, cmd := c, scope := o.scope.toNat, step := o.step.toNat, occ := occ, peer := x.peer, lower := x.lower,
      terms := x.terms, chain := o.ch, ready := false, got := none, own := none, sent := 0, acked := 0, recv := [],
      written := 0, failed := false, deadline := none }
  { s with coach := s.coach ++ [step] }

/-- Whether a step is committed (R398). -/
def CoachStep.committed (x : CoachStep) : Bool := x.ready && x.got.isSome

/-- The key of occurrence counts within a tile. -/
def occKey (scope step : Nat) : Nat := scope * 16 + step

/-- A step of an xce at the head of its queue. A posted one leaves the queue when it starts; the one that closes a chain
stays until Coach has finished every step of its tile (R268). A peer beyond the extents of FABCFG raises RANGE after every check of
the instruction (R464). -/
def runCoach (kind : Nat) (o : CoachOp) : CmdRun := fun s n c =>
  if c.started then
    if c.cursor = 1 ∧ !s.coachBusy n then .finish s none else .go s c none
  else
    let recA := s.recordOf n o.sha c.recA c.started
    let recB := s.recordOf n o.shb c.recB c.started
    match s.failedBeat (scopeAddr o.scope.toNat + 0x88) 8 with
    | some b => let r := s.tileIntegrity n b; .trap r.1 r.2
    | none =>
      match s.coachStart kind o recA recB with
      | none => .trap s (illegalWord c.instr)
      | some x =>
        match s.sideTrap n x.src c.ja.toNat false (0, false) c.instr, s.sideTrap n x.dst c.jb.toNat true (0, false) c.instr with
        | some t, _ | none, some t => .trap s t
        | none, none =>
          if !s.names x.peer then .trap s ⟨causeRange, BitVec.ofNat 64 (x.peer * 2 ^ 48 + addrOf (1024 + n) 0), 0, 0⟩
          else if o.ch && decide (16 ≤ (s.coach.filter fun y => y.tile == n && y.chain && !y.committed).length) then
            .wait s c (.code n 0x40)
          else
            let t := s.tileAt n
            let key := occKey o.scope.toNat o.step.toNat
            let occ := c.occ.getD (lookup 0 t.occs key)
            let s1 := if c.occ.isSome then s else s.setTile n { t with occs := insertAt key (occ + 1) t.occs }
            let c1 := { c with recA := recA, recB := recB, occ := some occ, started := true, wait := none }
            let s2 := s1.handOver n c1 o x occ
            if o.ch then .finish s2 none else .go s2 c1 none

def execXceHalve (o : CoachOp) (s : State) : Out :=
  dtCommand .s (.xceHalve o) o.tok o.ja o.jb o.sha o.shb (runCoach 0 o) s

def execXceDbl (o : CoachOp) (s : State) : Out :=
  dtCommand .s (.xceDbl o) o.tok o.ja o.jb o.sha o.shb (runCoach 1 o) s

def execXceXchg (o : CoachOp) (s : State) : Out :=
  dtCommand .s (.xceXchg o) o.tok o.ja o.jb o.sha o.shb (runCoach 2 o) s

/-! ## The elements of a step (R267, R308) -/

/-- Elements that a step sends, by their numbers in the source: the half that the peer keeps, or all. -/
def CoachStep.gives (x : CoachStep) : Nat × Nat :=
  if x.terms.kind = 0 then (if x.lower then (x.terms.n / 2, x.terms.n) else (0, x.terms.n / 2)) else (0, x.terms.n)

/-- The half that this rank keeps. -/
def CoachStep.keeps (x : CoachStep) : Nat × Nat := if x.lower then (0, x.terms.n / 2) else (x.terms.n / 2, x.terms.n)

/-- Elements of one data flit of 64 bytes (R307). -/
def CoachStep.perFlit (x : CoachStep) : Nat := 512 / x.terms.sty.width

/-- Data flits of a step. -/
def CoachStep.flits (x : CoachStep) : Nat := ((x.gives.2 - x.gives.1) + x.perFlit - 1) / x.perFlit

/-- A bf16 or fp32 code as an fp32 code. -/
def asFp32 (t : ElTy) (v : Nat) : Nat := if t = .fp32 then v else v * 2 ^ 16

/-- F of R267: op 0 sum, 1 max, 2 min; a comes from the lower rank. -/
def halveElem (op : BitVec 2) (sty dty : ElTy) (a b : Nat) : Nat × Flags :=
  let x := asFp32 sty a
  let y := asFp32 sty b
  if op = 0 then addFp dty .rne (decodeFp .fp32 x) (decodeFp .fp32 y)
  else
    let m := minMaxFp .fp32 (op == 2) x y
    if dty = .fp32 then m
    else
      let r := roundNum dty .rne (decodeFp .fp32 m.1)
      (r.1, m.2 ||| r.2)

/-- Destination element i, with its flags. -/
def CoachStep.result (x : CoachStep) (own : List Nat) (i : Nat) : Nat × Flags :=
  match x.terms.kind.toNat with
  | 0 =>
    let mine := own.getD (x.keeps.1 + i) 0
    let peer := x.recv.getD i 0
    if x.lower then halveElem x.terms.op x.terms.sty x.terms.dty mine peer
    else halveElem x.terms.op x.terms.sty x.terms.dty peer mine
  | 1 =>
    let first := if x.lower then own else x.recv
    let second := if x.lower then x.recv else own
    (if i < x.terms.n then first.getD i 0 else second.getD (i - x.terms.n) 0, 0)
  | _ => (x.recv.getD i 0, 0)

/-! ## The phases (R307) -/

/-- The end of a move of a step, by the phases of its command. -/
def State.endCoach (s : State) (x : CoachStep) (e : UnitEnd) : State :=
  match e with
  | .go s1 c _ => s1.setStep { x with cmd := { c with wait := none } }
  | .finish s1 _ => s1
  | .wait s1 c w => s1.setStep { x with cmd := { c with wait := some (s.dtWait x.tile c.wait w) } }
  | .trap s1 t => s1.coachFail x t

/-- A flit of a step to the peer's Coach, in pair order (R286, R287). -/
def State.sendCoach (s : State) (x : CoachStep) (body : Payload) : State :=
  s.sendPacket x.peer (some (1024 + x.tile, 1024 + x.tile)) body

/-- A step may start: the steps of its tile before it have finished, it has not failed, and Coach has a place (R268,
R306). -/
def State.coachMayStart (s : State) (x : CoachStep) : Bool :=
  !x.failed && !s.paused ((s.tileAt x.tile).launch) && decide ((s.coach.filter (·.ready)).length < 64) &&
    ((s.coach.find? (·.tile == x.tile)).map fun y => y.cmd.id == x.cmd.id) == some true

/-- What a step said or heard does not suit: both ranks have the same kind, op, types and count (R267). -/
def State.coachMatch (s : State) (x : CoachStep) : State :=
  match x.got with
  | some t => if t = x.terms then s else s.coachFail x (illegalWord x.cmd.instr)
  | none => s

/-- The rendezvous of a step: its ready flit goes out, and a ready flit of its peer that waits is taken. -/
def State.coachBegin (s : State) (x : CoachStep) : State :=
  let same (r : Nat × Nat × Nat × Nat × Nat × CoachTerms) : Bool :=
    r.1 == x.tile && r.2.1 == x.scope && r.2.2.1 == x.step && r.2.2.2.1 == x.occ && r.2.2.2.2.1 == x.peer
  let got := (s.readies.find? same).map fun r => r.2.2.2.2.2
  let x1 := { x with ready := true, got := got, deadline := s.dtLimit x.tile }
  let s1 := { s with readies := s.readies.filter fun r => !same r }
  ((s1.setStep x1).sendCoach x1 (.coachReady x.tile x.scope x.step x.occ s.dev x.terms.kind x.terms.op x.terms.sty x.terms.dty
    x.terms.n)).coachMatch x1

/-- The side of a step's record. -/
def CoachStep.side (x : CoachStep) (own : Nat) (source : Bool) : Option Side :=
  (parseShape (if source then x.cmd.recA else x.cmd.recB)).map fun r =>
    r.side own x.tile (if source then x.cmd.ja.toNat else x.cmd.jb.toNat) 0

/-- The next move of a committed step: its source is read, its flits go out, its destination elements are written as
they can be, and its source granules are emptied. -/
def State.coachMove (s : State) (x : CoachStep) (o : CoachOp) : State :=
  match x.side s.dev true, x.side s.dev false, x.own with
  | some src, some _, none =>
    match s.readPhase x.tile .s x.cmd src 0 src.count o.rq with
    | .rest e => s.endCoach x e
    | .done s1 c vals => s1.setStep { x with cmd := { c with buf := [], wait := none }, own := some vals, deadline := s.dtLimit x.tile }
  | some src, some dst, some own =>
    if x.sent < x.flits then
      let lo := x.gives.1 + x.sent * x.perFlit
      let elems := (own.drop lo).take (min x.perFlit (x.gives.2 - lo))
      (s.setStep { x with sent := x.sent + 1 }).sendCoach x
        (.coachData x.tile x.scope x.step x.occ s.dev (x.sent * x.perFlit) elems)
    else if x.recv.length < x.gives.2 - x.gives.1 then s
    else if x.written < dst.count then
      let per := 512 / dst.ty.width
      let hi := min dst.count (x.written + per)
      let units := (dst.count + per - 1) / per
      let els := (List.range (hi - x.written)).map (x.written + ·)
      let res := els.map (x.result own)
      let ws := els.zip (res.map (·.1))
      let next (s : State) (c : DtCmd) : State :=
        s.setStep { x with cmd := { c with sent := false, checked := 0, wait := none }, written := hi }
      if x.cmd.sent then
        match x.cmd.reqs, s.dtReply x.cmd with
        | _ :: _, none => s
        | _, some r => let d := s.dropReply x.cmd r; d.1.setStep { x with cmd := d.2 }
        | [], none => next s x.cmd
      else match s.checkWrites x.tile .s x.cmd dst ws o.wq 0 with
        | .rest e => s.endCoach x e
        | .done s1 c1 _ =>
          let r := s1.doWrites x.tile .s c1 dst ws (dst.lastIn { c1 with desc := false } per units)
          let s2 := r.1.tileFlags x.tile (unionFlags (res.map (·.2)))
          if r.2.reqs.isEmpty then next s2 r.2 else s2.setStep { x with cmd := { r.2 with sent := true, wait := none } }
    else if o.rq = 2 ∧ !x.cmd.clearing then
      let r := s.doClears x.tile .s x.cmd src (src.parts (List.range src.count))
      r.1.setStep { x with cmd := { r.2 with clearing := true } }
    else
      match s.dtReply x.cmd with
      | some r => let d := s.dropReply x.cmd r; d.1.setStep { x with cmd := d.2 }
      | none => s
  | _, _, _ => s

/-- Coach goes on with the step of command j of some tile. -/
def State.coachStep (s : State) (j : Nat) : State :=
  match s.coach.find? (·.cmd.id == j) with
  | none => s
  | some x =>
    match coachOp x.cmd.instr with
    | none => s
    | some (_, o) =>
      if !x.ready then (if s.coachMayStart x then s.coachBegin x else s)
      else if x.committed then s.coachMove x o
      else s

/-! ## Arrivals (R306, R307) -/

/-- The step that a flit of a key is for. -/
def State.keyed (s : State) (tile scope step occ dev : Nat) : Option CoachStep :=
  s.coach.find? fun x => x.tile == tile && x.scope == scope && x.step == step && x.occ == occ && x.peer == dev

/-- Entry n of the flits that have come from other devices, if none of the same sender and tile is before it. -/
def State.inboxAt (s : State) (n : Nat) (same : Payload → Bool) : Option Payload :=
  if (s.inbox.take n).any same then none else s.inbox[n]?

def State.dropInbox (s : State) (n : Nat) : State := { s with inbox := s.inbox.eraseIdx n }

/-- Whether a flit of Coach is for a tile and from a device. -/
def isCoachFlit (tile dev : Nat) : Payload → Bool
  | .coachReady t _ _ _ d .. => t == tile && d == dev
  | .coachData t _ _ _ d .. => t == tile && d == dev
  | .coachAck t _ _ _ d => t == tile && d == dev
  | _ => false

/-- A ready flit arrives: its step takes it, or it waits for its step (R307). -/
def execCoachReadyFlit (n : Nat) (s : State) : Out :=
  match s.inbox[n]? with
  | some (.coachReady tile scope step occ dev kind op sty dty cnt) =>
    if (s.inboxAt n (isCoachFlit tile dev)).isNone then .next s
    else
      let s1 := s.dropInbox n
      let terms : CoachTerms := ⟨kind, op, sty, dty, cnt⟩
      match s1.keyed tile scope step occ dev with
      | some x =>
        if x.ready then
          let x1 := { x with got := some terms, deadline := none }
          .next ((s1.setStep x1).coachMatch x1)
        else .next { s1 with readies := s1.readies ++ [(tile, scope, step, occ, dev, terms)] }
      | none => .next { s1 with readies := s1.readies ++ [(tile, scope, step, occ, dev, terms)] }
  | _ => .next s

/-- A data flit arrives and is acknowledged, or an acknowledgement arrives (R307). -/
def execCoachDataFlit (n : Nat) (s : State) : Out :=
  match s.inbox[n]? with
  | some (.coachData tile scope step occ dev first elems) =>
    if (s.inboxAt n (isCoachFlit tile dev)).isNone then .next s
    else
      let s1 := s.dropInbox n
      match s1.keyed tile scope step occ dev with
      | some x =>
        if x.committed && x.recv.length == first then
          let x1 := { x with recv := x.recv ++ elems, deadline := s.dtLimit x.tile }
          .next ((s1.setStep x1).sendCoach x1 (.coachAck tile scope step occ s.dev))
        else .next s1
      | none => .next s1
  | some (.coachAck tile scope step occ dev) =>
    if (s.inboxAt n (isCoachFlit tile dev)).isNone then .next s
    else
      let s1 := s.dropInbox n
      match s1.keyed tile scope step occ dev with
      | some x => .next (s1.setStep { x with acked := x.acked + 1, deadline := s.dtLimit x.tile })
      | none => .next s1
  | _ => .next s

/-- Whether nothing is left of a step: its writes are full, its flits acknowledged, its source granules emptied. -/
def CoachStep.over (x : CoachStep) : Bool :=
  match coachOp x.cmd.instr, x.side 0 false with
  | some (_, o), some dst =>
    x.committed && x.own.isSome && x.sent == x.flits && x.acked == x.flits && x.written == dst.count &&
      (o.rq != 2 || x.cmd.clearing) && x.cmd.reqs.isEmpty
  | _, _ => false

/-- A step finishes; the command that closes the chain has its cursor at 1 (R268, R307). -/
def execCoachStepFinish (n : Nat) (s : State) : Out :=
  match s.coach.find? (·.cmd.id == n) with
  | none => .next s
  | some x =>
    if x.over then
      let s1 := { s with coach := s.coach.filter fun y => !(y.cmd.id == n && y.tile == x.tile) }
      let q := s1.strm x.tile .s
      .next (s1.setStrm x.tile .s { q with queue := q.queue.map fun (c : DtCmd) => if c.id = n then { c with cursor := 1 } else c })
    else .next s

end Sys2Proof.Machine
end

