-- ==== Sys2Proof/Machine/Scale.lean ====
section
/-! DEFINITION. Block scales: bscale (R261), and the distribution of scale images within a group (R262, R263). -/

namespace Sys2Proof.Machine

/-! ## bscale (R261) -/

/-- A value times 2^k. -/
def Num.scaled (k : Int) : Num → Num
  | .fin neg m e => .fin neg m (e + k)
  | x => x

/-- Whether a × 2^e ≤ b × 2^f. -/
def leDyadic (a : Nat) (e : Int) (b : Nat) (f : Int) : Bool := decide ((addDyadic ((a : Int), e) (-(b : Int), f)).1 ≤ 0)

/-- The largest magnitude among the finite values, as a multiple of a power of two. -/
def largest (xs : List Num) : Nat × Int :=
  xs.foldl (fun a x => match x with
    | .fin _ m e => if leDyadic m e a.1 a.2 then a else (m, e)
    | _ => a) (0, 0)

/-- Emax of a narrow type (R261). -/
def emaxOf : ElTy → Int
  | .e2m1 => 2
  | .e4m3 => 8
  | _ => 15

/-- The scale byte of a block. -/
def blockScale (d : ElTy) (fit : Bool) (xs : List Num) : Nat :=
  if xs.any Num.isNan then 0xFF
  else
    let M := largest xs
    if M.1 = 0 then 127
    else
      let e0 := ((Nat.log2 M.1 : Nat) : Int) + M.2 - emaxOf d + 127
      let top := magnitude d d.maxBits
      let e := if fit && !leDyadic M.1 (M.2 + 127 - e0) top.1 top.2 then e0 + 1 else e0
      (min (max e 0) 254).toNat

/-- The elements of a block under its scale. Under the scale 0xFF every element is code 0, and a NaN sets what its row of R44
says. -/
def scaleBlock (src d : ElTy) (mode : Mode) (sat fit : Bool) (vals : List Nat) : Nat × List Converted :=
  let xs := vals.map (decodeEl src)
  let e := blockScale d fit xs
  (e, if e = 0xFF then xs.map fun x => if x.isNan then { convertNarrow d mode sat x with bits := 0 } else ⟨0, 0, none⟩
      else xs.map fun x => convertNarrow d mode sat (x.scaled (127 - (e : Int))))

/-- The blocks of a list of values. -/
def blocksOf : Nat → List Nat → List (List Nat)
  | 0, _ => []
  | fuel + 1, l => if l.isEmpty then [] else l.take 32 :: blocksOf fuel (l.drop 32)

/-- The scale bytes of a bscale, as a side of its tile. -/
def scaleSide (n : Nat) (srow : BitVec 13) (blocks : Nat) : Side :=
  ⟨.tile n, 512 * srow.toNat, .n8, [blocks, 1, 1, 1], [1, 0, 0, 0], blocks⟩

/-- A bscale writes through two sides; its unit order serves both (R105, R232). -/
def State.scaleOrder (s : State) (n : Nat) (x y z : Side) : Option Bool :=
  let per := y.perUnit
  let free (desc : Bool) : Bool := s.orderFree n x y per per desc && s.orderFree n x z per (per / 32) desc
  if free false then some false else if free true then some true else none

/-- A step of a bscale: one unit is 512 destination bytes and their scale bytes. -/
def State.scaleUnit (s : State) (n : Nat) (c : DtCmd) (o : ScaleOp) (x y z : Side) : UnitEnd :=
  let units := y.units
  let per := y.perUnit
  let lo := c.unitAt units c.cursor * per
  let hi := min y.count (lo + per)
  match s.readPhase n .c c x lo hi o.rq with
  | .rest e => e
  | .done s1 c1 vals =>
    let fcsr := (s1.tileAt n).fcsr
    let sat := saturates y.ty o.sat fcsr
    let blocks := (blocksOf vals.length vals).map (scaleBlock x.ty y.ty (tileMode fcsr o.rm) sat o.fit)
    let conv := blocks.flatMap (·.2)
    let ws := ((List.range (hi - lo)).map (lo + ·)).zip (conv.map (·.bits))
    let zs := ((List.range blocks.length).map (lo / 32 + ·)).zip (blocks.map (·.1))
    let cleared := x.lastParts c per units lo hi
    let fin (s : State) (c : DtCmd) : UnitEnd := s.endOfUnit n c x lo hi units (conv.map (·.count)) false
    if c.sent then s1.settleUnit n .c c1 x o.rq cleared fin
    else match s1.checkWrites n .c c1 y ws o.wq 0 with
    | .rest e => e
    | .done s2 c2 _ =>
      match s2.checkWrites n .c c2 z zs o.wq 0 with
      | .rest e => e
      | .done s3 c3 _ =>
        let r := s3.doWrites n .c c3 y ws (y.lastIn c per units)
        let q := r.1.doWrites n .c r.2 z zs (z.lastIn c (per / 32) units)
        (q.1.tileFlags n (unionFlags (conv.map (·.flags)))).settleUnit n .c { q.2 with sent := true } x o.rq cleared fin

def runScale (o : ScaleOp) : CmdRun := fun s n c =>
  let recA := s.recordOf n o.sha c.recA c.started
  let recB := s.recordOf n o.shb c.recB c.started
  match parseShape recA, parseShape recB with
  | some a, some b =>
    if !a.own || !b.own || !a.ty.isFloat || !(b.ty == .e2m1 || b.ty == .e4m3 || b.ty == .e5m2) || a.count != b.count ||
        a.count % 32 != 0 then .trap s (illegalWord c.instr)
    else
      let x := a.side s.dev n c.ja.toNat 0
      let y := b.side s.dev n c.jb.toNat 0
      let z := scaleSide n o.srow (a.count / 32)
      let c0 := { c with recA := recA, recB := recB }
      if c.started then s.scaleUnit n c0 o x y z
      else match s.sideTrap n a c.ja.toNat false (0, false) c.instr, s.sideTrap n b c.jb.toNat true (0, false) c.instr,
          z.outside n with
        | some t, _, _ | none, some t, _ | none, none, some t => .trap s t
        | none, none, none =>
          match s.scaleOrder n x y z with
          | none => .trap s (illegalWord c.instr)
          | some desc => s.scaleUnit n { c0 with started := true, desc := desc } o x y z
  | _, _ => .trap s (illegalWord c.instr)

def execBscale (o : ScaleOp) (s : State) : Out :=
  dtCommand .c (.bscale o) o.tok o.ja o.jb o.sha o.shb (runScale o) s

/-! ## skeep and srecv (R262, R263) -/

/-- The tiles that a skeep delivers to, in ascending order. -/
def keepTargets (n : Nat) (mask : BitVec 4) : List Nat := ((List.range 4).filter fun t => mask.getLsbD t).map (n / 4 * 4 + ·)

/-- The same elements under numbers from count on, so that two sides can share one buffer. -/
def Side.shifted (x : Side) : Side :=
  { x with base := x.base - (x.sizes.getD 3 1 : Int) * x.strides.getD 3 0 * x.ty.width / 8 }

/-- Delivery of an image into a pending scale buffer, or into a scale register; failing beats stay so (R416). -/
def State.putImage (s : State) (a : Nat) (bytes : List Byte) (bad : List Nat) : State :=
  (s.writeBytes a bytes).recheck a bytes.length (bad.map fun b => a + 64 * b)

/-- A step of skeep: the unit is one target, for which both images are read; the last empties the source granules. -/
def State.keepUnit (s : State) (n : Nat) (c : DtCmd) (o : KeepOp) (x y : Side) : UnitEnd :=
  let targets := keepTargets n o.mask
  match targets[c.cursor]? with
  | none => .finish s none
  | some t =>
    match s.readPhase n .c c x 0 512 o.rq with
    | .rest e => e
    | .done s1 c1 ka =>
      match s1.readPhase n .c c1 y.shifted 512 1024 o.rq with
      | .rest e => e
      | .done s2 c2 kb =>
        let u := s2.tileAt t
        let last := decide (c.cursor + 1 = targets.length)
        let all (z : Side) : List (Nat × Int) := z.parts (List.range 512)
        if c.sent then s2.dtSettled c2 fun s _ => .finish s none
        else if u.pendFull.getLsbD o.n.toNat then .wait s2 c2 (.code t (0x42 + o.n.toNat))
        else
          let s3 := (s2.putImage (pendAddr t o.n.toNat) ((ka ++ kb).map (BitVec.ofNat 8)) []).setTile t
            { u with pendFull := u.pendFull ||| BitVec.twoPow 4 o.n.toNat }
          if !last then .go s3 { c2 with cursor := c.cursor + 1, buf := [] } none
          else if o.rq = 2 then
            let r := s3.doClears n .c c2 x (all x)
            let q := r.1.doClears n .c r.2 y (all y)
            .go q.1 { q.2 with sent := true } none
          else .finish s3 none

def runKeep (o : KeepOp) : CmdRun := fun s n c =>
  let recA := s.recordOf n o.sha c.recA c.started
  let recB := s.recordOf n o.shb c.recB c.started
  match parseShape recA, parseShape recB with
  | some a, some b =>
    if !a.own || !b.own || a.ty != .n8 || b.ty != .n8 || a.count != 512 || b.count != 512 then .trap s (illegalWord c.instr)
    else
      let c0 := { c with recA := recA, recB := recB }
      let x := a.side s.dev n c.ja.toNat 0
      let y := b.side s.dev n c.jb.toNat 0
      if c.started then s.keepUnit n c0 o x y
      else
        let inSet (t : Nat) : Bool := match s.tileLaunch n with
          | some (_, l) => l.hasDt t
          | none => t == n
        match (keepTargets n o.mask).find? fun t => !inSet t with
        | some t => .trap s ⟨causeRange, gaWord (tsAddr t 0), 0, 0⟩
        | none =>
          match s.sideTrap n a c.ja.toNat false (0, false) c.instr, s.sideTrap n b c.jb.toNat false (0, false) c.instr with
          | some t, _ | none, some t => .trap s t
          | none, none => s.keepUnit n { c0 with started := true } o x y
  | _, _ => .trap s (illegalWord c.instr)

/-- Only the keeper of a group, the lowest of its four tiles, runs skeep (R98). -/
def execSkeep (o : KeepOp) (s : State) : Out :=
  refuseWord .c (.skeep o) (fun s => s.tile % 4 != 0) (dtCommand .c (.skeep o) o.tok o.ja o.jb o.sha o.shb (runKeep o)) s

def runRecv (k : BitVec 2) : CmdRun := fun s n c =>
  let t := s.tileAt n
  if t.pendFull.getLsbD k.toNat then
    let from_ := pendAddr n k.toNat
    let bad := (List.range 16).filter fun b => s.failing.contains (from_ + 64 * b)
    let s1 := s.putImage (scaleAddr n k.toNat) (s.readBytes from_ 1024) bad
    .finish (s1.setTile n { t with pendFull := t.pendFull &&& ~~~BitVec.twoPow 4 k.toNat }) none
  else .wait s { c with started := true } (.code n (0x42 + k.toNat))

def execSrecv (n : BitVec 2) (tok : BitVec 4) (s : State) : Out :=
  dtCommand .c (.srecv n tok) tok 0 0 64 64 (runRecv n) s

end Sys2Proof.Machine
end

