-- ==== Sys2Proof/Machine/Control.lean ====
section
/-! DEFINITION. Stream control (R202, R206, R269 to R272): the S and C words that set registers, loop, halt and wait; and
the items of the loop slot (R235 to R238, R245, R246). -/

namespace Sys2Proof.Machine

/-! ## Words that finish when they issue (R206, R269, R272) -/

def execXnop (tok : BitVec 4) (s : State) : Out := dtControl .s tok (fun _ => none) id s
def execCnop (tok : BitVec 4) (s : State) : Out := dtControl .c tok (fun _ => none) id s

/-- A halt issues: its pushes wait for every earlier instruction, and then the stream is HALTED (R206). -/
def haltWord (st : Stream) (tok : BitVec 4) (s : State) : Out :=
  let n := s.tile
  let idx := (s.strm n st).pc
  .next (s.issueWord n st tok false none fun s =>
    let s1 := (s.notePush n st idx tok 0 none true).passWord n st idx (idx + 1)
    s1.setStrm n st { s1.strm n st with status := .halting })

def execXhalt (tok : BitVec 4) (s : State) : Out := haltWord .s tok s
def execChalt (tok : BitVec 4) (s : State) : Out := haltWord .c tok s

/-- j[ja] := j[jb] + v in a stream (R269). -/
def setIndex (st : Stream) (o : SetOp) (v : BitVec 32) (s : State) : State :=
  let x := s.strm s.tile st
  s.setStrm s.tile st (x.setJ o.ja (x.jr o.jb + v))

/-- The immediate of a set word, as it stands and shifted by 16. -/
def setLow (o : SetOp) : BitVec 32 := o.imm.zeroExtend 32
def setHigh (o : SetOp) : BitVec 32 := o.imm.zeroExtend 32 <<< 16

def execXset (o : SetOp) (s : State) : Out := dtControl .s o.tok (fun _ => none) (setIndex .s o (setLow o)) s
def execXsetHi (o : SetOp) (s : State) : Out := dtControl .s o.tok (fun _ => none) (setIndex .s o (setHigh o)) s
def execCset (o : SetOp) (s : State) : Out := dtControl .c o.tok (fun _ => none) (setIndex .c o (setLow o)) s
def execCsetHi (o : SetOp) (s : State) : Out := dtControl .c o.tok (fun _ => none) (setIndex .c o (setHigh o)) s

/-- The S stream writes an index register of the M stream (R202, R269). -/
def execXsetMj (o : SetOp) (s : State) : Out :=
  dtControl .s o.tok (fun _ => none) (fun s =>
    let m := s.strm s.tile .m
    s.setStrm s.tile .m (m.setJ o.ja ((s.strm s.tile .s).jr o.jb + setLow o))) s

/-- TCTL under a write (R207): a LWD of 31 where the launch forbids it, and an AQ of 11, leave their field unchanged. -/
def Tile.setTctl (t : Tile) (lwd : BitVec 5) (aq : BitVec 2) (bounded : Bool) : Tile :=
  { t with lwd := if lwd = 31 ∧ bounded then t.lwd else lwd, aq := if aq = 3 then t.aq else aq }

def execXsetTctl (imm : BitVec 16) (tok : BitVec 4) (s : State) : Out :=
  dtControl .s tok (fun _ => none) (fun s =>
    s.setTile s.tile ((s.tileAt s.tile).setTctl (imm.extractLsb' 8 5) (imm.extractLsb' 0 2) (s.tileBounded s.tile))) s

/-- The tile FCSR is written whole, but for flags that hardware sets in the same ck (R45, R46, R269). -/
def setTileFcsr (imm : BitVec 16) (s : State) : State :=
  let t := s.tileAt s.tile
  s.setTile s.tile { t with fcsr := writeFcsr t.fcsr (imm.extractLsb' 0 9) ||| (t.fcsr &&& s.flagsJustSet s.tile) }

/-- Whether an unfinished command of a stream reads or writes the tile FCSR (R204, R260, R261, R267). -/
def State.fcsrInUse (s : State) (n : Nat) (st : Stream) : Bool :=
  (st == .s && s.coachBusy n) || (s.strm n st).queue.any fun (c : DtCmd) => match c.instr with
    | .cvt _ | .bscale _ | .xceHalve _ | .xceDbl _ | .xceXchg _ => true
    | _ => false

/-- A write of the tile FCSR waits for the earlier commands of its stream that read it or write it (R204). -/
def fcsrControl (st : Stream) (imm : BitVec 16) (tok : BitVec 4) (s : State) : Out :=
  if s.fcsrInUse s.tile st then .next (s.streamWait s.tile st (.code s.tile 0x40)) else dtControl st tok (fun _ => none) (setTileFcsr imm) s

def execXsetFcsr (imm : BitVec 16) (tok : BitVec 4) (s : State) : Out := fcsrControl .s imm tok s
def execCsetFcsr (imm : BitVec 16) (tok : BitVec 4) (s : State) : Out := fcsrControl .c imm tok s

/-- RRB as the bundles of this ck see it (R245, R269). -/
def Tile.rrbAt (t : Tile) (ck : Nat) : BitVec 8 :=
  match t.rrbNext with
  | some (c, v) => if c < ck then v else t.rrb
  | none => t.rrb

def execXsetRrb (imm : BitVec 16) (tok : BitVec 4) (s : State) : Out :=
  dtControl .s tok (fun _ => none) (fun s =>
    let t := s.tileAt s.tile
    s.setTile s.tile { t with rrb := t.rrbAt s.ck, rrbNext := some (s.ck, imm.extractLsb' 0 8) }) s

/-- Records take 64-byte groups of the S instruction memory (R269). A group that fails its check traps (R272, R417). -/
def execXsetRload (n count : BitVec 7) (word : BitVec 16) (tok : BitVec 4) (s : State) : Out :=
  dtControl .s tok
    (fun s => (s.failedBeat (imemAddr s.tile .s word.toNat) (64 * count.toNat)).map fun b => ⟨causeIntegrity, gaWord b, 0, 0⟩)
    (fun s =>
      (List.range count.toNat).foldl (fun s i =>
        s.putImage (shapeAddr s.tile (n.toNat + i)) (s.readBytes (imemAddr s.tile .s (word.toNat + 8 * i)) 64) []) s) s

/-- Every queued command of the stream that has not started is discarded (R238, R270). -/
def dropQueued (st : Stream) (s : State) : State :=
  let x := s.strm s.tile st
  s.setStrm s.tile st { x with queue := x.queue.filter fun (c : DtCmd) => c.started || c.occ.isSome }

def execXwaitDrain (tok : BitVec 4) (s : State) : Out := dtControl .s tok (fun _ => none) (dropQueued .s) s
def execCsetDrain (tok : BitVec 4) (s : State) : Out := dtControl .c tok (fun _ => none) (dropQueued .c) s

/-! ## xset.rstage (R269) -/

def runRstage (l : BitVec 3) : CmdRun := fun s n c =>
  if (s.ep n l).dir ≠ .inbound then .trap s (illegalWord c.instr)
  else if (s.ep n l).avail < 64 then .wait s { c with started := true } (epCode n l)
  else match s.epFailed n l 0 64 with
    | some b => let r := s.tileIntegrity n b; .trap r.1 r.2
    | none => .finish ((s.putImage (shapeAddr n 64) (s.epBytes n l 0 64) []).consumeEp n l 64 true) none

def execXsetRstage (ep : BitVec 3) (tok : BitVec 4) (s : State) : Out :=
  dtCommand .s (.xsetRstage ep tok) tok 0 0 64 64 (runRstage ep) s

/-! ## xloop and cloop (R271) -/

/-- The end of a body. -/
def loopLast (o : DtLoopOp) (idx : Nat) : Nat := idx + 1 + o.len.toNat

/-- What makes a loop word ILLEGAL. -/
def DtStream.loopBad (x : DtStream) (o : DtLoopOp) : Bool :=
  decide (4096 < loopLast o x.pc) ||
    (x.jr o.ja != 0 && (decide (2 ≤ x.loops.length) ||
      match x.loops with
      | r :: _ => !(decide (r.start ≤ x.pc + 1) && decide (loopLast o x.pc ≤ r.last))
      | [] => false))

def loopWord (st : Stream) (i : Instr) (o : DtLoopOp) (s : State) : Out :=
  let n := s.tile
  let x := s.strm n st
  let idx := x.pc
  .next (s.issueWord n st o.tok false (if x.loopBad o then some (illegalWord i) else none) fun s =>
    let s1 := s.notePush n st idx o.tok 0 none false
    let y := s1.strm n st
    if y.jr o.ja = 0 then s1.passWord n st idx (loopLast o idx)
    else s1.setStrm n st { y with pc := idx + 1, loops := ⟨y.jr o.ja, idx + 1, loopLast o idx, o.jb, o.step⟩ :: y.loops })

def execXloop (o : DtLoopOp) (s : State) : Out := loopWord .s (.xloop o) o s
def execCloop (o : DtLoopOp) (s : State) : Out := loopWord .c (.cloop o) o s

/-! ## xwait and xwait.bar (R204, R270, R300) -/

/-- What a word or bundle that holds its stream keeps. -/
def State.newHeld (s : State) (n : Nat) (st : Stream) (i : Instr) (jn : BitVec 32) (tok : BitVec 4) : DtHeld :=
  { idx := (s.strm n st).pc, instr := i, rrb := (s.tileAt n).rrbAt s.ck, jn := jn, reqs := [], born := s.nextId, tok := tok,
    two := 0, cmd := none, all := false }

/-- A held instruction finishes: the stream goes on, and its pushes come in their turn. -/
def State.endHeld (s : State) (n : Nat) (st : Stream) (h : DtHeld) : State :=
  let x := s.strm n st
  let status := if x.status = .wait then .run else x.status
  (s.setStrm n st { x with held := none, wait := none, status := status }).notePush n st h.idx h.tok h.two h.cmd h.all

/-- A held instruction waits. A wait with no limit of its own has no name. -/
def State.keepHeld (s : State) (n : Nat) (st : Stream) (h : DtHeld) (what : Option DtWhat) : State :=
  let x := s.strm n st
  let status := if x.status = .run then .wait else x.status
  s.setStrm n st { x with held := some h, status := status, wait := what.map fun w => s.dtWait n x.wait w }

/-- The instruction that a stream holds. -/
def State.heldBy (s : State) (n : Nat) (st : Stream) (i : Instr) : Option DtHeld :=
  match (s.strm n st).held with
  | some h => if h.instr = i then some h else none
  | none => none

def State.stepXwait (s : State) (n : Nat) (h : DtHeld) : State :=
  if s.streamDrained n .s then (s.endHeld n .s h).passWord n .s h.idx (h.idx + 1) else s.keepHeld n .s h (some (.code n 0x40))

def execXwait (tok : BitVec 4) (s : State) : Out :=
  let n := s.tile
  match s.heldBy n .s (.xwait tok) with
  | some h => .next (s.stepXwait n h)
  | none => .next (s.issueWord n .s tok false none fun s => s.stepXwait n (s.newHeld n .s (.xwait tok) 0 tok))

/-- The record of an xwait.bar: kind 2, n64, one element (R270). -/
def State.barRecord (s : State) (n : Nat) (sha : BitVec 7) : Option ShapeRec :=
  match parseShape (s.readBytes (shapeAddr n sha.toNat) 64) with
  | some r => if r.kind = 2 ∧ r.ty = .n64 ∧ r.count = 1 then some r else none
  | none => none

/-- Whether an earlier command of the S stream has still to write any of the word of a barrier record, in SHM (R204). The capability of
a record of kind 6 that its command has not read yet is the one that stands in memory. -/
def State.barPending (s : State) (n : Nat) (bar : ShapeRec) : Bool :=
  let word := s.bytePlace n (bar.side s.dev n 0 0) bar.addr.toNat
  let meets (c : DtCmd) (o : CopyOp) : Bool :=
    match parseShape (s.recordOf n o.shb c.recB c.started) with
    | none => false
    | some b =>
      let at_ := s.bytePlace n ⟨.virt false, b.addr.toNat, .n8, [1, 1, 1, 1], [1, 0, 0, 0], 1⟩ b.addr.toNat
      let cap := if b.kind = 6 then (c.capB.getD (BitVec.ofNat 128 (s.readNat at_.2 16), false)).1 else 0
      let y := b.side s.dev n (c.jb.toNat * 2 ^ o.sb.toNat) cap
      (b.kind == 2 || b.kind == 6) && (s.runs n y).any (clash [(word.1, word.2, 8)])
  (s.strm n .s).queue.any fun (c : DtCmd) => match c.instr with
    | .xst o | .xcp o | .xrest o => meets c o
    | _ => false

/-- The wait at the word of a barrier, whose target is jn. It begins when no earlier command has still to write the word (R204). -/
def State.stepXwaitBar (s : State) (n : Nat) (h : DtHeld) (sha : BitVec 7) : State :=
  match h.reqs, s.replies.find? fun r => h.reqs.contains r.req.id with
  | _ :: _, none => s.keepHeld n .s h none
  | _, some r =>
    let s1 := { s with replies := s.replies.filter fun x => x.req.id != r.req.id }
    match s1.replyTrap n r with
    | some (s2, t) => s2.tileTrap n .s t
    | none => (s1.endHeld n .s h).passWord n .s h.idx (h.idx + 1)
  | [], none =>
    match s.barRecord n sha with
    | none => s.tileTrap n .s (illegalWord h.instr)
    | some r =>
      if s.barPending n r then s.keepHeld n .s h (some (.code n 0x40))
      else match s.spot n .s (r.side s.dev n 0 0) r.addr.toNat ⟨true, false, false⟩ with
      | .trap t => s.tileTrap n .s t
      | .miss va =>
        match s.takeFault (.tile n .s) va with
        | some (s1, t) => s1.tileTrap n .s t
        | none => (s.tileMiss n .s va).keepHeld n .s h none
      | .at dev a =>
        let id := s.nextId
        (s.fresh.sendRequest dev ⟨id, .tile n .s, .barrier h.jn, a, .none, false, s.dtLimit n⟩).keepHeld n .s
          { h with reqs := [id] } none

/-- Whether an earlier command has still to write the staged record (R204, R269). -/
def State.stagePending (s : State) (n : Nat) : Bool :=
  (s.strm n .s).queue.any fun (c : DtCmd) => match c.instr with
    | .xsetRstage _ _ => true
    | _ => false

def execXwaitBar (sha : BitVec 7) (ja : BitVec 4) (imm : BitVec 16) (tok : BitVec 4) (s : State) : Out :=
  let n := s.tile
  let i := Instr.xwaitBar sha ja imm tok
  match s.heldBy n .s i with
  | some h => .next (s.stepXwaitBar n h sha)
  | none =>
    if sha = 64 && s.stagePending n then .next (s.streamWait n .s (.code n 0x40))
    else
    let check := match s.failedBeat (shapeAddr n sha.toNat) 64, s.barRecord n sha with
      | some b, _ => some ⟨causeIntegrity, gaWord b, 0, 0⟩
      | none, none => some (illegalWord i)
      | none, some r => r.misaligned n
    .next (s.issueWord n .s tok false check fun s =>
      s.stepXwaitBar n (s.newHeld n .s i ((s.strm n .s).jr ja + imm.zeroExtend 32) tok) sha)

/-! ## The loop slot (R235 to R238, R246) -/

/-- The loop slot of the bundle at an index. -/
def State.loopSlotAt (s : State) (n idx : Nat) : Option Instr :=
  (decodeLoop (BitVec.ofNat 16 (s.readNat (imemAddr n .m idx + 14) 2))).toOption

/-- The END of a loop: the first bundle from idx on that closes it, depth counting the loops opened since (R236). -/
def State.matchingEnd (s : State) (n : Nat) : Nat → Nat → Nat → Option Nat
  | 0, _, _ => none
  | fuel + 1, idx, depth =>
    if 4096 ≤ idx then none
    else match s.loopSlotAt n idx with
      | some (.mLoop _) => State.matchingEnd s n fuel (idx + 1) (depth + 1)
      | some .endl | some (.lrot _) => if depth = 0 then some idx else State.matchingEnd s n fuel (idx + 1) (depth - 1)
      | _ => State.matchingEnd s n fuel (idx + 1) depth

/-- Whether a loop item is ILLEGAL at its bundle. -/
def State.loopItemBad (s : State) (n : Nat) (i : Instr) : Bool :=
  let x := s.strm n .m
  match i with
  | .mLoop j =>
    match s.matchingEnd n 4096 (x.pc + 1) 0 with
    | none => true
    | some _ => x.jr j != 0 && decide (4 ≤ x.loops.length)
  | .endl | .lrot _ => x.loops.isEmpty
  | _ => false

/-- A loop item takes effect unless it is ILLEGAL. -/
def loopItem (i : Instr) (f : DtStream → DtStream) (s : State) : Out :=
  let n := s.tile
  if s.loopItemBad n i then .next (s.tileTrap n .m (s.illegalBundle n (s.strm n .m).pc))
  else .next (s.setStrm n .m (f (s.strm n .m)))

/-- One pass of the innermost loop ends (R237). -/
def DtStream.endPass (x : DtStream) : DtStream :=
  match x.loops with
  | [] => x
  | r :: rest =>
    if r.count - 1 = 0 then { x with pc := r.last + 1, loops := rest }
    else { x with pc := r.start, loops := { r with count := r.count - 1 } :: rest }

def execMNop (s : State) : Out := loopItem .mNop (fun x => { x with pc := x.pc + 1 }) s

def execMLoop (j : BitVec 4) (s : State) : Out :=
  loopItem (.mLoop j) (fun x =>
    match s.matchingEnd s.tile 4096 (x.pc + 1) 0 with
    | none => x
    | some last =>
      if x.jr j = 0 then { x with pc := last + 1 }
      else { x with pc := x.pc + 1, loops := ⟨x.jr j, x.pc + 1, last, 0, 0⟩ :: x.loops }) s

def execEndl (s : State) : Out := loopItem .endl DtStream.endPass s

/-- The rotation and the end of the pass are one act (R246). -/
def execLrot (r1 : BitVec 4) (s : State) : Out :=
  if s.loopItemBad s.tile (.lrot r1) then loopItem (.lrot r1) id s
  else
    let t := s.tileAt s.tile
    let late := match t.rrbNext with
      | some (c, v) => if c < s.ck then none else some (c, v)
      | none => none
    let s1 := s.setTile s.tile { t with rrb := t.rrbAt s.ck + (r1.zeroExtend 8 + 1), rrbNext := late }
    loopItem (.lrot r1) DtStream.endPass s1

/-- The levels that a jump keeps (R238). -/
def keptLoops (t : Nat) : List DtLoop → List DtLoop
  | [] => []
  | r :: rest => if r.start ≤ t ∧ t ≤ r.last then r :: rest else keptLoops t rest

def execJmp (t : BitVec 12) (s : State) : Out :=
  loopItem (.jmp t) (fun x => { x with pc := t.toNat, loops := keptLoops t.toNat x.loops }) s

def execHalt (s : State) : Out := loopItem .halt (fun x => { x with pc := x.pc + 1, status := .halting }) s

end Sys2Proof.Machine
end

