-- ==== Sys2Proof/Machine/Matrix.lean ====
section
/-! DEFINITION. The matrix unit (R52, R53, R223 to R230): mma, mmas, mzero and mdrain. -/

namespace Sys2Proof.Machine

/-- The physical register of a vector register's name under a turn of the rotating window (R245). -/
def physReg (rrb : BitVec 8) (name : Nat) : Nat :=
  if name < 384 then name else 384 + (name - 384 + 256 - rrb.toNat) % 256

/-- n bytes of a store become zero, with good check values. -/
def State.zeroRange (s : State) (a n : Nat) : State :=
  { s with mem := s.mem.filter fun c => !decide (a ≤ c.1 ∧ c.1 < a + n),
           failing := s.failing.filter fun b => !decide (a ≤ b ∧ b < a + n) }

/-! ## mma and mmas (R226, R227) -/

/-- The elements that n bytes hold. -/
def elemsOf (ty : ElTy) (n : Nat) (v : Nat) : List Nat := lanes ty.width n v

/-- The factor of a block of mmas: two e8 scales, or none of its own (R37, R227). -/
structure BlockScale where
  ka : Nat
  kb : Nat
deriving DecidableEq, Repr

/-- The product of two elements under their block's scales. -/
def scaledProduct (f : Option BlockScale) (a b : Num) : Num × Flags :=
  match f with
  | none => mulNum a b
  | some k =>
    let p := mulNum (if k.ka = 0xFF then .nan false else a) (if k.kb = 0xFF then .nan false else b)
    (p.1.scaled ((k.ka : Int) - 127 + ((k.kb : Int) - 127)), p.2)

/-- One chunk: its products summed exactly and rounded once, and the accumulator updated (R52, R53). -/
def chunkStep (acc : Nat × Flags) (products : List (Num × Flags)) : Nat × Flags :=
  let S := sumRound .fp32 .rne (products.map (·.1))
  let C := addFp .fp32 .rne (decodeFp .fp32 acc.1) (decodeFp .fp32 S.1)
  (C.1, acc.2 ||| unionFlags (products.map (·.2)) ||| S.2 ||| C.2)

/-- The chunks of 16 of a list. -/
def chunksOf : Nat → List (Num × Flags) → List (List (Num × Flags))
  | 0, _ => []
  | fuel + 1, l => if l.isEmpty then [] else l.take 16 :: chunksOf fuel (l.drop 16)

/-- One accumulator element after the K products of its row and column (R52). -/
def accumulateElem (c0 : Nat) (products : List (Num × Flags)) : Nat × Flags :=
  (chunksOf products.length products).foldl chunkStep (c0, 0)

/-- K as a number. -/
def mmaK (o : MmaOp) : Nat := o.k1.toNat + 1

/-- Bytes of a row of the row stream (R223). -/
def rowBytesOf (ty : ElTy) (k : Nat) : Nat := 64 * ((k * ty.width + 511) / 512)

/-- Bytes of a B column. -/
def columnBytes (o : MmaOp) : Nat := (mmaK o * o.ty.width + 7) / 8

/-- The first failing beat among what a row of an mma reads beside A: the B slices, the plane's row, and the scales. -/
def State.mmaFails (s : State) (n row : Nat) (o : MmaOp) (scaled : Bool) : Option Nat :=
  match (List.range 128).findSome? fun col => s.failedBeat (bsramAddr n col (128 * o.off.toNat)) (columnBytes o) with
  | some b => some b
  | none =>
    match if o.clr then none else s.failedBeat (accAddr n o.plane.toNat row) 512 with
    | some b => some b
    | none => if scaled then s.failedBeat (scaleAddr n o.kn.toNat) 1024 else none

/-- The scales of k-block blk for row i and column col (R225). -/
def State.scalesAt (s : State) (n i col blk : Nat) (o : MmaOp) : BlockScale :=
  ⟨(s.readByte (scaleAddr n o.kn.toNat + 4 * i + blk)).toNat, (s.readByte (scaleAddr n o.kn.toNat + 512 + 4 * col + blk)).toNat⟩

/-- The row of the plane that an A row gives: 128 elements and their flags (R227). -/
def State.mmaRow (s : State) (n i : Nat) (o : MmaOp) (scaled : Bool) (a : List Nat) : List (Nat × Flags) :=
  let as := a.map (decodeEl o.ty)
  (List.range 128).map fun col =>
    let bs := (elemsOf o.ty (mmaK o) (s.readNat (bsramAddr n col (128 * o.off.toNat)) (columnBytes o))).map (decodeEl o.ty)
    let c0 := if o.clr then 0 else s.readNat (accAddr n o.plane.toNat i + 4 * col) 4
    accumulateElem c0 (((List.range (mmaK o)).zip (as.zip bs)).map fun x =>
      scaledProduct (if scaled then some (s.scalesAt n i col (x.1 / 32) o) else none) x.2.1 x.2.2)

/-- A row of a plane is written. -/
def State.putPlaneRow (s : State) (n : Nat) (plane : Bool) (i : Nat) (row : List Nat) : State :=
  let a := accAddr n plane.toNat i
  (s.writeBytes a (natToBytes 512 (joinLanes 32 row))).recheck a 512 []

/-- A row of the A operand in the tile store, as a side. -/
def rowSide (n : Nat) (ty : ElTy) (row k : Nat) : Side := ⟨.tile n, 512 * (row % 8192), ty, [k, 1, 1, 1], [1, 0, 0, 0], k⟩

/-- A step of mma or mmas: the unit is one A row, whose granules it empties at its end under the clear qualifier (R215, R227). -/
def runMma (o : MmaOp) (scaled : Bool) : CmdRun := fun s n c =>
  let i := c.cursor
  let k := mmaK o
  let aq := (s.tileAt n).aq
  let phase := match o.a with
    | .ts row => s.readPhase n .m c (rowSide n o.ty (row.toNat + i) k) 0 k aq
    | .ep l =>
      let rl := rowBytesOf o.ty k
      if (s.ep n l).avail < rl then .rest (.wait s c (epCode n l))
      else match s.epFailed n l 0 rl with
        | some b => let r := s.tileIntegrity n b; .rest (.trap r.1 r.2)
        | none => .done s c (elemsOf o.ty k (bytesToNat (s.epBytes n l 0 ((k * o.ty.width + 7) / 8))))
  let next (s : State) (c : DtCmd) : UnitEnd :=
    if i = 127 then .finish s none else .go s { c with started := true, cursor := i + 1, buf := [], sent := false } none
  if c.sent then s.dtSettled c next
  else match phase with
  | .rest (.go s1 c1 t) => .go s1 { c1 with started := true } t
  | .rest (.wait s1 c1 w) => .wait s1 { c1 with started := true } w
  | .rest e => e
  | .done s1 c1 a =>
    match s1.mmaFails n i o scaled with
    | some b => let r := s1.tileIntegrity n b; .trap r.1 r.2
    | none =>
      let out := s1.mmaRow n i o scaled a
      let s2 := (s1.putPlaneRow n o.plane i (out.map (·.1))).tileFlags n (unionFlags (out.map (·.2)))
      match o.a with
      | .ts r =>
        if aq = 2 then
          let x := rowSide n o.ty (r.toNat + i) k
          let q := s2.doClears n .m c1 x (x.parts (List.range k))
          .go q.1 { q.2 with started := true, sent := true } none
        else next s2 c1
      | .ep l => next (s2.consumeEp n l (rowBytesOf o.ty k) (i == 127)) c1

/-- Whether an A endpoint is not bound inbound (R226). -/
def aUnbound (o : MmaOp) (s : State) : Bool :=
  match o.a with
  | .ep l => (s.ep s.tile l).dir != .inbound
  | .ts _ => false

def execMma (o : MmaOp) (s : State) : Out := dtMatrix (.mma o) (aUnbound o) (fun _ => []) (runMma o false) s
def execMmas (o : MmaOp) (s : State) : Out := dtMatrix (.mmas o) (aUnbound o) (fun _ => []) (runMma o true) s

/-- mzero clears a plane as a whole (R228). -/
def execMzero (plane : Bool) (s : State) : Out :=
  dtMatrix (.mzero plane) (fun _ => false) (fun _ => [])
    (fun s n _ => .finish (s.zeroRange (accAddr n plane.toNat 0) 0x10000) none) s

/-! ## mdrain (R229, R230) -/

/-- The physical registers of a vector-register target (R245). -/
def drainRegs (o : DrainOp) (rrb : BitVec 8) : List Nat :=
  match o.target with
  | .v base => (List.range (4 * o.ty.width)).map fun j => physReg rrb (base.toNat + j)
  | _ => []

/-- The plane row of a cursor: a band of 16 for vector registers (R230). -/
def drainRow (o : DrainOp) (c : DtCmd) : Nat :=
  match o.target with
  | .v _ => 16 * (c.ja.toNat % 8) + c.cursor
  | _ => c.cursor

def drainUnits (o : DrainOp) : Nat :=
  match o.target with
  | .v _ => 16
  | _ => 128

/-- 64-byte registers are written from bytes. -/
def State.putRegs (s : State) (n : Nat) (regs : List Nat) (bytes : List Byte) : State :=
  ((List.range regs.length).zip regs).foldl (fun s r =>
    (s.writeBytes (vregAddr n r.2) ((bytes.drop (64 * r.1)).take 64)).recheck (vregAddr n r.2) 64 []) s

/-- The address of row q of a tile-store target. -/
def drainAddr (n : Nat) (row : BitVec 13) (q : Nat) : Nat := tsAddr n (512 * ((row.toNat + q) % 8192))

/-- The granules that bytes at an address of the tile store fill are written, each by a request (R216, R273). -/
def State.askGranules (s : State) (n : Nat) (st : Stream) (c : DtCmd) (a : Nat) (bytes : List Byte) : State × DtCmd :=
  (List.range (bytes.length / 16)).foldl (fun (r : State × DtCmd) k =>
    r.1.dtAsk n st r.2 none (.write (List.replicate 16 0xFF) ((bytes.drop (16 * k)).take 16) true) (a + 16 * k) false) (s, c)

/-- A converted row goes to its target. -/
def State.putDrain (s : State) (n : Nat) (o : DrainOp) (c : DtCmd) (q : Nat) (bytes : List Byte) : State × DtCmd :=
  match o.target with
  | .ts row => s.askGranules n .m c (drainAddr n row q) bytes
  | .v _ =>
    let per := o.ty.width / 4
    (s.putRegs n ((c.phys.drop (per * c.cursor)).take per) bytes, c)
  | .ep l => (State.putEp n l bytes s, c)

/-- The counts of a unit, kept with its command until its writes have been made, and taken up again (R49). -/
def keepCounts (counts : List (Option Counter)) : List (Nat × Nat) :=
  [Counter.satn, .ftzn, .nann, .nfsn].zipIdx.map fun x => (x.2, tally counts x.1)

def keptCounts (buf : List (Nat × Nat)) : List (Option Counter) :=
  [Counter.satn, .ftzn, .nann, .nfsn].zipIdx.flatMap fun x => List.replicate (lookup 0 buf x.2) (some x.1)

/-- A step of mdrain: the unit is one plane row. Bytes that other commands have left in the last slot make it end with a slot that is
not full, which it sends (R221). -/
def runDrain (o : DrainOp) : CmdRun := fun s n c =>
  let q := drainRow o c
  let a := accAddr n o.plane.toNat q
  let room := match o.target with
    | .ep l => if (s.ep n l).canSend (((s.ep n l).fill + 16 * o.ty.width) / 512) then none else some (epCode n l)
    | .ts _ | .v _ => none
  let fin (s : State) (c : DtCmd) : UnitEnd :=
    let r := s.tileCount n (keptCounts c.buf)
    let padded := match o.target with
      | .ep l => (s.ep n l).fill != 0
      | _ => false
    if c.cursor + 1 = drainUnits o && !padded then .finish r.1 r.2
    else .go r.1 { c with started := true, cursor := c.cursor + 1, buf := [], sent := false } r.2
  if c.cursor = drainUnits o then
    match o.target with
    | .ep l => s.padEp n c l
    | _ => .finish s none
  else if c.sent then s.dtSettled c fin
  else match room, s.failedBeat a 512 with
    | some w, _ => .wait s { c with started := true } w
    | none, some b => let r := s.tileIntegrity n b; .trap r.1 r.2
    | none, none =>
      let fcsr := (s.tileAt n).fcsr
      let conv := (lanes 32 128 (s.readNat a 512)).map
        (convertEl .fp32 o.ty (tileMode fcsr o.rm) (saturates o.ty o.sat fcsr))
      let bytes := natToBytes (16 * o.ty.width) (joinLanes o.ty.width (conv.map (·.bits)))
      let r := s.putDrain n o { c with started := true, buf := keepCounts (conv.map (·.count)) } q bytes
      let s1 := r.1.tileFlags n (unionFlags (conv.map (·.flags)))
      let s2 := if o.clr then s1.zeroRange a 512 else s1
      if r.2.reqs.isEmpty then fin s2 r.2 else .go s2 { r.2 with sent := true } none

/-- Whether an endpoint target is not bound outbound (R229). -/
def targetUnbound (o : DrainOp) (s : State) : Bool :=
  match o.target with
  | .ep l => (s.ep s.tile l).dir != .outbound
  | _ => false

def execMdrain (o : DrainOp) (s : State) : Out :=
  dtMatrix (.mdrain o) (targetUnbound o) (fun s => drainRegs o ((s.tileAt s.tile).rrbAt s.ck)) (runDrain o) s

end Sys2Proof.Machine
end

