-- ==== Sys2Proof/Machine/Packed.lean ====
section
/-! DEFINITION. Packed operations on w registers (R129 to R136). -/

namespace Sys2Proof.Machine

/-- Number of lanes of a type in a w register (R129). -/
def laneCount (t : ElTy) : Nat := 128 / t.width

/-- The lanes of a w register as element codes. -/
def quadLanes (t : ElTy) (q : Quad) : List Nat := lanes t.width (laneCount t) q.toNat

/-- A w register made of element codes, bits above them zero. -/
def quadOf (w : Nat) (codes : List Nat) : Quad := BitVec.ofNat 128 (joinLanes w codes)

/-- Lane results with the union of their flags (R42). -/
def gather (w : Nat) (rs : List (Nat × Flags)) : Quad × Flags := (quadOf w (rs.map (·.1)), unionFlags (rs.map (·.2)))

/-- The end of a packed operation that writes wd and raises flags. -/
def State.packDone (s : State) (i : Instr) (d : Reg) (r : Quad × Flags) : State :=
  (s.setMe ((s.me.setW d r.1).raise r.2)).done i

/-- A packed operation on wa, wb and the old wd, with the context's rounding mode. -/
def packOp (i : Instr) (d : Reg) (srcs : List Reg) (f : BitVec 3 → Quad → Quad × Flags) (s : State) : Out :=
  .next (lcIssue i ((d :: srcs).map .w) (fun s => s.packDone i d (f s.me.rm (s.rw d))) s)

/-- Lane by lane on two operands. -/
def zipLanes (t : ElTy) (f : Nat → Nat → Nat × Flags) (a b : Quad) : Quad × Flags :=
  gather t.width ((quadLanes t a).zipWith f (quadLanes t b))

/-- The integer member is clamped when m = 001 (R130). -/
def packSat (m : BitVec 3) : Bool := m == 1

/-- One lane of padd, psub or pmul (R131). -/
def arithLane (t : ElTy) (m rm : BitVec 3) (fi : Int → Int → Int) (ff : ElTy → Mode → Num → Num → Nat × Flags)
    (a b : Nat) : Nat × Flags :=
  if t.isInt then (intResult t (packSat m) (fi (decodeInt t a) (decodeInt t b)), 0)
  else ff t (Mode.ofCode rm m) (decodeFp t a) (decodeFp t b)

def execPadd (p : PackOp) (s : State) : Out :=
  packOp (.padd p) p.d [p.a, p.b] (fun rm _ => zipLanes p.ty (arithLane p.ty p.m rm (· + ·) addFp) (s.rw p.a) (s.rw p.b)) s

def execPsub (p : PackOp) (s : State) : Out :=
  packOp (.psub p) p.d [p.a, p.b] (fun rm _ => zipLanes p.ty (arithLane p.ty p.m rm (· - ·) subFp) (s.rw p.a) (s.rw p.b)) s

def execPmul (p : PackOp) (s : State) : Out :=
  packOp (.pmul p) p.d [p.a, p.b] (fun rm _ => zipLanes p.ty (arithLane p.ty p.m rm (· * ·) mulFp) (s.rw p.a) (s.rw p.b)) s

/-- pfma: one rounding of a × b + d (R131). -/
def fmaLanes (t : ElTy) (mode : Mode) (a b d : Quad) : Quad × Flags :=
  gather t.width (((quadLanes t a).zip (quadLanes t b)).zipWith
    (fun x z => fmaFp t mode (decodeFp t x.1) (decodeFp t x.2) (decodeFp t z)) (quadLanes t d))

def execPfma (p : PackOp) (s : State) : Out :=
  packOp (.pfma p) p.d [p.a, p.b] (fun rm d => fmaLanes p.ty (Mode.ofCode rm p.m) (s.rw p.a) (s.rw p.b) d) s

/-- One lane of pmin (least) or pmax. -/
def minMaxLane (t : ElTy) (least : Bool) (a b : Nat) : Nat × Flags :=
  if t.isInt then (if (decodeInt t a < decodeInt t b) == least then a else b, 0) else minMaxFp t least a b

def execPmin (p : PackOp) (s : State) : Out :=
  packOp (.pmin p) p.d [p.a, p.b] (fun _ _ => zipLanes p.ty (minMaxLane p.ty true) (s.rw p.a) (s.rw p.b)) s

def execPmax (p : PackOp) (s : State) : Out :=
  packOp (.pmax p) p.d [p.a, p.b] (fun _ _ => zipLanes p.ty (minMaxLane p.ty false) (s.rw p.a) (s.rw p.b)) s

/-- One lane of pabs. -/
def absLane (t : ElTy) (sat : Bool) (a : Nat) : Nat × Flags :=
  if t.isInt then (intResult t sat (decodeInt t a).natAbs, 0) else absFp t a

def execPabs (p : PackOp) (s : State) : Out :=
  packOp (.pabs p) p.d [p.a] (fun _ _ => gather p.ty.width ((quadLanes p.ty (s.rw p.a)).map (absLane p.ty (packSat p.m)))) s

/-- The accumulator type and the group size of pdot (R132). -/
def dotShape : ElTy → ElTy × Nat
  | .i8 => (.i32, 4) | .n8 => (.n32, 4) | .i16 => (.i64, 4) | .n16 => (.n64, 4)
  | .bf16 | .fp16 => (.fp32, 2)
  | _ => (.fp32, 4)

/-- One accumulator lane of pdot over its source pairs (R132). -/
def dotLane (t : ElTy) (m rm : BitVec 3) (pairs : List (Nat × Nat)) (d : Nat) : Nat × Flags :=
  let acc := (dotShape t).1
  if t.isInt then
    (intResult acc (packSat m) (pairs.foldl (fun v x => v + decodeInt t x.1 * decodeInt t x.2) (decodeInt acc d)), 0)
  else
    dotFp .fp32 (Mode.ofCode rm m) (pairs.map fun x => (decodeFp t x.1, decodeFp t x.2)) [decodeFp .fp32 d]

/-- pdot: lane j takes source lanes Gj to Gj + G − 1. -/
def dotLanes (t : ElTy) (m rm : BitVec 3) (a b d : Quad) : Quad × Flags :=
  let acc := (dotShape t).1
  let g := (dotShape t).2
  let pairs := (quadLanes t a).zip (quadLanes t b)
  gather acc.width ((List.range (laneCount acc)).zipWith (fun j x => dotLane t m rm ((pairs.drop (g * j)).take g) x)
    (quadLanes acc d))

def execPdot (p : PackOp) (s : State) : Out :=
  packOp (.pdot p) p.d [p.a, p.b] (fun rm d => dotLanes p.ty p.m rm (s.rw p.a) (s.rw p.b) d) s

/-- One lane of pshl (R133). -/
def shlLane (t : ElTy) (sat : Bool) (a c : Nat) : Nat × Flags :=
  let v := decodeInt t a
  if t.width ≤ c then (if sat && v != 0 then wrapInt t.width (if v < 0 then t.minInt else t.maxInt) else 0, 0)
  else (intResult t sat (v * 2 ^ c), 0)

/-- One lane of pshr (R133). -/
def shrLane (t : ElTy) (a c : Nat) : Nat × Flags := (wrapInt t.width (decodeInt t a / 2 ^ min c t.width), 0)

def execPshl (p : PackOp) (s : State) : Out :=
  packOp (.pshl p) p.d [p.a, p.b] (fun _ _ => zipLanes p.ty (shlLane p.ty (packSat p.m)) (s.rw p.a) (s.rw p.b)) s

def execPshr (p : PackOp) (s : State) : Out :=
  packOp (.pshr p) p.d [p.a, p.b] (fun _ _ => zipLanes p.ty (shrLane p.ty) (s.rw p.a) (s.rw p.b)) s

/-- One lane of pcmp: all ones or all zeros (R134). -/
def cmpLane (t : ElTy) (m : BitVec 3) (a b : Nat) : Nat × Flags :=
  let r := if t.isInt then (condInt m (decodeInt t a) (decodeInt t b), 0) else condFp m (decodeFp t a) (decodeFp t b)
  (if r.1 then 2 ^ t.width - 1 else 0, r.2)

def execPcmp (p : PackOp) (s : State) : Out :=
  packOp (.pcmp p) p.d [p.a, p.b] (fun _ _ => zipLanes p.ty (cmpLane p.ty p.m) (s.rw p.a) (s.rw p.b)) s

/-! ## Moves (R135) -/

/-- psel: wd is the mask. -/
def execPsel (d a b : Reg) (s : State) : Out :=
  packOp (.psel d a b) d [a, b] (fun _ m => ((s.rw a &&& m) ||| (s.rw b &&& ~~~m), 0)) s

def execPmov (d a : Reg) (s : State) : Out := packOp (.pmov d a) d [a] (fun _ _ => (s.rw a, 0)) s

def execPsplat (ty : ElTy) (d a : Reg) (s : State) : Out :=
  .next (lcIssue (.psplat ty d a) [.w d, .x a] (fun s =>
    s.packDone (.psplat ty d a) d (quadOf ty.width (List.replicate (laneCount ty) (s.rx a).toNat), 0)) s)

/-- pext: sign-extended for the signed integer types. -/
def execPext (ty : ElTy) (d a lane : Reg) (s : State) : Out :=
  .next (lcIssue (.pext ty d a lane) [.x d, .w a] (fun s =>
    let v := (quadLanes ty (s.rw a)).getD lane.toNat 0
    (s.wx d (if ty.isSigned then BitVec.ofInt 64 (decodeInt ty v) else BitVec.ofNat 64 v)).done (.pext ty d a lane)) s)

def execPins (ty : ElTy) (d a lane : Reg) (s : State) : Out :=
  .next (lcIssue (.pins ty d a lane) [.w d, .x a] (fun s =>
    s.packDone (.pins ty d a lane) d (quadOf ty.width ((quadLanes ty (s.rw d)).set lane.toNat (s.rx a).toNat), 0)) s)

/-! ## Conversion (R136) -/

/-- The destination type of pcvt, in b[3:0]. -/
def packDest (p : PackOp) : ElTy := (ElTy.ofCode (p.b.setWidth 4)).getD .n8

/-- Whether pcvt saturates: b[4], or, into a narrow type, the mode of FCSR. -/
def packSaturates (p : PackOp) (cvm : Bool) : Bool := p.b.getLsbD 4 || (!(packDest p).isInt && !cvm)

/-- The converted elements of pcvt. -/
def convertLanes (p : PackOp) (rm : BitVec 3) (cvm : Bool) (a : Quad) : List Converted :=
  let d := packDest p
  let n := 128 / max p.ty.width d.width
  ((quadLanes p.ty a).take n).map (convertEl p.ty d (Mode.ofCode rm p.m) (packSaturates p cvm))

/-- The end of a conversion: wd and the flags, then the adds to the counters of the launch, then THRESHOLD (R49, R50). -/
def State.convertDone (s : State) (i : Instr) (d : Reg) (w : Nat) (rs : List Converted) : State :=
  let s1 := s.setMe ((s.me.setW d (quadOf w (rs.map (·.bits)))).raise (unionFlags (rs.map (·.flags))))
  match s.lcLaunch s.core with
  | none => s1.done i
  | some (_, l) =>
    let r := s1.countAll l.jcb (rs.map (·.count))
    if r.2 = 0 then r.1.done i else r.1.trapAfter i causeThreshold (lowestCrossed r.2) r.2

def execPcvt (p : PackOp) (s : State) : Out :=
  .next (lcIssue (.pcvt p) [.w p.d, .w p.a] (fun s =>
    s.convertDone (.pcvt p) p.d (packDest p).width (convertLanes p s.me.rm s.me.cvm (s.rw p.a))) s)

end Sys2Proof.Machine
end

