-- ==== Sys2Proof/Machine/Special.lean ====
section
/-! DEFINITION. The special functions of the vector unit (R250). bf16 and fp16 results are rounded once from a value
that is known to far more bits than any input can need; an fp32 result is a free value within the bound of R250. -/

namespace Sys2Proof.Machine

/-! ## Fixed point -/

/-- Fraction bits of the fixed-point values. -/
def fracBits : Nat := 256

def fxOne : Nat := 2 ^ fracBits

/-- The integer square root, bit by bit. -/
def isqrtLoop (n : Nat) : Nat → Nat → Nat
  | 0, r => r
  | i + 1, r => isqrtLoop n i (if (r + 2 ^ i) * (r + 2 ^ i) ≤ n then r + 2 ^ i else r)

def isqrt (n : Nat) : Nat := isqrtLoop n (Nat.log2 n / 2 + 1) 0

/-- 2^f for a fraction f: the product of the roots 2^(2^−i) that its bits name. -/
def exp2Loop (f : Nat) : Nat → Nat → Nat → Nat
  | 0, _, acc => acc
  | i + 1, r, acc =>
    let root := isqrt (r * fxOne)
    exp2Loop f i root (if bitOf f i then acc * root / fxOne else acc)

def exp2Frac (f : Nat) : Nat := if f = 0 then fxOne else exp2Loop f fracBits (2 * fxOne) fxOne

/-- n bits of log2 y for y from 1 to 2. -/
def log2Loop : Nat → Nat → Nat → Nat
  | 0, _, acc => acc
  | n + 1, y, acc =>
    let z := y * y / fxOne
    if 2 * fxOne ≤ z then log2Loop n (z / 2) (2 * acc + 1) else log2Loop n z (2 * acc)

/-- log2 e, times 2^320. -/
def log2e : Nat := 3081577904126213121686167198097690134163479766071396094403848907535455306605342191083616308484524

/-! ## Real results -/

/-- A magnitude m × 2^e with its sign; where sticky is set the value lies strictly between m and m + 1. -/
structure Real where
  neg : Bool
  m : Nat
  e : Int
  sticky : Bool
deriving DecidableEq, Repr

/-- The value times 2^(e) that a rounding sees. -/
def Real.round (x : Real) (t : ElTy) : Nat × Flags :=
  roundFp t x.neg (2 * x.m + if x.sticky then 1 else 0) (x.e - 1) .rne

/-- 2^a for a finite a. Exponents beyond any format are cut. -/
def exp2Real (neg : Bool) (m : Nat) (e : Int) : Real :=
  let f := if -(fracBits : Int) ≤ e then m * 2 ^ (e + fracBits).toNat else m / 2 ^ (-(e + fracBits)).toNat
  let big := decide (2 ^ 12 * fxOne ≤ f)
  let f := if big then 2 ^ 12 * fxOne else f
  let v : Int := if neg then -(f : Int) else f
  let whole := v / (fxOne : Int)
  let part := (v % (fxOne : Int)).toNat
  ⟨false, exp2Frac part, whole - fracBits, part != 0⟩

/-- log2 of m × 2^e. -/
def log2Real (m : Nat) (e : Int) : Real :=
  let k := Nat.log2 m
  let y := m * 2 ^ fracBits / 2 ^ k
  let frac := if y = fxOne then 0 else log2Loop 128 y 0
  let v : Int := (e + k) * 2 ^ 128 + frac
  let sticky := y != fxOne
  if v < 0 then ⟨true, if sticky then v.natAbs - 1 else v.natAbs, -128, sticky⟩ else ⟨false, v.natAbs, -128, sticky⟩

/-- 1 over m × 2^e. -/
def rcpReal (neg : Bool) (m : Nat) (e : Int) : Real :=
  ⟨neg, fxOne / m, -e - fracBits, fxOne % m != 0⟩

/-- 1 over the square root of m × 2^e. -/
def rsqrtReal (m : Nat) (e : Int) : Real :=
  let m' := if e % 2 = 0 then m else 2 * m
  let e' := if e % 2 = 0 then e else e - 1
  let q := fxOne * fxOne / m'
  let r := isqrt q
  ⟨false, r, -(e' / 2) - fracBits, !(r * r == q && fxOne * fxOne % m' == 0)⟩

/-- tanh of m × 2^e. -/
def tanhReal (neg : Bool) (m : Nat) (e : Int) : Real :=
  if (Nat.log2 m : Int) + e ≥ 6 then ⟨neg, fxOne - 1, -(fracBits : Int), true⟩
  else
    let k := e + 1 + fracBits - 320
    let t := if 0 ≤ k then m * log2e * 2 ^ k.toNat else m * log2e / 2 ^ (-k).toNat
    let E := exp2Frac (t % fxOne) * 2 ^ (t / fxOne)
    ⟨neg, (E - fxOne) * fxOne / (E + fxOne), -(fracBits : Int), true⟩

/-! ## Delivery (R250) -/

/-- Whether |a × 2^e − b × 2^f| ≤ c × 2^g. -/
def nearDyadic (a : Nat) (e : Int) (b : Nat) (f : Int) (c : Nat) (g : Int) : Bool :=
  let d := addDyadic ((a : Int), e) (-(b : Int), f)
  leDyadic d.1.natAbs d.2 c g
where
  leDyadic (a : Nat) (e : Int) (b : Nat) (f : Int) : Bool := decide ((addDyadic ((a : Int), e) (-(b : Int), f)).1 ≤ 0)

/-- Whether an fp32 magnitude code lies within so many ulps of a value, and within 2^bound of it where there is one. -/
def withinUlps (x : Real) (ulps : Nat) (bound : Option Int) (code : Nat) : Bool :=
  let v := magnitude .fp32 code
  let q := max ((Nat.log2 x.m : Int) + x.e) ElTy.fp32.emin - ElTy.fp32.p + 1
  let close (m : Nat) : Bool :=
    nearDyadic v.1 v.2 m x.e ulps q && (match bound with | some b => nearDyadic v.1 v.2 m x.e 1 b | none => true)
  close x.m && (!x.sticky || close (x.m + 1))

/-- The result of special function fn for an input's magnitude code. top is the greatest code it may give. -/
def deliver (fn : Nat) (t : ElTy) (bits ulps : Nat) (bound : Option Int) (top : Nat) (x : Real) : Nat × Flags :=
  let r := x.round t
  if t ≠ .fp32 ∨ r.2 &&& flagNX = 0 ∨ r.2 &&& flagOF ≠ 0 then r
  else
    let base := (roundFp .fp32 false (2 * x.m + if x.sticky then 1 else 0) (x.e - 1) .rtz).1
    let codes := ((List.range 8).map fun i => base + i - 4).filter fun c => decide (c ≤ top) && withinUlps x ulps bound c
    let c := codes.getD (Config.special fn bits % codes.length) (r.1 % ElTy.fp32.signBit)
    (signed .fp32 x.neg c, flagNX ||| if (Nat.log2 x.m : Int) + x.e < ElTy.fp32.emin then flagUF else 0)

/-- A NaN operand (R250). -/
def specialNan (t : ElTy) (snan : Bool) : Nat × Flags := (t.nanBits, if snan then flagNV else 0)

/-- vexp2 of a code. -/
def vexp2Of (t : ElTy) (bits : Nat) : Nat × Flags :=
  match decodeFp t bits with
  | .nan s => specialNan t s
  | .inf true => (0, 0)
  | .inf false => (t.infBits, 0)
  | .fin neg m e => deliver 0 t bits 2 none t.maxBits (exp2Real neg m e)

/-- vlog2 of a code. -/
def vlog2Of (t : ElTy) (bits : Nat) : Nat × Flags :=
  match decodeFp t bits with
  | .nan s => specialNan t s
  | .inf true => (t.nanBits, flagNV)
  | .inf false => (t.infBits, 0)
  | .fin neg m e =>
    if m = 0 then (signed t true t.infBits, flagDZ)
    else if neg then (t.nanBits, flagNV)
    else
      let x := log2Real m e
      if x.m = 0 ∧ !x.sticky then (0, 0)
      else
        let near := leq1 m (e + 1) && leq2 m e
        deliver 1 t bits 2 (if near then some (-22) else none) t.maxBits x
where
  leq1 (m : Nat) (e : Int) : Bool := decide (0 ≤ (addDyadic ((m : Int), e) (-1, 0)).1)
  leq2 (m : Nat) (e : Int) : Bool := decide ((addDyadic ((m : Int), e) (-2, 0)).1 ≤ 0)

/-- vrcp of a code. -/
def vrcpOf (t : ElTy) (bits : Nat) : Nat × Flags :=
  match decodeFp t bits with
  | .nan s => specialNan t s
  | .inf neg => (signed t neg 0, 0)
  | .fin neg m e => if m = 0 then (signed t neg t.infBits, flagDZ) else deliver 2 t bits 1 none t.maxBits (rcpReal neg m e)

/-- vrsqrt of a code. -/
def vrsqrtOf (t : ElTy) (bits : Nat) : Nat × Flags :=
  match decodeFp t bits with
  | .nan s => specialNan t s
  | .inf true => (t.nanBits, flagNV)
  | .inf false => (0, 0)
  | .fin neg m e =>
    if m = 0 then (signed t neg t.infBits, flagDZ)
    else if neg then (t.nanBits, flagNV)
    else deliver 3 t bits 1 none t.maxBits (rsqrtReal m e)

/-- The code of 1. -/
def oneBits (t : ElTy) : Nat := (1 - t.emin).toNat * 2 ^ (t.p - 1)

/-- vtanh of a code: an odd function, so the choice depends on the magnitude only. -/
def vtanhOf (t : ElTy) (bits : Nat) : Nat × Flags :=
  match decodeFp t bits with
  | .nan s => specialNan t s
  | .inf neg => (signed t neg (oneBits t), 0)
  | .fin neg m e => if m = 0 then (signed t neg 0, 0) else deliver 4 t (bits % t.signBit) 2 none (oneBits t) (tanhReal neg m e)

end Sys2Proof.Machine
end

