-- ==== Sys2Proof/Machine/Vector.lean ====
section
/-! DEFINITION. The vector unit (R241 to R254): the items of the vector slot. A vector item holds its stream until it
has finished. -/

namespace Sys2Proof.Machine

/-! ## Groups and predicates (R241, R243 to R245) -/

/-- The physical registers of a group. -/
def groupRegs (rrb : BitVec 8) (start : BitVec 10) (g : BitVec 3) : List Nat :=
  (List.range g.toNat).map fun k => physReg rrb (start.toNat + k)

/-- The bits of a list of registers, the first lowest. -/
def State.regsVal (s : State) (n : Nat) : List Nat → Nat
  | [] => 0
  | r :: rest => s.readNat (vregAddr n r) 64 + 2 ^ 512 * s.regsVal n rest

/-- The first failing beat among registers (R417). -/
def State.regsFail (s : State) (n : Nat) (regs : List Nat) : Option Nat := regs.findSome? fun r => s.failedBeat (vregAddr n r) 64

/-- Elements of a group (R241). -/
def groupCount (ty : ElTy) (g : BitVec 3) : Nat := g.toNat * (512 / ty.width)

/-- WID of a width (R243). -/
def widCode (w : Nat) : Option (BitVec 2) :=
  if w = 8 then some 0 else if w = 16 then some 1 else if w = 32 then some 2 else none

/-- A predicate. -/
def Tile.pred (t : Tile) (p : BitVec 3) : BitVec 16 := t.preds.get ⟨p.toNat, p.isLt⟩

def predWid (p : BitVec 16) : BitVec 2 := p.extractLsb' 9 2
def predCnt (p : BitVec 16) : Nat := (p.extractLsb' 0 9).toNat

/-- The destination type of vcvt (R252). -/
def vcvtDest (o : VecOp) : ElTy := (ElTy.ofCode (o.vf.extractLsb' 0 4)).getD .n8

/-- Whether the governing width differs from the predicate's (R244). -/
def Tile.governBad (t : Tile) (i : Instr) (o : VecOp) : Bool :=
  let w := match i with
    | .vcvt _ => max o.ty.width (vcvtDest o).width
    | _ => o.ty.width
  o.pen && widCode w != some (predWid (t.pred o.pn))

/-- Active elements of a group: those below CNT, or all (R244). -/
def Tile.activeCount (t : Tile) (o : VecOp) : Option Nat := if o.pen then some (predCnt (t.pred o.pn)) else none

def isActive (cnt : Option Nat) (e : Nat) : Bool :=
  match cnt with
  | some c => decide (e < c)
  | none => true

/-! ## The course of a vector item (R224, R242) -/

/-- Whether an unfinished matrix item, issued before, writes a register among these, or has still to read or to write a row of the
tile store among the 64-byte pieces at these addresses (R204, R224). -/
def State.drainHolds (s : State) (n born : Nat) (regs places : List Nat) : Bool :=
  (s.strm n .m).queue.any fun (c : DtCmd) => decide (c.id < born) &&
    ((c.phys.any fun r => regs.contains r) || c.rowsLeft.any fun p =>
      places.any fun a => decide (a < tsAddr n (512 * p.1) + p.2) && decide (tsAddr n (512 * p.1) < a + 64))

/-- The tile-store address of piece p of an item (R253). -/
def pieceAddr (n : Nat) (o : VecOp) (jn : BitVec 32) (p : Nat) : Nat :=
  tsAddr n (512 * ((jn.toNat + o.va.toNat + p / 8) % 8192) + 64 * (p % 8))

/-- The addresses of the pieces of an item, one for each register of its group (R253). -/
def pieces (n : Nat) (o : VecOp) (jn : BitVec 32) : List Nat :=
  (List.range o.g.toNat).map fun k => pieceAddr n o jn ((o.vf.extractLsb' 0 3).toNat + k)

/-- The pieces that an item reads or writes. -/
def itemPieces (n : Nat) (i : Instr) (o : VecOp) (jn : BitVec 32) : List Nat :=
  match i with
  | .vld _ | .vst _ => pieces n o jn
  | _ => []

/-- A vector item: it takes its registers at issue, waits for the matrix items before it that its registers or its pieces meet, and is
then performed. names gives the groups that it names. -/
def vectorItem (i : Instr) (o : VecOp) (names : List (BitVec 10)) (run : State → Nat → DtHeld → State) (s : State) : Out :=
  let n := s.tile
  let go (h : DtHeld) : State :=
    if s.drainHolds n h.born (names.flatMap fun r => groupRegs h.rrb r o.g) (itemPieces n i o h.jn) then s.keepHeld n .m h none else run s n h
  match s.heldBy n .m i with
  | some h => .next (go h)
  | none =>
    if (s.tileAt n).governBad i o then .next (s.tileTrap n .m (s.illegalBundle n (s.strm n .m).pc))
    else .next (go (s.newHeld n .m i ((s.strm n .m).jr (o.vb.setWidth 4)) 0))

/-- The end of an item: its flags and its counts, and the trap of a threshold (R242). -/
def State.vectorDone (s : State) (n : Nat) (h : DtHeld) (flags : Flags) (counts : List (Option Counter)) : State :=
  let r := (s.tileFlags n flags).tileCount n counts
  let s1 := r.1.endHeld n .m h
  match r.2 with
  | some t => s1.tileTrap n .m t
  | none => s1

/-- A trap of an item, which writes nothing: MPC holds the bundle (R242). -/
def vectorTrap (n : Nat) (h : DtHeld) (t : State × DtTrap) : State :=
  let x := t.1.strm n .m
  (t.1.setStrm n .m { x with held := some { h with trapped := true } }).tileTrap n .m t.2

/-- Whether an item reads its old destination. -/
def readsOld (i : Instr) (o : VecOp) : Bool :=
  match i with
  | .vfma _ | .vsel _ => true
  | .vred _ => false
  | _ => o.pen

/-- The registers of a source group that an item reads: all of them, but for vred, which reads no inactive element (R244). -/
def readRegs (t : Tile) (i : Instr) (o : VecOp) (regs : List Nat) : List Nat :=
  match i, t.activeCount o with
  | .vred _, some c => regs.take ((c + (512 / o.ty.width) - 1) / (512 / o.ty.width))
  | _, _ => regs

/-- An item that reads groups, and writes the group of vd with what f gives for the elements of its sources: the bits,
flags and counts of the new group. -/
def readGroups (i : Instr) (o : VecOp) (srcs : List (BitVec 10))
    (f : Tile → List (List Nat) → Nat → Nat × Flags × List (Option Counter)) (s : State) : Out :=
  vectorItem i o (o.vd :: srcs) (fun s n h =>
    let dst := groupRegs h.rrb o.vd o.g
    match s.regsFail n ((srcs.flatMap fun r => readRegs (s.tileAt n) i o (groupRegs h.rrb r o.g)) ++ if readsOld i o then dst else []) with
    | some b => vectorTrap n h (s.tileIntegrity n b)
    | none =>
      let vals := srcs.map fun r => lanes o.ty.width (groupCount o.ty o.g) (s.regsVal n (groupRegs h.rrb r o.g))
      let r := f (s.tileAt n) vals (s.regsVal n dst)
      (s.putRegs n dst (natToBytes (64 * o.g.toNat) r.1)).vectorDone n h r.2.1 r.2.2) s

/-- Element by element: an inactive element keeps its old value and counts nothing (R244, R248). -/
def eachActive (ty : ElTy) (cnt : Option Nat) (old : List Nat) (new : Nat → Nat × Flags) : Nat × Flags × List (Option Counter) :=
  let rs := (List.range old.length).map fun e => if isActive cnt e then new e else (old.getD e 0, 0)
  (joinLanes ty.width (rs.map (·.1)), unionFlags (rs.map (·.2)), [])

/-- An elementwise item on sources a and b, and the old destination. -/
def elementwise (i : Instr) (o : VecOp) (srcs : List (BitVec 10)) (f : BitVec 3 → Nat → Nat → Nat → Nat × Flags) (s : State) : Out :=
  readGroups i o srcs (fun t vals d =>
    let old := lanes o.ty.width (groupCount o.ty o.g) d
    let a := vals.getD 0 []
    let b := vals.getD 1 []
    eachActive o.ty (t.activeCount o) old fun e =>
      f (t.fcsr.extractLsb' 5 3) (a.getD e 0) (b.getD e 0) (old.getD e 0)) s

/-! ## Elementwise members (R248) -/

def execVadd (o : VecOp) (s : State) : Out :=
  elementwise (.vadd o) o [o.va, o.vb] (fun rm a b _ => arithLane o.ty o.m rm (· + ·) addFp a b) s

def execVsub (o : VecOp) (s : State) : Out :=
  elementwise (.vsub o) o [o.va, o.vb] (fun rm a b _ => arithLane o.ty o.m rm (· - ·) subFp a b) s

def execVmul (o : VecOp) (s : State) : Out :=
  elementwise (.vmul o) o [o.va, o.vb] (fun rm a b _ => arithLane o.ty o.m rm (· * ·) mulFp a b) s

def execVfma (o : VecOp) (s : State) : Out :=
  elementwise (.vfma o) o [o.va, o.vb] (fun rm a b d =>
    fmaFp o.ty (Mode.ofCode rm o.m) (decodeFp o.ty a) (decodeFp o.ty b) (decodeFp o.ty d)) s

def execVmax (o : VecOp) (s : State) : Out :=
  elementwise (.vmax o) o [o.va, o.vb] (fun _ a b _ => minMaxLane o.ty false a b) s

def execVmin (o : VecOp) (s : State) : Out :=
  elementwise (.vmin o) o [o.va, o.vb] (fun _ a b _ => minMaxLane o.ty true a b) s

def execVabs (o : VecOp) (s : State) : Out :=
  elementwise (.vabs o) o [o.va] (fun _ a _ _ => absLane o.ty (packSat o.m) a) s

def execVcmp (o : VecOp) (s : State) : Out :=
  elementwise (.vcmp o) o [o.va, o.vb] (fun _ a b _ => cmpLane o.ty o.m a b) s

/-- The old destination is the mask (R135, R248). -/
def execVsel (o : VecOp) (s : State) : Out :=
  elementwise (.vsel o) o [o.va, o.vb] (fun _ a b m => ((a &&& m) ||| (b &&& (2 ^ o.ty.width - 1 - m)), 0)) s

/-! ## Special functions (R250) -/

def execVexp2 (o : VecOp) (s : State) : Out := elementwise (.vexp2 o) o [o.va] (fun _ a _ _ => vexp2Of o.ty a) s
def execVlog2 (o : VecOp) (s : State) : Out := elementwise (.vlog2 o) o [o.va] (fun _ a _ _ => vlog2Of o.ty a) s
def execVrcp (o : VecOp) (s : State) : Out := elementwise (.vrcp o) o [o.va] (fun _ a _ _ => vrcpOf o.ty a) s
def execVrsqrt (o : VecOp) (s : State) : Out := elementwise (.vrsqrt o) o [o.va] (fun _ a _ _ => vrsqrtOf o.ty a) s
def execVtanh (o : VecOp) (s : State) : Out := elementwise (.vtanh o) o [o.va] (fun _ a _ _ => vtanhOf o.ty a) s

/-! ## vred (R249) -/

/-- The result type: a 32-bit type of the same kind where wide is set. -/
def redType (ty : ElTy) (wide : Bool) : ElTy :=
  if !wide then ty
  else match ty with
    | .i8 | .i16 => .i32
    | .n8 | .n16 => .n32
    | _ => .fp32

/-- An element in the result type; it is exact there. -/
def widened (ty r : ElTy) (v : Nat) : Nat := if ty = r then v else (convertEl ty r .rne false v).bits

/-- The value of no active element. The spec does not say whose minimum and maximum a wide item of integers gives; it is the
result type's (assumption 124). -/
def redEmpty (r : ElTy) (op : Nat) : Nat :=
  if op = 0 then 0
  else if r.isInt then wrapInt r.width (if op = 1 then r.minInt else r.maxInt)
  else signed r (op == 1) r.infBits

/-- The reduction of active elements. -/
def reduceElems (ty r : ElTy) (op : Nat) (m rm : BitVec 3) (xs : List Nat) : Nat × Flags :=
  match xs with
  | [] => (redEmpty r op, 0)
  | x :: rest =>
    if op = 0 then
      if ty.isInt then (intResult r (packSat m) (xs.foldl (fun a v => a + decodeInt ty v) 0), 0)
      else chunkSum r (Mode.ofCode rm m) (xs.map (decodeFp ty))
    else
      let snan := if !ty.isInt && (xs.any fun v => (decodeFp ty v).isSnan) then flagNV else 0
      let y := rest.foldl (fun (a : Nat) v => (minMaxLane ty (op == 2) a v).1) x
      let z := if !ty.isInt && (decodeFp ty y).isNan then ty.nanBits else y
      (widened ty r z, snan)

def execVred (o : VecOp) (s : State) : Out :=
  readGroups (.vred o) o [o.va] (fun t vals _ =>
    let xs := (vals.getD 0 []).zipIdx |>.filter (fun x => isActive (t.activeCount o) x.2) |>.map (·.1)
    let r := reduceElems o.ty (redType o.ty (o.vf.getLsbD 2)) (o.vf.toNat % 4) o.m (t.fcsr.extractLsb' 5 3) xs
    (r.1, r.2, [])) s

/-! ## Data movement (R251) -/

def execVbcast (o : VecOp) (s : State) : Out :=
  readGroups (.vbcast o) o [o.va] (fun t vals d =>
    let a := vals.getD 0 []
    eachActive o.ty (t.activeCount o) (lanes o.ty.width (groupCount o.ty o.g) d) fun _ => (a.getD o.vf.toNat 0, 0)) s

def execVperm (o : VecOp) (s : State) : Out :=
  readGroups (.vperm o) o [o.va, o.vb] (fun t vals d =>
    let a := vals.getD 0 []
    let b := vals.getD 1 []
    eachActive o.ty (t.activeCount o) (lanes o.ty.width (groupCount o.ty o.g) d) fun e =>
      (a.getD (b.getD e 0 % a.length) 0, 0)) s

/-! ## vcvt (R252) -/

def execVcvt (o : VecOp) (s : State) : Out :=
  readGroups (.vcvt o) o [o.va] (fun t vals d =>
    let dt := vcvtDest o
    let n := 512 * o.g.toNat / max o.ty.width dt.width
    let mode := Mode.ofCode (t.fcsr.extractLsb' 5 3) o.m
    let old := lanes dt.width n d
    let rs := ((vals.getD 0 []).take n).zipIdx.map fun x =>
      if isActive (t.activeCount o) x.2 then convertEl o.ty dt mode (saturates dt (o.vf.getLsbD 4) t.fcsr) x.1
      else ⟨old.getD x.2 0, 0, none⟩
    (joinLanes dt.width (rs.map (·.bits)), unionFlags (rs.map (·.flags)), rs.map (·.count))) s

/-! ## vld and vst (R253) -/

/-- The granules of the pieces. -/
def pieceGranules (as : List Nat) : List Nat := as.flatMap fun a => [a, a + 16, a + 32, a + 48]

/-- A request of an item for its own tile store: a granule that it writes or empties (R216, R273). -/
def State.askHeld (r : State × DtHeld) (n : Nat) (act : Act) (a : Nat) : State × DtHeld :=
  (r.1.fresh.sendRequest none ⟨r.1.nextId, .tile n .m, act, a, .none, false, none⟩, { r.2 with reqs := r.2.reqs ++ [r.1.nextId], sent := true })

/-- An item goes on once all its requests have been answered. -/
def State.heldSettled (s : State) (n : Nat) (h : DtHeld) (fin : State → State) : State :=
  match s.replies.find? fun r => h.reqs.contains r.req.id with
  | some r =>
    ({ s with replies := s.replies.filter fun x => x.req.id != r.req.id }).keepHeld n .m { h with reqs := h.reqs.filter (· != r.req.id) } none
  | none => if h.reqs.isEmpty then fin s else s.keepHeld n .m h none

/-- vld reads granule by granule; when it has read all, it writes its registers and, under the clear qualifier, empties the
granules. -/
def execVld (o : VecOp) (s : State) : Out :=
  vectorItem (.vld o) o [o.vd] (fun s n h =>
    let as := pieceGranules (pieces n o h.jn)
    let rq := o.vf.extractLsb' 3 2
    if h.sent then s.heldSettled n h fun s => s.vectorDone n h 0 []
    else match as[h.got.length]? with
    | some a =>
      match s.tsWait a rq with
      | some (.error t) => vectorTrap n h (s, t)
      | some (.ok w) => s.keepHeld n .m h (some w)
      | none =>
        if s.busy a 16 || s.outranked n .m a then s.keepHeld n .m h none
        else match s.failedBeat a 16 with
        | some b => vectorTrap n h (s.tileIntegrity n b)
        | none => (s.noteAct a 16).keepHeld n .m { h with got := h.got ++ [s.readNat a 16] } none
    | none =>
      let s1 := s.putRegs n (groupRegs h.rrb o.vd o.g) (h.got.flatMap (natToBytes 16))
      if rq = 2 then
        let r := as.foldl (fun r a => State.askHeld r n .clear a) (s1, h)
        r.1.keepHeld n .m r.2 none
      else s1.vectorDone n h 0 []) s

/-- vst writes granule by granule, once every granule is as its qualifier asks. -/
def execVst (o : VecOp) (s : State) : Out :=
  vectorItem (.vst o) o [o.vd] (fun s n h =>
    let as := pieces n o h.jn
    let regs := groupRegs h.rrb o.vd o.g
    if h.sent then s.heldSettled n h fun s => s.vectorDone n h 0 []
    else match s.regsFail n regs with
    | some b => vectorTrap n h (s.tileIntegrity n b)
    | none =>
      match if o.vf.extractLsb' 3 2 = 1 then (pieceGranules as).find? s.isFull else none with
      | some a => s.keepHeld n .m h (some (.address a false))
      | none =>
        let puts := (as.zip regs).flatMap fun p => (List.range 4).map fun k => (p.1 + 16 * k, s.readBytes (vregAddr n p.2 + 16 * k) 16)
        let r := puts.foldl (fun r p => State.askHeld r n (.write (List.replicate 16 0xFF) p.2 true) p.1) (s, h)
        r.1.keepHeld n .m r.2 none) s

/-! ## pset (R254) -/

def execPset (o : VecOp) (s : State) : Out :=
  vectorItem (.pset o) o [] (fun s n h =>
    let t := s.tileAt n
    let v : BitVec 16 := ((widCode o.ty.width).getD 0).zeroExtend 16 <<< 9 ||| (o.va.setWidth 9).zeroExtend 16
    (s.setTile n { t with preds := vset t.preds ⟨(o.vd.setWidth 3).toNat, (o.vd.setWidth 3).isLt⟩ v }).vectorDone n h 0 []) s

end Sys2Proof.Machine
end

