-- ==== Sys2Proof/Machine/Stall.lean ====
section
/-! DEFINITION. The limits of the waits of a tile (R212, R313), and the producers that they name (R314, R315). -/

namespace Sys2Proof.Machine

/-- A producer code of KIND 10: a stream of a tile (R314). -/
def producerStream (n : Nat) (st : Stream) : BitVec 16 := BitVec.ofNat 16 (2 * 2 ^ 14 + n * 16 + streamCode st)

/-- The limit of a wait has passed in this ck. -/
def DtWait.due (w : DtWait) (ck : Nat) : Bool :=
  match w.deadline with
  | some t => decide (t ≤ ck)
  | none => false

/-- The limit of a wait passes in this ck, and the wait has been found to go on at its end (R313). -/
def DtWait.passed (w : DtWait) (ck : Nat) : Bool := w.due ck && w.seen == 2 * ck + 1

/-- The producer of a wait of stream st of tile n on a queue identifier of tile t (R315). push tells that the wait is for
room. An srecv waits for the keeper of its group, and a skeep for the tile that it delivers to. -/
def State.waitProducer (s : State) (n : Nat) (st : Stream) (t code : Nat) (push : Bool) : BitVec 16 :=
  if 0x20 ≤ code ∧ code < 0x26 then
    let q : Fin 6 := Fin.ofNat 6 (code - 0x20)
    producerStream n (if push then queuePopper q else queuePusher q)
  else if 0x30 ≤ code ∧ code < 0x38 then
    let peer := (s.ep n (epIdx (code - 0x30))).peer
    if peer.1 = s.dev then producerStream peer.2.1 .s else producerEngine 6 0
  else if code = 0x40 then producerStream n st
  else if code = 0x41 then producerEngine 6 0
  else if t = n then producerStream (n / 4 * 4) .c
  else producerStream t .c

/-- STALL of a wait (R212). -/
def State.stallTrap (s : State) (n : Nat) (st : Stream) (w : DtWhat) (push : Bool) : DtTrap :=
  match w with
  | .code t c => ⟨causeStall, queueId s.dev (1024 + t) c, 0, s.waitProducer n st t c push⟩
  | .address a _ => ⟨causeStall, gaWord a, 0, s.claimProducer a⟩

/-- A wait of a stream at the SHM of another device whose limit passes now, and of which nothing more is heard: its request or the
answer is lost (R461). -/
def State.lostWait (s : State) (n : Nat) (st : Stream) : Option Request :=
  (s.remote.find? fun r => r.2.src == .tile n st && s.packetLost r.2.id && (r.2.deadline.map fun t => decide (t ≤ s.ck)) == some true).map
    (·.2)

/-- The wait of a stream of a tile that passes its limit now: of the stream itself, of one of its commands, or of its next
push. Where an older wait passes its limit first, it is that wait that stalls, whatever the example of R331 names (assumption 148). -/
def State.stalled (s : State) (n : Nat) (st : Stream) : Option DtTrap :=
  let t := s.tileAt n
  let x := t.get st
  let own := x.wait.filter (·.passed s.ck)
  let cmds := (x.active st).findSome? fun (c : DtCmd) => c.wait.filter (·.passed s.ck)
  match own, cmds, s.lostWait n st, x.pushes with
  | some w, _, _, _ | none, some w, _, _ => some (s.stallTrap n st w.what false)
  | none, none, some r, _ => some (s.stallTrap n st (.address (bitUnit r.addr) true) false)
  | none, none, none, p :: _ =>
    match p.deadline, t.pushBlocked (pushesOf st p.tok p.two) with
    | some d, some q => if d ≤ s.ck then some (s.stallTrap n st (.code n (0x20 + q.val)) true) else none
    | _, _ => none
  | none, none, none, [] => none

/-- A step of Coach waits for its peer (R267). -/
def CoachStep.waitsPeer (x : CoachStep) : Bool :=
  x.ready && (x.got.isNone || (x.own.isSome && x.sent == x.flits &&
    (decide (x.recv.length < x.gives.2 - x.gives.1) || x.acked != x.flits)))

/-- A step of Coach of a tile whose wait passes its limit now, and its trap. -/
def State.coachStalled (s : State) (n : Nat) : Option (CoachStep × DtTrap) :=
  s.coach.findSome? fun x =>
    if x.tile ≠ n then none
    else match x.cmd.wait.filter (·.passed s.ck), x.deadline with
      | some w, _ => some (x, s.stallTrap n .s w.what false)
      | none, some d => if d ≤ s.ck ∧ x.waitsPeer then some (x, s.stallTrap n .s (.code n 0x41) false) else none
      | none, none => none

/-- A wait whose limit passes in this ck, and which is still to be tried at its end (R313). -/
def State.retries (s : State) (w : Option DtWait) : Bool :=
  match w with
  | some w => w.due s.ck && w.seen != s.instant
  | none => false

/-- A vector item whose own wait passes its limit has trapped (R242). -/
def State.markHeld (s : State) (n : Nat) (st : Stream) : State :=
  let x := s.strm n st
  if (x.wait.filter (·.passed s.ck)).isSome then s.setStrm n st { x with held := x.held.map fun h => { h with trapped := true } } else s

/-- A wait of a stream, or of a step that Coach holds for the S stream, passes its limit (R212, R240, R268). -/
def execTileStall (n : Nat) (st : Stream) (s : State) : Out :=
  match (if (s.tileAt n).stopped then none else s.stalled n st), (if st = .s then s.coachStalled n else none) with
  | some t, _ => .next ((s.markHeld n st).tileTrap n st t)
  | none, some (x, t) => .next (s.coachFail x t)
  | none, none => .next s

end Sys2Proof.Machine
end

