-- ==== Sys2Proof/Machine/Launch.lean ====
section
/-! DEFINITION. The launch unit (R346 to R368, R429): queues, records, decisions, reservations, the wake, completion,
supervisor events, and the watchdog with the reset of a partition. -/

namespace Sys2Proof.Machine

/-! ## Registers of queues and partitions (R346, R353, R452) -/

/-- Register n of queue q: 0 QBASE, 1 QCFG, 2 QTAIL, 3 QHEAD, 4 QCOMP, 5 QSTAT. -/
def qReg (q n : Nat) : Nat := 0x10000 + 64 * q + 8 * n

/-- Register n of partition p: 0 PCLU, 1 PDT, 2 PPOOL, 3 PCTL, 4 PSTAT, 5 PIMG, 6 PPRE. -/
def pReg (p n : Nat) : Nat := 0x11000 + 64 * p + 8 * n

def State.queue (s : State) (q : Nat) : LaunchQueue := lookup ⟨0, false, none, [], none⟩ s.queues q

def State.setQueue (s : State) (q : Nat) (x : LaunchQueue) : State := { s with queues := insertAt q x s.queues }

def State.qHead (s : State) (q : Nat) : BitVec 32 := (s.reg (qReg q 3)).setWidth 32

/-- The partition of a queue, its priority and its age. -/
def State.qPart (s : State) (q : Nat) : Nat := s.field (qReg q 1) 12 4
def State.qPri (s : State) (q : Nat) : Nat := s.field (qReg q 1) 8 2
def State.qAge (s : State) (q : Nat) : Nat := s.field (qReg q 5) 16 8

/-- A queue halts with a cause (R346). -/
def State.haltQueue (s : State) (q cause : Nat) : State := (s.setField (qReg q 5) 8 8 cause).setBit (qReg q 5) 1

/-- Reference ticks since the release of reset (R452): a tick is 30 ck. -/
def State.rtick (s : State) : Nat := s.ck / 30

/-- The launch unit has a place for a further event, and so may take a step of its own (R366). -/
def State.mayAct (s : State) : Bool := decide (s.events.length < 64)

/-- An event about a queue (R366): the number of the launch is that of the record. -/
def State.queueEvent (s : State) (code : BitVec 8) (q id : Nat) (detail : Word) : State :=
  { s with events := s.events ++ [⟨code, BitVec.ofNat 64 (s.qPart q * 2 ^ 48 + q * 2 ^ 40 + id), detail⟩] }

/-- A word of the launch unit to the launch unit of a device, its own included (R358, R364, R367). -/
def State.tell (s : State) (dev : Nat) (body : Payload) : State :=
  if dev = s.dev then { s with inbox := s.inbox ++ [body] } else s.sendPacket dev none body

/-! ## Enqueueing (R346 to R348) -/

/-- A write to QTAIL: the records below it are enqueued, or the queue halts (R347, R348). -/
def execQtailWrite (q : Nat) (v : Word) (s : State) : Out :=
  let n : BitVec 32 := v.setWidth 32
  let x := s.queue q
  let size := 2 ^ s.field (qReg q 1) 0 4
  let s1 := s.setReg (qReg q 2) (zext n)
  if 2 ^ 31 ≤ (n - x.seen).toNat ∨ size < (n - s.qHead q).toNat then
    .next (((s1.setQueue q { x with bad := true }).haltQueue q 1).queueEvent 5 q 0 0)
  else .next (s1.setQueue q { x with seen := n, bad := false })

/-- A write to QSTAT: HALT is cleared where it writes 1 (R6, R346). -/
def execQstatHaltClear (q : Nat) (v : Word) (s : State) : Out :=
  .next (if v.getLsbD 1 then s.clearBit (qReg q 5) 1 else s)

/-! ## The record (R349 to R351) -/

/-- A launch from the words of its record. -/
def launchOfRecord (s : State) (record : List Word) (home queue : Nat) : Launch :=
  let l : Launch := ⟨record, home, queue, 0⟩
  { l with rank := (boxRank (if boxAlone l.box then home else s.dev) l.box s.dev).getD 0 }

def Launch.wspBase (l : Launch) : Nat := 2048 * bitsOf (l.word 0x30) 11 7
def Launch.imgAddr (l : Launch) : Nat := l.word 0x50
def Launch.imgOff (l : Launch) : Nat := 16 * bitsOf (l.word 0x58) 36 14
def Launch.imgLen (l : Launch) : Nat := 16 * bitsOf (l.word 0x58) 4 14

/-- The reserved bits of a record are zero (R349). -/
def Launch.reservedZero (l : Launch) : Bool :=
  let w := l.word
  bitsOf (w 0) 8 24 + bitsOf (w 0) 0 5 + bitsOf (w 8) 50 14 + bitsOf (w 8) 18 14 + bitsOf (w 0x10) 26 38 + bitsOf (w 0x10) 10 6 +
    bitsOf (w 0x18) 32 32 + bitsOf (w 0x20) 44 20 + bitsOf (w 0x20) 28 4 + bitsOf (w 0x20) 12 4 + bitsOf (w 0x28) 32 32 +
    bitsOf (w 0x30) 18 46 + bitsOf (w 0x30) 0 11 + bitsOf (w 0x38) 18 46 + bitsOf (w 0x38) 0 1 + bitsOf (w 0x48) 27 37 +
    bitsOf (w 0x48) 0 8 + bitsOf (w 0x58) 50 14 + bitsOf (w 0x58) 18 18 + bitsOf (w 0x58) 0 4 + bitsOf (w 0x68) 32 32 +
    ((List.range 4).map fun p => bitsOf (w (0x88 + 16 * p)) 6 57).sum + ((List.range 4).map fun i => w (0xE0 + 8 * i)).sum == 0

/-- Bytes that lie wholly in the backed bytes of one SHM, home channel or shard of this device (R350). -/
def State.imageBacked (s : State) (ga n : Nat) : Bool :=
  let a := ga % 2 ^ 48
  let mem (x : Nat) : Bool := match storageOf x with
    | .shm | .channel _ | .shard _ => true
    | _ => false
  n == 0 || ((ga / 2 ^ 48 == 0xFFFF || ga / 2 ^ 48 == s.dev) && mem a &&
    storageOf (a + n - 1) == storageOf a && decide (offOf a + n ≤ 2 ^ 37))

/-- The JCB field names a place below the scope region (R350). -/
def Launch.jcbOk (l : Launch) : Bool := decide (l.jcb - shmBase < 0x7FFC000)

/-- The checks that are made when a record is read (R350). -/
def State.recordOk (s : State) (l : Launch) : Bool :=
  let w := l.wspBase
  l.reservedZero && decide (l.lcBase + l.lcCnt ≤ 1008) && l.lcpc % 2 == 0 && l.txpc % 2 == 0 && decide (w + 16384 ≤ 0x3F800) &&
    boxFits l.box && (boxRank s.dev l.box s.dev).isSome &&
    (!l.img || ((l.imgLen == 0 || !overlaps l.imgOff l.imgLen w 16384) && decide (l.imgOff + l.imgLen ≤ 2 ^ 18) && l.imgAddr % 16 == 0 &&
      s.imageBacked l.imgAddr l.imgLen)) && l.jcbOk

/-- The cores and the tiles of a launch lie in the masks of a partition (R350). -/
def State.masksHold (s : State) (p : Nat) (l : Launch) : Bool :=
  ((List.range l.lcCnt).all fun i => (s.reg (pReg p 0)).getLsbD (s.cluster (l.lcBase + i))) &&
    (List.range 32).all fun n => !l.hasDt n || (s.reg (pReg p 1)).getLsbD n

/-- A record is refused: HEAD passes it, STATE 6 is written, and the queue halts (R350). -/
def State.refuse (s : State) (q : Nat) (l : Launch) (addr : Word) : State :=
  let s1 := s.setReg (qReg q 3) (zext (s.qHead q + 1))
  let s2 := s1.setQueue q { s1.queue q with record := none }
  let s3 := if l.jcbOk then s2.putStatus l 6 else s2
  (s3.haltQueue q 2).queueEvent 0 q l.id addr

/-- The address of the record at HEAD (R346). -/
def State.recordAddr (s : State) (q : Nat) : Nat :=
  (s.reg (qReg q 0)).toNat / 256 * 256 + 256 * ((s.qHead q).toNat % 2 ^ s.field (qReg q 1) 0 4)

/-- Whether a record lies in storage of this device that the launch unit reads (R30, R350). -/
def State.recordHere (s : State) (ga : Nat) : Bool :=
  (ga / 2 ^ 48 == 0xFFFF || ga / 2 ^ 48 == s.dev) && match storageOf (ga % 2 ^ 48) with
    | .shm | .channel _ | .shard _ => true
    | _ => false

/-- Whether a record lies in the SHM of another device, which the launch unit reaches over the fabric (R30, R346). -/
def State.recordFar (s : State) (ga : Nat) : Bool :=
  !(ga / 2 ^ 48 == 0xFFFF || ga / 2 ^ 48 == s.dev) && s.inFabric (ga / 2 ^ 48) && storageOf (ga % 2 ^ 48) == .shm

/-- The launch unit asks another device for 8 bytes. -/
def State.askFar (s : State) (ga : Nat) : State :=
  s.fresh.sendRequest (some (ga / 2 ^ 48)) ⟨s.nextId, .device, .copy 8, ga % 2 ^ 48, .none, true, none⟩

/-- What has become of a request of the launch unit to another device: it is lost (R461), or its answer has come. -/
inductive FarRead where
  | waits
  | lost
  | came (r : Reply)

def State.farRead (s : State) (id : Nat) : FarRead :=
  if s.lost.contains id then .lost
  else match s.replies.find? fun r => r.req.id == id with
    | some r => .came r
    | none => .waits

/-- The answer is taken. -/
def State.takeFar (s : State) (id : Nat) : State :=
  { (s.forget (.reply id)) with replies := s.replies.filter fun r => r.req.id != id }

/-- The failing beat that the read of a record meets (R347, R417). -/
def State.recordFails (s : State) (ga : Nat) : Option Nat :=
  if s.recordHere ga then s.failedBeat (ga % 2 ^ 48) 256 else none

/-- The words of a record on this device; none where they cannot be read (R347). -/
def State.readRecord (s : State) (ga : Nat) : Option (List Word) :=
  let a := ga % 2 ^ 48
  if s.recordHere ga ∧ (s.failedBeat a 256).isNone then
    some ((List.range 32).map fun i => BitVec.ofNat 64 (s.readNat (a + 8 * i) 8))
  else none

/-- What the reading of a record comes to: its words, none where it cannot be read, or a wait for another device. -/
inductive RecordEnd where
  | words (ws : Option (List Word))
  | wait (s : State)

/-- The record of another device is read word by word (R347). A word that fails its check is logged (R418). -/
def State.farRecord (s : State) (q ga : Nat) : State × RecordEnd :=
  let x := s.queue q
  let clear (s : State) : State := s.setQueue q { x with words := [], asked := none }
  match x.asked with
  | none => (s, .wait ((s.askFar ga).setQueue q { x with words := [], asked := some s.nextId }))
  | some id =>
    match s.farRead id with
    | .waits => (s, .wait s)
    | .lost => (clear (s.takeFar id), .words none)
    | .came r =>
      let s1 := s.takeFar id
      let at_ := ga + 8 * x.words.length
      if !r.bad.isEmpty then ((clear s1).logWord (BitVec.ofNat 64 (at_ / 64 * 64)) 1 none, .words none)
      else if r.trap.isSome then (clear s1, .words none)
      else
        let words := x.words ++ [BitVec.ofNat 64 (bytesToNat r.bytes)]
        if 32 ≤ words.length then (clear s1, .words (some words))
        else (s1, .wait ((s1.askFar (at_ + 8)).setQueue q { x with words := words, asked := some s1.nextId }))

/-- The record at an address: of this device at once, of another word by word; and none elsewhere (R347). -/
def State.queueRecord (s : State) (q ga : Nat) : State × RecordEnd :=
  if s.recordFar ga then s.farRecord q ga
  else match s.recordFails ga with
    | some b => ((s.controllerRead b).logBeat b 1 none, .words none)
    | none => (s, .words (s.readRecord ga))

/-- The launch unit reads the record at HEAD of a queue, once: from storage, or, as host gives it, from host memory. A
host read that fails gives no words (R347, R350). -/
def execRecordRead (q : Nat) (host : List Word) (s : State) : Out :=
  let x := s.queue q
  let stat := (s.reg (qReg q 5)).toNat
  if !s.mayAct || x.bad || bitOf stat 1 || x.record.isSome || x.seen == s.qHead q || decide (64 ≤ q) then .next s
  else
    let addr := s.recordAddr q
    if s.field (qReg q 1) 16 1 = 0 ∧ s.recordHere addr ∧ !s.ready (addr % 2 ^ 48) then .next s else
    match if s.field (qReg q 1) 16 1 = 1 then (s, .words (if host.length = 32 then some host else none)) else s.queueRecord q addr with
    | (_, .wait s1) => .next s1
    | (s1, .words none) => .next ((s1.haltQueue q 3).queueEvent 5 q 0 (BitVec.ofNat 64 addr))
    | (s1, .words (some ws)) =>
      let l := launchOfRecord s1 ws s.dev q
      if s1.recordOk l then .next (s1.setQueue q { s1.queue q with record := some ws })
      else .next (s1.refuse q l (BitVec.ofNat 64 addr))

/-! ## Choosing a launch (R355, R356, R358, R429) -/

/-- A candidate of a decision: a queue, or reservation i of those that wait. -/
inductive Candidate where
  | queue (q : Nat)
  | resv (i : Nat)
deriving DecidableEq, Repr

/-- The clusters that a move of R427 concerns: those of the core that moves and of the standby position. -/
def State.moveClusters (s : State) : List Nat :=
  match s.lsub with
  | some (n, pos) => [s.cluster n, clusterOf (pos / 32, pos % 32)]
  | none => [s.cluster (s.field 0x30 37 11), clusterOf (s.field 0x30 6 5, s.field 0x30 11 5)]

/-- Whether a partition is enabled, neither held nor reserved, and not concerned by a move of a core (R355, R427). -/
def State.partFree (s : State) (p : Nat) : Bool :=
  s.field (pReg p 3) 0 1 == 1 && s.field (pReg p 4) 0 1 == 0 && s.field (pReg p 4) 2 1 == 0 &&
    !(s.field 0x30 0 1 == 1 && s.moveClusters.any fun c => (s.reg (pReg p 0)).getLsbD c)

/-- The predecessors of a record have reached their targets (R355). -/
def State.predecessors (s : State) (l : Launch) : Bool :=
  (List.range 4).all fun p =>
    let w1 := l.word (0x88 + 16 * p)
    !bitOf w1 63 || decide (l.word (0x80 + 16 * p) ≤ (s.reg (qReg (bitsOf w1 0 6) 4)).toNat)

/-- A queue is eligible (R355). -/
def State.eligibleQueue (s : State) (q : Nat) : Bool :=
  let x := s.queue q
  let stat := (s.reg (qReg q 5)).toNat
  match x.record with
  | some r => s.field (qReg q 1) 4 1 == 1 && !bitOf stat 1 && !bitOf stat 0 && x.seen != s.qHead q && !x.bad &&
      s.partFree (s.qPart q) && s.predecessors ⟨r, s.dev, q, 0⟩
  | none => false

/-- What R356 and R358 compare of a candidate: its partition, its priority, its age, its number, and its home, 0 standing
before every home for a queue. -/
structure Standing where
  part : Nat
  pri : Nat
  age : Nat
  number : Nat
  home : Nat
deriving DecidableEq, Repr

def State.standing (s : State) : Candidate → Standing
  | .queue q => ⟨s.qPart q, s.qPri q, s.qAge q, q, 0⟩
  | .resv i => match s.resvs[i]? with
    | some r => ⟨r.part, r.pri, r.age, r.queue, r.home + 1⟩
    | none => ⟨0, 0, 0, 0, 0⟩

/-- The eligible candidates; the queues take part only where the hardware arbitrates. -/
def State.candidates (s : State) (queues : Bool) : List Candidate :=
  (if queues then ((List.range 64).filter s.eligibleQueue).map Candidate.queue else []) ++
    ((List.range s.resvs.length).filter fun i => match s.resvs[i]? with
      | some r => s.partFree r.part
      | none => false).map Candidate.resv

/-- The first of a list of candidates in the cyclic order after rr; ties go to the queue, and then by home (R356, R358). -/
def State.firstOf (s : State) (cs : List Candidate) : Option Candidate :=
  let key (c : Candidate) : Nat := let x := s.standing c; ((x.number + 63 - s.rr) % 64) * 2 ^ 17 + x.home
  cs.foldl (fun best c => match best with
    | none => some c
    | some b => if key c < key b then some c else some b) none

/-- The candidate that R356 takes. -/
def State.choose (s : State) (queues : Bool) : Option Candidate :=
  let e := s.candidates queues
  let aged := e.filter fun c => decide (8 ≤ (s.standing c).age)
  let top (f : Standing → Nat) (cs : List Candidate) : List Candidate :=
    let m := cs.foldl (fun m c => max m (f (s.standing c))) 0
    cs.filter fun c => f (s.standing c) == m
  s.firstOf (if aged.isEmpty then top Standing.pri e else top Standing.age aged)

/-- The age of a candidate. -/
def State.setAge (s : State) (c : Candidate) (age : Nat) : State :=
  match c with
  | .queue q => s.setField (qReg q 5) 16 8 age
  | .resv i => { s with resvs := (List.range s.resvs.length).filterMap fun j => (s.resvs[j]?).map fun r =>
      if j = i then { r with age := age } else r }

/-- The candidates of the winner's partition age, and the winner's number is noted (R356). -/
def State.ageOthers (s : State) (w : Candidate) (e : List Candidate) : State :=
  let x := s.standing w
  let s1 := e.foldl (fun st c =>
    if c ≠ w ∧ (s.standing c).part = x.part then st.setAge c (min ((s.standing c).age + 1) 255) else st) s
  { s1.setAge w 0 with rr := x.number }

/-- The devices of a launch, in ascending order of their index (R351, R358). -/
def Launch.devices (l : Launch) (own : Nat) : List Nat :=
  if boxAlone l.box then [own] else (List.range (boxCount l.box)).map fun r => boxDev own l.box r

/-- The home asks the next device for its partition (R358). -/
def State.askNext (s : State) (h : HomeLaunch) : State :=
  let put (s : State) (h : HomeLaunch) : State :=
    { s with homes := (s.homes.filter fun x => !(x.queue == h.queue)) ++ [h] }
  match h.toAsk with
  | [] => put s h
  | d :: rest => (put s { h with toAsk := rest }).tell d (.reserve s.dev h.queue h.part (s.qPri h.queue) h.record)

/-- A partition is held for a launch of a queue (R353). That it has become BUSY in this ck is noted (R426). -/
def State.holdPart (s : State) (p q : Nat) (resv : Bool) : State :=
  let s1 := ((s.setField (pReg p 4) 0 1 (if resv then 0 else 1)).setField (pReg p 4) 2 1 (if resv then 1 else 0)).setField (pReg p 4) 16 6 q
  if !resv && s.field (pReg p 4) 0 1 == 0 && s.field (pReg p 4) 2 1 == 0 then s1.noteSet (pReg p 4) 0 else s1

/-- A decision takes a queue: its record is refused, or held for the wake, or its devices are asked (R350, R356, R358). -/
def State.takeQueue (s : State) (q : Nat) : State :=
  match (s.queue q).record with
  | none => s
  | some r =>
    let l := launchOfRecord s r s.dev q
    let p := s.qPart q
    let devs := l.devices s.dev
    if !s.masksHold p l then s.refuse q l (BitVec.ofNat 64 (s.recordAddr q))
    else
      let limit := if bitsOf (l.word 0x68) 0 32 = 0 then s.field (qReg q 1) 32 32 else bitsOf (l.word 0x68) 0 32
      let h : HomeLaunch := ⟨q, p, r, devs, devs, [], false, [], s.rtick, limit, false⟩
      let s1 := s.setField (qReg q 5) 0 1 1
      if devs = [s.dev] then
        { s1.holdPart p q false with homes := s.homes ++ [({ h with toAsk := [], granted := devs, woken := true } : HomeLaunch)],
                                     held := s.held ++ [HeldLaunch.mk p l (some []) false [] [] none] }
      else s1.askNext h

/-- A waiting reservation is taken: it is granted, or refused where the launch's units lie outside the masks (R350, R358). -/
def State.takeResv (s : State) (i : Nat) : State :=
  match s.resvs[i]? with
  | none => s
  | some r =>
    let l := launchOfRecord s r.record r.home r.queue
    let s1 := { s with resvs := s.resvs.eraseIdx i }
    if s.masksHold r.part l then
      ({ s1.holdPart r.part r.queue true with held := s1.held ++ [HeldLaunch.mk r.part l none false [] [] none] }).tell r.home (.reserved s.dev r.queue true)
    else s1.tell r.home (.reserved s.dev r.queue false)

/-- ARBSEL.GO asks for a decision (R429). It is cleared in a later ck than that of the write (R6). -/
def State.arbAsked (s : State) : Bool := s.field 0x28 6 1 == 1 && !s.justSet 0x28 6

/-- The decision that ARBSEL.GO asks for: in host-assisted arbitration the queue that it names is taken, if it is eligible; GO
clears (R429). -/
def State.arbDecision (s : State) : State :=
  let q := s.field 0x28 0 6
  let s1 := s.setField 0x28 6 1 0
  if s.field 0x20 1 1 == 1 && s.eligibleQueue q then (s1.ageOthers (.queue q) (s.candidates true)).takeQueue q else s1

/-- One decision of the launch unit (R356, R358, R429). -/
def execLaunchDecision (s : State) : Out :=
  let hw := s.field 0x20 1 1 == 0
  if !s.mayAct then .next s
  else if s.arbAsked then .next s.arbDecision
  else match s.choose hw with
    | none => .next s
    | some w =>
      let s1 := s.ageOthers w (s.candidates hw)
      match w with
      | .queue q => .next (s1.takeQueue q)
      | .resv i => .next (s1.takeResv i)

/-- A write to ARBSEL: it names a queue, and GO asks for its decision, which the launch unit makes when it may (R366, R429). -/
def execArbselGo (v : Word) (s : State) : Out :=
  let s1 := s.setField 0x28 0 6 (v.toNat % 64)
  .next (if v.getLsbD 6 then s1.setBit 0x28 6 else s1)

/-! ## Launches over several devices (R358) -/

/-- The home gives up a launch that a device has refused: what has been granted is released, and the record is refused. -/
def State.refuseHome (s : State) (h : HomeLaunch) : State :=
  let s1 := h.granted.foldl (fun st d => st.tell d (.release s.dev h.queue h.part))
    { s with homes := s.homes.filter fun x => !(x.queue == h.queue) }
  (s1.setField (qReg h.queue 5) 0 1 0).refuse h.queue (launchOfRecord s h.record s.dev h.queue) (BitVec.ofNat 64 (s.recordAddr h.queue))

/-- The counters and thresholds of a JCB. -/
def State.jcbCounters (s : State) (l : Launch) : List Word :=
  (List.range 8).map fun i => BitVec.ofNat 64 (s.readNat (l.jcb + 0x40 + 8 * i) 8)

/-! ## The wake (R359 to R363) -/

/-- The JCB at the wake: STATE 1, TWAKE, and zeros; on a device other than the home, the home's counters first (R359). -/
def State.wakeJcb (s : State) (l : Launch) (counters : List Word) : State :=
  let s1 := if l.home = s.dev then s
    else ((List.range counters.length).zip counters).foldl (fun st x => st.putNat (l.jcb + 0x40 + 8 * x.1) 8 x.2.toNat) s
  let s2 := (s1.putStatus l 1).putNat (l.jcb + 8) 8 s.rtick
  (List.range 6).foldl (fun st i => st.putNat (l.jcb + 0x10 + 8 * i) 8 0) s2

/-- A scope table under its initialiser (R359, R360). -/
def State.initScope (s : State) (l : Launch) (n : Nat) : State :=
  let code := bitsOf (l.word 0x70 + l.word 0x78 * 2 ^ 64) (2 * n) 2
  let a := scopeAddr n
  let lcs := if code = 3 then (2 ^ l.lcCnt - 1) * 2 ^ l.lcBase else 0
  if code = 0 then s
  else ((s.putNat a 128 lcs).putNat (a + 0x80) 8 (if code = 3 then l.dtSet else 0)).putNat (a + 0x88) 8
    (if code = 1 then 0 else 2 ^ 63 + l.box)

/-- The bytes of the image of a launch, and its 16-byte granules that fail their checks: of this device, or as they have come
from another (R359). -/
def State.imageBytes (s : State) (h : HeldLaunch) : List Byte × List Nat :=
  let l := h.launch
  if l.imgAddr / 2 ^ 48 = 0xFFFF ∨ l.imgAddr / 2 ^ 48 = s.dev then
    let a := l.imgAddr % 2 ^ 48
    (s.readBytes a l.imgLen, (List.range (l.imgLen / 16)).filter fun i => (s.failedBeat (a + 16 * i) 16).isSome)
  else (h.image, h.imageBad)

/-- The source units of a core. -/
def Source.ofCore (u : Nat) (x : Source) : Bool :=
  match x with
  | .ctx v _ | .gather v _ | .stream v _ | .engine v => v == u
  | _ => false

/-- The source units of a tile. -/
def Source.ofTile (n : Nat) (x : Source) : Bool :=
  match x with
  | .tile m _ => m == n
  | _ => false

/-- A core of a launch: what the wake clears, its image, its workspaces, and its contexts (R359, R361, R362). -/
def State.wakeLc (s : State) (p : Nat) (l : Launch) (image : List Byte × List Nat) (u : Nat) : State :=
  let c := s.coreAt u
  let s1 := (s.forgetWalks (Source.ofCore u)).setCore u
    { c with hold := 0, holdNext := 0, launch := some p, ptroot := BitVec.ofNat 64 (l.word 0x60), tlb := [],
             cache := c.cache.filter fun r => !l.binds r.tid }
  let base := lsAddr u l.imgOff
  let s2 := if l.img then s1.engineWrite base image.1 (image.2.map fun i => (base + 16 * i) / 64 * 64) else s1
  let ks := (List.finRange 16).filter fun k => decide (k.val < c.nctx)
  let s3 := s2.layWorkspaces u l.wspBase (if c.m8 then 0x800 else 0x400) (BitVec.ofNat 18 (l.word 0x38)) ks
  let s4 := (s3.startContext u 0 (BitVec.ofNat 64 l.lcpc) (l.args u) .head).parkRoles u
  s4.setCtx u 0 { s4.ctxAt u 0 with readyAt := s.ck + 1 + Config.choice (s.seq * 1024 + u) }

/-- A tile of a launch (R203, R245, R262, R306, R359). -/
def State.wakeDt (s : State) (p : Nat) (l : Launch) (n : Nat) : State :=
  let t := s.tileAt n
  let e := l.word 0x20
  let start (pc : Nat) : DtStream := { DtStream.reset with pc := pc, status := .run, issuedAt := s.ck + 1 }
  let s1 := s.setTile n { t with
    s := start (bitsOf e 0 12), c := start (bitsOf e 16 12), m := start (bitsOf e 32 12), lwd := 10, aq := 1, fcsr := 0, rrb := 0,
    rrbNext := none, tokens := Vector.replicate 6 TokenQueue.none, late := [], pendFull := 0, occs := [], stopped := false, launch := some p }
  { (s1.forgetWalks (Source.ofTile n)) with tileTlbs := removeAt n s1.tileTlbs }

/-- The wake of a launch on this device (R359). -/
def State.wakeLaunch (s : State) (h : HeldLaunch) (counters : List Word) : State :=
  let p := h.part
  let l := h.launch
  let image := s.imageBytes h
  let read := if l.img ∧ (l.imgAddr / 2 ^ 48 = 0xFFFF ∨ l.imgAddr / 2 ^ 48 = s.dev) then
      (image.2.map fun i => (l.imgAddr % 2 ^ 48 + 16 * i) / 64 * 64).eraseDups
    else []
  let s1 := (read.foldl State.controllerRead s).wakeJcb l counters
  let s2 := (List.range 64).foldl (fun st n => st.initScope l n) s1
  let s3 := { s2 with claims := s2.claims.filter fun (c : Claim) => !c.failed, launches := s2.launches ++ [(p, l)] }
  let s4 := ((List.range l.lcCnt).map (l.lcBase + ·)).foldl (fun st u => st.wakeLc p l image u) s3
  let s5 := ((List.range 32).filter l.hasDt).foldl (fun st n => st.wakeDt p l n) s4
  let s6 := s5.holdPart p l.queue false
  if l.home = s.dev then
    let s7 := s6.setReg (qReg l.queue 3) (zext (s6.qHead l.queue + 1))
    s7.setQueue l.queue { s7.queue l.queue with record := none }
  else s6

/-- STEP of a table as a launch reads it: a free value where its beat fails (R387, R417; assumption 167). -/
def State.stepOf (s : State) (t : Nat) : Word :=
  match s.failedBeat (tdAddr t + 0x10) 8 with
  | some _ => Config.freeWord (s.seq + t)
  | none => BitVec.ofNat 64 (s.readNat (tdAddr t + 0x10) 8)

/-- The steps of the tables that a launch binds leave for every core of the device (R387). -/
def State.sendSteps (s : State) (l : Launch) : State :=
  let tables := (List.range 256).filter l.binds
  let jobs := tables.map fun t => StepJob.mk t (some (s.stepOf t)) false (List.range 1008) none (s.stepOf t)
  { (tables.foldl (fun st t => st.logConsumed (tdAddr t + 0x10) 8 none) s) with stepJobs := s.stepJobs ++ jobs }

/-- Whether an image lies on another device: its record names the home (R350, R359). -/
def State.imageFar (s : State) (l : Launch) : Bool :=
  l.img && !(l.imgAddr / 2 ^ 48 == 0xFFFF || l.imgAddr / 2 ^ 48 == s.dev)

/-- The next 8 bytes of an image on another device are asked for, or taken when they have come (R359). -/
def State.fetchImage (s : State) (h : HeldLaunch) : State :=
  let put (s : State) (h : HeldLaunch) : State := { s with held := s.held.map fun x => if x.part = h.part then h else x }
  match h.asked with
  | none => put (s.askFar (h.launch.imgAddr + h.image.length)) { h with asked := some s.nextId }
  | some id =>
    match s.farRead id with
    | .came r =>
      put (s.takeFar id) { h with image := h.image ++ r.bytes.take 8, asked := none,
                                  imageBad := if r.bad.isEmpty then h.imageBad else h.imageBad ++ [h.image.length / 16] }
    | .waits | .lost => s

/-- The wake of a held launch, at once, or first the steps of its tables, which every core takes before it (R387), and an image
that lies on another device. -/
def State.wakeHeld (s : State) (h : HeldLaunch) (counters : List Word) : State :=
  let others := s.held.filter fun x => x.part != h.part
  if !h.stepped then { s.sendSteps h.launch with held := others ++ [{ h with go := some counters, stepped := true }] }
  else if s.stepJobs.any fun j => j.req.isNone && h.launch.binds j.tid then s
  else if s.imageFar h.launch ∧ h.image.length < h.launch.imgLen then s.fetchImage h
  else { s with held := others }.wakeLaunch h counters

/-- The launch held for partition p is woken; on a launch of several devices, once its home has said so (R359). -/
def execWake (p : Nat) (s : State) : Out :=
  if !s.mayAct then .next s
  else match s.held.find? (·.part == p) with
    | none => .next s
    | some h =>
      match h.go, s.inbox.findIdx? fun m => match m with
        | .wake home queue part _ => home == h.launch.home && queue == h.launch.queue && part == p
        | _ => false with
      | some counters, _ => .next (s.wakeHeld h counters)
      | none, some i =>
        match s.inbox[i]? with
        | some (.wake _ _ _ counters) => .next ((s.dropInbox i).wakeHeld h counters)
        | _ => .next s
      | none, none => .next s

/-! ## Completion (R364) -/

/-- A core's part of a launch is complete (R364); a stopped context keeps the launch incomplete (R365). -/
def State.lcComplete (s : State) (u : Nat) : Bool :=
  let c := s.coreAt u
  (c.ctxs.get 0).state == .done && c.gcmds.isEmpty && c.gwait.isEmpty && c.msgq.isEmpty && c.txq.isEmpty &&
    (List.finRange 16).all fun k => (c.ctxs.get k).state != .stopped

/-- Every access of the contexts of a core has been performed: no line, relaxed access or request of them is left but those that
wait at a home (R282, R364). -/
def State.lcSettled (s : State) (u : Nat) : Bool :=
  let c := s.coreAt u
  let mine (r : Request) : Bool := Source.ofCore u r.src
  c.relaxed.isEmpty && !s.requests.any mine && !s.remote.any (fun r => mine r.2 && !r.2.act.waits) && !s.replies.any fun r => mine r.req

/-- A tile's part of a launch is complete (R206). -/
def State.dtComplete (s : State) (n : Nat) : Bool :=
  let t := s.tileAt n
  let ended (x : DtStream) : Bool := x.status == .halted && x.queue.isEmpty && x.pushes.isEmpty && x.held.isNone
  ended t.s && ended t.c && ended t.m && t.eps.all (fun (e : Endpoint) => e.dir == .unbound) && !s.coachBusy n && !t.stopped

/-- A launch's part on this device is complete (R364). -/
def State.partComplete (s : State) (l : Launch) : Bool :=
  ((List.range l.lcCnt).all fun i => s.lcComplete (l.lcBase + i)) && ((List.range 32).filter l.hasDt).all s.dtComplete

/-- The contexts of a core become FREE, and the core belongs to no launch. What still waits on a bit or a word is withdrawn, here and
at other devices (R82, R364), and the tasks that the launch has left in the deque go with it (R190, assumption 150). -/
def State.freeLc (s0 : State) (u : Nat) : State :=
  let s := { s0.recallWaits (Source.ofCore u) with
    waiters := s0.waiters.filter fun r => !Source.ofCore u r.src, watchers := s0.watchers.filter fun r => !Source.ofCore u r.src }
  let c := s.coreAt u
  let s1 := [0, c.transformCtx, c.messageCtx].foldl (fun st k => st.freeContext u k) s
  s1.setCore u { s1.coreAt u with launch := none, handling := false, deque := c.deque.filter (·.launch != c.launch) }

/-- The partition is free (R353). -/
def State.freePart (s : State) (p : Nat) : State := (s.setField (pReg p 4) 0 1 0).setField (pReg p 4) 2 1 0

/-- Whether the watchdog of a launch of this device's queues has expired (R367). -/
def State.hasExpired (s : State) (l : Launch) : Bool :=
  l.home == s.dev && s.homes.any fun h => h.queue == l.queue && h.expired

/-- This device's part of the launch of partition p completes (R364): the lines of its cores are sent, and once every access is
performed its contexts become FREE, the JCB is written, and the home is told. -/
def execLaunchComplete (p : Nat) (s : State) : Out :=
  match s.launchOf p with
  | none => .next s
  | some l =>
    let lcs := (List.range l.lcCnt).map (l.lcBase + ·)
    let dts := (List.range 32).filter l.hasDt
    if !(s.mayAct && !s.paused (some p) && s.partComplete l) || s.hasExpired l then .next s
    else match lcs.findSome? fun u => ((s.coreAt u).lines.head?).map fun x => (u, x) with
    | some (u, x) => .next (s.sendLine u x)
    | none =>
      if !lcs.all s.lcSettled then .next s
      else
        let s1 := lcs.foldl State.freeLc s
        let s2 := dts.foldl (fun st n => st.setTile n { st.tileAt n with launch := none }) s1
        let s3 := (s2.putNat (l.jcb + 0x10) 8 s.rtick).putStatus l (if s2.readNat (l.jcb + 0x18) 8 = 0 then 2 else 3)
        .next (({ s3 with launches := s3.launches.filter fun x => x.1 != p }.freePart p).tell l.home (.complete s.dev l.queue))

/-- The home counts a report, and the completion of the launch when every device has reported (R364, R457). -/
def execCompletionCount (q : Nat) (s : State) : Out :=
  let mine (m : Payload) : Bool := match m with
    | .complete _ queue => queue == q
    | _ => false
  if !s.mayAct || s.homes.any (fun h => h.queue == q && h.expired) then .next s
  else match s.inbox.findIdx? mine, s.homes.find? (·.queue == q) with
  | some i, some h =>
    match s.inbox[i]? with
    | some (.complete dev _) =>
      let h1 := { h with reported := h.reported ++ [dev] }
      let s1 := s.dropInbox i
      if h1.devs.all fun d => h1.reported.contains d then
        let s2 := { s1 with homes := s1.homes.filter fun x => x.queue != q }
        let s3 := (s2.setReg (qReg q 4) (s2.reg (qReg q 4) + 1)).setField (qReg q 5) 0 1 0
        .next (if (Launch.irq ⟨h.record, s.dev, q, 0⟩) then s3.msix q else s3)
      else .next { s1 with homes := s1.homes.map fun x => if x.queue = q then h1 else x }
    | _ => .next s
  | some i, none => .next (s.dropInbox i)
  | none, _ => .next s

/-! ## Supervisor events (R366) -/

/-- The oldest event is delivered: to a handler of the service core, or to the host's event ring (R366, R454). -/
def execEventDelivery (s : State) : Out :=
  match s.events with
  | [] => .next s
  | e :: rest =>
    if s.field 0x20 2 1 = 1 then
      match s.ringWrite 0 (e.x10 ||| (zext e.code <<< 56)) e.x11 with
      | some s1 => .next { s1 with events := rest }
      | none => .next s
    else
      let c := s.coreAt serviceCore
      if c.msgq.length < 64 then
        .next ({ s with events := rest }.setCore serviceCore { c with msgq := c.msgq ++ [QueueEntry.mk (0xF0 + e.code) e.x10 e.x11] })
      else .next s

/-! ## Watchdog and partition reset (R367, R368) -/

/-- The requests of some units that are on their way are performed, and those that wait are withdrawn (R368). -/
def State.flush (mine : Source → Bool) : Nat → State → State
  | 0, s => s
  | fuel + 1, s =>
    let isReg (r : Request) : Bool := storageOf r.addr == .regs
    match s.requests.find? fun r => mine r.src && !isReg r with
    | none => { s.recallWaits mine with
                       waiters := s.waiters.filter fun r => !mine r.src, watchers := s.watchers.filter fun r => !mine r.src,
                       remote := s.remote.filter fun r => !mine r.2.src, replies := s.replies.filter fun r => !mine r.req.src }
    | some r =>
      let s1 := { s with requests := s.requests.filter (·.id != r.id) }
      match s1.perform r with
      | (s2, .more r1) => State.flush mine fuel { s2 with requests := r1 :: s2.requests }
      | (s2, .answer _) | (s2, .silent) => State.flush mine fuel s2
      | (_, .wait) | (_, .watch) => State.flush mine fuel s1

/-- The units of a partition: its logical cores, and its tiles (R353). -/
def State.partLcs (s : State) (p : Nat) : List Nat :=
  (s.cores.map (·.1)).filter fun u => decide (u < 1008) && (s.reg (pReg p 0)).getLsbD (s.cluster u)

def State.partDts (s : State) (p : Nat) : List Nat := (List.range 32).filter fun n => (s.reg (pReg p 1)).getLsbD n

/-- A context of a core that is reset. -/
def Context.reset_ (c : Context) : Context :=
  { c with state := .free, park := .none, parkRec := 0, deadline := none, pending := [], failed := [], fwd := none, moved := false,
           window := [], since := none }

/-- A core of a partition that is reset (R368). -/
def Core.cleared (c : Core) : Core :=
  { c with ctxs := c.ctxs.map Context.reset_, relaxed := [], waiting := [], entryQueue := [], lines := [], msgq := [], handling := false, deque := [],
           conts := [], tlb := [], gwait := [], gread := [], gcmds := [], cache := [], slots := Vector.replicate 8 StreamSlot.none, 
           txq := [], cursor := none, bare := (0, 0, false), launch := none }

/-- A tile of a partition that is reset (R368). -/
def Tile.cleared (t : Tile) : Tile :=
  { t with s := DtStream.reset, c := DtStream.reset, m := DtStream.reset, tokens := Vector.replicate 6 TokenQueue.none, late := [],
           eps := Vector.replicate 8 Endpoint.none, stopped := false, valid := false, code := 0, strm := 0, aux := 0, val0 := 0,
           val1 := 0, launch := none }

/-- The blocks of a tile that are on their way to a codec here are coded (R304, R368). -/
def State.flushFirn (s : State) (n : Nat) : State :=
  let mine (j : FirnJob) : Bool := match j.src with
    | .tile m _ => m == n
    | _ => false
  let s1 := (s.firn.filter fun j => mine j && j.encode && j.dev.isNone && !j.done).foldl (fun st j =>
    let b := encodeBlock j.block.k j.block.delta (j.elems.map (firnValue j.block.ty))
    let bytes := b.bytes j.block.k
    st.putScattered j.block.addrs (bytes ++ List.replicate (j.block.addrs.length - bytes.length) 0)) s
  { s1 with firn := s1.firn.filter fun j => !mine j }

/-- Steps 1 to 4 of a reset, on units of this device. -/
def State.resetUnits (s : State) (lcs dts : List Nat) : State :=
  let mine : Source → Bool
    | .ctx u _ | .gather u _ | .stream u _ | .engine u => lcs.contains u
    | .tile n _ => dts.contains n
    | _ => false
  let s0 := lcs.foldl (fun st u => ((st.coreAt u).lines).foldl (fun st l => st.sendLine u l) st) s
  let s1 := lcs.foldl (fun st u => ((st.coreAt u).waiting).foldl (fun st w => st.sendRequest w.1 w.2) st) s0
  let s2 := State.flush mine (16 * s1.requests.length + 1) s1
  let cmds := lcs.flatMap fun u => ((s2.coreAt u).gcmds).map (·.id)
  let s3 := lcs.foldl (fun st u => st.setCore u (st.coreAt u).cleared) s2
  let eps := dts.flatMap fun n => ((List.range 8).filter fun i => (s3.ep n (epIdx i)).dir != .unbound).map fun i => (n, i)
  let told := eps.foldl (fun st x => st.sendPeer x.1 (epIdx x.2) .gone) s3
  let s4 := dts.foldl (fun st n => (st.flushFirn n).setTile n (st.tileAt n).cleared) told
  { (s4.forgetWalks mine) with
            claims := s4.claims.filter fun c => !cmds.contains c.cmd, qrows := s4.qrows.filter fun r => !lcs.contains r.u,
            coach := s4.coach.filter fun x => !dts.contains x.tile, readies := s4.readies.filter fun r => !dts.contains r.1,
            tileTlbs := s4.tileTlbs.filter fun t => !dts.contains t.1 }

/-- What the end of a reset tells of a launch: TEND and STATE, the event, and, at its home, the halt of its queue (R366 to R368). -/
def State.launchReset (s : State) (p state : Nat) (l : Launch) : State :=
  let s1 := (s.putNat (l.jcb + 0x10) 8 s.rtick).putStatus l state
  let x10 := BitVec.ofNat 64 (p * 2 ^ 48 + l.queue * 2 ^ 40 + l.id)
  let code : BitVec 8 := if state = 5 then 4 else 7
  let s2 := { s1 with events := s1.events ++ [Event.mk code x10 (gaWord l.jcb)] }
  if l.home = s.dev then (s2.haltQueue l.queue (if state = 5 then 0x12 else 0x07)).setField (qReg l.queue 5) 0 1 0 else s2

/-- The launch that holds a partition: it runs, or it waits for its wake. -/
def State.holder (s : State) (p : Nat) : Option Launch := (s.launchOf p).orElse fun _ => (s.held.find? (·.part == p)).map (·.launch)

/-- The reset of partition p begins on this device, with the STATE that it ends in, 5 or 7: its units are drained and emptied
(R368, steps 1 to 4). That of a partition that no launch holds ends at once; its event names the partition (R366, R367; assumption
139). -/
def State.resetPart (s : State) (p state : Nat) : State :=
  let s0 := { (s.clearBit (pReg p 6) 0).clearBit (pReg p 6) 1 with
    preempts := s.preempts.filter fun j => j.part != p, homePreempts := s.homePreempts.filter fun h => h.part != p }
  let s1 := s0.resetUnits (s.partLcs p) (s.partDts p)
  match s.holder p with
  | some l =>
    { s1 with launches := s1.launches.filter fun (x : Nat × Launch) => x.1 != p, held := s1.held.filter fun (h : HeldLaunch) => h.part != p,
              homes := s1.homes.filter fun h => !(decide (l.home = s.dev) && h.queue == l.queue),
              resets := s1.resets ++ [⟨p, state, l⟩] }
  | none =>
    ({ s1 with events := s1.events ++ [Event.mk 7 (BitVec.ofNat 64 (p * 2 ^ 48)) 0] }).clearBit (pReg p 3) 1

/-- The reset of a partition ends on this device (R367, R368, step 5). -/
def State.resetEnd (s : State) (r : Reset) : State :=
  (({ s with resets := s.resets.filter fun x => x.part != r.part }.launchReset r.part r.state r.launch).freePart r.part).clearBit
    (pReg r.part 3) 1

/-- The home resets a launch on every device of its set, its own last. A launch that does not hold the home's partition yet has no
unit here: its reservation goes, and its end is told (assumption 140). -/
def State.resetHome (s : State) (h : HomeLaunch) (state : Nat) : State :=
  let l := launchOfRecord s h.record s.dev h.queue
  let s1 := (h.devs.filter (· != s.dev)).foldl (fun st d => st.tell d (.reset s.dev h.queue h.part state)) s
  if (s.holder h.part).any fun x => x.home = s.dev ∧ x.queue = h.queue then s1.resetPart h.part state
  else
    { s1 with homes := s1.homes.filter fun x => x.queue != h.queue,
              resvs := s1.resvs.filter fun r => !(r.home == s.dev && r.queue == h.queue) }.launchReset h.part state l

/-- A word of the protocol of reservations arrives: a request, an answer, or a release. A reservation that a device releases by
PCTL.RESET once the home has sent the wake resets the launch on every device of its set (R367, assumption 149). -/
def execReservation (n : Nat) (s : State) : Out :=
  match s.inbox[n]? with
  | some (.reserve home queue part pri record) =>
    let s1 := s.dropInbox n
    if s.field (pReg part 3) 0 1 = 1 then
      .next { s1 with resvs := s1.resvs ++ [⟨home, queue, part, pri, 0, record⟩] }
    else .next (s1.tell home (.reserved s.dev queue false))
  | some (.reserved dev queue ok) =>
    if !s.mayAct then .next s
    else
      let s1 := s.dropInbox n
      match s1.homes.find? fun h => h.queue == queue with
      | none => .next (if ok then s1.tell dev (.release s.dev queue (s.qPart queue)) else s1)
      | some h =>
        if !ok then .next (if h.woken then s1.resetHome h 7 else s1.refuseHome h)
        else if h.woken then .next (s1.tell dev (.release s.dev queue (s.qPart queue)))
        else
          let h1 := { h with granted := h.granted ++ [dev] }
          if h1.toAsk.isEmpty then
            let l := launchOfRecord s h.record s.dev queue
            let s2 := { s1 with homes := s1.homes.map fun x => if x.queue = queue then { h1 with woken := true } else x }
            .next (h1.devs.foldl (fun st d => st.tell d (.wake s.dev queue h.part (s.jcbCounters l))) s2)
          else .next (s1.askNext h1)
  | some (.release home queue part) =>
    let s1 := s.dropInbox n
    let mine (h : HeldLaunch) : Bool := h.part == part && h.launch.home == home && h.launch.queue == queue
    if s1.held.any mine then
      .next ((({ s1 with held := s1.held.filter fun h => !mine h }).setField (pReg part 4) 2 1 0).setField (pReg part 4) 0 1 0)
    else .next { s1 with resvs := s1.resvs.filter fun r => !(r.home == home && r.queue == queue && r.part == part) }
  | _ => .next s

/-- What a write of PCTL.RESET asks for, on what holds the partition (R367). -/
def State.resetAsked (s : State) (p : Nat) : State :=
  let resv := s.field (pReg p 4) 2 1 == 1
  match s.launchOf p, s.held.find? (·.part == p) with
  | some l, _ =>
    if l.home = s.dev then
      match s.homes.find? (·.queue == l.queue) with
      | some h => s.resetHome h 7
      | none => s.resetPart p 7
    else (s.resetPart p 7).tell l.home (.reset l.home l.queue p 7)
  | none, some h =>
    if resv then
      ((({ s with held := s.held.filter fun x => x.part != p }.freePart p).tell h.launch.home
        (.reserved s.dev h.launch.queue false))).clearBit (pReg p 3) 1
    else match s.homes.find? (·.queue == h.launch.queue) with
      | some x => s.resetHome x 7
      | none => s.resetPart p 7
  | none, none => s.resetPart p 7

/-- Every device of a launch has reported its completion to this one, its home, or, where it is this one, has completed its part
(R364, R367). -/
def State.homeComplete (s : State) (h : HomeLaunch) : Bool :=
  let told (d : Nat) : Bool := s.inbox.any fun m => match m with
    | .complete dev queue => dev == d && queue == h.queue
    | _ => false
  h.devs.all fun d => h.reported.contains d || told d ||
    (d == s.dev && (s.launchOf h.part).any fun l => l.home == s.dev && l.queue == h.queue && s.partComplete l)

/-- At the end of its limit tick a launch that is not complete expires (R367). -/
def State.markExpired (s : State) : State :=
  if (s.ck + 1) % 30 ≠ 0 then s
  else { s with homes := s.homes.map fun h =>
    { h with expired := h.expired || (h.limit != 0 && h.tick + h.limit == s.rtick && !s.homeComplete h) } }

/-- A watchdog has expired, and the launch unit may act on it: it does so in the first ck of the tick (R366, R367). -/
def State.expiryDue (s : State) : Bool := s.mayAct && s.homes.any (·.expired)

/-- A step of a reset of partition p (R367, R368): one that another device has asked for or has begun begins here; one that has
begun ends; and one begins for a watchdog that has expired, or for PCTL.RESET. -/
def execWatchdogExpiry (p : Nat) (s : State) : Out :=
  let mine (m : Payload) : Bool := match m with
    | .reset _ _ part _ => part == p
    | _ => false
  if !s.mayAct then .next s
  else match s.inbox.findIdx? mine with
    | some i =>
      match s.inbox[i]? with
      | some (.reset home queue _ state) =>
        let s1 := s.dropInbox i
        if home = s.dev then
          match s1.homes.find? fun h => h.queue == queue && h.part == p with
          | some h => .next (s1.resetHome h state)
          | none => .next s1
        else
          match s1.holder p with
          | some l => .next (if l.home = home ∧ l.queue = queue then s1.resetPart p state else s1)
          | none =>
            let stale (m : Payload) : Bool := match m with
              | .wake h q part _ => h == home && q == queue && part == p
              | _ => false
            .next { s1 with resvs := s1.resvs.filter fun r => !(r.home == home && r.queue == queue),
                            inbox := s1.inbox.filter fun m => !stale m }
      | _ => .next s
    | none =>
      match s.homes.find? fun h => h.part == p && h.expired, s.resets.find? (·.part == p) with
      | some h, _ => .next (s.resetHome h 5)
      | none, some r => .next (s.resetEnd r)
      | none, none =>
        if s.field (pReg p 3) 1 1 == 1 && !s.justSet (pReg p 3) 1 then .next (s.resetAsked p) else .next s

/-- A write to PCTL enables or disables its partition; masks that overlap those of an enabled one refuse it, and
until UP is 1 none is enabled (R353, R431). -/
def execPctlEnable (p : Nat) (v : Word) (s : State) : Out :=
  let shares (q : Nat) : Bool := q != p && s.field (pReg q 3) 0 1 == 1 &&
    (List.range 3).any fun n => s.reg (pReg p n) &&& s.reg (pReg q n) != 0
  if v.getLsbD 0 then
    if s.field 0x1000 8 1 = 0 then .next s
    else if s.field (pReg p 3) 0 1 = 0 ∧ (List.range 16).any shares then .next (s.setBit (pReg p 4) 3)
    else .next (s.setField (pReg p 3) 0 1 1)
  else .next (s.setField (pReg p 3) 0 1 0)

/-- A write of 1 to PCTL.RESET asks for a reset of what holds the partition, which the launch unit begins when it may (R366, R367). -/
def execPctlReset (p : Nat) (v : Word) (s : State) : Out :=
  .next (if v.getLsbD 1 then s.setBit (pReg p 3) 1 else s)

end Sys2Proof.Machine
end

