-- ==== Sys2Proof/Machine/Image.lean ====
section
/-! DEFINITION. The launch image of a device (R388 to R391, R400 to R405): its header, the section of each core and the
section of each tile, as they are written and as they are read back. -/

namespace Sys2Proof.Machine

/-! ## Plain parts -/

/-- n bytes copied, with the check states of whole beats; a controller that reads a failing line logs it (R415, R418). -/
def State.copyImage (s : State) (src n dst : Nat) : State :=
  let bad := s.failing.filter fun b => decide (src ≤ b ∧ b < src + n)
  (bad.foldl State.controllerRead s).putBytes dst (s.readBytes src n) (bad.map fun b => b - src + dst)

/-- Words from an address on. -/
def State.putWords (s : State) (a : Nat) (ws : List Nat) : State := s.putBytes a (natToBytes (8 * ws.length) (joinLanes 64 ws))

/-- Records of n bytes each, as numbers, from an address on. -/
def State.putRecords (s : State) (a n : Nat) (rs : List Nat) : State :=
  s.putBytes a (natToBytes (n * rs.length) (joinLanes (8 * n) rs))

/-- Record i of n bytes at an address. -/
def State.recordAt (s : State) (a n i : Nat) : Nat := s.readNat (a + n * i) n

/-- Bits as a number, the first least significant. -/
def bitsNat (l : List Bool) : Nat := joinLanes 1 (l.map fun b => if b then 1 else 0)

/-- Sets or clears the full bits of granules from an address on. -/
def State.putGranules (s : State) (a n bits : Nat) : State :=
  (List.range n).foldl (fun st g => if bitOf bits g then st.setFull (a + 16 * g) else st.setEmpty (a + 16 * g)) s

/-- Sizes of the sections (R400). -/
def lcSection : Nat := 0x48000
def dtSection : Nat := 0x14A0000

/-- The cores and the tiles of a launch, in ascending order. -/
def Launch.lcs (l : Launch) : List Nat := (List.range l.lcCnt).map (l.lcBase + ·)
def Launch.dts (l : Launch) : List Nat := (List.range 32).filter l.hasDt

def Launch.imageSize (l : Launch) : Nat := 0x5000 + lcSection * l.lcs.length + dtSection * l.dts.length

/-- The 48-bit address of a partition's image (R396). -/
def State.imageAddr (s : State) (p : Nat) : Nat := (s.reg (pReg p 5)).toNat % 2 ^ 48 / 4096 * 4096

/-- n bytes of the image lie in one channel or shard of this device (R396). -/
def State.imageInOne (s : State) (p n : Nat) : Bool :=
  let dev := (s.reg (pReg p 5)).toNat / 2 ^ 48
  let a := s.imageAddr p
  let mem : Bool := match storageOf a with
    | .channel _ | .shard _ => true
    | _ => false
  (dev == 0xFFFF || dev == s.dev) && mem && storageOf (a + n - 1) == storageOf a && decide (offOf a + n ≤ 2 ^ 37)

/-- The stepping of this part, from its fuses (R432). -/
def State.stepping (s : State) : Nat := s.field 0x1800 0 16

/-! ## The header (R400) -/

def State.saveHeader (s : State) (b p : Nat) (l : Launch) (left : Nat) : State :=
  let s1 := s.putBytes b (List.replicate 0x1000 0)
  let s2 := s1.putWords b [2 ^ 16 + s.stepping, l.imageSize, boxCount l.box * 2 ^ 16 + l.rank, left, p * 2 ^ 8 + l.queue, l.dtSet]
  let s3 := s2.putWords (b + 0x100) (l.record.map (·.toNat))
  s3.copyImage (scopeAddr 0) 0x4000 (b + 0x1000)

/-- The record in a header. -/
def State.imageRecord (s : State) (b : Nat) : List Word := (List.range 32).map fun i => BitVec.ofNat 64 (s.readNat (b + 0x100 + 8 * i) 8)

/-! ## A core's section (R388 to R391, R401) -/

/-- A context that waits on its own queue (R65). -/
def Context.idle (c : Context) : Bool := c.state == .parked && (match c.park with | .queue => true | _ => false)

/-- The state of a context in its record: a parked context is imaged as RUN (R389). -/
def ctxCode (c : Context) : Nat :=
  match c.state with
  | .free => 0 | .run | .parked => 1 | .done => 3 | .stopped => 4

def originCode : Origin → Nat
  | .head => 0 | .started => 1 | .spawned => 2 | .joined => 3

def originOf (v : Nat) : Origin :=
  match v with
  | 0 => .head | 1 => .started | 2 => .spawned | _ => .joined

/-- The stream slots that a context owns. -/
def Core.ownSlots (c : Core) (k : Nat) : Nat :=
  bitsNat ((List.finRange 8).map fun i => (c.slots.get i).isOpen && (c.slots.get i).owner == k)

/-- A context record (R389). -/
def Core.ctxRecord (c : Core) (k : Fin 16) : Nat :=
  let x := c.ctxs.get k
  let w0 := (if x.moved then 2 ^ 11 else 0) + originCode x.origin * 2 ^ 9 + (if c.m8 then 2 ^ 8 else 0) + k.val * 16 + ctxCode x
  let reaper := if x.origin = .started then (ownId (unitOfId x.reaper) 0).toNat else 0
  joinLanes 64 [w0, x.wsp.toNat, reaper, c.ownSlots k.val]

/-- A stream-slot record (R391). -/
def StreamSlot.record (x : StreamSlot) : Nat :=
  joinLanes 64 [x.va.toNat, x.n + x.pos * 2 ^ 32,
    (if x.isOpen then 1 else 0) + (if x.w = 8 then 2 else 0) + x.owner * 4, 0]

def slotOfRecord (v : Nat) : StreamSlot :=
  ⟨bitOf v 128, BitVec.ofNat 64 v, bitsOf v 64 32, if bitOf v 129 then 8 else 4, bitsOf v 96 32, bitsOf v 130 4⟩

/-- A forwarding entry (R395). -/
def forwardRecord : Option Forward → Nat
  | some f => joinLanes 64 [f.target.toNat, 1 + (if f.reap then 2 else 0)]
  | none => 0

def forwardOfRecord (v : Nat) : Option Forward := if bitOf v 64 then some ⟨BitVec.ofNat 64 v, bitOf v 65⟩ else none

/-- The segments of a core, the current one first, each with the offset of its bytes (R401). -/
def Core.segments (c : Core) : List (Segment × Nat) :=
  let all := (c.cursor.map (·.seg)).toList ++ c.txq
  (all.foldl (fun (acc : List (Segment × Nat) × Nat) g => (acc.1 ++ [(g, acc.2)], acc.2 + g.bytes.length)) ([], 0)).1

/-- The state area of a core. -/
def State.saveLcState (s : State) (u a : Nat) : State :=
  let c := s.coreAt u
  let segs := c.segments
  let s1 := s.putBytes a (List.replicate 0x8000 0)
  let s2 := s1.putBytes a (natToBytes 2048 (bitsNat ((List.range 16384).map fun g => s.isFull (lsAddr u (16 * g)))))
  let counts := (if c.m8 then 1 else 0) + c.deque.length * 2 ^ 16 + c.msgq.length * 2 ^ 24 + c.conts.length * 2 ^ 32 + segs.length * 2 ^ 40
  let s3 := s2.putWords (a + 0x1000) [counts]
  let s4 := s3.putWords (a + 0x1040) (c.sregs.toList.map fun r => (((r.pend.getLast?).map (·.2)).getD r.cur).toNat)
  let s5 := s4.putBytes (a + 0x1080) (natToBytes 32 c.holdNext.toNat)
  let s6 := s5.putRecords (a + 0x1100) 32 ((List.finRange 16).map c.ctxRecord)
  let s7 := s6.putRecords (a + 0x1300) 32 (c.slots.toList.map StreamSlot.record)
  let s8 := s7.putRecords (a + 0x1400) 16 (c.ctxs.toList.map fun x => forwardRecord x.fwd)
  let s9 := s8.putRecords (a + 0x1800) 48 (c.deque.reverse.map fun t => joinLanes 64 (t.pc.toNat :: t.args.map (·.toNat)))
  let s10 := s9.putRecords (a + 0x2400) 32 (c.msgq.map fun e => joinLanes 64 [e.hidx.toNat, e.arg.toNat, e.source.toNat])
  let s11 := s10.putRecords (a + 0x2C00) 32 (c.conts.map fun x => joinLanes 64 [x.epc.toNat, x.arg.toNat])
  let s12 := s11.putRecords (a + 0x3400) 16 (segs.map fun x =>
    joinLanes 64 [x.1.row, x.1.index + x.1.bytes.length * 2 ^ 16 + x.2 * 2 ^ 32])
  let cur := match c.cursor with
    | some x => [x.p, x.acc.toNat, (if x.err then 1 else 0) + 2]
    | none => [c.bare.1, c.bare.2.1.toNat, if c.bare.2.2 then 1 else 0]
  let s13 := s12.putWords (a + 0x3500) cur
  segs.foldl (fun st x => st.putBytes (a + 0x4000 + x.2) x.1.bytes (x.1.bad.map fun b => a + 0x4000 + x.2 + 64 * b)) s13

/-- The section of a core: its workspaces are written back first (R397, R401). -/
def State.saveLc (s : State) (u b : Nat) : State :=
  let busy := (List.finRange 16).filter fun k => decide (k.val < (s.coreAt u).nctx) && (s.ctxAt u k).state != .free
  let s1 := busy.foldl (fun st k => st.writeBack u k) s
  (s1.copyImage (lsAddr u 0) 0x40000 b).saveLcState u (b + 0x40000)

/-- A message context that has run no handler since its wake: its registers are as the wake left them (R359), and no instruction
stands at its PC (R406; assumption 96). -/
def Context.neverRan (m : Context) : Bool := m.pc == 0 && (List.finRange 32).all fun i => m.x.get i == 0

/-- A context as its record and its workspace give it (R388, R389, R405). -/
def State.loadCtx (s : State) (u : Nat) (k : Fin 16) (rec fwd : Nat) : State :=
  let x := s.loadedFrom u k (BitVec.ofNat 18 (rec / 2 ^ 64))
  let code := rec % 16
  let w := s.readNat (lsAddr u (bitsOf rec 64 18 + 0x370)) 16
  let st : CtxState := match code with
    | 1 => .run | 3 => .done | 4 => .stopped | _ => .free
  let base := if code = 0 then { (coreReset u).ctxs.get k with wsp := x.wsp, tvec := x.tvec, pc := x.pc } else x
  s.setCtx u k
    { base with state := st, stop := (BitVec.ofNat 8 w, BitVec.ofNat 64 (w / 2 ^ 64)), origin := originOf (bitsOf rec 9 2),
                moved := bitOf rec 11, reaper := BitVec.ofNat 64 (rec / 2 ^ 128), fwd := forwardOfRecord fwd, park := .none,
                parkRec := 0, deadline := none, since := none, readyAt := s.ck + 1 }

/-- A core as its section gives it. -/
def State.loadLc (s : State) (p : Nat) (l : Launch) (u b : Nat) : State :=
  let a := b + 0x40000
  let word (o : Nat) : Nat := s.readNat (a + o) 8
  let counts := word 0x1000
  let s1 := (s.copyImage b 0x40000 (lsAddr u 0)).putGranules (lsAddr u 0) 16384 (s.readNat a 2048)
  let old := s.coreAt u
  let segs := (List.range (bitsOf counts 40 5)).map fun i =>
    let r := s.recordAt (a + 0x3400) 16 i
    let n := bitsOf r 80 15
    let at_ := a + 0x4000 + bitsOf r 96 14
    Segment.mk (s.readBytes at_ n) (bitsOf r 64 16) (r % 2 ^ 64) ((List.range (n / 64)).filter fun j => s.failing.contains (at_ + 64 * j))
  let present := bitOf (word 0x3510) 1
  let hold := BitVec.ofNat 256 (s.readNat (a + 0x1080) 32)
  let c : Core := { old.cleared with
    m8 := bitOf counts 0, sregs := Vector.ofFn fun i => ⟨BitVec.ofNat 64 (word (0x1040 + 8 * i.val)), []⟩,
    hold := hold, holdNext := hold, launch := some p, ptroot := BitVec.ofNat 64 (l.word 0x60),
    cache := old.cache.filter fun r => !l.binds r.tid,
    slots := Vector.ofFn fun i => slotOfRecord (s.recordAt (a + 0x1300) 32 i.val),
    deque := ((List.range (bitsOf counts 16 7)).map fun i =>
      let r := s.recordAt (a + 0x1800) 48 i
      Task.mk (BitVec.ofNat 64 r) ((List.range 4).map fun j => BitVec.ofNat 64 (r / 2 ^ (64 * (j + 1)))) (some p)).reverse,
    msgq := (List.range (bitsOf counts 24 7)).map fun i =>
      let r := s.recordAt (a + 0x2400) 32 i
      QueueEntry.mk (BitVec.ofNat 8 r) (BitVec.ofNat 64 (r / 2 ^ 64)) (BitVec.ofNat 64 (r / 2 ^ 128)),
    conts := (List.range (bitsOf counts 32 7)).map fun i =>
      let r := s.recordAt (a + 0x2C00) 32 i
      Continuation.mk (BitVec.ofNat 64 r) (BitVec.ofNat 64 (r / 2 ^ 64)),
    txq := if present then segs.drop 1 else segs,
    cursor := match present, segs with
      | true, g :: _ => some ⟨g, word 0x3500, BitVec.ofNat 64 (word 0x3508), bitOf (word 0x3510) 0⟩
      | _, _ => none,
    bare := (word 0x3500, BitVec.ofNat 64 (word 0x3508), bitOf (word 0x3510) 0) }
  let s2 := s1.setCore u c
  let s3 := (List.finRange 16).foldl (fun st k =>
    if k.val < c.nctx then st.loadCtx u k (s.recordAt (a + 0x1100) 32 k.val) (s.recordAt (a + 0x1400) 16 k.val) else st) s2
  let m := s3.ctxAt u c.messageCtx
  if m.state ≠ .run then s3
  else if m.neverRan then s3.setCtx u c.messageCtx { m with state := .parked, park := .queue, parkedAt := s.ck }
  else s3.setCore u { s3.coreAt u with handling := true }


/-! ## A tile's section (R402 to R404) -/

/-- An endpoint record (R403). The peer of a pending grant of an unbound endpoint stands as its PEER. -/
def State.epRecord (s : State) (l : Launch) (e : Endpoint) : List Nat :=
  let dir : Nat := match e.dir with
    | .unbound => 0 | .inbound => 1 | .outbound => 2
  let flags := (if e.closing then 16 else 0) + (if e.close then 8 else 0) + (if e.pend.isSome then 4 else 0) + dir
  let peer := if e.dir = .unbound then e.pend.getD (0, 0, 0) else e.peer
  let who : Nat := match boxRank s.dev l.box peer.1 with
    | some r => 2 ^ 63 + r
    | none => peer.1
  let peerWord := if e.dir = .unbound ∧ e.pend.isNone then 0 else who + peer.2.1 * 2 ^ 16 + peer.2.2 * 2 ^ 21
  [flags, peerWord, e.permits, e.occ.toNat, e.offset * 2 ^ 16 + e.head.toNat, e.fill]

/-- An endpoint from its record: its peer is known by its rank where it is in the set. Whether its peer has granted is told
by its permits. -/
def State.epOfRecord (s : State) (newBox : Nat) (a : Nat) : Endpoint :=
  let w (i : Nat) : Nat := s.readNat (a + 8 * i) 8
  let peer : Nat × Nat × Nat :=
    (if bitOf (w 1) 63 then boxDev s.dev newBox (w 1 % 2 ^ 16) else w 1 % 2 ^ 16, bitsOf (w 1) 16 5, bitsOf (w 1) 21 3)
  { Endpoint.none with
    dir := match w 0 % 4 with
      | 1 => .inbound | 2 => .outbound | _ => .unbound,
    peer := if w 0 % 4 = 0 then (0, 0, 0) else peer, occ := BitVec.ofNat 32 (w 3), head := BitVec.ofNat 5 (w 4), offset := bitsOf (w 4) 16 9,
    permits := w 2 % 64, granted := w 2 % 64 != 0, fill := w 5 % 2 ^ 10, pend := if bitOf (w 0) 2 then some peer else none,
    close := bitOf (w 0) 3, closing := bitOf (w 0) 4, held := w 0 % 4 != 0, heldBack := !bitOf (w 1) 63 }

/-- The status code of a stream (R404). -/
def statusCode : StreamStatus → Nat
  | .run => 0 | .wait => 1 | .halting => 2 | .halted => 3 | .stopped => 4

def statusOf (v : Nat) : StreamStatus :=
  match v with
  | 0 => .run | 1 => .wait | 2 => .halting | 3 => .halted | _ => .stopped

/-- An entry of the S queue, the C queue or the posted steps. -/
def DtCmd.entry (c : DtCmd) : Nat :=
  (instrWord c.instr).toNat + (c.cursor + (if c.started then 2 ^ 32 else 0) + (if c.desc then 2 ^ 33 else 0)) * 2 ^ 64 +
    (c.ja.toNat + c.jb.toNat * 2 ^ 32) * 2 ^ 128 + bytesToNat c.recA * 2 ^ 512 + bytesToNat c.recB * 2 ^ 1024

/-- A command from its entry; an xce whose step Coach held keeps its occurrence and meets its peer anew. -/
def cmdOfEntry (st : Stream) (id v : Nat) : Option DtCmd :=
  let w := BitVec.ofNat 64 v
  let i := (match st with | .c => decodeC w | _ => decodeS w).toOption
  i.map fun i =>
    { id := id, idx := 0, instr := i, ja := BitVec.ofNat 32 (v / 2 ^ 128), jb := BitVec.ofNat 32 (v / 2 ^ 160),
      recA := natToBytes 64 (v / 2 ^ 512), recB := natToBytes 64 (v / 2 ^ 1024), cursor := bitsOf v 64 32, started := bitOf v 96,
      desc := bitOf v 97, phys := [], occ := none, buf := [], sent := false, clearing := false, checked := 0, reqs := [],
      capA := none, capB := none, wait := none }

/-- A loop record as a word (R404): the M stream closes at its END, the others before it. -/
def DtLoop.words (r : DtLoop) : List Nat :=
  [r.count.toNat + r.start * 2 ^ 32 + r.last % 4096 * 2 ^ 48 + 2 ^ 63, r.ind.toNat + r.step.toNat * 2 ^ 8]

def loopOfRecord (isM : Bool) (w0 w1 : Nat) : Option DtLoop :=
  let last := bitsOf w0 48 12
  if bitOf w0 63 then
    some ⟨BitVec.ofNat 32 w0, bitsOf w0 32 12, if !isM ∧ last = 0 then 4096 else last, BitVec.ofNat 4 w1, BitVec.ofNat 8 (w1 / 2 ^ 8)⟩
  else none

/-- The trap record as a register (R208). -/
def Tile.ttrap (t : Tile) : Nat := t.aux.toNat * 2 ^ 32 + t.strm.toNat * 2 ^ 16 + (if t.valid then 2 ^ 8 else 0) + t.code.toNat

/-- TCTL as a register (R207). -/
def Tile.tctl (t : Tile) : Nat := t.lwd.toNat * 2 ^ 8 + t.aq.toNat

/-- The tile of an image, before it is written: a word that holds its stream has its pops given back, and is to be issued
anew. -/
def State.unhold (s : State) (n : Nat) : State :=
  let t := s.tileAt n
  match t.s.held with
  | none => s
  | some h =>
    let back := (popsOf .s h.tok 0).foldl (fun t q =>
      { t with tokens := vset t.tokens q.1 ((t.tokens.get q.1).unpop q.2) }) t
    s.setTile n { back with s := { back.s with held := none } }

/-- The posted steps of a tile, oldest first. -/
def State.posted (s : State) (n : Nat) : List DtCmd :=
  (s.coach.filter fun x => x.tile == n && x.chain).map (·.cmd)

/-- A crossing that a stopped tile has still to report, as a record (R50). -/
def lateRecord (x : Stream × BitVec 8 × Word × BitVec 16) : Nat :=
  x.2.2.1.toNat + (x.2.1.toNat + 2 ^ 8 * (streamCode x.1) + 2 ^ 16 * x.2.2.2.toNat) * 2 ^ 64

def lateOfRecord (v : Nat) : Stream × BitVec 8 × Word × BitVec 16 :=
  let st : Stream := match bitsOf v 72 8 with
    | 0 => .s | 1 => .c | _ => .m
  (st, BitVec.ofNat 8 (v / 2 ^ 64), BitVec.ofNat 64 v, BitVec.ofNat 16 (v / 2 ^ 80))

/-- MPC: the index of the next bundle, or, where the vector item of a bundle has trapped, that of the bundle (R208, R242). -/
def Tile.mpc (t : Tile) : Nat :=
  match t.m.held with
  | some h => if h.trapped then h.idx else t.m.pc
  | none => t.m.pc

/-- The vector item that has issued and that a stopped M stream has still to perform: the PC that follows its bundle, the turn of the
rotating window, the place of its bundle's matrix item in the queue, and its pushes; and its index register. -/
def Tile.heldRecord (t : Tile) : Nat :=
  match t.m.held with
  | none => 0
  | some h =>
    let place := ((t.m.queue.findIdx? fun (c : DtCmd) => some c.id == h.cmd).map (· + 1)).getD 0
    t.m.pc % 4096 + h.idx % 4096 * 2 ^ 12 + h.rrb.toNat * 2 ^ 24 + place * 2 ^ 32 + h.tok.toNat * 2 ^ 40 + h.two.toNat * 2 ^ 44 +
      (if h.all then 2 ^ 48 else 0) + (if h.trapped then 2 ^ 49 else 0) + 2 ^ 63 + h.jn.toNat * 2 ^ 64

/-- The item of a record, in tile m, whose instruction memory has been restored; id is the number of the first matrix item. -/
def State.heldOfRecord (s : State) (m id v : Nat) : Option DtHeld :=
  let idx := bitsOf v 12 12
  if !bitOf v 63 then none
  else match decodeBundle (BitVec.ofNat 128 (s.readNat (imemAddr m .m idx) 16)) with
    | .ok b => b.vector.map fun i =>
      { idx := idx, instr := i, rrb := BitVec.ofNat 8 (v / 2 ^ 24), jn := BitVec.ofNat 32 (v / 2 ^ 64), reqs := [], born := id + 32,
        tok := BitVec.ofNat 4 (v / 2 ^ 40), two := BitVec.ofNat 4 (v / 2 ^ 44), all := bitOf v 48, trapped := bitOf v 49,
        cmd := if bitsOf v 32 8 = 0 then none else some (id + bitsOf v 32 8 - 1) }
    | .reject _ => none

/-- The state block of a tile (R404). The crossings that a stopped tile has still to report, which R50 lets none be lost of, stand in
reserved bytes: their number at 0xC268 and their records from 0xC280 on; a vector item that has issued and is not finished stands at
0xC270 (assumption 152). -/
def State.saveBlock (s : State) (n a : Nat) : State :=
  let t := s.tileAt n
  let s1 := s.putBytes a (natToBytes 0x8000 (bitsNat ((List.range 0x40000).map fun g => s.isFull (tsAddr n (16 * g)))))
  let s2 := s1.putBytes (a + 0x9800) (natToBytes 2048 (joinLanes 16 ((List.range 1024).map fun i => lookup 0 t.occs i)))
  let s3 := s2.putBytes (a + 0xC000) (List.replicate 0x4000 0)
  let status := statusCode t.s.status + statusCode t.c.status * 16 + statusCode t.m.status * 256 + t.pendFull.toNat * 2 ^ 16 +
    (t.rrbAt s.ck).toNat * 2 ^ 24
  let s4 := s3.putWords (a + 0xC000) [status, t.s.pc % 4096 + t.c.pc % 4096 * 2 ^ 16 + t.mpc % 4096 * 2 ^ 32, t.tctl, t.fcsr.toNat, t.ttrap, t.val0.toNat,
    t.val1.toNat]
  let s5 := s4.putBytes (a + 0xC040) (natToBytes 16 (joinLanes 16 (t.preds.toList.map (·.toNat))))
  let js (x : DtStream) : List Byte := natToBytes 64 (joinLanes 32 (x.j.toList.map (·.toNat)))
  let s6 := ((s5.putBytes (a + 0xC080) (js t.s)).putBytes (a + 0xC0C0) (js t.c)).putBytes (a + 0xC100) (js t.m)
  let s7 := (List.finRange 6).foldl (fun st q =>
    let l := t.tokens.get q
    (st.putBytes (a + 0xC140 + 16 * q.val) (natToBytes 16 (joinLanes 16 (l.slots.toList.map (·.1.toNat))))).putNat
      (a + 0xC1A0 + 2 * q.val) 2 (l.count * 2 ^ 8 + l.head.toNat)) s6
  let s8 := s7.putWords (a + 0xC200) ((t.m.loops.reverse.map fun r => r.words.getD 0 0))
  let s9 := s8.putWords (a + 0xC220) (t.s.loops.reverse.flatMap DtLoop.words)
  let s10 := s9.putWords (a + 0xC240) (t.c.loops.reverse.flatMap DtLoop.words)
  let posted := s.posted n
  let s11 := s10.putWords (a + 0xC260)
    [t.s.queue.length + t.c.queue.length * 2 ^ 8 + t.m.queue.length * 2 ^ 16 + posted.length * 2 ^ 24, t.late.length, t.heldRecord % 2 ^ 64, t.heldRecord / 2 ^ 64]
  let s12 := (s11.putRecords (a + 0xC280) 16 (t.late.map lateRecord)).putRecords (a + 0xD000) 192 (t.s.queue.map DtCmd.entry)
  let s13 := s12.putRecords (a + 0xDC00) 192 (t.c.queue.map DtCmd.entry)
  let s14 := s13.putRecords (a + 0xF000) 192 (posted.map DtCmd.entry)
  s14.putRecords (a + 0xE800) 64 (t.m.queue.map fun c =>
    c.bundle.toNat + (c.cursor + (if c.started then 2 ^ 32 else 0) + (if c.desc then 2 ^ 33 else 0)) * 2 ^ 128 +
      c.phys.getD 0 0 * 2 ^ 192)

/-- The section of a tile: its storage as it stands, the endpoint records and the state block over it. -/
def State.saveDt (s : State) (l : Launch) (n b : Nat) : State :=
  let s0 := s.unhold n
  let s1 := s0.copyImage (tsAddr n 0) 0x400000 b
  let s2 := s1.copyImage (dtAddr n 0x400000) (dtSection - 0x400000) (b + 0x400000)
  let s3 := (List.finRange 8).foldl (fun st i =>
    let a := b + 0x1450000 + 0x8000 * i.val
    (st.putBytes a (List.replicate 0x200 0)).putWords a (s.epRecord l ((s.tileAt n).eps.get i))) s2
  s3.saveBlock n (b + 0x1490000)

/-- A stream from the state block. -/
def State.loadStream (s : State) (a : Nat) (st : Stream) (cmds : List DtCmd) : DtStream :=
  let i := streamCode st
  let pcs := s.readNat (a + 0xC008) 8
  let w (o : Nat) : Nat := s.readNat (a + o) 8
  let loops := match st with
    | .m => (List.range 4).filterMap fun v => loopOfRecord true (w (0xC200 + 8 * v)) 0
    | .s => (List.range 2).filterMap fun v => loopOfRecord false (w (0xC220 + 16 * v)) (w (0xC228 + 16 * v))
    | .c => (List.range 2).filterMap fun v => loopOfRecord false (w (0xC240 + 16 * v)) (w (0xC248 + 16 * v))
  { DtStream.reset with
    pc := bitsOf pcs (16 * i) 12, j := Vector.ofFn fun k => BitVec.ofNat 32 (s.readNat (a + 0xC080 + 64 * i + 4 * k.val) 4),
    loops := loops.reverse, status := statusOf (bitsOf (w 0xC000) (4 * i) 3), queue := cmds }

/-- The occurrences of steps that stand in order: each counts back from the tile's count (R306, R398). A step that has completed,
whose cursor is 1, is not run again. -/
def giveOccs (occs : List (Nat × Nat)) : List DtCmd → List DtCmd
  | [] => []
  | c :: rest =>
    match coachOp c.instr with
    | some (_, o) =>
      let key := occKey o.scope.toNat o.step.toNat
      let after := (rest.filter fun y => match coachOp y.instr with
        | some (_, z) => y.started && occKey z.scope.toNat z.step.toNat == key
        | none => false).length
      (if c.started ∧ c.cursor = 0 then { c with started := false, cursor := 0, occ := some (lookup 0 occs key - after - 1) } else c) :: giveOccs occs rest
    | none => c :: giveOccs occs rest

/-- The matrix queue of the state block. -/
def State.loadMatrix (s : State) (a id n : Nat) (j : BitVec 32) : List DtCmd :=
  (List.range n).filterMap fun e =>
    let v := s.recordAt (a + 0xE800) 64 e
    let base := bitsOf v 192 16
    match decodeBundle (BitVec.ofNat 128 v) with
    | .ok ⟨some i, _, _, _, _⟩ =>
      let phys := match i with
        | .mdrain o => (match o.target with
          | .v _ => (List.range (4 * o.ty.width)).map fun k => if base < 384 then base + k else 384 + (base - 384 + k) % 256
          | _ => [])
        | _ => []
      some { id := id + e, idx := 0, instr := i, ja := j, jb := 0, recA := [], recB := [], cursor := bitsOf v 128 32,
             started := bitOf v 160, desc := bitOf v 161, phys := phys, occ := none, buf := [], sent := false, clearing := false,
             checked := 0, reqs := [], capA := none, capB := none, wait := none, bundle := BitVec.ofNat 128 v }
    | _ => none

/-- The pushes that the commands of a stream have still to make, and those of a halt that has issued; the image keeps no
others (R404). -/
def State.loadPushes (s : State) (n : Nat) (st : Stream) (x : DtStream) (words : List (Nat × BitVec 4 × BitVec 4)) : List DtPush :=
  let own := (words.filter fun w => !(pushesOf st w.2.1 w.2.2).isEmpty).map fun w => DtPush.mk 0 w.2.1 w.2.2 (some w.1) false none
  let last := x.pc - 1
  let bits := s.readNat (imemAddr n st last) 1
  if x.status = .halting then
    own ++ [⟨last, BitVec.ofNat 4 bits, if st = .m then BitVec.ofNat 4 (bits / 16) else 0, none, true, none⟩]
  else own

/-- A tile as its section gives it, in place m of the partition (R402 to R406). -/
def State.loadDt (s : State) (p newBox m b : Nat) : State :=
  let a := b + 0x1490000
  let w (o : Nat) : Nat := s.readNat (a + o) 8
  let s1 := (s.copyImage b 0x400000 (tsAddr m 0)).putGranules (tsAddr m 0) 0x40000 (s.readNat a 0x8000)
  let s2 := s1.copyImage (b + 0x400000) (dtSection - 0x400000) (dtAddr m 0x400000)
  let counts := w 0xC260
  let occs := (List.range 1024).filterMap fun i =>
    let v := s.readNat (a + 0x9800 + 2 * i) 2
    if v = 0 then none else some (i, v)
  let id := s.nextId
  let entries (st : Stream) (o id n : Nat) : List DtCmd := (List.range n).filterMap fun e => cmdOfEntry st (id + e) (s.recordAt (a + o) 192 e)
  let cQ := entries .c 0xDC00 (id + 64) (bitsOf counts 8 5)
  let sQ := giveOccs occs (entries .s 0xF000 id (bitsOf counts 24 5) ++ entries .s 0xD000 (id + 32) (bitsOf counts 0 5))
  let mj := BitVec.ofNat 32 (s.readNat (a + 0xC13C) 4)
  let mQ := s.loadMatrix a (id + 96) (bitsOf counts 16 3) mj
  let held := s2.heldOfRecord m (id + 96) (s.readNat (a + 0xC270) 16)
  let strm (st : Stream) (q : List DtCmd) : DtStream :=
    let x := s2.loadStream a st q
    let words := match st with
      | .m => ((List.range mQ.length).filter fun e => (held.map DtHeld.cmd) != some (some (id + 96 + e))).map fun e => let v := s.recordAt (a + 0xE800) 64 e; (id + 96 + e, BitVec.ofNat 4 v, BitVec.ofNat 4 (v / 16))
      | _ => q.map fun c => (c.id, (instrWord c.instr).setWidth 4, 0)
    let x1 := { x with pushes := s2.loadPushes m st x words }
    match st, held with
    | .m, some h => { x1 with held := some h, pc := bitsOf (w 0xC270) 0 12 }
    | _, _ => x1
  let ttrap := w 0xC020
  let t : Tile :=
    { (s.tileAt m).cleared with
      s := strm .s sQ, c := strm .c cQ, m := strm .m mQ, lwd := BitVec.ofNat 5 (w 0xC010 / 2 ^ 8), aq := BitVec.ofNat 2 (w 0xC010),
      fcsr := BitVec.ofNat 9 (w 0xC018), rrb := BitVec.ofNat 8 (w 0xC000 / 2 ^ 24), rrbNext := none,
      preds := Vector.ofFn fun i => BitVec.ofNat 16 (s.readNat (a + 0xC040 + 2 * i.val) 2),
      tokens := Vector.ofFn fun q =>
        let at_ := a + 0xC140 + 16 * q.val
        let hd := s.readNat (a + 0xC1A0 + 2 * q.val) 2
        ⟨BitVec.ofNat 3 hd, bitsOf hd 8 4, Vector.ofFn fun i => (BitVec.ofNat 12 (s.readNat (at_ + 2 * i.val) 2), s.ck)⟩,
      pendFull := BitVec.ofNat 4 (w 0xC000 / 2 ^ 16),
      eps := Vector.ofFn fun i => s.epOfRecord newBox (b + 0x1450000 + 0x8000 * i.val),
      occs := occs, valid := bitOf ttrap 8, code := BitVec.ofNat 8 ttrap, strm := BitVec.ofNat 2 (ttrap / 2 ^ 16),
      aux := BitVec.ofNat 16 (ttrap / 2 ^ 32), val0 := BitVec.ofNat 64 (w 0xC028), val1 := BitVec.ofNat 64 (w 0xC030),
      launch := some p, late := (List.range (w 0xC268)).map fun i => lateOfRecord (s.recordAt (a + 0xC280) 16 i) }
  let ended (x : DtStream) : Bool := x.status == .stopped
  { s2.setTile m { t with stopped := ended t.s || ended t.c || ended t.m || t.valid } with nextId := id + 128 }

end Sys2Proof.Machine
end

