-- ==== Sys2Proof/Machine/Preempt.lean ====
section
/-! DEFINITION. Pre-emption (R396 to R406): a save of a launch and its restore, device by device and at the home; and the
resume of a stopped context or tile (R407 to R409). -/

namespace Sys2Proof.Machine

/-! ## Registers and messages -/

/-- RESULT of PPRE, and the end of its RS bits (R6, R396). -/
def State.preEnd (s : State) (p result : Nat) : State :=
  ((s.setField (pReg p 6) 4 4 result).clearBit (pReg p 6) 0).clearBit (pReg p 6) 1

/-- An RS bit of PPRE that was set in the ck in which its action ended clears at the end of a later ck (R6). -/
def State.settlePre (s : State) (p : Nat) : State :=
  if s.field (pReg p 6) 0 2 = 0 ∨ s.homePreempts.any (·.part == p) then s
  else (s.clearBit (pReg p 6) 0).clearBit (pReg p 6) 1

def State.settlePres (s : State) : State := (List.range 16).foldl State.settlePre s

/-- An event about a launch (R366). -/
def State.launchEvent (s : State) (code : BitVec 8) (p : Nat) (l : Launch) : State :=
  { s with events := s.events ++ [⟨code, BitVec.ofNat 64 (p * 2 ^ 48 + l.queue * 2 ^ 40 + l.id), gaWord l.jcb⟩] }

def State.setPreempt (s : State) (j : Preempt) : State :=
  { s with preempts := s.preempts.map fun x => if x.part = j.part then j else x }

def State.setHomePre (s : State) (h : HomePreempt) : State :=
  { s with homePreempts := s.homePreempts.map fun x => if x.launch.queue = h.launch.queue then h else x }

def State.dropHomePre (s : State) (q : Nat) : State :=
  { s with homePreempts := s.homePreempts.filter fun x => x.launch.queue != q }

/-- Ticks left of the watchdog of a launch, 0 for none (R397, R400). -/
def State.ticksLeft (s : State) (q : Nat) : Nat :=
  match s.homes.find? (·.queue == q) with
  | some h => if h.limit = 0 then 0 else max 1 (h.tick + h.limit - s.rtick)
  | none => 0

/-! ## The save on one device (R397 to R399) -/

/-- Whether a wait ends without effect when its launch is saved (R82, R390, R397): one that R82 withdraws, or one for the answer to
a packet that is known to have been dropped (R461). -/
def State.savesWait (s : State) (u k : Nat) : Bool :=
  let c := s.ctxAt u (ctxIdx k)
  s.withdrawable u k || (c.state == .parked &&
    match c.park with
    | .ending | .reap _ _ | .repart _ | .pop _ => true
    | .reply id | .answer id _ _ _ => s.lost.contains id
    | _ => false)

/-- Relaxed accesses whose packets are known to have been dropped end without effect (R461). -/
def State.dropLost (s : State) (u : Nat) : State :=
  let c := s.coreAt u
  s.setCore u { c with
    relaxed := c.relaxed.filter fun r => !s.lost.contains r.id
    ctxs := c.ctxs.map fun x => { x with pending := x.pending.filter fun (p : PendingReg) => !s.lost.contains p.id } }

/-- A context has come to rest: it does not wait, or only on its own queue, it has no instruction begun that it is to issue anew, and
nothing of it is outstanding. -/
def State.atRest (s : State) (u k : Nat) : Bool :=
  let c := s.ctxAt u (ctxIdx k)
  (c.state != .parked || c.idle) && c.since.isNone && s.settled u k && !s.moving u k

/-- A core of a launch that is saved has come to rest. -/
def State.lcAtRest (s : State) (u : Nat) : Bool :=
  let c := s.coreAt u
  (List.range 16).all (s.atRest u) && c.gcmds.isEmpty && c.gwait.isEmpty && !(s.qrows.any (·.u == u))

/-- A push that can be made now, or that waits only for room. -/
def State.pushReady (s : State) (n : Nat) (st : Stream) : Bool :=
  match (s.strm n st).pushes with
  | p :: _ => (match p.cmd with | some id => !s.unfinished n st id | none => true) && (!p.all || s.streamDrained n st) &&
      ((s.tileAt n).pushBlocked (pushesOf st p.tok p.two)).isNone
  | [] => false

/-- A tile of a launch that is saved has come to rest: no unit is in its write phase, and no bundle that has issued is
unfinished. -/
def State.dtAtRest (s : State) (n : Nat) : Bool :=
  let t := s.tileAt n
  let still (st : Stream) : Bool :=
    ((t.get st).queue.all fun (c : DtCmd) => !c.sent && c.reqs.isEmpty) && !s.pushReady n st
  still .s && still .c && still .m && (match t.m.held with | some h => t.stopped && !h.sent | none => true)

/-- The streams of a tile stop as at a trap, but keep their states (R240, R397). -/
def State.pauseTile (s : State) (n : Nat) : State :=
  let t := s.tileAt n
  let coachs (r : Request) : Bool := s.coach.any fun (c : CoachStep) => c.cmd.reqs.contains r.id
  let off (r : Request) : Bool := match r.src, r.act with
    | .tile m _, .await _ _ | .tile m _, .barrier _ => m == n && !coachs r
    | _, _ => false
  let keep (x : DtStream) : DtStream := { x.stop with status := x.status }
  let mine (x : Source) : Bool := match x with
    | .tile m _ => m == n
    | _ => false
  let s1 := { s.forgetWalks mine with
      requests := s.requests.filter fun r => !off r
      waiters := s.waiters.filter fun r => !off r
      watchers := s.watchers.filter fun r => !off r
      remote := s.remote.filter fun r => !off r.2 }
  s1.setTile n { t with s := keep t.s, c := keep t.c, m := { keep t.m with held := t.m.held } }

/-- The other devices of a launch. -/
def State.otherDevs (s : State) (l : Launch) : List Nat := (l.devices s.dev).filter (· != s.dev)

/-- The steps of the tiles of a launch that Coach holds. -/
def State.launchSteps (s : State) (l : Launch) : List CoachStep := s.coach.filter fun x => l.hasDt x.tile

/-- The bound endpoints of a launch's tiles. -/
def State.boundEps (s : State) (dts : List Nat) : List (Nat × Nat) :=
  dts.flatMap fun n => ((List.range 8).filter fun i => (s.ep n (epIdx i)).dir != .unbound && !(s.ep n (epIdx i)).broken).map fun i => (n, i)

/-- Step 5 of a save: the units are emptied, and the partition becomes free (R368, R397). -/
def State.emptyUnits (s : State) (p : Nat) (l : Launch) : State :=
  let gone (x : Source) : Bool := l.lcs.any (Source.ofCore · x) || l.dts.any (Source.ofTile · x)
  let s1 := l.lcs.foldl (fun st u => st.setCore u (st.coreAt u).cleared) (s.forgetWalks gone)
  let s2 := l.dts.foldl (fun st n => st.setTile n (st.tileAt n).cleared) s1
  ({ s2 with coach := s2.coach.filter fun x => !l.hasDt x.tile, readies := s2.readies.filter fun r => !l.hasDt r.1,
             tileTlbs := s2.tileTlbs.filter fun t => !l.hasDt t.1, launches := s2.launches.filter fun x => x.1 != p,
             homes := if l.home = s.dev then s2.homes.filter fun h => h.queue != l.queue else s2.homes }.freePart p)

/-- The image of this device is written (R400). -/
def State.writeImage (s : State) (p : Nat) (l : Launch) (left : Nat) : State :=
  let b := s.imageAddr p
  let s1 := s.saveHeader b p l left
  let s2 := ((List.range l.lcs.length).zip l.lcs).foldl (fun st x => st.saveLc x.2 (b + 0x5000 + lcSection * x.1)) s1
  ((List.range l.dts.length).zip l.dts).foldl
    (fun st x => st.saveDt l x.2 (b + 0x5000 + lcSection * l.lcs.length + dtSection * x.1)) s2

/-- The next move of a save: waits end, the units come to rest, Coach is settled, the pairs are held, and the image is
written. The watchdog of the home stops then, and its ticks left are imaged; another device images the ticks left at the write of PPRE
(R397, assumption 151). -/
def State.saveStep (s : State) (j : Preempt) : State :=
  let l := j.launch
  match j.phase with
  | 0 =>
    let ctxs := l.lcs.flatMap fun u => (List.range 16).map fun k => (u, k)
    match ctxs.find? fun x => s.savesWait x.1 x.2, ctxs.find? fun x => (s.coreAt x.1).lines.any (·.ctx == x.2),
        l.lcs.find? fun u => (s.coreAt u).relaxed.any fun r => s.lost.contains r.id with
    | some (u, k), _, _ => s.withdraw u k
    | none, some (u, k), _ => s.sendLines u k
    | none, none, some u => s.dropLost u
    | none, none, none =>
      if l.lcs.all s.lcAtRest && l.dts.all s.dtAtRest then
        (s.otherDevs l).foldl (fun st d => st.sendPacket d none (.quiesce s.dev j.part)) (s.setPreempt { j with phase := 1 })
      else s
  | 1 =>
    if (s.otherDevs l).all (fun d => j.heard.contains d) && !(s.launchSteps l).any (·.committed) && l.dts.all s.dtAtRest then
      let s1 := { s with coach := s.coach.map fun (x : CoachStep) => if l.hasDt x.tile then x.fresh else x,
                         readies := s.readies.filter fun r => !l.hasDt r.1 }
      (s1.boundEps l.dts).foldl (fun st (x : Nat × Nat) => st.holdEp x.1 (epIdx x.2) .hold) (s1.setPreempt { j with phase := 2 })
    else s
  | _ =>
    if (s.boundEps l.dts).all fun x => (s.ep x.1 (epIdx x.2)).heldBack then
      let left := if l.home = s.dev then s.ticksLeft l.queue else j.left
      let s1 := (s.writeImage j.part l left).emptyUnits j.part l
      let s2 := { s1.putStatus l 8 with preempts := s1.preempts.filter fun x => x.part != j.part }
      s2.tell l.home (.preempted s.dev l.queue .save 0)
    else s

/-- Coach's quiesce marker of another device arrives (R398): the ready flits that the device sent before it have landed. -/
def execQuiesceMarker (n : Nat) (s : State) : Out :=
  match s.inbox[n]? with
  | some (.quiesce dev part) =>
    let ready : Payload → Bool
      | .coachReady _ _ _ _ d .. => d == dev
      | _ => false
    if (s.inbox.take n).any ready then .next s
    else match s.preempts.find? fun j => j.part == part && !j.restore with
      | some j => .next ((s.dropInbox n).setPreempt { j with heard := j.heard ++ [dev] })
      | none => .next s
  | _ => .next s

/-! ## The restore on one device (R405, R406) -/

/-- The box of a restored launch: DEVBASE, unless it is 0xFFFF, replaces the saved base (R396). -/
def State.newBox (s : State) (p box : Nat) : Nat :=
  let base := s.field (pReg p 6) 48 16
  if base = 0xFFFF then box else box / 2 ^ 16 * 2 ^ 16 + base

/-- The launch of an image, in a box. -/
def State.imageLaunch (s : State) (p home box : Nat) : Launch :=
  let b := s.imageAddr p
  let record := s.imageRecord b
  let old := (record.getD 5 0).toNat
  let l : Launch := ⟨record.set 5 (BitVec.ofNat 64 (old / 2 ^ 32 * 2 ^ 32 + box)), home, s.readNat (b + 0x20) 1 % 64, 0⟩
  { l with rank := (boxRank (if boxAlone box then home else s.dev) box s.dev).getD 0 }

/-- The tiles of an image and where they go: the lowest free tile of the partition in the same place of its group, in
ascending order (R405). -/
def mapTiles (free : List Nat) : List Nat → Option (List (Nat × Nat))
  | [] => some []
  | n :: rest =>
    match free.find? fun m => m % 4 == n % 4 with
    | some m => (mapTiles (free.filter (· != m)) rest).map ((n, m) :: ·)
    | none => none

/-- The ranges of a core's section that a restore reads into registers, queues and contexts (R401, R417): the state area and the
workspaces of its contexts. -/
def State.lcReads (s : State) (b : Nat) : List (Nat × Nat) :=
  let m8 := bitOf (s.readNat (b + 0x41000) 8) 0
  (b + 0x40000, 0x8000) :: (List.range (if m8 then 8 else 16)).map fun k =>
    (b + bitsOf (s.recordAt (b + 0x41100) 32 k) 64 18, if m8 then 2048 else 1024)

/-- Those of a tile's section (R402 to R404): the state block and the endpoint records. -/
def dtReads (b : Nat) : List (Nat × Nat) :=
  (b + 0x1490000, 0x10000) :: (List.range 8).map fun i => (b + 0x1450000 + 0x8000 * i, 0x30)

/-- The first failing beat of an image among those that a restore consumes (R417): in its header, or, where the header is good, in
its sections. The rest of an image moves with its check values (R416). -/
def State.imageFails (s : State) (p home box : Nat) : Option Nat :=
  let b := s.imageAddr p
  let l := s.imageLaunch p home box
  let sections := ((List.range l.lcs.length).flatMap fun i => s.lcReads (b + 0x5000 + lcSection * i)) ++
    (List.range l.dts.length).flatMap fun i => dtReads (b + 0x5000 + lcSection * l.lcs.length + dtSection * i)
  (s.failedBeat b 0x5000).orElse fun _ => sections.findSome? fun r => s.failedBeat r.1 r.2

/-- A failing beat that a check of an image meets is logged: by a controller's read, and by the launch unit's (R415, R418). -/
def State.logImage (s : State) (p home box : Nat) : State :=
  match s.imageFails p home box with
  | some b => (s.controllerRead b).logBeat b 1 none
  | none => s

/-- The checks of this device's image and partition: the result, 0, 2, 3 or 4 (R396, R406). -/
def State.imageCheck (s : State) (p home box : Nat) : Nat :=
  let b := s.imageAddr p
  let l := s.imageLaunch p home box
  let n := s.readNat (b + 0x10) 8
  if !s.imageInOne p 0x5000 then 2
  else if (s.failedBeat b 0x5000).isSome || s.readNat b 8 != 2 ^ 16 + s.stepping || !boxFits box ||
      bitsOf n 16 16 != boxCount box || boxRank (if boxAlone box then home else s.dev) box s.dev != some (n % 2 ^ 16) then 3
  else if !s.imageInOne p l.imageSize then 2
  else if (s.imageFails p home box).isSome then 3
  else if !s.partFree p || !(l.lcs.all fun u => (s.reg (pReg p 0)).getLsbD (s.cluster u)) ||
      (mapTiles ((List.range 32).filter fun m => (s.reg (pReg p 1)).getLsbD m) l.dts).isNone then 4
  else 0

/-- The state of a launch is written back (R406). -/
def State.loadImage (s : State) (j : Preempt) (saved : Nat) : State :=
  let l := j.launch
  let b := s.imageAddr j.part
  let box := bitsOf (l.word 0x28) 0 32
  let tables := (List.range 64).filter fun n => bitsOf (l.word 0x70 + l.word 0x78 * 2 ^ 64) (2 * n) 2 != 0
  let s1 := tables.foldl (fun st n =>
    let st1 := st.copyImage (b + 0x1000 + 256 * n) 256 (scopeAddr n)
    if st1.readNat (scopeAddr n + 0x88) 8 = 2 ^ 63 + saved then st1.putNat (scopeAddr n + 0x88) 8 (2 ^ 63 + box) else st1) s
  let s2 := ((List.range l.lcs.length).zip l.lcs).foldl (fun st x => st.loadLc j.part l x.2 (b + 0x5000 + lcSection * x.1)) s1
  let s3 := ((List.range j.map.length).zip j.map).foldl (fun st x =>
    st.loadDt j.part box x.2.2 (b + 0x5000 + lcSection * l.lcs.length + dtSection * x.1)) s2
  { s3 with launches := s3.launches ++ [(j.part, { l with record := l.record.set 3 (BitVec.ofNat 64
      (l.word 0x18 / 2 ^ 32 * 2 ^ 32 + (j.map.map fun x => 2 ^ x.2).sum)) })],
            tileTlbs := s3.tileTlbs.filter fun t => !(j.map.any (·.2 == t.1)) }

/-- The moved flits of the restored endpoints: a peer in the set is addressed by the tile that the image names. -/
def State.sendMoved (s : State) (j : Preempt) : State :=
  (s.boundEps (j.map.map (·.2))).foldl (fun st x =>
    let e := st.ep x.1 (epIdx x.2)
    st.sendPeer x.1 (epIdx x.2) (.moved s.dev x.1 x.2 (if e.heldBack then none else some j.part))) s

/-- The next move of a restore that has written its state: once every peer in the set has been heard, the pairs are
released and the launch goes on. -/
def State.restoreStep (s : State) (j : Preempt) : State :=
  let eps := s.boundEps (j.map.map (·.2))
  if j.phase = 1 && eps.all fun x => (s.ep x.1 (epIdx x.2)).heldBack then
    let l := j.launch
    let stopped := l.lcs.any (fun u => (s.coreAt u).ctxs.toList.any fun c => c.state == .stopped) ||
      j.map.any fun x => (s.tileAt x.2).stopped
    let s1 := eps.foldl (fun st x => st.releaseEp x.1 (epIdx x.2)) s
    let s2 := { s1.putStatus l (if stopped then 4 else 1) with
      preempts := s1.preempts.filter fun x => x.part != j.part,
      homes := s1.homes.map fun (h : HomeLaunch) => if l.home = s.dev ∧ h.queue = l.queue then { h with tick := s.rtick } else h }
    (s2.holdPart j.part l.queue false).tell l.home (.preempted s.dev l.queue .restore 0)
  else s

/-! ## What the home asks, and the answers -/

/-- What the home of a launch asks of this device. -/
def State.heedAsk (s : State) (home queue part : Nat) (ask : PreemptAsk) (box left : Nat) : Option State :=
  match ask with
  | .save =>
    match s.launchOf part with
    | some l =>
      if l.home ≠ home ∨ l.queue ≠ queue then some (s.tell home (.preempted s.dev queue .save 0))
      else if !s.imageInOne part l.imageSize then some (s.tell home (.preempted s.dev queue .save 2))
      else
        let s1 := l.dts.foldl State.pauseTile s
        some { s1 with preempts := s1.preempts ++ [Preempt.mk part l false 0 left [] []] }
    | none => if s.held.any (fun h => h.part == part && h.launch.queue == queue && h.launch.home == home) then none
        else some (s.tell home (.preempted s.dev queue .save 0))
  | .reserve =>
    let r := s.imageCheck part home box
    if r ≠ 0 then some ((s.logImage part home box).tell home (.preempted s.dev queue .reserve r))
    else
      let l := s.imageLaunch part home box
      let map := (mapTiles ((List.range 32).filter fun m => (s.reg (pReg part 1)).getLsbD m) l.dts).getD []
      some (({ s.holdPart part queue true with preempts := s.preempts ++ [Preempt.mk part l true 0 left [] map] }).tell home
        (.preempted s.dev queue .reserve 0))
  | .restore =>
    match s.preempts.find? fun j => j.part == part && j.restore with
    | some j =>
      let saved := ((s.imageRecord (s.imageAddr part)).getD 5 0).toNat % 2 ^ 32
      let s1 := (s.loadImage j saved).setPreempt { j with phase := 1 }
      some (s1.sendMoved j)
    | none => some s
  | .release => some ({ s with preempts := s.preempts.filter fun j => j.part != part }.freePart part)

/-- A restore has been granted on every device: the launch is known again, and every device restores it. -/
def State.restoreAll (s : State) (h : HomePreempt) : State :=
  let q := h.launch.queue
  let s1 := s.setHomePre { h with toAsk := [] }
  let s2 := { s1 with homes := s1.homes ++ [HomeLaunch.mk q h.part h.launch.record h.devs [] h.devs true [] s.rtick h.left false] }
  h.devs.foldl (fun st d => st.tell d (.preempt s.dev q h.part .restore h.box h.left)) s2

/-- An answer reaches the home. -/
def State.heedAnswer (s : State) (h : HomePreempt) (dev : Nat) (ask : PreemptAsk) (result : Nat) : State :=
  let q := h.launch.queue
  match ask with
  | .reserve =>
    if result ≠ 0 then
      (h.granted.foldl (fun st d => st.tell d (.preempt s.dev q h.part .release 0 0)) (s.dropHomePre q)).preEnd h.part result
    else
      let h1 := { h with granted := h.granted ++ [dev] }
      match h1.toAsk with
      | d :: rest => (s.setHomePre { h1 with toAsk := rest }).tell d (.preempt s.dev q h.part .reserve h.box h.left)
      | [] => s.restoreAll h1
  | _ =>
    let h1 := { h with finished := h.finished ++ [dev], result := max h.result result }
    if h1.devs.all fun d => h1.finished.contains d then
      let s1 := (s.dropHomePre q).preEnd h.part h1.result
      if h1.result = 0 then s1.launchEvent (if h.restore then 9 else 8) h.part h.launch else s1
    else s.setHomePre h1

/-- The next move of what pre-emption does with partition p: a message about it is heeded, or a save or a restore on this
device goes on; nothing of it happens while every place for an event is taken (R366). -/
def State.preemptStep (s : State) (p : Nat) : State :=
  let mine (m : Payload) : Bool := match m with
    | .preempt _ _ part .. => part == p
    | .preempted _ queue .. => s.homePreempts.any fun h => h.launch.queue == queue && h.part == p
    | _ => false
  if !s.mayAct then s
  else match s.inbox.findIdx? mine with
  | some i =>
    match s.inbox[i]? with
    | some (.preempt home queue part ask box left) =>
      ((s.dropInbox i).heedAsk home queue part ask box left).getD s
    | some (.preempted dev queue ask result) =>
      match s.homePreempts.find? fun h => h.launch.queue == queue with
      | some h => (s.dropInbox i).heedAnswer h dev ask result
      | none => s.dropInbox i
    | _ => s
  | none =>
    match s.preempts.find? (·.part == p) with
    | some j => if j.restore then s.restoreStep j else s.saveStep j
    | none => s

/-! ## PPRE (R396) -/

/-- The RW field of PPRE. -/
def State.preWrite (s : State) (p : Nat) (v : Word) : State := s.setField (pReg p 6) 48 16 (bitsOf v.toNat 48 16)

/-- SAVE or RESTORE stands. -/
def State.preBusy (s : State) (p : Nat) : Bool := s.field (pReg p 6) 0 2 != 0

/-- A write that sets one of the RS bits while the other is 1, which is ignored (R396). -/
def State.preIgnores (s : State) (p : Nat) (v : Word) : Bool :=
  (v.getLsbD 0 && s.field (pReg p 6) 1 1 == 1) || (v.getLsbD 1 && s.field (pReg p 6) 0 1 == 1)

/-- A write of PPRE that sets SAVE: the launch that holds the partition is saved on every device of its set (R396, R397). -/
def execPpreSave (p : Nat) (v : Word) (s : State) : Out :=
  if s.preIgnores p v then .next s
  else
    let s1 := s.preWrite p v
    if !v.getLsbD 0 then .next s1
    else if s.preBusy p then .next (s1.noteSet (pReg p 6) 0)
    else match s1.launchOf p with
      | none => .next ((s1.setBit (pReg p 6) 0).preEnd p 1)
      | some l =>
        if l.home ≠ s.dev then .next ((s1.setBit (pReg p 6) 0).preEnd p 1)
        else if !s1.imageInOne p l.imageSize then .next ((s1.setBit (pReg p 6) 0).preEnd p 2)
        else
          let devs := l.devices s.dev
          let h : HomePreempt := ⟨p, l, false, l.box, devs, [], [], [], s1.ticksLeft l.queue, 0⟩
          let s2 := { s1.setBit (pReg p 6) 0 with homePreempts := s1.homePreempts ++ [h] }
          .next ((s.dev :: s1.otherDevs l).foldl (fun st d => st.tell d (.preempt s.dev l.queue p .save l.box h.left)) s2)

/-- A write of PPRE that sets RESTORE: the home checks its header, and asks the devices of the box in ascending order for
their partition (R396, R406). -/
def execPpreRestore (p : Nat) (v : Word) (s : State) : Out :=
  if s.preIgnores p v then .next s
  else
    let s1 := s.preWrite p v
    if !v.getLsbD 1 then .next s1
    else if s.preBusy p then .next (s1.noteSet (pReg p 6) 1)
    else
      let fails (r : Nat) : Out := .next ((s1.setBit (pReg p 6) 1).preEnd p r)
      let b := s1.imageAddr p
      let old := ((s1.imageRecord b).getD 5 0).toNat % 2 ^ 32
      let box := s1.newBox p old
      let l := s1.imageLaunch p s.dev box
      if !s1.imageInOne p 0x5000 then fails 2
      else if (s1.failedBeat b 0x5000).isSome then .next (((s1.logImage p s.dev box).setBit (pReg p 6) 1).preEnd p 3)
      else if s1.readNat b 8 != 2 ^ 16 + s1.stepping then fails 3
      else if s1.field (qReg l.queue 5) 0 1 ≠ 1 || s1.homes.any (·.queue == l.queue) || s1.homePreempts.any (·.launch.queue == l.queue) then
        fails 1
      else
        let r := s1.imageCheck p s.dev box
        if r ≠ 0 then .next (((s1.logImage p s.dev box).setBit (pReg p 6) 1).preEnd p r)
        else
          let devs := l.devices s.dev
          let left := s1.readNat (b + 0x18) 4
          let h : HomePreempt := ⟨p, l, true, box, devs, devs.drop 1, [], [], left, 0⟩
          let s2 := { s1.setBit (pReg p 6) 1 with homePreempts := s1.homePreempts ++ [h] }
          .next ((devs.take 1).foldl (fun st d => st.tell d (.preempt s.dev l.queue p .reserve box left)) s2)

/-! ## Resuming a stopped unit (R407 to R409) -/

/-- The image area of URADDR: its address, unless it meets a reserved region (R383, R360, R407). -/
def State.resumeArea (s : State) : Option Nat :=
  let o := bitsOf (s.reg 0x48).toNat 11 16 * 2 ^ 11
  if o + 0x800 ≤ 0x7FF4000 then some (shmBase + o) else none

/-- The RW fields of URES. -/
def State.uresFields (s : State) (v : Word) : State :=
  (s.setField 0x40 37 11 (bitsOf v.toNat 37 11)).setField 0x40 8 4 (bitsOf v.toNat 8 4)

def State.uresResult (s : State) (r : Nat) : State := s.setField 0x40 4 4 r

/-- After a resume: with no context or tile of the launch stopped on the device, STATE is 1 (R409). -/
def State.afterGo (s : State) (p : Nat) (l : Launch) : State :=
  let stopped := l.lcs.any (fun u => (s.coreAt u).ctxs.toList.any fun c => c.state == .stopped) || l.dts.any fun n => (s.tileAt n).stopped
  if stopped then s else match s.launchOf p with
    | some _ => s.putStatus l 1
    | none => s

/-- SYNC: the workspace of a stopped context is written into the image area (R408). -/
def State.uresSync (s : State) : State :=
  let u := s.field 0x40 37 11
  let k := ctxIdx (s.field 0x40 8 4)
  match s.lcLaunch u with
  | none => s.uresResult 3
  | some _ =>
    if (s.ctxAt u k).state ≠ .stopped then s.uresResult 1
    else match s.resumeArea with
      | none => s.uresResult 4
      | some a =>
        let bytes := (s.ctxAt u k).workspaceBytes (s.coreAt u).m8
        (s.putBytes a (bytes ++ List.replicate (2048 - bytes.length) 0)).uresResult 0

/-- GO of a stopped context: it is loaded from the image area and issues (R408). -/
def State.resumeCtx (s : State) (u : Nat) (k : Fin 16) (p : Nat) (l : Launch) : State :=
  if (s.ctxAt u k).state ≠ .stopped then s.uresResult 1
  else match s.resumeArea with
    | none => s.uresResult 4
    | some a =>
      match s.failedBeat a 2048 with
      | some b => (s.logBeat b 1 (some p)).uresResult 4
      | none =>
        let c := (s.ctxAt u k).load (s.coreAt u).m8 false (s.readNat a 1024) (s.readNat (a + 1024) 1024)
        let s1 := s.setCtx u k { c with state := .run, stop := (0, 0), park := .none, parkRec := 0, deadline := none, since := none,
                                        readyAt := s.ck + 1 }
        ((s1.writeBack u k).afterGo p l).uresResult 0

/-- GO of a stopped tile: its streams go on at their PCs, its commands from their cursors, and the steps that failed meet
their peers anew (R240, R268, R409). -/
def State.resumeTile (s : State) (n p : Nat) (l : Launch) : State :=
  let t := s.tileAt n
  if !t.stopped then s.uresResult 1
  else if t.valid then s.uresResult 2
  else
    let go (x : DtStream) : DtStream :=
      { x with status := if x.status = .stopped then .run else x.status, wait := none, held := x.held.map fun h => { h with trapped := false } }
    let s1 := s.setTile n { t with stopped := false, s := go t.s, c := go t.c, m := go t.m }
    let s2 := { s1 with coach := s1.coach.map fun (x : CoachStep) => if x.tile = n then { x with failed := false } else x }
    let s3 := match t.late with
      | (st, code, v, aux) :: rest => (s2.setTile n { s2.tileAt n with late := rest }).tileTrap n st ⟨code, v, 0, aux⟩
      | [] => s2
    (s3.afterGo p l).uresResult 0

/-- GO (R407). -/
def State.uresGo (s : State) : State :=
  let u := s.field 0x40 37 11
  if 1024 ≤ u ∧ u < 1056 then
    match s.tileLaunch (u - 1024) with
    | some (p, l) => s.resumeTile (u - 1024) p l
    | none => s.uresResult 3
  else match s.lcLaunch u with
    | some (p, l) => s.resumeCtx u (ctxIdx (s.field 0x40 8 4)) p l
    | none => s.uresResult 3

/-- A write of URES with SYNC. -/
def execUresSync (v : Word) (s : State) : Out :=
  let s1 := s.uresFields v
  .next (if v.getLsbD 1 then s1.uresSync else s1)

/-- A write of URES with GO. -/
def execUresGo (v : Word) (s : State) : Out :=
  let s1 := s.uresFields v
  .next (if v.getLsbD 0 then s1.uresGo else s1)

end Sys2Proof.Machine
end

