-- ==== Sys2Proof/Machine/Route.lean ====
section
/-! DEFINITION. The router of the device: the choice of a port (R459, R460), lost packets (R461), the combining table (R311),
and what a packet for this device does here, in the order of its pair (R287). -/

namespace Sys2Proof.Machine

/-! ## The choice of a port (R459, R460) -/

/-- A port: A+, A−, B+, B−, C+, C−, D+, D− are 0 to 7. -/
def State.port (s : State) (k : Nat) : Port := lookup Port.reset s.ports k

def State.setPort (s : State) (k : Nat) (p : Port) : State := { s with ports := insertAt k p s.ports }

/-- The link status register of a port, and the audit register of a port or, for 8, of the crossbar (R452). -/
def linkReg (k : Nat) : Nat := 0x300 + 16 * k
def auditReg (k : Nat) : Nat := if k = 8 then 0x380 else 0x308 + 16 * k

/-- WIDTH of a port: 0 down, 1, 2 and 3 for two, four and eight lanes (R421). -/
def State.portWidth (s : State) (k : Nat) : Nat := s.field (linkReg k) 4 2

/-- Whether a dimension, 0 to 3 for a to d, wraps (R459). -/
def State.wraps (s : State) (d : Nat) : Bool :=
  (d == 2 && (s.reg 8).getLsbD 0) || (d == 3 && (s.reg 8).getLsbD 1)

/-- Whether a port leads to a position of the fabric (R459). -/
def State.portInside (s : State) (k : Nat) : Bool :=
  let d := k / 2
  let n := s.extents.getD d 1
  let x := (devFields s.dev).getD d 0
  if s.wraps d then decide (1 < n) else if k % 2 = 0 then decide (x + 1 < n) else decide (1 ≤ x)

/-- A port is up (R459). -/
def State.portUp (s : State) (k : Nat) : Bool := decide (k < 8) && s.portWidth k != 0 && s.portInside k

/-- Where a packet goes: to this device, on a port with its detour field, or nowhere. -/
inductive RouteEnd where
  | deliver
  | port (k : Nat) (det : Option Nat)
  | drop
deriving DecidableEq, Repr

/-- The dimensions that a detour of a dimension may take (R460). -/
def detours (d : Nat) : List Nat :=
  match d with
  | 0 => [1]
  | 1 => [0]
  | _ => [0, 1]

/-- The port of a dimension that leads nearer to a destination (R460). -/
def State.nearer (s : State) (d goal : Nat) : Nat :=
  let n := s.extents.getD d 1
  let x := (devFields s.dev).getD d 0
  let plus := if s.wraps d then
      let u := (goal + n - x % n) % n
      decide (u ≤ n - u)
    else decide (x < goal)
  2 * d + if plus then 0 else 1

/-- The port that the router takes by destination index (R460). -/
def State.hardwareRoute (s : State) (dest : Nat) (det : Option Nat) : RouteEnd :=
  let order := match det with
    | some y => ([0, 1, 2, 3].filter (· != y)) ++ [y]
    | none => [0, 1, 2, 3]
  let there := devFields dest
  let here := devFields s.dev
  match order.find? fun d => there.getD d 0 != here.getD d 0 with
  | none => .deliver
  | some d =>
    let k := s.nearer d (there.getD d 0)
    if s.portUp k then .port k det
    else if det.isSome then .drop
    else match ((detours d).flatMap fun y => [2 * y, 2 * y + 1]).find? s.portUp with
      | some j => .port j (some (j / 2))
      | none => .drop

/-- The port of the host's route table (R460). -/
def State.tableRoute (s : State) (dest : Nat) (det : Option Nat) : RouteEnd :=
  let c := bitsOf (s.reg (0x20000 + dest / 16 * 8)).toNat (4 * (dest % 16)) 4
  if c = 8 then .deliver else if s.portUp c then .port c det else .drop

/-- Where a packet goes, by DUTY.ROUTE (R428, R460). -/
def State.routeOf (s : State) (dest : Nat) (det : Option Nat) : RouteEnd :=
  if s.field 0x20 5 1 = 1 then s.tableRoute dest det else s.hardwareRoute dest det

/-- A packet is dropped, and FABSTAT records it (R459, R461). -/
def State.dropPacket (s : State) (dest : Nat) : State :=
  let drops := min (s.field 0x10 32 32 + 1) (2 ^ 32 - 1)
  (s.setReg 0x10 (BitVec.ofNat 64 (drops * 2 ^ 32 + 2 ^ 16 + dest % 2 ^ 16))).noteSet 0x10 16

/-- The request or the message of this device that a packet carried is known to be lost (R461). -/
def State.noteLost (s : State) (p : Packet) : State :=
  if p.src ≠ s.dev then s
  else match p.body with
    | .access id _ _ _ _ | .register id _ _ _ _ | .active id _ _ _ _ _ | .spawn id _ _ _ _ | .rowRead id _ _ _ _ _ _ _ _
    | .accumulate id _ _ _ _ _ | .overwrite id _ _ _ _ _ _ => { s with lost := setInsert id s.lost }
    | _ => s

/-! ## The combining table (R311) -/

/-- A row request at a router: it is merged, and is not forwarded (only its sequence number, which its home waits for, goes on: R287);
or it goes on, with the router as its reply point where an entry was made for it. -/
def State.combine (s : State) (p : Packet) : State × Packet :=
  match p.body with
  | .rowRead id src unit tid row tag pol noMerge replyTo =>
    let key := [p.dest, unit, tid, row, tag]
    let own := replyTo == s.dev && s.merges.any fun m => m.id == id
    if pol = 0 || noMerge || own then (s, p)
    else match s.merges.find? fun m => m.key == key && decide (m.more.length < 8) with
      | some m =>
        ({ s with merges := s.merges.map fun x => if x.id = m.id then { x with more := x.more ++ [(replyTo, id)] } else x },
          { p with body := .skip })
      | none =>
        if s.merges.length < 256 then
          ({ s.fresh with merges := s.merges ++ [⟨key, s.nextId, (replyTo, id), []⟩] },
            { p with body := .rowRead s.nextId src unit tid row tag pol noMerge s.dev })
        else (s, p)
  | _ => (s, p)

/-! ## Arrivals (R175, R286, R287, R303, R311) -/

/-- A request of another device as an act. -/
def remoteAct : RemoteOp → Act
  | .load z acq => .load z acq
  | .store z v => .store z v
  | .line mask bytes => .line mask bytes
  | .consume z => .consume z
  | .peek z => .peek z
  | .fill z v => .fill z v
  | .await full z => .await full z
  | .clear => .clear
  | .write mask bytes full => .write mask bytes full
  | .copy z => .copy z
  | .withdraw => .clear

/-- A request of another device takes its place among those on their way to their homes, with its deadline; one that comes after
it is dropped (R177). DEDUCED, unsafe (assumption 131): a deadline that travels is a ck which both devices count alike. -/
def State.takeRemote (s : State) (dev src id : Nat) (act : Act) (addr : Nat) (deadline : Option Nat) : State :=
  let r : Request := ⟨s.nextId, .remote dev src id, act, addr, .none, false, deadline⟩
  if (deadline.map fun t => decide (t < s.ck)) == some true then s.fresh.answer (s.stallReply r)
  else { s.fresh with requests := s.requests ++ [r] }

/-- A request for a row of a table whose home is here: the home takes its own descriptor (R384, R385). A table that has
none here, or whose descriptor fails its check, fails the request (R417). -/
def State.takeRowRequest (s : State) (dev src id unit tid row : Nat) (act : Table → Nat → Act) (fail : AnswerEnd → Payload) : State :=
  match s.descriptorFails tid, s.readTable tid with
  | some b, _ => (s.logBeat b 1 none).sendPacket dev none (fail (.failed (BitVec.ofNat 64 (s.dev * 2 ^ 48 + b))))
  | none, some t =>
    let l := (t.home s.dev row).2.2
    s.takeRemote dev src id (act t l) (t.rowAddr unit l) none
  | none, none => s.sendPacket dev none (fail (.trap causeRange (gaWord (tdAddr tid)) 0))

/-- A message of another device (R183, R186, R190, R191). -/
def State.takeMessage (s : State) (dev src id : Nat) (body : MsgBody) : State :=
  s.fresh.addMessage s.nextId (.remote dev src id) body

/-- A block of a floe for a codec here; one that does not lie in one placement is refused (R303, R304). -/
def State.takeBlock (s : State) (dev src id : Nat) (encode : Bool) (b : FirnBlock) (elems : List Nat) (part : Option Nat) : State :=
  let place := s.placement part (b.addrs.getD 0 0)
  let job : FirnJob := ⟨s.nextId, .remote dev src id, encode, b, none, elems, false, none, none⟩
  if place.isSome ∧ b.addrs.all fun a => s.placement part a == place then { s.fresh with firn := s.firn ++ [job] }
  else s.jobDone { job with refused := some (gaWord b.first) }

/-- A request of another device that still waits here is called back (R82); one that has been performed has been answered. -/
def State.callBack (s : State) (dev src id : Nat) : State :=
  let hit (r : Request) : Bool := r.src == .remote dev src id
  if (s.requests ++ s.waiters ++ s.watchers).any hit then
    ({ s with requests := s.requests.filter fun r => !hit r, waiters := s.waiters.filter fun r => !hit r,
              watchers := s.watchers.filter fun r => !hit r }).sendPacket dev none (.answer id 0 .withdrawn)
  else s

/-- Another device has called back the request of a context, which issues its instruction afresh (R82). -/
def State.takeBack (s : State) (r : Request) : State :=
  match r.src with
  | .ctx u k => if (s.ctxAt u (ctxIdx k)).awaits r.id then s.issueAfresh u k else s
  | _ => s

/-- The answer of another device: to a request, to a message, or to a block of a floe. -/
def State.takeAnswerOf (s : State) (id : Nat) (value : Quad) (how : AnswerEnd) : State :=
  if how = .withdrawn then
    match s.remote.find? (·.2.id == id) with
    | some (_, r) => (s.forget (.reply id)).takeBack r
    | none => s
  else
  match s.remote.find? (·.2.id == id), s.firn.find? fun j => j.id == id && j.dev.isSome with
  | some (_, r), _ =>
    let reply : Reply := match how with
      | .ok => { r.ack with value := value }
      | .failed beat => { r.ack with failed := some beat }
      | .trap code v aux => { r.ack with trap := some (code, v, aux) }
      | .refused | .withdrawn => r.ack
    { s.forget (.reply id) with replies := s.replies ++ [reply] }
  | none, some j =>
    let j1 := match how with
      | .failed beat => { j with elems := [], done := true, failed := some beat }
      | .trap _ v _ => { j with elems := [], done := true, refused := some v }
      | .ok | .refused | .withdrawn => { j with done := true }
    { s with firn := s.firn.map fun x => if x.id = id then j1 else x }
  | none, none => { s with answers := s.answers ++ [(id, how == .ok)] }

/-- A row, or what a codec has made, for a request of this device. -/
def State.takeRowAnswer (s : State) (id : Nat) (bytes : List Byte) (bad : List Nat) (failed : Bool) : State :=
  match s.remote.find? (·.2.id == id), s.firn.find? fun j => j.id == id && j.dev.isSome with
  | some (_, r), _ =>
    let reply : Reply := { r.ack with bytes := bytes, bad := bad, trap := if failed then some (causeIntegrity, 0, 0) else none }
    { s.forget (.reply id) with replies := s.replies ++ [reply] }
  | none, some _ =>
    { s with firn := s.firn.map fun (x : FirnJob) =>
        if x.id = id then { x with elems := lanes 32 (bytes.length / 4) (bytesToNat bytes), done := true } else x }
  | none, none => s

/-- A row comes back: an entry of the combining table passes it on to all its reply points and is freed (R311). -/
def State.spreadRow (s : State) (id : Nat) (bytes : List Byte) (bad : List Nat) (failed : Bool) : State :=
  match s.merges.find? (·.id == id) with
  | none => s.takeRowAnswer id bytes bad failed
  | some m =>
    (m.dest :: m.more).foldl (fun st x =>
        if x.1 = s.dev then st.takeRowAnswer x.2 bytes bad failed
        else st.sendPacket x.1 none (.rowAnswer x.2 bytes bad failed))
      { s with merges := s.merges.filter (·.id != id) }

/-- What a packet for this device does here. -/
def State.accept (s : State) (p : Packet) : State :=
  match p.body with
  | .answer id value how => s.takeAnswerOf id value how
  | .rowAnswer id bytes bad failed => s.spreadRow id bytes bad failed
  | .access id src _ .withdraw _ => s.callBack p.src src id
  | .access id src addr op limit => s.takeRemote p.src src id (remoteAct op) addr limit
  | .rowRead id src unit tid row _ _ _ replyTo =>
    s.takeRowRequest replyTo src id unit tid row (Act.row tid) fun _ => .rowAnswer id [] [] true
  | .accumulate id src unit tid row elems =>
    s.takeRowRequest p.src src id unit tid row (fun t l => .accumulate tid t l elems) (.answer id 0)
  | .overwrite id src unit tid row bytes bad =>
    s.takeRowRequest p.src src id unit tid row (fun t l => .overwrite tid t l bytes bad) (.answer id 0)
  | .firnWrite id src block elems part => s.takeBlock p.src src id true block elems part
  | .firnRead id src block part => s.takeBlock p.src src id false block [] part
  | .register id src target treg value =>
    s.takeMessage p.src src id (.register (unitOfId target) (BitVec.ofNat 4 target.toNat) (BitVec.ofNat 6 treg) value)
  | .active id src target hidx arg source => s.takeMessage p.src src id (.active (unitOfId target) hidx arg source)
  | .spawn id src target pc args => s.takeMessage p.src src id (.spawn (unitOfId target) pc args)
  | .continuation target epc arg => s.takeMessage p.src 0 0 (.continuation (unitOfId target) epc arg)
  | .link tile ep fromDev fromTile fromEp body =>
    { s with flits := s.flits ++ [⟨tile, ep, (fromDev, fromTile, fromEp), body, s.nextId⟩] }
  | .skip => s
  | .coachReady .. | .coachData .. | .coachAck .. | .quiesce .. | .reserve .. | .reserved .. | .release .. | .wake .. |
    .complete .. | .reset .. | .preempt .. | .preempted .. => { s with inbox := s.inbox ++ [p.body] }

/-- The pair of an ordered packet, as a key. -/
def pairKey (dev src home : Nat) : Nat := (dev * 2 ^ 12 + src) * 2 ^ 16 + home

/-- Whether a packet is the next of its pair. -/
def State.isNext (s : State) (p : Packet) : Bool :=
  match p.order with
  | some (src, home, n) => n == lookup 0 s.seqIn (pairKey p.src src home)
  | none => true

/-- A packet in its turn: the next number of its pair rises. -/
def State.acceptNext (s : State) (p : Packet) : State :=
  match p.order with
  | some (src, home, n) => { s with seqIn := insertAt (pairKey p.src src home) (n + 1) s.seqIn }.accept p
  | none => s.accept p

/-- The packets that came early and are now in their turn. -/
def State.drainEarly : Nat → State → State
  | 0, s => s
  | fuel + 1, s =>
    match s.early.find? s.isNext with
    | none => s
    | some p => State.drainEarly fuel ({ s with early := s.early.filter (· != p) }.acceptNext p)

/-- A packet reaches its device: one that is not the next of its pair waits (R287); one that has come before is discarded
(R419). -/
def State.deliver (s : State) (p : Packet) : State :=
  if s.isNext p then (s.acceptNext p).drainEarly s.early.length
  else match p.order with
    | some (src, home, n) =>
      if lookup 0 s.seqIn (pairKey p.src src home) < n ∧ !s.early.contains p then { s with early := s.early ++ [p] } else s
    | none => s

/-! ## The router at work (R419, R460) -/

/-- Flits of 64 bytes of a packet (R309, R419): eight for a slot, and otherwise one for each 64 bytes of the data of a row or a block,
at least one (assumption 145). -/
def flitsOf (p : Packet) : Nat :=
  let of (bytes : Nat) : Nat := max 1 ((bytes + 63) / 64)
  match p.body with
  | .link _ _ _ _ _ (.slot _ _) => 8
  | .rowAnswer _ bytes _ _ | .overwrite _ _ _ _ _ bytes _ => of bytes.length
  | .accumulate _ _ _ _ _ elems | .firnWrite _ _ _ elems _ => of (4 * elems.length)
  | _ => 1

/-- The flits that a packet stands for: the first, and that after the last. -/
def spanOf (p : Packet) : Nat × Nat := p.part.getD (0, flitsOf p)

/-- Flits of a packet have come: it is delivered once all of them have (R221, R419). -/
def State.collect (s : State) (p : Packet) : State :=
  match p.part with
  | none => s.deliver p
  | some (i, j) =>
    let whole := { p with part := none, det := none }
    let old := (s.partials.find? (·.1 == whole)).map (·.2) |>.getD []
    let now := ((List.range (j - i)).map (i + ·)).foldl (fun l k => setInsert k l) old
    let rest := { s with partials := s.partials.filter (·.1 != whole) }
    if now.length = flitsOf p then rest.deliver whole else { rest with partials := rest.partials ++ [(whole, now)] }

/-- Whether a port can take a flit: it does not retrain, and its replay buffer has room (R419, R420). -/
def State.portRoom (s : State) (k : Nat) : Bool := !(s.port k).training && decide ((s.port k).kept.length < 128)

/-- Whether the router can move a packet now. -/
def State.movable (s : State) (p : Packet) : Bool :=
  match s.routeOf p.dest p.det with
  | .port k _ => s.portRoom k
  | .deliver | .drop => true

/-- Of the packet that has waited longest, of those that can move, the next flit is sent on; or it is delivered, or dropped with what is
left of it, which counts as a packet once (R420, R459). -/
def State.routeStep (s : State) : State :=
  match s.outbox.findIdx? s.movable with
  | none => s
  | some i =>
    match s.outbox[i]? with
    | none => s
    | some p =>
      let c := { s with outbox := s.outbox.eraseIdx i }.combine p
      match s.routeOf p.dest p.det with
      | .deliver => c.1.collect c.2
      | .drop =>
        if c.2.body = .skip then c.1 else (if (spanOf p).2 = flitsOf p then c.1.dropPacket p.dest else c.1).noteLost p
      | .port k det =>
        let x := c.1.port k
        let f := spanOf c.2
        let flit := if flitsOf c.2 = 1 then c.2 else { c.2 with part := some (f.1, f.1 + 1) }
        let s1 := c.1.setPort k { x with sent := x.sent + 1, kept := x.kept ++ [(x.sent, { flit with det := det }, 0)] }
        if f.1 + 1 < f.2 then
          { s1 with outbox := s1.outbox.take i ++ { c.2 with part := some (f.1 + 1, f.2) } :: s1.outbox.drop i }
        else s1

/-- The other end of a port acknowledges the flits below a number (R419). -/
def State.portAck (s : State) (k seq : Nat) : State :=
  let x := s.port k
  let kept := x.kept.filter fun f => decide (seq ≤ f.1)
  if x.training || kept.length == x.kept.length then s
  else s.setPort k { x with kept := kept }

end Sys2Proof.Machine
end

