-- ==== Sys2Proof/Machine/Fabric.lean ====
section
/-! DEFINITION. Fabric links (R419 to R421): flits, replays, lanes and retraining. -/

namespace Sys2Proof.Machine

/-- A flit comes in through a port: in sequence and with a good link check it goes to the router; else it is discarded,
and a replay is asked for (R419). Nothing crosses a port that is down or retrains (R420). -/
def execFlitReceive (k seq : Nat) (good : Bool) (flit : Packet) (s : State) : Out :=
  let x := s.port k
  if !s.portUp k || x.training then .next s
  else if good && seq == x.want then
    .next { s.setPort k { x with want := x.want + 1, asks := false } with outbox := s.outbox ++ [flit] }
  else .next (s.setPort k { x with asks := true })

/-- A port begins to retrain (R420). -/
def State.train (s : State) (k : Nat) (widen : Bool) (lanes : BitVec 8) : State :=
  let x := s.port k
  s.setPort k { x with training := true, widen := x.widen || widen, bad := x.bad ||| lanes }

/-- REPLAYS counts flits that are sent again (R421). -/
def State.countReplays (s : State) (k n : Nat) : State :=
  s.setField (linkReg k) 32 32 (min (s.field (linkReg k) 32 32 + n) (2 ^ 32 - 1))

/-- The kept flits of a port after a replay from a number on: how often in a row each has been sent again. -/
def Port.replay (x : Port) (seq : Nat) : Port :=
  { x with kept := x.kept.map fun f => (f.1, f.2.1, if seq ≤ f.1 then f.2.2 + 1 else 0) }

/-- The other end asks for a replay: the flit it names and every later one are sent again (R419); once one flit has been sent again eight
times in a row, the port retrains (R420). -/
def execReplayRequest (k seq : Nat) (s : State) : Out :=
  let x := s.port k
  let n := (x.kept.filter fun f => decide (seq ≤ f.1)).length
  if !s.portUp k || x.training || n == 0 then .next s
  else
    let y := x.replay seq
    let s1 := (s.countReplays k n).setPort k y
    .next (if y.kept.any fun f => f.2.2 == 8 then s1.train k false 0 else s1)

/-- Training symbols show lanes that have failed (R420). Which flit was being sent, if any, is open: it and those after it are sent again
when the training has ended. -/
def execLaneFailure (k : Nat) (lanes : BitVec 8) (s : State) : Out :=
  if s.portUp k ∧ lanes ≠ 0 then
    let s1 := s.train k false lanes
    .next (s1.setPort k { s1.port k with cut := Config.choice s.seq % ((s.port k).kept.length + 1) })
  else .next s

/-- The width that a set of good lanes allows (R420). -/
def widthOf (good : BitVec 8) : Nat :=
  let all (m : BitVec 8) : Bool := good &&& m == m
  if all 0xFF then 3
  else if all 0x0F || all 0xF0 then 2
  else if all 0x03 || all 0x0C || all 0x30 || all 0xC0 then 1
  else 0

/-- Retraining ends. Which lanes pass is open, but for those whose failure began it; only a RETRAIN request widens a port.
The flits of a port that is down go by another way (R420). -/
def execRetrainEnd (k : Nat) (s : State) : Out :=
  let x := s.port k
  if !x.training || s.justSet (linkReg k) 2 then .next s
  else
    let good := BitVec.ofNat 8 (Config.choice s.seq) &&& ~~~x.bad
    let old := s.portWidth k
    let w := if x.widen then widthOf good else min old (widthOf good)
    let s1 := (((s.setField (linkReg k) 8 8 good.toNat).setField (linkReg k) 4 2 w).setField (linkReg k) 2 1 0)
    let s2 := if w < old then s1.setBit (linkReg k) 1 else s1
    let y := { x with training := false, widen := false, bad := ~~~good, cut := 0, kept := x.kept.map fun f => (f.1, f.2.1, 0) }
    if w = 0 then .next { s2.setPort k { y with kept := [] } with outbox := x.kept.map (·.2.1) ++ s2.outbox }
    else .next ((s2.countReplays k x.cut).setPort k y)

/-- Software asks a port to retrain at the widest width that its good lanes allow: every lane is tried anew (R420, R421). -/
def execRetrain (k : Nat) (s : State) : Out :=
  if 8 ≤ k then .next s
  else
    let x := s.port k
    .next ((s.setBit (linkReg k) 2).setPort k { x with training := true, widen := true, bad := 0 })

end Sys2Proof.Machine
end

