-- ==== Sys2Proof/Machine/Audit.lean ====
section
/-! DEFINITION. The permit audit (R422 to R425). -/

namespace Sys2Proof.Machine

/-- The audit engine of an outbound endpoint: that of the port its peer's route leaves through, or of the crossbar. -/
def State.auditPort (s : State) (e : Endpoint) : Option Nat :=
  if e.peer.1 = s.dev then some 8
  else match s.routeOf e.peer.1 none with
    | .port k _ => some k
    | .deliver | .drop => none

/-- Whether a round may run on a pair: it is bound at both ends, and neither held, closing nor broken (R422). -/
def Endpoint.auditable (e : Endpoint) : Bool :=
  e.dir == .outbound && e.granted && !e.held && !e.closing && !e.broken && e.audit.isNone

/-- A round begins: the marker goes out in slot order with the permits held (R422). -/
def State.startAudit (s : State) (n : Nat) (l : BitVec 3) : State :=
  let e := s.ep n l
  (s.setEp n l { e with audit := some ⟨e.permits, 0, s.ck⟩, audited := s.rtick }).sendPeer n l (.marker e.permits)

/-- The pairs of an audit engine: tile and endpoint. -/
def State.auditPairs (s : State) (port : Nat) : List (Nat × BitVec 3) :=
  (List.range 256).filterMap fun i =>
    let e := s.ep (i / 8) (epIdx i)
    if e.dir == .outbound && s.auditPort e == some port then some (i / 8, epIdx i) else none

/-- A round begins on every eligible pair of an engine (R423). -/
def State.startRounds (s : State) (port : Nat) : State :=
  ((s.auditPairs port).filter fun x => (s.ep x.1 x.2).auditable).foldl (fun st x => st.startAudit x.1 x.2) s

/-- AUDCTL.NOW of an engine clears when no round of its pairs is in progress (R423). Where software has set it in this ck it stays
set (R6); where it stood already, the rounds that it asked for anew begin. -/
def State.settleAudit (s : State) (port : Nat) : State :=
  if s.field (auditReg port) 8 1 = 1 ∧ !(s.auditPairs port).any fun x => (s.ep x.1 x.2).audit.isSome then
    if s.justSet (auditReg port) 9 then s.startRounds port else s.clearBit (auditReg port) 8
  else s

/-- The same for every engine; it is seen at the end of each ck. -/
def State.settleAudits (s : State) : State := (List.range 9).foldl State.settleAudit s

/-- The period of a pair has passed, and a round begins (R423). -/
def execAuditPeriod (n ep : Nat) (s : State) : Out :=
  let e := s.ep n (epIdx ep)
  match s.auditPort e with
  | some k =>
    let per := s.field (auditReg k) 32 32
    .next (if e.auditable && per != 0 && decide (e.audited + per ≤ s.rtick) then s.startAudit n (epIdx ep) else s)
  | none => .next s

/-- AUDCTL of a port, or of the crossbar for 8: the period, the total, and a round on every eligible pair now (R423). -/
def execAudctlNow (port : Nat) (v : Word) (s : State) : Out :=
  if 8 < port then .next s
  else
    let s1 := ((s.setField (auditReg port) 32 32 (bitsOf v.toNat 32 32)).setField (auditReg port) 0 6 (bitsOf v.toNat 0 6))
    .next (if !v.getLsbD 8 then s1
      else if s1.field (auditReg port) 8 1 = 0 then (s1.startRounds port).setBit (auditReg port) 8
      else s1.noteSet (auditReg port) 9)

/-- A marker arrives: every slot before it has come, and the reply carries what is occupied and what is owed; a pair that is not
bound at this end, or held, closing or broken, is skipped (R422). -/
def execAuditMarker (n : Nat) (s : State) : Out :=
  match s.firstFlit n with
  | some ⟨t, l, src, .marker _, _⟩ =>
    if s.awaitsMove t l then .next s else
    let s1 := s.takeFlit n
    let e := s1.ep t (epIdx l)
    if e.dir = .inbound ∧ e.peer = src ∧ !e.held ∧ !e.closing ∧ !e.broken then
      .next (s1.sendPeer t (epIdx l) (.reply (e.filled + e.owed)))
    else .next (s1.sendFlit t (epIdx l) src .noRound)
  | _ => .next s

/-- Whether the state of a pair lets a round that has begun go on (R422). -/
def Endpoint.inRound (e : Endpoint) : Bool := e.dir == .outbound && !e.held && !e.closing && !e.broken

/-- The round of an endpoint ends without a verdict (R422). -/
def State.skipRound (s : State) (n : Nat) (l : BitVec 3) : State := s.setEp n l { s.ep n l with audit := none }

/-- A failed round, or no reply, holds its pair: the peer is told (R399, R424). -/
def State.holdPair (s : State) (n : Nat) (l : BitVec 3) (kind sum : Nat) : State :=
  ((s.setEp n l { s.ep n l with held := true, audit := none }).sendPeer n l .hold).permitEvent n l kind sum

/-- A reply arrives: the round passes where P + O + C is TOT (R422, R424). -/
def execAuditReply (n : Nat) (s : State) : Out :=
  match s.firstFlit n with
  | some ⟨t, l, src, .reply o, _⟩ =>
    let s1 := s.takeFlit n
    let e := s1.ep t (epIdx l)
    match e.audit, decide (e.inRound ∧ e.peer = src) with
    | some r, true =>
      let sum := r.p + o + r.c
      let tot := match s1.auditPort e with
        | some k => s1.field (auditReg k) 0 6
        | none => 32
      let s2 := if sum = tot then s1.setEp t (epIdx l) { e with audit := none } else s1.holdPair t (epIdx l) 1 sum
      .next s2
    | some _, false => .next (if e.inRound then s1 else s1.skipRound t (epIdx l))
    | none, _ => .next s1
  | some ⟨t, l, src, .noRound, _⟩ =>
    let s1 := s.takeFlit n
    .next (if (s1.ep t (epIdx l)).peer = src then s1.skipRound t (epIdx l) else s1)
  | _ => .next s

/-- No reply within 2^20 ck: the pair is held, and the endpoint is broken (R422, R424, R425). n is eight times the tile plus
the endpoint. -/
def execAuditNoReply (n : Nat) (s : State) : Out :=
  let l := epIdx n
  let e := s.ep (n / 8) l
  match e.audit with
  | some r =>
    if s.ck < r.sentAt + 2 ^ 20 then .next s
    else if !e.inRound then .next (s.skipRound (n / 8) l)
    else
      let s1 := s.holdPair (n / 8) l 3 0
      .next (s1.setEp (n / 8) l (s1.ep (n / 8) l).break)
  | none => .next s

end Sys2Proof.Machine
end

