-- ==== Sys2Proof/Machine/Hash.lean ====
section
/-! DEFINITION. The check value of a beat (R414), and SHAKE256 (R435, R436, R445). -/

namespace Sys2Proof.Machine

/-! ## CRC-32C (R414) -/

def crcBits : Nat → BitVec 32 → BitVec 32
  | 0, c => c
  | n + 1, c => crcBits n (if c.getLsbD 0 then (c >>> 1) ^^^ 0x82F63B78 else c >>> 1)

def crcBytes : List Byte → BitVec 32 → BitVec 32
  | [], c => c
  | b :: bs, c => crcBytes bs (crcBits 8 (c ^^^ b.zeroExtend 32))

/-- The check value of bytes in ascending address order; the polynomial is bit-reflected. -/
def crc32c (bytes : List Byte) : BitVec 32 := ~~~crcBytes bytes 0xFFFFFFFF

/-! ## SHAKE256 -/

/-- The rotation of each lane, lane (x, y) at x + 5y. -/
def keccakRot : List Nat :=
  [0, 1, 62, 28, 27, 36, 44, 6, 55, 20, 3, 10, 43, 25, 39, 41, 45, 15, 21, 8, 18, 2, 61, 56, 14]

def keccakConst : List (BitVec 64) :=
  [0x0000000000000001, 0x0000000000008082, 0x800000000000808A, 0x8000000080008000, 0x000000000000808B, 0x0000000080000001,
   0x8000000080008081, 0x8000000000008009, 0x000000000000008A, 0x0000000000000088, 0x0000000080008009, 0x000000008000000A] ++
  [0x000000008000808B, 0x800000000000008B, 0x8000000000008089, 0x8000000000008003, 0x8000000000008002, 0x8000000000000080,
   0x000000000000800A, 0x800000008000000A, 0x8000000080008081, 0x8000000000008080, 0x0000000080000001, 0x8000000080008008]

/-- One round. -/
def keccakRound (a : List (BitVec 64)) (rc : BitVec 64) : List (BitVec 64) :=
  let g (l : List (BitVec 64)) (i : Nat) : BitVec 64 := l.getD i 0
  let c := (List.range 5).map fun x => g a x ^^^ g a (x + 5) ^^^ g a (x + 10) ^^^ g a (x + 15) ^^^ g a (x + 20)
  let d := (List.range 5).map fun x => g c ((x + 4) % 5) ^^^ (g c ((x + 1) % 5)).rotateLeft 1
  let t := (List.range 25).map fun i => (g a i ^^^ g d (i % 5)).rotateLeft (keccakRot.getD i 0)
  let p := (List.range 25).map fun i => g t ((i % 5 + 3 * (i / 5)) % 5 + 5 * (i % 5))
  let q := (List.range 25).map fun i =>
    let y := i / 5 * 5
    g p i ^^^ (~~~g p ((i + 1) % 5 + y) &&& g p ((i + 2) % 5 + y))
  match q with
  | x :: rest => (x ^^^ rc) :: rest
  | [] => []

def keccakF (a : List (BitVec 64)) : List (BitVec 64) := keccakConst.foldl keccakRound a

/-- Absorbs a block of 136 bytes. -/
def absorb (a : List (BitVec 64)) (block : List Byte) : List (BitVec 64) :=
  let lanesIn := lanes 64 17 (bytesToNat block)
  keccakF ((List.range 25).map fun i => a.getD i 0 ^^^ BitVec.ofNat 64 (lanesIn.getD i 0))

def absorbAll : Nat → List (BitVec 64) → List Byte → List (BitVec 64)
  | 0, a, _ => a
  | n + 1, a, bytes => absorbAll n (absorb a (bytes.take 136)) (bytes.drop 136)

/-- SHAKE256 with an output of n bytes, at most 136. -/
def shakeOut (n : Nat) (msg : List Byte) : List Byte :=
  let blocks := msg.length / 136 + 1
  let pad := List.replicate (136 * blocks - msg.length) (0 : Byte)
  let all := msg ++ pad.mapIdx fun i b =>
    (if i = 0 then (0x1F : Byte) else b) ^^^ (if i + 1 = pad.length then (0x80 : Byte) else 0)
  let out := absorbAll blocks (List.replicate 25 0) all
  (out.flatMap fun w => natToBytes 8 w.toNat).take n

/-- SHAKE256 with an output of 256 bits. -/
def shake256 (msg : List Byte) : List Byte := shakeOut 32 msg

end Sys2Proof.Machine
end

