-- ==== Sys2Proof/Machine/Slh.lean ====
section
/-! DEFINITION. SLH-DSA with the parameter set SHAKE-256s (R435, R444, R445; FIPS 205): n = 32, a hypertree of height 64 in 8
layers of height 8, and 22 FORS trees of height 14. -/

namespace Sys2Proof.Machine

/-- The address of a hash: layer, tree, type, and three words that depend on the type. -/
structure SlhAdrs where
  layer : Nat
  tree : Nat
  type : Nat
  pair : Nat
  w1 : Nat
  w2 : Nat
deriving DecidableEq, Repr

/-- A number in n bytes, the most significant first. -/
def bigBytes (n v : Nat) : List Byte := (natToBytes n v).reverse

/-- Bytes as a number, the most significant first. -/
def bigNat (l : List Byte) : Nat := bytesToNat l.reverse

def SlhAdrs.bytes (a : SlhAdrs) : List Byte :=
  bigBytes 4 a.layer ++ bigBytes 12 a.tree ++ bigBytes 4 a.type ++ bigBytes 4 a.pair ++ bigBytes 4 a.w1 ++ bigBytes 4 a.w2

/-- F, H, T and PRF: one hash over the public seed, an address and a message. -/
def slhHash (seed : List Byte) (a : SlhAdrs) (msg : List Byte) : List Byte := shake256 (seed ++ a.bytes ++ msg)

/-- String i of a run of strings of 32 bytes. -/
def slhPart (l : List Byte) (i : Nat) : List Byte := (l.drop (32 * i)).take 32

/-- The digits of b bits of a string of bytes, the first in its most significant bits. -/
def slhDigits (b count : Nat) (bytes : List Byte) : List Nat :=
  let v := bigNat bytes
  (List.range count).map fun i => v / 2 ^ (8 * bytes.length - b * (i + 1)) % 2 ^ b

/-! ## WOTS+ -/

/-- Steps i to i + n − 1 of a chain. -/
def slhChain (seed : List Byte) (a : SlhAdrs) (x : List Byte) (i n : Nat) : List Byte :=
  (List.range n).foldl (fun t j => slhHash seed { a with w2 := i + j } t) x

/-- The 67 digits of a message: 64 of its own, and 3 of their checksum. -/
def wotsDigits (msg : List Byte) : List Nat :=
  let d := slhDigits 4 64 msg
  let sum := (d.map fun x => 15 - x).foldl (· + ·) 0
  d ++ slhDigits 4 3 (bigBytes 2 (16 * sum))

/-- The addresses of key pair p of a tree: its chain i, the secret of chain i, and its public key. -/
def SlhAdrs.chain (a : SlhAdrs) (p i : Nat) : SlhAdrs := { a with type := 0, pair := p, w1 := i, w2 := 0 }
def SlhAdrs.secret (a : SlhAdrs) (p i : Nat) : SlhAdrs := { a with type := 5, pair := p, w1 := i, w2 := 0 }
def SlhAdrs.wotsKey (a : SlhAdrs) (p : Nat) : SlhAdrs := { a with type := 1, pair := p, w1 := 0, w2 := 0 }

/-- The public key that a signature of a message gives. -/
def wotsFromSig (seed : List Byte) (a : SlhAdrs) (p : Nat) (sig msg : List Byte) : List Byte :=
  slhHash seed (a.wotsKey p) ((wotsDigits msg).mapIdx fun i d => slhChain seed (a.chain p i) (slhPart sig i) d (15 - d)).flatten

/-- The start of chain i. -/
def wotsSecret (sk seed : List Byte) (a : SlhAdrs) (p i : Nat) : List Byte := slhHash seed (a.secret p i) sk

def wotsPublic (sk seed : List Byte) (a : SlhAdrs) (p : Nat) : List Byte :=
  slhHash seed (a.wotsKey p) ((List.range 67).flatMap fun i => slhChain seed (a.chain p i) (wotsSecret sk seed a p i) 0 15)

def wotsSign (sk seed : List Byte) (a : SlhAdrs) (p : Nat) (msg : List Byte) : List Byte :=
  ((wotsDigits msg).mapIdx fun i d => slhChain seed (a.chain p i) (wotsSecret sk seed a p i) 0 d).flatten

/-! ## Trees -/

/-- The address of node i at a height: of a tree of key pairs (type 2), or of a FORS tree (type 3). -/
def SlhAdrs.node (a : SlhAdrs) (height i : Nat) : SlhAdrs := { a with w1 := height, w2 := i }

/-- The root that a path of n strings gives from node i. -/
def slhClimb (seed : List Byte) (a : SlhAdrs) (auth : List Byte) (n i : Nat) (leaf : List Byte) : List Byte :=
  (List.range n).foldl (fun t k =>
    let sib := slhPart auth k
    slhHash seed (a.node (k + 1) (i / 2 ^ (k + 1))) (if i / 2 ^ k % 2 = 0 then t ++ sib else sib ++ t)) leaf

/-- The node at a height over leaves, node i of its height. -/
def slhNode (seed : List Byte) (a : SlhAdrs) (leaf : Nat → List Byte) : Nat → Nat → List Byte
  | 0, i => leaf i
  | z + 1, i => slhHash seed (a.node (z + 1) i) (slhNode seed a leaf z (2 * i) ++ slhNode seed a leaf z (2 * i + 1))

/-- The path of leaf i of a tree of height n. -/
def slhPath (seed : List Byte) (a : SlhAdrs) (leaf : Nat → List Byte) (n i : Nat) : List Byte :=
  (List.range n).flatMap fun j =>
    let k := i / 2 ^ j
    slhNode seed a leaf j (if k % 2 = 0 then k + 1 else k - 1)

/-- A tree of key pairs. -/
def SlhAdrs.pairs (a : SlhAdrs) : SlhAdrs := { a with type := 2, pair := 0, w1 := 0, w2 := 0 }

/-- The root that a tree's signature of a message gives, from key pair p. -/
def xmssFromSig (seed : List Byte) (a : SlhAdrs) (p : Nat) (sig msg : List Byte) : List Byte :=
  slhClimb seed a.pairs (sig.drop 2144) 8 p (wotsFromSig seed a p (sig.take 2144) msg)

def xmssSign (sk seed : List Byte) (a : SlhAdrs) (p : Nat) (msg : List Byte) : List Byte :=
  wotsSign sk seed a p msg ++ slhPath seed a.pairs (wotsPublic sk seed a) 8 p

/-! ## The hypertree -/

/-- The tree of layer j above leaf (tree, p) of layer 0, and its key pair. -/
def htAdrs (tree j : Nat) : SlhAdrs := ⟨j, tree / 2 ^ (8 * j), 0, 0, 0, 0⟩
def htPair (tree p j : Nat) : Nat := if j = 0 then p else tree / 2 ^ (8 * (j - 1)) % 2 ^ 8

/-- The root that a signature gives. -/
def htRoot (seed : List Byte) (tree p : Nat) (sig msg : List Byte) : List Byte :=
  (List.range 8).foldl (fun t j => xmssFromSig seed (htAdrs tree j) (htPair tree p j) ((sig.drop (2400 * j)).take 2400) t) msg

/-- The signatures of the layers, each of the root below it. -/
def htSign (sk seed : List Byte) (tree p : Nat) (msg : List Byte) : List Byte :=
  ((List.range 8).foldl (fun (acc : List Byte × List Byte) j =>
    let sig := xmssSign sk seed (htAdrs tree j) (htPair tree p j) acc.2
    (acc.1 ++ sig, xmssFromSig seed (htAdrs tree j) (htPair tree p j) sig acc.2)) ([], msg)).1

/-! ## FORS -/

/-- The FORS trees that key pair p of a tree of layer 0 signs. -/
def forsAdrs (tree p : Nat) : SlhAdrs := ⟨0, tree, 3, p, 0, 0⟩

/-- The public key of the FORS trees, from their roots. -/
def forsKey (seed : List Byte) (tree p : Nat) (roots : List (List Byte)) : List Byte :=
  slhHash seed ⟨0, tree, 4, p, 0, 0⟩ roots.flatten

/-- The public key that a signature of a digest gives. -/
def forsFromSig (seed : List Byte) (tree p : Nat) (sig digest : List Byte) : List Byte :=
  let a := forsAdrs tree p
  forsKey seed tree p ((slhDigits 14 22 digest).mapIdx fun i x =>
    let part := (sig.drop (480 * i)).take 480
    let leaf := i * 2 ^ 14 + x
    slhClimb seed a (part.drop 32) 14 leaf (slhHash seed (a.node 0 leaf) (part.take 32)))

/-- The secret of a leaf. -/
def forsSecret (sk seed : List Byte) (tree p i : Nat) : List Byte := slhHash seed ⟨0, tree, 6, p, 0, i⟩ sk

def forsSign (sk seed : List Byte) (tree p : Nat) (digest : List Byte) : List Byte :=
  let a := forsAdrs tree p
  ((slhDigits 14 22 digest).mapIdx fun i x =>
    let leaf := i * 2 ^ 14 + x
    forsSecret sk seed tree p leaf ++
      slhPath seed a (fun j => slhHash seed (a.node 0 j) (forsSecret sk seed tree p j)) 14 leaf).flatten

/-! ## Signatures -/

/-- SHAKE256 with an output of 47 bytes: the digest of a message, its tree and its key pair. -/
def slhDigest (r seed root msg : List Byte) : List Byte × Nat × Nat :=
  let d := shakeOut 47 (r ++ seed ++ root ++ msg)
  (d.take 39, bigNat ((d.drop 39).take 7), bigNat (d.drop 46))

/-- The message of the pure form with an empty context. -/
def slhPure (msg : List Byte) : List Byte := 0 :: 0 :: msg

/-- SLH-DSA.Verify, pure form, empty context (R435). -/
def slhVerify (pk msg sig : List Byte) : Bool :=
  let seed := pk.take 32
  let root := pk.drop 32
  let (digest, tree, p) := slhDigest (sig.take 32) seed root (slhPure msg)
  let fors := forsFromSig seed tree p ((sig.drop 32).take 10560) digest
  pk.length == 64 && sig.length == 29792 && htRoot seed tree p (sig.drop 10592) fors == root

/-- The root of the topmost tree. -/
def slhRoot (sk seed : List Byte) : List Byte :=
  let a : SlhAdrs := ⟨7, 0, 0, 0, 0, 0⟩
  slhNode seed a.pairs (wotsPublic sk seed a) 8 0

/-- The public key that belongs to a secret of 96 bytes: the secret seed, the key of the message's randomizer, and the public
seed. -/
def slhPublic (secret : List Byte) : List Byte := slhPart secret 2 ++ slhRoot (slhPart secret 0) (slhPart secret 2)

/-- A signature, pure form, empty context; add is the value that randomizes it (R445). -/
def slhSign (secret add msg : List Byte) : List Byte :=
  let sk := slhPart secret 0
  let seed := slhPart secret 2
  let m := slhPure msg
  let r := shake256 (slhPart secret 1 ++ add ++ m)
  let (digest, tree, p) := slhDigest r seed (slhRoot sk seed) m
  let fors := forsSign sk seed tree p digest
  r ++ fors ++ htSign sk seed tree p (forsFromSig seed tree p fors digest)

end Sys2Proof.Machine
end

