-- ==== Sys2Proof/Machine/Boot.lean ====
section
/-! DEFINITION. Reset, boot and the services of the boot block (R430 to R445): fuses, measurements, discovery and the logical
map, multicast and attestation; and the boot flash (R458). -/

namespace Sys2Proof.Machine

/-! ## Fuses and measurements (R432, R436) -/

/-- A position is fused off: position 32r + c (R432). -/
def State.fused (s : State) (pos : Nat) : Bool := pos != 0 && (s.reg (0x1840 + pos / 64 * 8)).getLsbD (pos % 64)

/-- Substitution entry e: the position that gives up its number and the one that takes it. -/
def State.substitution (s : State) (e : Nat) : Option (Nat × Nat) :=
  let v := bitsOf (s.reg (0x1940 + e / 2 * 8)).toNat (32 * (e % 2)) 32
  if bitOf v 31 then some (32 * bitsOf v 20 5 + bitsOf v 25 5, 32 * bitsOf v 10 5 + bitsOf v 15 5) else none

/-- The fuse value of ASPARE n (R432). -/
def State.aspareFuse (s : State) (n : Nat) : Nat := bitsOf (s.reg (0x18C0 + n / 2 * 8)).toNat (32 * (n % 2)) 32

/-- The debug lock (R448). -/
def State.debugLocked (s : State) : Bool := (s.reg 0x1810).getLsbD 1

/-- Bytes of a run of registers. -/
def State.regBytes (s : State) (off n : Nat) : List Byte := (List.range (n / 8)).flatMap fun i => natToBytes 8 (s.reg (off + 8 * i)).toNat

/-- The words of bytes, into a run of registers. -/
def State.putRegBlock (s : State) (off : Nat) (bytes : List Byte) : State :=
  (List.range (bytes.length / 8)).foldl (fun st i =>
    st.setReg (off + 8 * i) (BitVec.ofNat 64 (bytesToNat ((bytes.drop (8 * i)).take 8)))) s

/-- MEAS m. -/
def measReg (m : Nat) : Nat := 0x1100 + 32 * m

/-- A measurement register is extended with the digest of some bytes (R436). -/
def State.extend (s : State) (m : Nat) (bytes : List Byte) : State :=
  s.putRegBlock (measReg m) (shake256 (s.regBytes (measReg m) 32 ++ shake256 bytes))

/-- A byte of the boot flash (R458). -/
def State.flashByte (s : State) (a : Nat) : Byte := lookup (Config.flash a) s.flash a

/-! ## Reset (R430) -/

/-- A register takes its fuse value where that is not its default. -/
def State.fuseReg (s : State) (off : Nat) (v : Word) : State := if s.reg off = v then s else s.setReg off v

/-- Whether an address lies in an accumulator plane, which reset does not clear (R224). -/
def inPlane (a : Nat) : Bool :=
  decide (1024 ≤ unitOf a) && decide (unitOf a < 1056) && decide (accAddr (unitOf a - 1024) 0 0 ≤ a) &&
    decide (a < accAddr (unitOf a - 1024) 0 0 + 0x20000)

/-- Fuse sense, clock start and on-die initialisation: all but the fuses, the flash, the accumulator planes and what has gone to
the host takes its reset value; MEAS1 is extended with the fuse window, and ASPARE and DUTY.DISC take their fuse values. -/
def State.afterReset (s : State) : State :=
  let keep : State := { State.reset with
    seq := s.seq, turn := s.turn, flash := s.flash, posts := s.posts, hostOut := s.hostOut,
    mem := s.mem.filter fun (x : Host.Cell) => inPlane x.1, failing := s.failing.filter inPlane,
    syndromes := s.syndromes.filter fun x => inPlane x.1,
    regs := s.regs.filter fun r => decide (0x1800 ≤ r.1) && decide (r.1 < 0x1A00) }
  let s1 := (List.range 32).foldl (fun st n => st.fuseReg (0x12050 + 128 * n) (BitVec.ofNat 64 (st.aspareFuse n))) keep
  let s2 := s1.fuseReg 0x20 (if (s.reg 0x1810).getLsbD 0 then 8 else 0)
  s2.extend 1 (s2.regBytes 0x1800 512)

def execReset (s : State) : Out := .next s.afterReset

/-- The contexts of the service core at ROM start (R430). -/
def State.romContexts (s : State) : State :=
  (List.finRange 16).foldl (fun st k =>
    let c := { (coreReset serviceCore).ctxs.get k with wsp := BitVec.ofNat 18 (0x38000 + 0x400 * k.val), tvec := 0x37F00 }
    let c1 := if k = 0 then { c with state := .run, pc := 0x30000, readyAt := st.ck + 1 }
      else if k = 15 then { c with state := .parked, park := .queue, parkedAt := st.ck } else c
    (st.setCtx serviceCore k c1).putNat (lsAddr serviceCore (c.wsp.toNat + 0x328)) 8 0x37F00) s

/-- ROM start, once after reset (R430): the first MiB of the flash stands in SHM, the ROM in the service core's local store,
and its head context and its message context start. -/
def execRomStart (s : State) : Out :=
  if s.booted then .next s
  else
    let s1 := s.putBytes (shmBase + 0x100000) ((List.range 0x100000).map s.flashByte)
    let rom := (List.range 0x8000).map Config.rom
    let s2 := (s1.putBytes (lsAddr serviceCore 0x30000) rom).extend 0 rom
    .next { s2.romContexts with booted := true }

/-! ## The firmware package (R434, R435) -/

/-- The package lies in SHM, where reset has put the first MiB of the flash. -/
def packageAddr : Nat := shmBase + 0x100000

/-- A field of the package's header. -/
def State.package (s : State) (off z : Nat) : Nat := s.readNat (packageAddr + off) z

/-- LOAD, ENTRY and LEN. -/
def State.packageLoad (s : State) : Nat := bitsOf (s.package 0x08 8) 0 18
def State.packageEntry (s : State) : Nat := bitsOf (s.package 0x08 8) 32 18
def State.packageLen (s : State) : Nat := s.package 0x10 4

/-- The header meets the first check of R435. -/
def State.packageForm (s : State) : Bool :=
  let load := s.packageLoad
  let len := s.packageLen
  s.package 0 2 == 1 && s.package 2 2 == 0 && s.package 0x18 8 == 0 && len != 0 && decide (load + len ≤ 0x30000) &&
    decide (0x74C0 + len ≤ 2 ^ 20) && s.packageEntry % 2 == 0 && decide (load ≤ s.packageEntry) &&
    decide (s.packageEntry < load + len)

/-- The public key, the body, and what the signature is over. -/
def State.packageKey (s : State) : List Byte := s.readBytes (packageAddr + 0x20) 64
def State.packageBody (s : State) : List Byte := s.readBytes (packageAddr + 0x74C0) s.packageLen
def State.packageMsg (s : State) : List Byte := s.readBytes packageAddr 0x60 ++ s.packageBody

/-- How the check ends, in the order of R435: 0, or the failure, with a beat that fails its check value. The bytes are read as
the checks come to them. -/
def State.packageVerdict (s : State) : Nat × Option Nat :=
  match s.failedBeat packageAddr 0x20 with
  | some b => (5, some b)
  | none =>
    if !s.packageForm then (1, none)
    else match s.failedBeat (packageAddr + 0x20) 64 with
      | some b => (5, some b)
      | none =>
        if shake256 s.packageKey ≠ s.regBytes 0x1820 32 then (2, none)
        else if s.package 4 4 < countBits 64 (s.reg 0x1818).toNat then (4, none)
        else match s.failedBeat (packageAddr + 0x60) (0x7460 + s.packageLen) with
          | some b => (5, some b)
          | none =>
            if slhVerify s.packageKey s.packageMsg (s.readBytes (packageAddr + 0x60) 29792) then (0, none) else (3, none)

/-- The ROM ends its check (R435): the body stands in the local store and the head context of the service core goes to its entry,
with the package measured; or BOOTERR holds the failure and the head context is DONE. -/
def State.romCheck (s : State) : State :=
  let c := s.ctxAt serviceCore 0
  if !s.booted ∨ s.romEnd.isSome ∨ c.state ≠ .run then s
  else
    let v := s.packageVerdict
    if v.1 = 0 then
      let s1 := (s.engineWrite (lsAddr serviceCore s.packageLoad) s.packageBody []).extend 2 s.packageMsg
      { s1.setCtx serviceCore 0 { s1.ctxAt serviceCore 0 with pc := BitVec.ofNat 18 s.packageEntry, since := none, window := [] } with
        romEnd := some 0 }
    else
      let s1 := match v.2 with
        | some b => s.logBeat b 1 none
        | none => s
      let s2 := (s1.setReg 0x1010 (BitVec.ofNat 64 (0x100000000000000 + v.1))).clearBit 0x1000 0
      { s2.setCtx serviceCore 0 { c with state := .done, since := none, window := [] } with romEnd := some v.1 }

/-- The package was refused, and UP stays 0 (R435). -/
def State.romFailed (s : State) : Bool := s.romEnd.isSome && s.romEnd != some 0

/-! ## UP and memory initialisation (R430, R431, R433) -/

/-- BOOTCTL.UP becomes 1, and READY clears (R433, R457). It happens at the end of a ck in which READY has not been set (R6). -/
def State.comeUp (s : State) : State :=
  let s1 := s.setReg 0x1000 0x100
  if s.field 0x1000 8 1 = 1 then s1 else s1.msix 67

/-- Memory initialisation has finished: HBM4, or the second tier. -/
def execMemoryInitDone (second : Bool) (s : State) : Out :=
  let s1 := if second then { s with tierReady := true } else { s with hbmReady := true }
  .next s1

/-- DISC.STATE (R433). -/
def State.discState (s : State) : Nat := s.field 0x1008 1 2

/-- A write to BOOTCTL: READY asks for UP (R433). -/
def execBootctlReady (v : Word) (s : State) : Out := .next (if v.getLsbD 0 then s.setBit 0x1000 0 else s)

/-- What READY asks for is done at the end of a later ck than that of its write (R6): it clears without UP where discovery has not
ended well or the ROM has refused its package; else UP is set, once memory initialisation has finished (R433, R435). -/
def State.settleReady (s : State) : State :=
  if s.field 0x1000 0 1 = 0 ∨ s.justSet 0x1000 0 then s
  else if s.discState ≠ 2 ∨ s.romFailed then s.setField 0x1000 0 1 0
  else if s.hbmReady ∧ s.tierReady then s.comeUp
  else s

/-! ## Discovery and the map (R437 to R440) -/

/-- An entry of a map window. -/
def State.setHalf (s : State) (off v : Nat) : State := s.setField (off / 8 * 8) (8 * (off % 8)) 16 v

def lmapReg (n : Nat) : Nat := 0x2000 + 2 * n
def pmapReg (pos : Nat) : Nat := 0x2800 + 2 * pos

/-- A role with its number as an entry of PMAP (R439). -/
def roleEntry (r : Nat × Nat) : Nat := r.1 * 2 ^ 13 + (if r.1 = 1 then r.2 else 0)

/-- Steps 1 and 2 of R438: the role and the number of every position, in row-major order (R16 to R18). -/
def State.firstRoles (s : State) : List (Nat × Nat) :=
  ((List.range 1024).foldl (fun (acc : List (Nat × Nat) × Nat) pos =>
    if pos = 0 then ((0, 0) :: acc.1, acc.2)
    else if s.fused pos then ((3, 0) :: acc.1, acc.2)
    else if acc.2 < 1008 then ((1, acc.2) :: acc.1, acc.2 + 1)
    else ((2, 0) :: acc.1, acc.2)) ([], 0)).1.reverse

/-- Step 3 of R438: the substitution entries. -/
def State.substitute (s : State) (roles : List (Nat × Nat)) : Option (List (Nat × Nat)) :=
  (List.range 15).foldl (fun acc e =>
    match acc, s.substitution e with
    | some l, some (f, t) =>
      if (l.getD f (0, 0)).1 = 1 ∧ (l.getD t (0, 0)).1 = 2 then some ((l.set t (l.getD f (0, 0))).set f (4, 0)) else none
    | acc, none => acc
    | none, _ => none) (some roles)

def countRole (r : Nat) (roles : List (Nat × Nat)) : Nat := (roles.filter fun x => x.1 == r).length

/-- The map that discovery builds; none where it fails (R438). -/
def State.builtMap (s : State) : Option (List (Nat × Nat)) :=
  if 15 < countRole 3 s.firstRoles then none else s.substitute s.firstRoles

/-- The counts of DISC for a map (R433). -/
def State.fillCounts (s : State) (roles : List (Nat × Nat)) : State :=
  (((s.setField 0x1008 32 16 (countRole 1 roles + countRole 2 roles)).setField 0x1008 24 8 (countRole 3 roles)).setField
    0x1008 16 8 (countRole 2 roles)).setField 0x1008 8 8 (countRole 4 roles)

/-- Discovery leaves its running state (R437, R457). -/
def State.endDisc (s : State) (st : Nat) : State := ((s.setField 0x1008 1 2 st).setField 0x1008 0 1 0).msix 67

/-- The map is empty (R437). -/
def State.clearMap (s : State) : State :=
  { s with regs := s.regs.filter fun r => !(decide (0x2000 ≤ r.1) && decide (r.1 < 0x3000)) }

/-- DISC.GO in hardware mode, or before the host's map: the flood starts, once per reset (R437). -/
def execDiscGo (v : Word) (s : State) : Out :=
  if v.getLsbD 0 ∧ s.discState = 0 then
    .next { (s.setField 0x1008 1 2 1).setBit 0x1008 0 with discAt := s.ck, reported := false }
  else .next s

/-- The flood runs, or the service block builds the map. -/
def State.discovering (s : State) : Bool := s.discState == 1 && s.field 0x1008 3 1 == 0

/-- The ck of the flood's end: the packet reaches P(31,31) 274 ck after the GO, and its report comes back over 62 hops, one of
them between rows 15 and 16. Every router is good, so every report comes (R437). -/
def State.floodEnd (s : State) : Nat := s.discAt + 546

/-- The next entry of the map that is to be written: one position in each ck after the flood (R437). -/
def State.nextEntry (s : State) (roles : List (Nat × Nat)) : Option Nat :=
  (List.range 1024).find? fun pos =>
    decide (s.floodEnd + 1 + pos ≤ s.ck) && s.halfReg (pmapReg pos) != roleEntry (roles.getD pos (0, 0))

/-- A report is missing 2^20 ck after the GO (R437). -/
def State.discoveryExpires (s : State) : Bool := s.discovering && !s.reported && decide (s.discAt + 2 ^ 20 ≤ s.ck)

/-- Discovery has something to do in this ck. -/
def State.discoveryDue (s : State) : Bool :=
  s.discovering && decide (s.floodEnd ≤ s.ck) && !s.discoveryExpires &&
    (!s.reported || s.field 0x20 3 1 == 1 || match s.builtMap with
      | none => true
      | some roles => (s.nextEntry roles).isSome || decide (s.floodEnd + 1025 ≤ s.ck))

/-- Discovery goes on: the last report comes; then the next entry of the map is written, and after the last STATE becomes 10; in
host-assisted mode the map waits for the host (R437, R438, R440). -/
def State.discoveryStep (s : State) : State :=
  if !s.discoveryDue then s
  else if !s.reported then { s with reported := true }
  else if s.field 0x20 3 1 = 1 then
    let s1 := (List.range 1024).foldl (fun st pos =>
      st.setHalf (pmapReg pos) (if pos = 0 then 0 else if s.fused pos then 3 * 2 ^ 13 else 2 ^ 13 + 0x3FF)) s
    (s1.setField 0x1008 3 1 1).setField 0x1008 0 1 0
  else match s.builtMap with
    | none => s.clearMap.endDisc 3
    | some roles =>
      match s.nextEntry roles with
      | some pos =>
        let r := roles.getD pos (0, 0)
        let s1 := s.setHalf (pmapReg pos) (roleEntry r)
        if r.1 = 1 then s1.setHalf (lmapReg r.2) pos else s1
      | none => (s.fillCounts roles).endDisc 2

/-- A report has not come within 2^20 ck of the GO (R437). -/
def execDiscoveryTimeout (s : State) : Out := .next (if s.discoveryExpires then s.clearMap.endDisc 3 else s)

/-- The host's map: LMAP gives the 1008 numbers to different good positions, and PMAP gives each of them its number and no other
position one (R440). -/
def State.hostMapOk (s : State) : Bool :=
  (List.range 1008).all (fun n =>
    let pos := s.halfReg (lmapReg n)
    decide (pos < 1024) && pos != 0 && !s.fused pos && s.halfReg (pmapReg pos) == roleEntry (1, n)) &&
  (List.range 1024).all fun pos =>
    let e := s.halfReg (pmapReg pos)
    e / 2 ^ 13 != 1 || (decide (e % 2 ^ 13 < 1008) && s.halfReg (lmapReg (e % 2 ^ 13)) == pos)

/-- The roles that PMAP gives. -/
def State.roles (s : State) : List (Nat × Nat) :=
  (List.range 1024).map fun pos => (s.halfReg (pmapReg pos) / 2 ^ 13, s.halfReg (pmapReg pos) % 2 ^ 10)

/-- The host's GO submits its map (R440). -/
def execMapSubmit (v : Word) (s : State) : Out :=
  if !v.getLsbD 0 ∨ s.discState ≠ 1 ∨ s.field 0x1008 3 1 = 0 then .next s
  else if s.hostMapOk then .next (((s.fillCounts s.roles).setField 0x1008 3 1 0).endDisc 2)
  else .next (s.endDisc 3)

/-! ## Multicast (R441) -/

/-- The fields of MCAST: the length in bytes, the destination and the source. -/
def State.mcLen (s : State) : Nat := 16 * (s.field 0x1018 50 14 + 1)
def State.mcDst (s : State) : Nat := s.field 0x1018 32 18
def State.mcSrc (s : State) : Nat := s.field 0x1018 0 18

/-- MCCTL.GO (R433, R441): refused, or the source is measured in this act and the beats set out. -/
def execMcctlGo (v : Word) (s : State) : Out :=
  if !v.getLsbD 0 ∨ s.field 0x1020 1 2 = 1 then .next s
  else if s.discState ≠ 2 ∨ s.field 0x1000 8 1 = 1 ∨ s.mcDst % 16 ≠ 0 ∨ s.mcSrc % 16 ≠ 0 ∨ 2 ^ 18 < s.mcDst + s.mcLen ∨
      2 ^ 18 < s.mcSrc + s.mcLen then .next (s.setField 0x1020 1 2 3)
  else
    let s1 := s.extend 3 (s.readBytes (lsAddr serviceCore s.mcSrc) s.mcLen)
    .next { (s1.setField 0x1020 1 2 1).setBit 0x1020 0 with mcast := some ⟨[], [], s.mcDst, (List.range 1008).map fun n => (n, 0), 0⟩ }

/-- The multicast goes on: the service block sends its next beat, or core u writes the next that has been sent. The core that
takes the last beat ends it (R441). -/
def State.multicastStep (s : State) (u : Nat) : State :=
  match s.mcast with
  | none => s
  | some m =>
    if u = serviceCore then
      let n := min 64 (s.mcLen - m.bytes.length)
      let a := lsAddr serviceCore (s.mcSrc + m.bytes.length)
      if n = 0 then s
      else
        let bad := if (s.failedBeat a n).isSome then m.bad ++ [m.bytes.length / 64] else m.bad
        { s with mcast := some { m with bytes := m.bytes ++ s.readBytes a n, bad := bad } }
    else match m.left.find? (·.1 == u) with
      | none => s
      | some (_, k) =>
        let bytes := (m.bytes.drop (64 * k)).take 64
        if bytes.isEmpty then s
        else
          let a := lsAddr u (m.dst + 64 * k)
          let bad := if m.bad.contains k then [a / 64 * 64, (a + bytes.length - 1) / 64 * 64] else []
          let s1 := s.engineWrite a bytes bad
          if 64 * k + bytes.length < s.mcLen then
            { s1 with mcast := some { m with left := m.left.map fun x => if x.1 = u then (u, k + 1) else x } }
          else
            let left := m.left.filter (·.1 != u)
            if left.isEmpty ∧ s.justSet 0x1020 0 then s
            else if left.isEmpty then
              (((({ s1 with mcast := none }.setField 0x1020 16 16 (m.count + 1)).setField 0x1020 1 2 2).setField 0x1020 0 1 0)).msix 67
            else { s1 with mcast := some { m with left := left, count := m.count + 1 } }

/-! ## Attestation (R444, R445) -/

/-- The address of the report buffer. -/
def State.attestBuf (s : State) : Nat := 256 * s.field 0x1028 8 19

/-- The signed part of a report. -/
def State.report (s : State) : List Byte :=
  let w0 := 1 + s.stepping * 2 ^ 16 + countBits 64 (s.reg 0x1818).toNat * 2 ^ 32
  let wB0 := s.field 0x1008 24 8 + s.field 0x1008 8 8 * 2 ^ 8 + s.field 0x20 3 1 * 2 ^ 16 + (if s.debugLocked then 2 ^ 17 else 0)
  natToBytes 8 w0 ++ natToBytes 8 (s.reg 0x1808).toNat ++ s.readBytes (shmBase + s.attestBuf + 0x10) 32 ++
    s.regBytes (measReg 0) 128 ++ natToBytes 8 wB0 ++ shake256 (s.regBytes 0x2000 2016) ++ List.replicate 0x28 0

/-- A write to ATTEST: the buffer, and GO, which asks for nothing more while a report is on its way but keeps the bit for its ck
(R6, R433, R445). -/
def execAttestGo (v : Word) (s : State) : Out :=
  let s1 := s.setField 0x1028 8 19 (bitsOf v.toNat 8 19)
  if !v.getLsbD 0 then .next s1
  else if s.field 0x1028 0 1 = 1 then .next (s1.noteSet 0x1028 0)
  else if 0x7FF4000 < s1.attestBuf + 30048 then .next (s1.setField 0x1028 4 4 1)
  else .next { s1.setBit 0x1028 0 with attest := some (shmBase + s1.attestBuf, s1.report) }

/-- The secret of the attestation key, which the device derives at reset from its own, and the public key that DAKPUB holds
(R444). -/
def attestSecret : List Byte := (List.range 96).map Config.attestSecret
def attestPublic : List Byte := slhPublic attestSecret

/-- The engine has signed: the report is written, RESULT is 0 and GO clears (R445, R457). -/
def execAttestReportDone (s : State) : Out :=
  match s.attest with
  | none => .next s
  | some (a, r) =>
    if s.justSet 0x1028 0 then .next s
    else
      let s1 := { s with attest := none }.putBytes a (r ++ slhSign attestSecret ((List.range 32).map (Config.attestRandom s.seq)) r)
      .next (((s1.setField 0x1028 4 4 0).setField 0x1028 0 1 0).msix 67)

/-! ## The boot flash (R458) -/

/-- A write to FLCTL: the page, and GO takes FLBUF as it stands (R458). -/
def execFlctlGo (v : Word) (s : State) : Out :=
  if s.field 0x400 0 1 = 1 then .next s
  else
    let s1 := s.setField 0x400 32 12 (bitsOf v.toNat 32 12)
    if v.getLsbD 0 then .next { s1.setBit 0x400 0 with flashJob := some (s1.field 0x400 32 12, s1.regBytes 0x4000 4096) }
    else .next s1

/-- The page is programmed and verified; ok tells that the verify has passed. What a page that fails holds is open (R458). -/
def execFlashProgramDone (ok : Bool) (s : State) : Out :=
  match s.flashJob with
  | none => .next s
  | some (page, bytes) =>
    if s.justSet 0x400 0 then .next s else
    let held (i : Nat) : Byte := if ok then bytes.getD i 0 else Config.badPage s.seq i
    let rest := s.flash.filter fun x => x.1 / 4096 != page
    let flash := (List.range 4096).foldl (fun l i => insertAt (4096 * page + i) (held i) l) rest
    .next (({ s with flashJob := none, flash := flash }.setField 0x400 4 4 (if ok then 0 else 2)).setField 0x400 0 1 0)

/-! ## Interrupts (R457) -/

/-- The host unmasks a vector; a message that it has pending is sent. -/
def State.msixUnmask (s : State) (v : Nat) : State :=
  let s1 := { s with msixMask := s.msixMask &&& ~~~BitVec.twoPow 68 v }
  if s.msixPend.getLsbD v then { s1 with msixPend := s.msixPend &&& ~~~BitVec.twoPow 68 v }.msix v else s1

def execMsixUnmask (v : Nat) (s : State) : Out := .next (if 68 ≤ v then s else s.msixUnmask v)

/-- The host masks a vector. -/
def State.msixMaskOn (s : State) (v : Nat) : State := { s with msixMask := s.msixMask ||| BitVec.twoPow 68 v }

/-- The host writes an aligned word of BAR2: the address of a vector, or its data with the mask bit of its control (R450). The
pending bits are read only. -/
def State.bar2Write (s : State) (off : Nat) (v : Word) : State :=
  if off % 8 ≠ 0 ∨ 68 * 16 ≤ off then s
  else
    let s1 := { s with msixTable := insertAt (off / 8) (if off % 16 = 0 then v &&& ~~~(3 : Word) else v &&& 0xFFFFFFFF) s.msixTable }
    if off % 16 = 0 then s1
    else if v.getLsbD 32 then s1.msixMaskOn (off / 16)
    else if s.msixMask.getLsbD (off / 16) then s1.msixUnmask (off / 16)
    else s1

/-- What the host reads there: the table, or the pending-bit array at 0x2000. -/
def State.bar2Word (s : State) (off : Nat) : Word :=
  if off < 68 * 16 then
    s.msixWord (off / 16) (off % 16 / 8) ||| (if off % 16 = 8 ∧ s.msixMask.getLsbD (off / 16) then 0x100000000 else 0)
  else if 0x2000 ≤ off ∧ off < 0x2010 then BitVec.ofNat 64 (s.msixPend.toNat / 2 ^ (8 * (off - 0x2000)))
  else 0

/-- A read of a BAR is delivered to the host. -/
def State.barRead (s : State) (bar off : Nat) (bytes : List Byte) : State := { s with barOut := s.barOut ++ [(bar, off, bytes)] }

def State.bar2Read (s : State) (off : Nat) : State :=
  if off % 8 = 0 ∧ off < 0x4000 then s.barRead 2 off (natToBytes 8 (s.bar2Word off).toNat) else s

end Sys2Proof.Machine
end

