-- ==== Sys2Proof/Machine/Service.lean ====
section
/-! DEFINITION. Services of the register block: capability control (R380 to R382), array sparing (R426), standby cores (R427);
the temperature (R463), freeze (R446) and the debug port (R447, R448). -/

namespace Sys2Proof.Machine

/-! ## Capabilities (R380 to R382) -/

/-- The pair that CAPADDR names. -/
def State.capPair (s : State) : Nat := shmBase + 16 * s.field 0x200 4 23

/-- Whether another of the RS bits of CAPCTL is 1 (R380). -/
def State.capBusy (s : State) (bit : Nat) : Bool := (List.range 3).any fun b => b != bit && s.field 0x218 b 1 == 1

/-- An allocated unit (R28). -/
def allocatedUnit (u : Nat) : Bool :=
  decide (u < 1008) || (decide (1024 ≤ u) && decide (u < 1056)) || u == 1536 || u == 1537 || u == 2047

/-- Whether SET may issue a capability (R381). -/
def issuable (q : Quad) : Bool :=
  bitsOf q.toNat 0 12 == 0 && allocatedUnit (capUnit q) && capLen q != 0 && decide (capBase q + capLen q ≤ 2 ^ 37)

/-- CAPCTL.SET: the pair at PAIR takes its tag in one act, or RESULT is 1 (R381). -/
def execCapctlSet (v : Word) (s : State) : Out :=
  if !v.getLsbD 0 ∨ s.capBusy 0 then .next s
  else if issuable (BitVec.ofNat 128 (s.readNat s.capPair 16)) then
    .next { s.setField 0x218 4 4 0 with tags := setInsert s.capPair s.tags }
  else .next (s.setField 0x218 4 4 1)

/-- CAPCTL.CLR: the pair's tag is cleared in one act (R381). -/
def execCapctlClr (v : Word) (s : State) : Out :=
  if !v.getLsbD 1 ∨ s.capBusy 1 then .next s
  else .next ((s.setField 0x218 4 4 0).clearTags s.capPair 16)

/-- CAPCTL.SWEEP: a sweep begins, or goes on (R6, R382). -/
def execCapctlSweep (v : Word) (s : State) : Out :=
  if !v.getLsbD 2 ∨ s.capBusy 2 then .next s else .next (s.setBit 0x218 2)

/-- The tags of the c registers of a context that match. -/
def State.sweepCtx (s : State) (c : Context) : Context :=
  if c.state = .free then c
  else { c with ctag := (List.range 16).foldl (fun t i =>
    if s.sweepHits (c.cap (BitVec.ofNat 4 i)) then t &&& ~~~BitVec.twoPow 16 i else t) c.ctag }

def State.sweepCore (s : State) (u : Nat) : State :=
  let c := s.coreAt u
  s.setCore u { c with ctxs := c.ctxs.map s.sweepCtx }

/-- Whether the capability in an SHM pair matches. -/
def State.sweepPair (s : State) (a : Nat) : Bool := s.sweepHits (BitVec.ofNat 128 (s.readNat a 16))

/-- A sweep in progress reaches one place: an SHM pair, or the contexts of the core in a unit (R382). -/
def State.sweepStep (s : State) (a : Nat) : State :=
  if s.field 0x218 2 1 = 0 then s
  else if storageOf a = .shm then
    if s.sweepPair (a / 16 * 16) then { s with tags := setRemove (a / 16 * 16) s.tags } else s
  else if s.cores.any (·.1 == a) then s.sweepCore a
  else s

/-- A capability on its way to SHM, without its tag where it matches. -/
def State.sweptAct (s : State) (act : Act) : Act :=
  match act with
  | .capStore v tag => .capStore v (tag && !s.sweepHits v)
  | other => other

def State.sweptRequest (s : State) (r : Request) : Request := { r with act := s.sweptAct r.act }

/-- The same for what a parked context is to send. -/
def State.sweptPark (s : State) (c : Context) : Context :=
  match c.park with
  | .hold (.access dev act a d t) drain => { c with park := .hold (.access dev (s.sweptAct act) a d t) drain }
  | _ => c

/-- The tags that a command of a tile has captured with its capabilities. -/
def State.sweptCmd (s : State) (c : DtCmd) : DtCmd :=
  let swept (x : Option (Quad × Bool)) : Option (Quad × Bool) := x.map fun q => (q.1, q.2 && !s.sweepHits q.1)
  { c with capA := swept c.capA, capB := swept c.capB }

def State.sweptStream (s : State) (x : DtStream) : DtStream := { x with queue := x.queue.map s.sweptCmd }

/-- A sweep finishes: no tagged capability that matches is left, and none that is on its way to SHM, to a register or to a check at
egress (R382). -/
def execSweepDone (s : State) : Out :=
  if s.field 0x218 2 1 = 0 ∨ s.justSet 0x218 2 then .next s
  else
    let s1 := { s with
      tags := s.tags.filter fun a => !s.sweepPair a
      requests := s.requests.map s.sweptRequest
      tiles := s.tiles.map fun (t : Nat × Tile) => (t.1, { t.2 with s := s.sweptStream t.2.s, c := s.sweptStream t.2.c, m := s.sweptStream t.2.m })
      coach := s.coach.map fun (x : CoachStep) => { x with cmd := s.sweptCmd x.cmd }
      replies := s.replies.map fun (r : Reply) => { r with tag := r.tag && !s.sweepHits r.value } }
    let held (s : State) (u : Nat) : State :=
      let c := s.coreAt u
      s.setCore u { c with ctxs := c.ctxs.map s.sweptPark, waiting := c.waiting.map fun w => (w.1, s.sweptRequest w.2) }
    let units := s1.cores.map (·.1)
    .next ((units.foldl held (units.foldl State.sweepCore s1)).setField 0x218 2 1 0)

/-! ## Array sparing (R426) -/

/-- A field of ASPARE that names no row or column. -/
def badSpare (v : Nat) : Bool := decide (130 ≤ v) && decide (v ≤ 254)

/-- A write to ASPARE of tile n: an accepted one sets both accumulator planes to zero. A partition that has become BUSY in this ck
takes the write first. -/
def execAspareWrite (n : Nat) (v : Word) (s : State) : Out :=
  let f (i : Nat) : Nat := bitsOf v.toNat (8 * i) 8
  let used := (List.range 16).any fun p =>
    (s.reg (pReg p 1)).getLsbD n && !s.justSet (pReg p 4) 0 && (s.field (pReg p 4) 0 1 == 1 || s.field (pReg p 4) 2 1 == 1)
  if 32 ≤ n then .next s
  else if used || (List.range 4).any (fun i => badSpare (f i)) || (f 0 == f 1 && f 0 != 0) || (f 2 == f 3 && f 2 != 0) then .next s
  else .next ((s.setReg (0x12050 + 128 * n) (BitVec.ofNat 64 (bitsOf v.toNat 0 32))).zeroRange (accAddr n 0 0) 0x20000)

/-! ## Standby cores (R427) -/

/-- Whether a partition has the cluster of either position and is BUSY or RESV. -/
def State.moveInUse (s : State) : Bool :=
  (List.range 16).any fun p =>
    (s.moveClusters.any fun c => (s.reg (pReg p 0)).getLsbD c) && (s.field (pReg p 4) 0 1 == 1 || s.field (pReg p 4) 2 1 == 1)

/-- Whether an enabled partition has a pool channel. -/
def State.poolInUse (s : State) : Bool :=
  (List.range 16).any fun p => s.field (pReg p 3) 0 1 == 1 && s.field (pReg p 2) 0 16 != 0

/-- The standby position that LSUB names. -/
def State.movePos (s : State) : Nat := 32 * s.field 0x30 6 5 + s.field 0x30 11 5

/-- A write to LSUB: the fields, and GO with its checks, which asks for nothing more while a move is in progress but keeps the bit
for its ck (R6, R427). A UNIT that names no core is refused. -/
def execLsubGo (v : Word) (s : State) : Out :=
  let s1 := ((s.setField 0x30 37 11 (bitsOf v.toNat 37 11)).setField 0x30 11 5 (bitsOf v.toNat 11 5)).setField 0x30 6 5 (bitsOf v.toNat 6 5)
  if !v.getLsbD 0 then .next s1
  else if s.field 0x30 0 1 = 1 then .next (s1.noteSet 0x30 0)
  else if s1.halfReg (pmapReg s1.movePos) / 2 ^ 13 ≠ 2 ∨ 1008 ≤ s1.field 0x30 37 11 then .next (s1.setField 0x30 1 3 1)
  else if s1.moveInUse then .next (s1.setField 0x30 1 3 2)
  else if s1.poolInUse then .next (s1.setField 0x30 1 3 3)
  else .next { s1.setBit 0x30 0 with lsub := some (s1.field 0x30 37 11, s1.movePos) }

/-- The positions whose channels are pool channels, in ascending order (R20, R28). -/
def State.poolPositions (s : State) : List Nat := (List.range 1024).filter fun pos => s.halfReg (pmapReg pos) / 2 ^ 13 != 1

/-- Where the bytes of a pool channel stand once the pool is numbered afresh; none for those of the channel that becomes a
home channel. -/
def movedPool (old new : List Nat) (a : Nat) : Option Nat :=
  if storageOf a = .pool ∧ offOf a < 2 ^ 34 then
    let pos := old.getD (offOf a / 2 ^ 30) 0
    if new.contains pos then some (addrOf 1537 (new.idxOf pos * 2 ^ 30 + offOf a % 2 ^ 30)) else none
  else some a

/-- An address of the home channel of core n, in the pool channel that its old channel becomes. -/
def retiredCopy (n pool a : Nat) : Option Nat :=
  if storageOf a = .channel n then some (addrOf 1537 (pool * 2 ^ 30 + (offOf a - 0x400000000))) else none

/-- A core that has been retired, by its position: it has no number any more, and only the debug port reaches it (R427, R447). -/
def retiredUnit (pos : Nat) : Nat := 4096 + pos

/-- The move ends: the number passes to the standby position, whose core is empty but for the steps of the tables, which go with the
number (R387); the old channel, which keeps its bytes, is a pool channel; and the map shows it (R427). -/
def execLsubMoveDone (s : State) : Out :=
  match s.lsub with
  | none => .next s
  | some (n, goal) =>
    if s.justSet 0x30 0 then .next s else
    let from_ := s.halfReg (lmapReg n)
    let old := s.poolPositions
    let s1 := ((s.setHalf (pmapReg from_) (4 * 2 ^ 13)).setHalf (pmapReg goal) (2 ^ 13 + n)).setHalf (lmapReg n) goal
    let new := s1.poolPositions
    let inLocal (a : Nat) : Bool := storageOf a == .localStore n
    let cells := s.mem.filterMap fun (x : Host.Cell) => if inLocal x.1 then none else (movedPool old new x.1).map fun a => (a, x.2)
    let copies := s.mem.filterMap fun (x : Host.Cell) => (retiredCopy n (new.idxOf from_) x.1).map fun a => (a, x.2)
    let bad := s.failing.filterMap fun b => if inLocal b then none else movedPool old new b
    let badCopies := s.failing.filterMap (retiredCopy n (new.idxOf from_))
    let s2 := { s1 with
      lsub := none,
      mem := (cells ++ copies).foldl (fun m (x : Host.Cell) => storeAt emptyByte x.1 x.2 m) [],
      failing := (bad ++ badCopies).foldl (fun l b => setInsert b l) [],
      syndromes := s.syndromes.filterMap fun (x : Nat × BitVec 32) =>
        if inLocal x.1 then none else (movedPool old new x.1).map fun a => (a, x.2),
      empty := s.empty.filter fun a => !inLocal a,
      cores := insertAt n { coreReset n with steps := (s.coreAt n).steps } (insertAt (retiredUnit from_) (s.coreAt n) s.cores) }
    let s3 := ((s2.setField 0x1008 32 16 (s.field 0x1008 32 16 - 1)).setField 0x1008 16 8 (s.field 0x1008 16 8 - 1)).setField
      0x1008 8 8 (s.field 0x1008 8 8 + 1)
    .next ((s3.setField 0x30 1 3 0).setField 0x30 0 1 0)

/-! ## Freeze and temperature (R446, R463) -/

/-- Every core-clock domain stops, and every fabric port goes down (R446). -/
def State.freeze (s : State) : State :=
  { (List.range 8).foldl (fun st k => st.setField (linkReg k) 4 2 0) s with frozen := true }

def execFreezeInput (s : State) : Out := .next s.freeze

/-- THERM_N, which is low while THERM.TRIP is 1 (R462). -/
def State.thermN (s : State) : Bool := s.field 0x38 16 1 == 0

/-- The hottest sensor reads a temperature, in eighths of a degree; above 105 degrees it trips (R463). -/
def execThermalTrip (temp : BitVec 16) (s : State) : Out :=
  let s1 := s.setField 0x38 0 16 temp.toNat
  .next (if 840 < temp.toNat then (s1.setField 0x38 16 1 1).freeze else s1)

/-! ## The debug port (R447, R448) -/

def execIdcode (s : State) : Out :=
  .next { s with debugIr := 0x01, tdo := natToBytes 4 (s.stepping % 16 * 2 ^ 28 + 0xA3F2 * 2 ^ 12 + Config.maker.toNat * 2 + 1) }

/-- BYPASS: one bit, captured as 0; SAMPLE/PRELOAD captures the pins and takes what they are to drive; EXTEST drives them with it.
The boundary register is not architected (R447; assumption 8). BYPASS has the code of all ones that IEEE 1149.1 gives it
(assumption 168); the codes of the other two are open. -/
def State.bypass (s : State) : State := { s with debugIr := 0xFF, tdo := [0] }
def State.samplePreload (s : State) (bits : List Byte) : State :=
  { s with debugIr := Config.sampleCode, tdo := Config.pins s.seq, boundary := bits }
def State.extest (s : State) (bits : List Byte) : State :=
  { s with debugIr := Config.extestCode, tdo := Config.pins s.seq, boundary := bits }

def execFreeze (bit : Bool) (s : State) : Out := .next { (if bit then s.freeze else s) with debugIr := 0x20 }

def execScansel (v : BitVec 32) (s : State) : Out := .next { s with debugIr := 0x21, scanSel := v }

/-- Bytes as they are read out: zeros unless the device is frozen and not locked (R447, R448). -/
def State.readOut (s : State) (bytes : List Byte) : List Byte :=
  if s.frozen ∧ !s.debugLocked then bytes else List.replicate bytes.length 0

/-- A place that no storage has, at which a record is laid out. -/
def scratch : Nat := addrOf 2046 0

/-- Chain 0 of a core: its contexts (R388, R447). -/
def State.coreChain (s : State) (u : Nat) : List Byte :=
  let c := s.coreAt u
  (List.finRange 16).flatMap fun k =>
    let own := bitOf (c.ownSlots k.val) 0
    (((c.ctxs.get k).workspaceBytes c.m8 ++ List.replicate 1024 0).take 2048) ++ natToBytes 32 (c.ctxRecord k) ++
      natToBytes 32 (if own then (c.slots.get 0).record else 0)

/-- The role and number of a position: as the map gives it, or before it is built as discovery will (R438, R439). -/
def State.roleAt (s : State) (pos : Nat) : Nat × Nat :=
  if s.discState = 2 then (s.halfReg (pmapReg pos) / 2 ^ 13, s.halfReg (pmapReg pos) % 2 ^ 10) else s.firstRoles.getD pos (0, 0)

/-- The selected chain: of a position, which a fused-off one shifts as zeros, or of a tile (R447). -/
def State.chain (s : State) : List Byte :=
  let unit := s.scanSel.toNat / 2 ^ 16
  let n := s.scanSel.toNat % 2 ^ 16
  if unit < 1024 then
    let core := if unit = 0 then some serviceCore else match (s.roleAt unit).1 with
      | 1 => some (s.roleAt unit).2
      | 2 => some 2046
      | 4 => some (retiredUnit unit)
      | _ => none
    match n, core with
    | 0, some u => s.coreChain u
    | 1, some u => (s.saveLcState u scratch).readBytes scratch 0x8000
    | 0, none => List.replicate 0x8400 0
    | 1, none => List.replicate 0x8000 0
    | _, none => (Config.chain s.seq).map fun _ => 0
    | _, some _ => Config.chain s.seq
  else if unit < 1056 then
    let t := unit - 1024
    let l : Launch := ((s.tileLaunch t).map (·.2)).getD ⟨[], s.dev, 0, 0⟩
    match n with
    | 0 => (s.saveBlock t scratch).readBytes scratch 0x10000
    | 1 => (List.finRange 8).flatMap fun i =>
        (natToBytes 512 (joinLanes 64 (s.epRecord l ((s.tileAt t).eps.get i)))) ++ s.readBytes (fillAddr t i.val) 0x7E00
    | _ => Config.chain s.seq
  else []

def execScanrd (s : State) : Out := .next { s with debugIr := 0x22, tdo := s.readOut s.chain }

def execMemaddr (v : Word) (s : State) : Out := .next { s with debugIr := 0x23, memAddr := v &&& ~~~(0x3F : Word) }

/-- Whether a beat of a global address is stored in this device, the storage of tiles that has no global address included. -/
def State.hasBeat (s : State) (ga : Word) : Bool :=
  let a := ga.toNat % 2 ^ 48
  let u := unitOf a
  (ga.toNat / 2 ^ 48 == 0xFFFF || ga.toNat / 2 ^ 48 == s.dev) &&
    (match storageOf a with
      | .none | .regs => decide (1024 ≤ u ∧ u < 1056) && decide (0x1000000000 ≤ offOf a)
      | _ => true)

/-- How the check value of a failing beat differs from the CRC of its data. HBM4 and the second tier deliver the complement, and a
poisoned write stores it (R415); a beat that a soft error has changed keeps the value of the data before it (R416); of a beat
that has come from elsewhere it is free, and fixed when the beat lands (assumption 141). -/
def State.syndrome (s : State) (a : Nat) : BitVec 32 :=
  if eccBeat a then BitVec.allOnes 32 else lookup (BitVec.allOnes 32) s.syndromes a

/-- The beat at the address with its check value, unverified; then the address advances. -/
def execMemrd (s : State) : Out :=
  let a := s.memAddr.toNat % 2 ^ 48
  let bytes := s.readBytes a 64
  let crc := crc32c bytes
  let check := if s.failing.contains a then crc ^^^ s.syndrome a else crc
  let out := if s.hasBeat s.memAddr then bytes ++ natToBytes 4 check.toNat else List.replicate 68 0
  .next { s with debugIr := 0x24, tdo := s.readOut out, memAddr := s.memAddr + 64 }

end Sys2Proof.Machine
end

