-- ==== Sys2Proof/Machine/Registers.lean ====
section
/-! DEFINITION. Reads and writes of the register block (R452, R453): the views of tile registers (R207, R208), the fields that
a write changes, and the acts that writes start. -/

namespace Sys2Proof.Machine

/-! ## Reads -/

/-- The resume cursor of the oldest command of a stream in progress, or 0 (R208). -/
def DtStream.cursorReg (x : DtStream) : Nat := ((x.queue.find? (·.started)).map (·.cursor)).getD 0

/-- Register k of tile n (R207, R208, R426). -/
def State.tileReg (s : State) (n k : Nat) : Word :=
  let t := s.tileAt n
  match k with
  | 0 => BitVec.ofNat 64 t.tctl
  | 1 => BitVec.ofNat 64 t.ttrap
  | 2 => t.val0
  | 3 => t.val1
  | 4 => BitVec.ofNat 64 (t.s.pc % 4096)
  | 5 => BitVec.ofNat 64 (t.c.pc % 4096)
  | 6 => BitVec.ofNat 64 (t.mpc % 4096)
  | 7 => BitVec.ofNat 64 t.s.cursorReg
  | 8 => BitVec.ofNat 64 t.c.cursorReg
  | 9 => BitVec.ofNat 64 t.m.cursorReg
  | _ => s.reg (0x12000 + 128 * n + 8 * k)

/-- A read of an aligned word of the register block; an unallocated offset reads as zero to the host (R453). -/
def State.regRead (s : State) (off : Nat) : Word :=
  if !regAllocated off then 0
  else if off = 0x18 then BitVec.ofNat 64 s.rtick
  else if 0x1180 ≤ off ∧ off < 0x11C0 then
    BitVec.ofNat 64 (bytesToNat ((attestPublic.drop (off - 0x1180)).take 8))
  else if 0x12000 ≤ off ∧ off < 0x13000 then s.tileReg ((off - 0x12000) / 128) (off % 128 / 8)
  else s.reg off

/-- A read of the host through BAR0, of 8 bytes or of 4, aligned (R453). -/
def State.bar0Read (s : State) (off : Nat) (half : Bool) : State :=
  let n := if half then 4 else 8
  if off % n ≠ 0 ∨ 0x40000 ≤ off then s
  else s.barRead 0 off (((natToBytes 8 (s.regRead (off / 8 * 8)).toNat).drop (off % 8)).take n)

/-! ## Writes -/

/-- The bits of a mask are written. -/
def State.putMasked (s : State) (off : Nat) (mask v : Word) : State := s.setReg off ((s.reg off &&& ~~~mask) ||| (v &&& mask))

/-- The state after an act; no act of the register block stops. -/
def after (o : Out) (s : State) : State :=
  match o with
  | .next t => t
  | .fault _ | .refused _ => s

/-- The RW fields of a register (R452 and the chapters that it names). -/
def rwMask (off : Nat) : Word :=
  if off = 0 then 0xFFFF
  else if off = 8 then 0xFFFF0003
  else if off = 0x20 then 0x37
  else if off = 0x28 then 0x3F
  else if off = 0x30 then 0x0000FFE00000FFC0
  else if off = 0x40 then 0x0000FFE000000F00
  else if off = 0x48 then 0x07FFF800
  else if 0x100 ≤ off ∧ off < 0x160 then
    match off % 32 with
    | 0 => 0xFFFFFFFFFFFFFFC0
    | 8 => 0x11F
    | 16 => 0
    | _ => 0xFFFFFFFF
  else if 0x180 ≤ off ∧ off ≤ 0x198 then BitVec.allOnes 64
  else if off = 0x200 then 0x07FFFFF0
  else if off = 0x208 then BitVec.allOnes 64
  else if off = 0x210 then 0x1FFFFFFFFF
  else if (0x300 ≤ off ∧ off < 0x380 ∧ off % 16 = 8) ∨ off = 0x380 then 0xFFFFFFFF0000003F
  else if off = 0x400 then 0x00000FFF00000000
  else if off = 0x1010 then BitVec.allOnes 64
  else if off = 0x1018 then 0xFFFFFFFF0003FFFF
  else if off = 0x1028 then 0x07FFFF00
  else if 0x2000 ≤ off ∧ off < 0x27E0 then 0x03FF03FF03FF03FF
  else if 0x2800 ≤ off ∧ off < 0x3000 then 0xE3FFE3FFE3FFE3FF
  else if (0x4000 ≤ off ∧ off < 0x5000) ∨ (0x20000 ≤ off ∧ off < 0x28000) then BitVec.allOnes 64
  else if 0x10000 ≤ off ∧ off < 0x11000 then
    match off % 64 with
    | 0 => 0xFFFFFFFFFFFFFF00
    | 8 => 0xFFFFFFFF0001F31F
    | 16 => 0xFFFFFFFF
    | 32 => BitVec.allOnes 64
    | _ => 0
  else if 0x11000 ≤ off ∧ off < 0x11400 then
    match off % 64 with
    | 0 | 16 => BitVec.allOnes 64
    | 8 => 0xFFFFFFFF
    | 24 => 1
    | 40 => 0xFFFFFFFFFFFFF000
    | 48 => 0xFFFF000000000000
    | _ => 0
  else if 0x12000 ≤ off ∧ off < 0x13000 then
    match off % 128 / 8 with
    | 0 => 0x1F03
    | 4 | 5 | 6 => 0xFFF
    | 7 | 8 | 9 | 10 => 0xFFFFFFFF
    | _ => 0
  else 0

/-- A tile register is written (R207, R208, R426). -/
def State.writeTileReg (s : State) (n k : Nat) (v : Word) : State :=
  let t := s.tileAt n
  let pc (x : DtStream) : DtStream := { x with pc := bitsOf v.toNat 0 12 }
  let cur (x : DtStream) : DtStream :=
    match x.queue.find? (·.started) with
    | some c => { x with queue := x.queue.map fun (y : DtCmd) => if y.id = c.id then { y with cursor := bitsOf v.toNat 0 32 } else y }
    | none => x
  match k with
  | 0 =>
    let l := BitVec.ofNat 5 (v.toNat / 2 ^ 8)
    let q := BitVec.ofNat 2 v.toNat
    let refused := match s.tileLaunch n with
      | some (_, x) => l == 31 && !x.unbounded
      | none => false
    s.setTile n { t with lwd := if refused then t.lwd else l, aq := if q = 3 then t.aq else q }
  | 1 => if v.getLsbD 8 && !s.justSet (tReg n 1) 8 then s.setTile n { t with valid := false } else s
  | 4 => s.setTile n { t with s := pc t.s }
  | 5 => s.setTile n { t with c := pc t.c }
  | 6 =>
    -- a write of another index than that of the bundle that trapped takes the stream there, without the bundle's vector item
    match t.m.held with
    | some h => if h.trapped && h.idx == bitsOf v.toNat 0 12 then s else s.setTile n { t with m := { pc t.m with held := none } }
    | none => s.setTile n { t with m := pc t.m }
  | 7 => s.setTile n { t with s := cur t.s }
  | 8 => s.setTile n { t with c := cur t.c }
  | 9 => s.setTile n { t with m := cur t.m }
  | 10 => after (execAspareWrite n v s) s
  | _ => s

/-- A queue register is written (R346). -/
def State.writeQueueReg (s : State) (q k : Nat) (v : Word) : State :=
  let idle := s.field (qReg q 5) 0 1 == 0 && s.qHead q == (s.reg (qReg q 2)).setWidth 32
  match k with
  | 0 => if idle then s.putMasked (qReg q 0) (rwMask (qReg q 0)) v else s
  | 1 => s.putMasked (qReg q 1) (if idle then rwMask (qReg q 1) else 0xFFFFFFFF00000310) v
  | 2 => after (execQtailWrite q v s) s
  | 4 => s.setReg (qReg q 4) v
  | 5 => after (execQstatHaltClear q v s) s
  | _ => s

/-- A partition register is written (R353, R396). -/
def State.writePartReg (s : State) (p k : Nat) (v : Word) : State :=
  match k with
  | 0 | 1 | 2 => if s.field (pReg p 3) 0 1 = 1 then s else s.putMasked (pReg p k) (rwMask (pReg p k)) v
  | 3 =>
    let s1 := after (execPctlEnable p v s) s
    after (execPctlReset p v s1) s1
  | 4 => if v.getLsbD 3 then s.clearBit (pReg p 4) 3 else s
  | 5 => s.putMasked (pReg p 5) (rwMask (pReg p 5)) v
  | 6 =>
    if s.preIgnores p v then s
    else
      let s1 := after (execPpreSave p v s) s
      after (execPpreRestore p v s1) s1
  | _ => s

/-- A register of a host ring is written (R454). -/
def State.writeRingReg (s : State) (k r : Nat) (v : Word) : State :=
  let cfg := s.field (ringReg k 1) 0 9
  match r with
  | 0 => if bitOf cfg 8 then s else s.putMasked (ringReg k 0) (rwMask (ringReg k 0)) v
  | 1 =>
    let s1 := s.setField (ringReg k 1) 8 1 (bitsOf v.toNat 8 1)
    if bitOf cfg 8 ∨ 20 < v.toNat % 32 then s1 else s1.setField (ringReg k 1) 0 5 v.toNat
  | 3 =>
    let prod := (s.reg (ringReg k 2)).toNat % 2 ^ 32
    let cons := v.toNat % 2 ^ 32
    if 2 ^ (cfg % 32) < (prod + 2 ^ 32 - cons) % 2 ^ 32 then s else s.setReg (ringReg k 3) (BitVec.ofNat 64 cons)
  | _ => s

/-- ILOGS.V is cleared; a detection in the same ck wins (R418). -/
def State.clearLog (s : State) : State :=
  let count := s.field 0x288 32 32
  let s1 := (s.setReg 0x280 0).setReg 0x288 0
  match s.ilast with
  | some (t, beat, kind, part) =>
    if t ≠ s.ck then s1
    else
      let s2 := (s1.setReg 0x280 beat).setReg 0x288 (BitVec.ofNat 64 (2 ^ 32 + kind * 2 ^ 8 + 1))
      if count = 1 then s2 else s2.event 10 part beat
  | none => s1

/-- The acts of R380: SET, then CLR, then SWEEP. -/
def State.writeCapctl (s : State) (v : Word) : State :=
  let s1 := after (execCapctlSet v s) s
  let s2 := after (execCapctlClr v s1) s1
  after (execCapctlSweep v s2) s2

/-- A write of an aligned word of the register block as one act (R453); host tells who makes it. -/
def State.regWrite (s : State) (host : Bool) (off : Nat) (v : Word) : State :=
  let up := s.field 0x1000 8 1 == 1
  let hostMap := host && s.field 0x1008 3 1 == 1
  if !regAllocated off then s
  else if off = 0 ∨ off = 8 then (if up then s else s.putMasked off (rwMask off) v)
  else if off = 0x10 then (if v.getLsbD 16 then s.clearBit 0x10 16 else s)
  else if off = 0x28 then after (execArbselGo v s) s
  else if off = 0x30 then after (execLsubGo v s) s
  else if off = 0x40 then
    let s1 := after (execUresSync v s) s
    if v.getLsbD 0 then after (execUresGo v s1) s1 else s1
  else if 0x100 ≤ off ∧ off < 0x160 then s.writeRingReg ((off - 0x100) / 32) (off % 32 / 8) v
  else if off = 0x188 then after (execTranslationResponse v s) s
  else if off = 0x198 then after (execMigrationResponse v s) s
  else if off = 0x218 then s.writeCapctl v
  else if off = 0x288 then (if v.getLsbD 0 then s.clearLog else s)
  else if off = 0x380 then after (execAudctlNow 8 v s) s
  else if 0x300 ≤ off ∧ off < 0x380 then
    if off % 16 = 8 then after (execAudctlNow ((off - 0x300) / 16) v s) s
    else
      let s1 := if v.getLsbD 1 then s.clearBit off 1 else s
      if v.getLsbD 2 then after (execRetrain ((off - 0x300) / 16) s1) s1 else s1
  else if off = 0x400 then after (execFlctlGo v s) s
  else if off = 0x1000 then after (execBootctlReady v s) s
  else if off = 0x1008 then
    if s.field 0x1008 3 1 = 1 then (if host then after (execMapSubmit v s) s else s) else after (execDiscGo v s) s
  else if off = 0x1018 then (if s.field 0x1020 1 2 = 1 then s else s.putMasked off (rwMask off) v)
  else if off = 0x1020 then after (execMcctlGo v s) s
  else if off = 0x1028 then after (execAttestGo v s) s
  else if 0x2000 ≤ off ∧ off < 0x3000 then (if hostMap then s.putMasked off (rwMask off) v else s)
  else if 0x10000 ≤ off ∧ off < 0x11000 then s.writeQueueReg ((off - 0x10000) / 64) (off % 64 / 8) v
  else if 0x11000 ≤ off ∧ off < 0x11400 then s.writePartReg ((off - 0x11000) / 64) (off % 64 / 8) v
  else if 0x12000 ≤ off ∧ off < 0x13000 then s.writeTileReg ((off - 0x12000) / 128) (off % 128 / 8) v
  else if rwMask off = 0 then s
  else s.putMasked off (rwMask off) v

/-- A write of the host through BAR0, of 8 bytes or of 4 (R453): the RW fields of the other half keep their values, and its
other bits are written as zeros. A half that has no field of QTAIL or ASPARE is discarded. -/
def execRegisterWrite (off : Nat) (half : Bool) (v : Word) (s : State) : Out :=
  let base := off / 8 * 8
  if !half then .next (if off % 8 = 0 then s.regWrite true off v else s)
  else if off % 4 ≠ 0 then .next s
  else
    let high := off % 8 == 4
    let kept := s.regRead base &&& rwMask base
    let w := if high then (v <<< 32) ||| (kept &&& 0xFFFFFFFF) else (v &&& 0xFFFFFFFF) ||| (kept &&& 0xFFFFFFFF00000000)
    let lowOnly := (decide (0x10000 ≤ base) && decide (base < 0x11000) && base % 64 == 16) ||
      (decide (0x12000 ≤ base) && decide (base < 0x13000) && base % 128 == 0x50)
    .next (if high && lowOnly then s else s.regWrite true base w)

end Sys2Proof.Machine
end

