-- ==== Sys2Proof/Machine/HomeAct.lean ====
section
/-! DEFINITION. The step of a home (R273 to R276): which requests a home may perform, the slots of the message context (R65,
R187), the register block as a home (R453), the continuations of join (R191); and the host's memory requests (R451). -/

namespace Sys2Proof.Machine

/-! ## Which request a home may take -/

/-- Whether a beat that left the unit of a request before it has still to write at the home of the request (R286). -/
def Beat.ahead (b : Beat) (r : Request) : Bool :=
  b.src.unit == r.src.unit && !b.behind.contains r.id && b.left.any fun a => homeOf a == homeOf r.addr

/-- Whether a message that left the unit of a request before it has still to reach the home of the request (R286). One that is
passed on is its source's no more, and a register message that a move holds up has reached its home (R395). -/
def Message.ahead (s : State) (m : Message) (r : Request) : Bool :=
  m.relayed.isNone && m.src.unit == r.src.unit && homeOf r.addr == m.body.target && !m.behind.contains r.id &&
    match m.body with
    | .register u k _ _ => !s.moving u k.toNat
    | _ => true

/-- Whether a request is a stream's own act on the store of its tile, which is on its way nowhere (R216). -/
def Request.own (r : Request) : Bool :=
  match r.src with
  | .tile n _ => storageOf r.addr == .tileStore n
  | _ => false

/-- Request n, if it is the first of its source to its home (R286, R287) and the memory there has been initialised (R430); of the
writes of a unit to its own tile store any may be the first (R284). -/
def State.firstRequest (s : State) (n : Nat) : Option Request :=
  match s.requests.find? (·.id == n) with
  | none => none
  | some r =>
    if r.own then some r
    else match s.requests.find? fun x => x.src.unit == r.src.unit && homeOf x.addr == homeOf r.addr with
    | some x =>
      if x.id = n ∧ s.ready r.addr ∧ !(s.beats.any fun b => b.ahead r) ∧ !(s.messages.any fun m => m.ahead s r) then some r else none
    | none => none

/-- The core whose message context performs a request: that of its local store, channel or shard, for other units (R65). -/
def performer (r : Request) : Option Nat :=
  let other (u : Nat) : Option Nat := if r.src.unit = u then none else some u
  match storageOf r.addr with
  | .localStore u | .channel u | .shard u => other u
  | _ => none

/-- Whether the message context performs no operation: it traps, is parked on a sync-class access, or is stopped (R65). -/
def Context.blocksHome (c : Context) : Bool :=
  c.tact || c.state == .stopped || (c.state == .parked && c.parkRec.toNat / 2 ^ 60 == 2)

/-- A free slot of the message context of core u (R62, R187). A core whose message context is FREE serves without it. -/
def State.homeSlot (s : State) (u : Nat) : Bool :=
  let c := s.coreAt u
  let m := c.ctxs.get c.messageCtx
  m.state == .free || (s.slotOf u == c.messageCtx && decide (c.issuedAt ≤ s.ck) && !m.blocksHome)

/-- The slot has been taken. -/
def State.useSlot (s : State) (u : Nat) : State :=
  if (s.ctxAt u (s.coreAt u).messageCtx).state = .free then s else s.setCore u { s.coreAt u with issuedAt := s.ck + 1 }

/-! ## What follows an act -/

/-- A continuation leaves the bank of a join record, or is discarded and recorded (R191). -/
def State.sendContinuation (s : State) (r : Request) (bytes : List Byte) : State :=
  let word (i : Nat) : Word := BitVec.ofNat 64 (bytesToNat ((bytes.drop (8 * i)).take 8))
  let u := r.src.unit
  let k := match r.src with
    | .ctx _ k => k
    | _ => 0
  let target := word 0
  if (s.checkId ((s.lcLaunch u).map (·.2)) target false).isSome || badPc (word 1) then s.recordError (s.partOf u) 2 u k
  else match s.devOf target with
    | none => { s.fresh with messages := s.messages ++ [⟨s.nextId, r.src, .continuation (unitOfId target) (word 1) (word 2), [], some (homeOf r.addr)⟩] }
    | some d => s.sendPacket d (some (u, unitOfId target)) (.continuation target (word 1) (word 2))

/-- What the controller of a channel, a shard or the pool finds in the lines that it reads for a request, besides what the consumer of
the data or their transmission finds (R415, R417, R418). -/
def State.noteLines (s : State) (r : Reply) : State :=
  let lines := (match r.failed with
    | some w => [w.toNat % 2 ^ 48]
    | none => []) ++ r.bad.map fun i => r.req.addr / 64 * 64 + 64 * i
  lines.foldl State.controllerRead s

/-- What an act has come to, put into the state. -/
def State.endAct (s : State) (r : Request) (e : ActEnd) : State :=
  let rest := { s with requests := s.requests.filter (·.id != r.id) }
  match e with
  | .answer reply =>
    let s1 := rest.noteLines reply
    let s2 := match r.act with
      | .join => if reply.failed.isNone && reply.value == 1 then s1.sendContinuation r reply.bytes else s1
      | .arrive _ err => match r.src with
        | .gather _ cmd => s1.settleClaims cmd err
        | _ => s1
      | _ => s1
    s2.answer reply
  | .wait => { rest with waiters := rest.waiters ++ [r] }
  | .watch => { rest with watchers := rest.watchers ++ [r] }
  | .more r1 => { s with requests := s.requests.map fun x => if x.id = r.id then r1 else x }
  | .silent => rest

/-- An access of the register block (R453). -/
def State.regAct (s : State) (r : Request) : State × ActEnd :=
  match r.act with
  | .load _ _ => (s, .answer { r.ack with value := (s.regRead (offOf r.addr)).zeroExtend 128 })
  | .store _ v => (s.regWrite false (offOf r.addr) (v.setWidth 64), .answer r.ack)
  | _ => (s, .answer r.ack)

/-- A request of another device that meets a bound workspace reads and writes nothing: its issuer could not check it (R67,
R125). A request of this device has been checked before it left its core, and no check is made after that. -/
def State.meetsBound (s : State) (r : Request) : Option ActEnd :=
  match r.src with
  | .remote _ _ _ =>
    if s.boundAt r.addr r.act.size then some (.answer { r.ack with trap := some (causeProtection, gaWord r.addr, 0) }) else none
  | _ => none

/-- One request as an act of its home. -/
def State.actOf (s : State) (r : Request) : State × ActEnd :=
  if storageOf r.addr = .regs then s.regAct r
  else match s.meetsBound r with
    | some e => (s, e)
    | none => s.perform r

/-- Whether a home can perform a request in this ck: nothing else has acted on its granule or goes before it there (R216), and its
port serves it (R25, R296). -/
def State.homeFree (s : State) (r : Request) : Bool :=
  !s.busy r.addr r.act.size && s.laneFree r && match r.src with
    | .tile n st => !r.own || !s.outranked n st r.addr
    | _ => true

/-- A home takes request n and performs its act (R273, R274). -/
def execHomeAct (n : Nat) (s : State) : Out :=
  match s.firstRequest n with
  | none => .next s
  | some r =>
    if !s.homeFree r then .next s
    else match performer r with
    | none => let a := ((s.noteAct r.addr r.act.size).useLane r).actOf r; .next (a.1.endAct r a.2)
    | some u =>
      if s.homeSlot u then
        let a := (s.useSlot u).actOf r
        .next (a.1.endAct r a.2)
      else .next s

/-! ## The host's memory requests (R451) -/

/-- The storage that an offset of the HDM map reaches. -/
def hdmAddr (h : Nat) : Option Nat :=
  if h < 1008 * 2 ^ 30 then some (addrOf (h / 2 ^ 30) (0x400000000 + h % 2 ^ 30))
  else if h < 4032 * 2 ^ 30 then
    let g := h - 1008 * 2 ^ 30
    some (addrOf (g / (3 * 2 ^ 30)) (0x800000000 + g % (3 * 2 ^ 30)))
  else none

/-- Bytes of the first line that a request touches. -/
def hostFirst (r : HostReq) : Nat := min r.len (64 - r.offset % 64)

/-- What is left of a request after its first line. -/
def hostRest (r : HostReq) : Option HostReq :=
  if r.len ≤ hostFirst r then none
  else some { r with offset := r.offset + hostFirst r, len := r.len - hostFirst r, write := r.write.map fun b => b.drop (hostFirst r) }

/-- The first line of a request is performed at its home as one act: a write of the bytes it carries, or a read that is
delivered to the host, with poison where its data fails (R415, R417, R451). -/
def State.hostLine (s : State) (r : HostReq) (a : Nat) : State :=
  let n := hostFirst r
  match r.write with
  | some bytes => s.putBytes a (bytes.take n) (if r.poison then [a / 64 * 64] else [])
  | none =>
    let out (bad : Bool) (s : State) : State := { s with hostOut := s.hostOut ++ [(r.offset, s.readBytes a n, bad)] }
    match s.failedBeat a n with
    | some b => out true ((s.controllerRead b).logBeat b 3 none)
    | none => out false s

/-- Whether a request of the host comes behind another: posted writes of one requester are performed in the order they are
received (R451). -/
def hostBehind (r x : HostReq) : Bool := r.requester.isSome && r.requester == x.requester && r.write.isSome && x.write.isSome

/-- A request of the host: its first line is performed, and the rest waits its turn, as does a request to memory that has not
been initialised (R430, R451). What lies past the map is no request. -/
def State.hostRequest (s : State) (r : HostReq) : State :=
  match hdmAddr r.offset with
  | none => s
  | some a =>
    if r.len = 0 then s
    else if !s.ready a ∨ s.hostReqs.any (hostBehind r) then { s with hostReqs := s.hostReqs ++ [r] }
    else
      let s1 := s.hostLine r a
      match hostRest r with
      | some rest => { s1 with hostReqs := s1.hostReqs ++ [rest] }
      | none => s1

/-- The next line of waiting request n. -/
def State.hostStep (s : State) (n : Nat) : State :=
  match s.hostReqs[n]? with
  | none => s
  | some r =>
    match hdmAddr r.offset with
    | none => { s with hostReqs := s.hostReqs.eraseIdx n }
    | some a =>
      if !s.ready a ∨ (s.hostReqs.take n).any (hostBehind r) then s
      else
        let s1 := s.hostLine r a
        match hostRest r with
        | some rest => { s1 with hostReqs := s1.hostReqs.set n rest }
        | none => { s1 with hostReqs := s1.hostReqs.eraseIdx n }

/-- A CXL.mem request (R451). -/
def execCxlMemRequest (r : HostReq) (s : State) : Out := .next (s.hostRequest { r with requester := none })

/-- A memory request through BAR4; it carries no poison indication (R415, R449, R451). -/
def execBar4Request (r : HostReq) (s : State) : Out := .next (s.hostRequest { r with poison := false })

end Sys2Proof.Machine
end

