-- ==== Sys2Proof/Machine/Integer.lean ====
section
/-! DEFINITION. The integer register and immediate operations, constants, branches, jumps and hardware loops (R112 to
R124), and the compact words that equal them (R94). -/

namespace Sys2Proof.Machine

/-- A conditional branch (R116). -/
def branch {n : Nat} (i : Instr) (a b : Reg) (imm : BitVec n) (taken : Word → Word → Bool) (s : State) : Out :=
  .next (lcIssue i [.x a, .x b] (fun s =>
    if taken (s.rx a) (s.rx b) then s.leave i (.jump (relTarget s.me.pc imm) false) else s.done i) s)

/-- A jump that links; one with d ≠ 0 is a call (R117, R124). -/
def jumpLink (i : Instr) (d : Reg) (t : BitVec 18) (s : State) : State :=
  (s.wx d (zext (linkOf s.me.pc 4))).leave i (.jump t (d != 0))

/-- loop and loopi (R122). -/
def enterLoop (i : Instr) (n : Word) (len : BitVec 10) (s : State) : State :=
  let c := s.me
  let start := c.pc.toNat + 4
  let last := start + 2 * len.toNat
  let rec0 := c.loops.get (c.level true)
  let r : LoopRec := ⟨n, true, c.tact, BitVec.ofNat 18 last, BitVec.ofNat 18 start⟩
  if 2 ^ 18 < last then s.illegal i
  else if n = 0 then s.leave i (.skip (BitVec.ofNat 18 last))
  else if !rec0.v then
    let s' := s.leave i .next
    s'.setMe { s'.me with loops := vset s'.me.loops (c.level true) r }
  else if (c.loops.get (c.level false)).v then s.illegal i
  else if start < rec0.start.toNat ∨ rec0.lastNat < last then s.illegal i
  else
    let s' := s.leave i .next
    s'.setMe { s'.me with loops := vset s'.me.loops (c.level false) r }

/-! ## Register operations (R112) -/

def execAdd (d a b : Reg) (s : State) : Out :=
  writeX (.add d a b) d [a, b] (fun s => s.rx a + s.rx b) s

def execSub (d a b : Reg) (s : State) : Out :=
  writeX (.sub d a b) d [a, b] (fun s => s.rx a - s.rx b) s

def execAnd (d a b : Reg) (s : State) : Out :=
  writeX (.and d a b) d [a, b] (fun s => s.rx a &&& s.rx b) s

def execOr (d a b : Reg) (s : State) : Out :=
  writeX (.or d a b) d [a, b] (fun s => s.rx a ||| s.rx b) s

def execXor (d a b : Reg) (s : State) : Out :=
  writeX (.xor d a b) d [a, b] (fun s => s.rx a ^^^ s.rx b) s

def execSll (d a b : Reg) (s : State) : Out :=
  writeX (.sll d a b) d [a, b] (fun s => resSll (s.rx a) (s.rx b)) s

def execSrl (d a b : Reg) (s : State) : Out :=
  writeX (.srl d a b) d [a, b] (fun s => resSrl (s.rx a) (s.rx b)) s

def execSra (d a b : Reg) (s : State) : Out :=
  writeX (.sra d a b) d [a, b] (fun s => resSra (s.rx a) (s.rx b)) s

def execSlt (d a b : Reg) (s : State) : Out :=
  writeX (.slt d a b) d [a, b] (fun s => resSlt (s.rx a) (s.rx b)) s

def execSltn (d a b : Reg) (s : State) : Out :=
  writeX (.sltn d a b) d [a, b] (fun s => resSltn (s.rx a) (s.rx b)) s

def execMul (d a b : Reg) (s : State) : Out :=
  writeX (.mul d a b) d [a, b] (fun s => s.rx a * s.rx b) s

def execMulh (d a b : Reg) (s : State) : Out :=
  writeX (.mulh d a b) d [a, b] (fun s => resMulh (s.rx a) (s.rx b)) s

def execMulhn (d a b : Reg) (s : State) : Out :=
  writeX (.mulhn d a b) d [a, b] (fun s => resMulhn (s.rx a) (s.rx b)) s

def execDiv (d a b : Reg) (s : State) : Out :=
  writeX (.div d a b) d [a, b] (fun s => resDiv (s.rx a) (s.rx b)) s

def execDivn (d a b : Reg) (s : State) : Out :=
  writeX (.divn d a b) d [a, b] (fun s => resDivn (s.rx a) (s.rx b)) s

def execRem (d a b : Reg) (s : State) : Out :=
  writeX (.rem d a b) d [a, b] (fun s => resRem (s.rx a) (s.rx b)) s

def execRemn (d a b : Reg) (s : State) : Out :=
  writeX (.remn d a b) d [a, b] (fun s => resRemn (s.rx a) (s.rx b)) s

def execMin (d a b : Reg) (s : State) : Out :=
  writeX (.min d a b) d [a, b] (fun s => resMin (s.rx a) (s.rx b)) s

def execMax (d a b : Reg) (s : State) : Out :=
  writeX (.max d a b) d [a, b] (fun s => resMax (s.rx a) (s.rx b)) s

def execMinn (d a b : Reg) (s : State) : Out :=
  writeX (.minn d a b) d [a, b] (fun s => resMinn (s.rx a) (s.rx b)) s

def execMaxn (d a b : Reg) (s : State) : Out :=
  writeX (.maxn d a b) d [a, b] (fun s => resMaxn (s.rx a) (s.rx b)) s

def execClz (d a : Reg) (s : State) : Out :=
  writeX (.clz d a) d [a] (fun s => resClz (s.rx a)) s

def execCtz (d a : Reg) (s : State) : Out :=
  writeX (.ctz d a) d [a] (fun s => resCtz (s.rx a)) s

def execPopc (d a : Reg) (s : State) : Out :=
  writeX (.popc d a) d [a] (fun s => resPopc (s.rx a)) s

def execSel (d a b e : Reg) (s : State) : Out :=
  writeX (.sel d a b e) d [a, b, e] (fun s => resSel (s.rx a) (s.rx b) (s.rx e)) s

def execExt (d a b e : Reg) (s : State) : Out :=
  writeX (.ext d a b e) d [a, b, e] (fun s => resExt (s.rx a) (s.rx b) (s.rx e)) s

def execIns (d a b e : Reg) (s : State) : Out :=
  writeX (.ins d a b e) d [a, b, e] (fun s => resIns (s.rx d) (s.rx a) (s.rx b) (s.rx e)) s

def execRev (d a : Reg) (g : RevGran) (s : State) : Out :=
  writeX (.rev d a g) d [a] (fun s => resRev g (s.rx a)) s

/-! ## Immediate forms (R114, R115) -/

def execAddi (d a : Reg) (imm : BitVec 15) (s : State) : Out :=
  writeX (.addi d a imm) d [a] (fun s => s.rx a + sext imm) s

def execAndi (d a : Reg) (imm : BitVec 15) (s : State) : Out :=
  writeX (.andi d a imm) d [a] (fun s => s.rx a &&& sext imm) s

def execOri (d a : Reg) (imm : BitVec 15) (s : State) : Out :=
  writeX (.ori d a imm) d [a] (fun s => s.rx a ||| sext imm) s

def execXori (d a : Reg) (imm : BitVec 15) (s : State) : Out :=
  writeX (.xori d a imm) d [a] (fun s => s.rx a ^^^ sext imm) s

def execSlti (d a : Reg) (imm : BitVec 15) (s : State) : Out :=
  writeX (.slti d a imm) d [a] (fun s => resSlt (s.rx a) (sext imm)) s

def execSltni (d a : Reg) (imm : BitVec 15) (s : State) : Out :=
  writeX (.sltni d a imm) d [a] (fun s => resSltn (s.rx a) (sext imm)) s

def execSlli (d a : Reg) (sh : BitVec 6) (s : State) : Out :=
  writeX (.slli d a sh) d [a] (fun s => resSll (s.rx a) (zext sh)) s

def execSrli (d a : Reg) (sh : BitVec 6) (s : State) : Out :=
  writeX (.srli d a sh) d [a] (fun s => resSrl (s.rx a) (zext sh)) s

def execSrai (d a : Reg) (sh : BitVec 6) (s : State) : Out :=
  writeX (.srai d a sh) d [a] (fun s => resSra (s.rx a) (zext sh)) s

/-- addi with an s destination: readers see the value one rotation later (R73, R114). -/
def execAddiSDest (sd : BitVec 3) (a : Reg) (imm : BitVec 15) (s : State) : Out :=
  .next (lcIssue (.addiSDest sd a imm) [.x a] (fun s =>
    let c := s.myCore
    let r := (c.sregs.get ⟨sd.toNat, sd.isLt⟩).write s.ck (s.ck + c.nctx) (s.rx a + sext imm)
    (s.setMyCore { c with sregs := vset c.sregs ⟨sd.toNat, sd.isLt⟩ r }).done (.addiSDest sd a imm)) s)

/-- addi with an s source (R73, R114). -/
def execAddiSSrc (d : Reg) (sa : BitVec 3) (imm : BitVec 15) (s : State) : Out :=
  writeX (.addiSSrc d sa imm) d [] (fun s => (s.myCore.sregs.get ⟨sa.toNat, sa.isLt⟩).read s.ck + sext imm) s

/-- lhi: bits [63:44] (R115). -/
def execLhi (d : Reg) (imm : BitVec 20) (s : State) : Out :=
  writeX (.lhi d imm) d [] (fun _ => zext imm <<< 44) s

/-- addpc (R115). -/
def execAddpc (d : Reg) (off : BitVec 20) (s : State) : Out :=
  writeX (.addpc d off) d [] (fun s => zext (s.me.pc + off.setWidth 18)) s

/-! ## Branches and jumps (R116, R117) -/

def execBeq (a b : Reg) (imm : BitVec 15) (s : State) : Out :=
  branch (.beq a b imm) a b imm (fun a b => a == b) s

def execBne (a b : Reg) (imm : BitVec 15) (s : State) : Out :=
  branch (.bne a b imm) a b imm (fun a b => a != b) s

def execBlt (a b : Reg) (imm : BitVec 15) (s : State) : Out :=
  branch (.blt a b imm) a b imm (fun a b => a.slt b) s

def execBge (a b : Reg) (imm : BitVec 15) (s : State) : Out :=
  branch (.bge a b imm) a b imm (fun a b => !a.slt b) s

def execBltn (a b : Reg) (imm : BitVec 15) (s : State) : Out :=
  branch (.bltn a b imm) a b imm (fun a b => a.ult b) s

def execBgen (a b : Reg) (imm : BitVec 15) (s : State) : Out :=
  branch (.bgen a b imm) a b imm (fun a b => !a.ult b) s

def execJal (d : Reg) (imm : BitVec 20) (s : State) : Out :=
  .next (lcIssue (.jal d imm) [.x d] (fun s => jumpLink (.jal d imm) d (relTarget s.me.pc imm) s) s)

def execJalr (d a : Reg) (imm : BitVec 15) (s : State) : Out :=
  .next (lcIssue (.jalr d a imm) [.x d, .x a] (fun s =>
    let t := s.rx a + sext imm
    if t.toNat < 2 ^ 18 ∧ t.getLsbD 0 = false then jumpLink (.jalr d a imm) d (t.setWidth 18) s
    else s.trap causeMisaligned t) s)

/-! ## Hardware loops (R120 to R122) -/

def execLoop (a : Reg) (len : BitVec 10) (s : State) : Out :=
  .next (lcIssue (.loop a len) [.x a] (fun s => enterLoop (.loop a len) (s.rx a) len s) s)

def execLoopi (n : BitVec 15) (len : BitVec 10) (s : State) : Out :=
  .next (lcIssue (.loopi n len) [] (fun s => enterLoop (.loopi n len) (zext n) len s) s)

/-! ## Compact words with the effect of an integer word (R94) -/

def execKmv (d b : Reg) (s : State) : Out :=
  writeX (.kmv d b) d [b] (fun s => s.rx b) s

def execKadd (d b : Reg) (s : State) : Out :=
  writeX (.kadd d b) d [b] (fun s => s.rx d + s.rx b) s

def execKsub (d b : Reg) (s : State) : Out :=
  writeX (.ksub d b) d [b] (fun s => s.rx d - s.rx b) s

def execKand (d b : Reg) (s : State) : Out :=
  writeX (.kand d b) d [b] (fun s => s.rx d &&& s.rx b) s

def execKor (d b : Reg) (s : State) : Out :=
  writeX (.kor d b) d [b] (fun s => s.rx d ||| s.rx b) s

def execKxor (d b : Reg) (s : State) : Out :=
  writeX (.kxor d b) d [b] (fun s => s.rx d ^^^ s.rx b) s

def execKaddi (d : Reg) (imm : BitVec 6) (s : State) : Out :=
  writeX (.kaddi d imm) d [] (fun s => s.rx d + sext imm) s

def execKli (d : Reg) (imm : BitVec 6) (s : State) : Out :=
  writeX (.kli d imm) d [] (fun _ => sext imm) s

def execKslli (d : Reg) (imm : BitVec 6) (s : State) : Out :=
  writeX (.kslli d imm) d [] (fun s => resSll (s.rx d) (zext imm)) s

def execKsrli (d : Reg) (imm : BitVec 6) (s : State) : Out :=
  writeX (.ksrli d imm) d [] (fun s => resSrl (s.rx d) (zext imm)) s

def execKbeqz (a : Reg) (imm : BitVec 6) (s : State) : Out :=
  branch (.kbeqz a imm) a 0 imm (fun a b => a == b) s

def execKbnez (a : Reg) (imm : BitVec 6) (s : State) : Out :=
  branch (.kbnez a imm) a 0 imm (fun a b => a != b) s

def execKj (imm : BitVec 11) (s : State) : Out :=
  .next (lcIssue (.kj imm) [] (fun s => s.leave (.kj imm) (.jump (relTarget s.me.pc imm) false)) s)

end Sys2Proof.Machine
end

