-- ==== Sys2Proof/Machine/Dispatch.lean ====
section
/-! DEFINITION. The dispatch: one arm for each instruction and each hardware step. -/

namespace Sys2Proof.Machine

def exec (i : Instr) (s : State) : Host.Outcome State Fault Refusal :=
  match i with
  | .add d a b => Sys2Proof.Machine.execAdd d a b s
  | .sub d a b => Sys2Proof.Machine.execSub d a b s
  | .and d a b => Sys2Proof.Machine.execAnd d a b s
  | .or d a b => Sys2Proof.Machine.execOr d a b s
  | .xor d a b => Sys2Proof.Machine.execXor d a b s
  | .sll d a b => Sys2Proof.Machine.execSll d a b s
  | .srl d a b => Sys2Proof.Machine.execSrl d a b s
  | .sra d a b => Sys2Proof.Machine.execSra d a b s
  | .slt d a b => Sys2Proof.Machine.execSlt d a b s
  | .sltn d a b => Sys2Proof.Machine.execSltn d a b s
  | .mul d a b => Sys2Proof.Machine.execMul d a b s
  | .mulh d a b => Sys2Proof.Machine.execMulh d a b s
  | .mulhn d a b => Sys2Proof.Machine.execMulhn d a b s
  | .div d a b => Sys2Proof.Machine.execDiv d a b s
  | .divn d a b => Sys2Proof.Machine.execDivn d a b s
  | .rem d a b => Sys2Proof.Machine.execRem d a b s
  | .remn d a b => Sys2Proof.Machine.execRemn d a b s
  | .min d a b => Sys2Proof.Machine.execMin d a b s
  | .max d a b => Sys2Proof.Machine.execMax d a b s
  | .minn d a b => Sys2Proof.Machine.execMinn d a b s
  | .maxn d a b => Sys2Proof.Machine.execMaxn d a b s
  | .clz d a => Sys2Proof.Machine.execClz d a s
  | .ctz d a => Sys2Proof.Machine.execCtz d a s
  | .popc d a => Sys2Proof.Machine.execPopc d a s
  | .sel d a b e => Sys2Proof.Machine.execSel d a b e s
  | .ext d a b e => Sys2Proof.Machine.execExt d a b e s
  | .ins d a b e => Sys2Proof.Machine.execIns d a b e s
  | .rev d a g => Sys2Proof.Machine.execRev d a g s
  | .addi d a imm => Sys2Proof.Machine.execAddi d a imm s
  | .andi d a imm => Sys2Proof.Machine.execAndi d a imm s
  | .ori d a imm => Sys2Proof.Machine.execOri d a imm s
  | .xori d a imm => Sys2Proof.Machine.execXori d a imm s
  | .slti d a imm => Sys2Proof.Machine.execSlti d a imm s
  | .sltni d a imm => Sys2Proof.Machine.execSltni d a imm s
  | .slli d a sh => Sys2Proof.Machine.execSlli d a sh s
  | .srli d a sh => Sys2Proof.Machine.execSrli d a sh s
  | .srai d a sh => Sys2Proof.Machine.execSrai d a sh s
  | .addiSDest sd a imm => Sys2Proof.Machine.execAddiSDest sd a imm s
  | .addiSSrc d sa imm => Sys2Proof.Machine.execAddiSSrc d sa imm s
  | .lhi d imm => Sys2Proof.Machine.execLhi d imm s
  | .addpc d off => Sys2Proof.Machine.execAddpc d off s
  | .beq a b imm => Sys2Proof.Machine.execBeq a b imm s
  | .bne a b imm => Sys2Proof.Machine.execBne a b imm s
  | .blt a b imm => Sys2Proof.Machine.execBlt a b imm s
  | .bge a b imm => Sys2Proof.Machine.execBge a b imm s
  | .bltn a b imm => Sys2Proof.Machine.execBltn a b imm s
  | .bgen a b imm => Sys2Proof.Machine.execBgen a b imm s
  | .jal d imm => Sys2Proof.Machine.execJal d imm s
  | .jalr d a imm => Sys2Proof.Machine.execJalr d a imm s
  | .loop a len => Sys2Proof.Machine.execLoop a len s
  | .loopi n len => Sys2Proof.Machine.execLoopi n len s
  | .ld m => Sys2Proof.Machine.execLd m s
  | .ldn m => Sys2Proof.Machine.execLdn m s
  | .st m => Sys2Proof.Machine.execSt m s
  | .ldq m => Sys2Proof.Machine.execLdq m s
  | .stq m => Sys2Proof.Machine.execStq m s
  | .ldCap m => Sys2Proof.Machine.execLdCap m s
  | .ldnCap m => Sys2Proof.Machine.execLdnCap m s
  | .stCap m => Sys2Proof.Machine.execStCap m s
  | .ldqCap m => Sys2Proof.Machine.execLdqCap m s
  | .stqCap m => Sys2Proof.Machine.execStqCap m s
  | .amoadd m => Sys2Proof.Machine.execAmoadd m s
  | .amofadd m => Sys2Proof.Machine.execAmofadd m s
  | .amomin m => Sys2Proof.Machine.execAmomin m s
  | .amomax m => Sys2Proof.Machine.execAmomax m s
  | .amoswap m => Sys2Proof.Machine.execAmoswap m s
  | .amoand m => Sys2Proof.Machine.execAmoand m s
  | .amoor m => Sys2Proof.Machine.execAmoor m s
  | .amoxor m => Sys2Proof.Machine.execAmoxor m s
  | .amocas m => Sys2Proof.Machine.execAmocas m s
  | .arrive d a b => Sys2Proof.Machine.execArrive d a b s
  | .waitv cond wide lw d a b => Sys2Proof.Machine.execWaitv cond wide lw d a b s
  | .fence lv => Sys2Proof.Machine.execFence lv s
  | .fenceScope n => Sys2Proof.Machine.execFenceScope n s
  | .sendr tctx treg d a b => Sys2Proof.Machine.execSendr tctx treg d a b s
  | .senda hidx d a b => Sys2Proof.Machine.execSenda hidx d a b s
  | .hld h => Sys2Proof.Machine.execHld h s
  | .unhld h => Sys2Proof.Machine.execUnhld h s
  | .spawn d a b => Sys2Proof.Machine.execSpawn d a b s
  | .fork d b => Sys2Proof.Machine.execFork d b s
  | .join a => Sys2Proof.Machine.execJoin a s
  | .steal d => Sys2Proof.Machine.execSteal d s
  | .start d a b => Sys2Proof.Machine.execStart d a b s
  | .reap d a => Sys2Proof.Machine.execReap d a s
  | .sjoin d a => Sys2Proof.Machine.execSjoin d a s
  | .sleave d a => Sys2Proof.Machine.execSleave d a s
  | .cld d a b => Sys2Proof.Machine.execCld d a b s
  | .cst d a b => Sys2Proof.Machine.execCst d a b s
  | .cmk d a b => Sys2Proof.Machine.execCmk d a b s
  | .cinfo d a sel => Sys2Proof.Machine.execCinfo d a sel s
  | .csrr d n => Sys2Proof.Machine.execCsrr d n s
  | .csrw n a => Sys2Proof.Machine.execCsrw n a s
  | .csrs n a => Sys2Proof.Machine.execCsrs n a s
  | .csrc n a => Sys2Proof.Machine.execCsrc n a s
  | .svc imm => Sys2Proof.Machine.execSvc imm s
  | .eret => Sys2Proof.Machine.execEret s
  | .brk imm => Sys2Proof.Machine.execBrk imm s
  | .ifence => Sys2Proof.Machine.execIfence s
  | .repart m8 => Sys2Proof.Machine.execRepart m8 s
  | .migrate d a => Sys2Proof.Machine.execMigrate d a s
  | .tlbinv kind a => Sys2Proof.Machine.execTlbinv kind a s
  | .wait d a => Sys2Proof.Machine.execWait d a s
  | .padd p => Sys2Proof.Machine.execPadd p s
  | .psub p => Sys2Proof.Machine.execPsub p s
  | .pmul p => Sys2Proof.Machine.execPmul p s
  | .pfma p => Sys2Proof.Machine.execPfma p s
  | .pmin p => Sys2Proof.Machine.execPmin p s
  | .pmax p => Sys2Proof.Machine.execPmax p s
  | .pabs p => Sys2Proof.Machine.execPabs p s
  | .pdot p => Sys2Proof.Machine.execPdot p s
  | .pshl p => Sys2Proof.Machine.execPshl p s
  | .pshr p => Sys2Proof.Machine.execPshr p s
  | .pcmp p => Sys2Proof.Machine.execPcmp p s
  | .psel d a b => Sys2Proof.Machine.execPsel d a b s
  | .pcvt p => Sys2Proof.Machine.execPcvt p s
  | .psplat ty d a => Sys2Proof.Machine.execPsplat ty d a s
  | .pmov d a => Sys2Proof.Machine.execPmov d a s
  | .pext ty d a lane => Sys2Proof.Machine.execPext ty d a lane s
  | .pins ty d a lane => Sys2Proof.Machine.execPins ty d a lane s
  | .gth x => Sys2Proof.Machine.execGth x s
  | .ddp x => Sys2Proof.Machine.execDdp x s
  | .sred x => Sys2Proof.Machine.execSred x s
  | .sadd x => Sys2Proof.Machine.execSadd x s
  | .scst x => Sys2Proof.Machine.execScst x s
  | .tstep d a e => Sys2Proof.Machine.execTstep d a e s
  | .commandAcceptance u => Sys2Proof.Machine.execCommandAcceptance u s
  | .gatherCommandComplete u j => Sys2Proof.Machine.execGatherCommandComplete u j s
  | .stepTake u => Sys2Proof.Machine.execStepTake u s
  | .sopen x => Sys2Proof.Machine.execSopen x s
  | .snext d a => Sys2Proof.Machine.execSnext d a s
  | .sint x => Sys2Proof.Machine.execSint x s
  | .smrg x => Sys2Proof.Machine.execSmrg x s
  | .sclose a => Sys2Proof.Machine.execSclose a s
  | .bget d a => Sys2Proof.Machine.execBget d a s
  | .bpeek d a => Sys2Proof.Machine.execBpeek d a s
  | .bskip a => Sys2Proof.Machine.execBskip a s
  | .bdec d => Sys2Proof.Machine.execBdec d s
  | .bdecn x => Sys2Proof.Machine.execBdecn x s
  | .bsync d a b => Sys2Proof.Machine.execBsync d a b s
  | .segmentArrival u => Sys2Proof.Machine.execSegmentArrival u s
  | .kbrk => Sys2Proof.Machine.execKbrk s
  | .kmv d b => Sys2Proof.Machine.execKmv d b s
  | .kadd d b => Sys2Proof.Machine.execKadd d b s
  | .ksub d b => Sys2Proof.Machine.execKsub d b s
  | .kaddi d imm => Sys2Proof.Machine.execKaddi d imm s
  | .kli d imm => Sys2Proof.Machine.execKli d imm s
  | .kand d b => Sys2Proof.Machine.execKand d b s
  | .kor d b => Sys2Proof.Machine.execKor d b s
  | .kxor d b => Sys2Proof.Machine.execKxor d b s
  | .kslli d imm => Sys2Proof.Machine.execKslli d imm s
  | .ksrli d imm => Sys2Proof.Machine.execKsrli d imm s
  | .kld d b => Sys2Proof.Machine.execKld d b s
  | .kst a b => Sys2Proof.Machine.execKst a b s
  | .kbeqz a imm => Sys2Proof.Machine.execKbeqz a imm s
  | .kbnez a imm => Sys2Proof.Machine.execKbnez a imm s
  | .kj imm => Sys2Proof.Machine.execKj imm s
  | .homeAct n => Sys2Proof.Machine.execHomeAct n s
  | .plainAccessComplete n => Sys2Proof.Machine.execPlainAccessComplete n s
  | .relaxedResultReturn n => Sys2Proof.Machine.execRelaxedResultReturn n s
  | .contextWake u k => Sys2Proof.Machine.execContextWake u k s
  | .syncRequestDrop n => Sys2Proof.Machine.execSyncRequestDrop n s
  | .presenceWaitStall u k => Sys2Proof.Machine.execPresenceWaitStall u k s
  | .combiningLineTimeout u l => Sys2Proof.Machine.execCombiningLineTimeout u l s
  | .registerMessage n => Sys2Proof.Machine.execRegisterMessage n s
  | .activeMessage n => Sys2Proof.Machine.execActiveMessage n s
  | .handlerSelect u => Sys2Proof.Machine.execHandlerSelect u s
  | .spawnRequest n => Sys2Proof.Machine.execSpawnRequest n s
  | .joinContinuation n => Sys2Proof.Machine.execJoinContinuation n s
  | .pageWalk n => Sys2Proof.Machine.execPageWalk n s
  | .translationResponse v => Sys2Proof.Machine.execTranslationResponse v s
  | .migrationResponse v => Sys2Proof.Machine.execMigrationResponse v s
  | .beatArrival n => Sys2Proof.Machine.execBeatArrival n s
  | .firnBlockEncode n => Sys2Proof.Machine.execFirnBlockEncode n s
  | .firnBlockDecode n => Sys2Proof.Machine.execFirnBlockDecode n s
  | .xnop tok => Sys2Proof.Machine.execXnop tok s
  | .xhalt tok => Sys2Proof.Machine.execXhalt tok s
  | .xld o => Sys2Proof.Machine.execXld o s
  | .xst o => Sys2Proof.Machine.execXst o s
  | .xcp o => Sys2Proof.Machine.execXcp o s
  | .xbld o => Sys2Proof.Machine.execXbld o s
  | .xbindIn o => Sys2Proof.Machine.execXbindIn o s
  | .xbindOut o => Sys2Proof.Machine.execXbindOut o s
  | .xbindOff own tok => Sys2Proof.Machine.execXbindOff own tok s
  | .xstash o => Sys2Proof.Machine.execXstash o s
  | .xrest o => Sys2Proof.Machine.execXrest o s
  | .xceHalve o => Sys2Proof.Machine.execXceHalve o s
  | .xceDbl o => Sys2Proof.Machine.execXceDbl o s
  | .xceXchg o => Sys2Proof.Machine.execXceXchg o s
  | .xwait tok => Sys2Proof.Machine.execXwait tok s
  | .xwaitDrain tok => Sys2Proof.Machine.execXwaitDrain tok s
  | .xwaitBar sha ja imm tok => Sys2Proof.Machine.execXwaitBar sha ja imm tok s
  | .xset o => Sys2Proof.Machine.execXset o s
  | .xsetHi o => Sys2Proof.Machine.execXsetHi o s
  | .xsetMj o => Sys2Proof.Machine.execXsetMj o s
  | .xsetTctl imm tok => Sys2Proof.Machine.execXsetTctl imm tok s
  | .xsetFcsr imm tok => Sys2Proof.Machine.execXsetFcsr imm tok s
  | .xsetRrb imm tok => Sys2Proof.Machine.execXsetRrb imm tok s
  | .xsetRload n count word tok => Sys2Proof.Machine.execXsetRload n count word tok s
  | .xsetRstage ep tok => Sys2Proof.Machine.execXsetRstage ep tok s
  | .xloop o => Sys2Proof.Machine.execXloop o s
  | .cnop tok => Sys2Proof.Machine.execCnop tok s
  | .chalt tok => Sys2Proof.Machine.execChalt tok s
  | .cvt o => Sys2Proof.Machine.execCvt o s
  | .bscale o => Sys2Proof.Machine.execBscale o s
  | .skeep o => Sys2Proof.Machine.execSkeep o s
  | .srecv n tok => Sys2Proof.Machine.execSrecv n tok s
  | .cpack o => Sys2Proof.Machine.execCpack o s
  | .cunpack o => Sys2Proof.Machine.execCunpack o s
  | .cset o => Sys2Proof.Machine.execCset o s
  | .csetHi o => Sys2Proof.Machine.execCsetHi o s
  | .csetFcsr imm tok => Sys2Proof.Machine.execCsetFcsr imm tok s
  | .csetDrain tok => Sys2Proof.Machine.execCsetDrain tok s
  | .cloop o => Sys2Proof.Machine.execCloop o s
  | .mma o => Sys2Proof.Machine.execMma o s
  | .mmas o => Sys2Proof.Machine.execMmas o s
  | .mzero plane => Sys2Proof.Machine.execMzero plane s
  | .mdrain o => Sys2Proof.Machine.execMdrain o s
  | .vadd o => Sys2Proof.Machine.execVadd o s
  | .vsub o => Sys2Proof.Machine.execVsub o s
  | .vmul o => Sys2Proof.Machine.execVmul o s
  | .vfma o => Sys2Proof.Machine.execVfma o s
  | .vmax o => Sys2Proof.Machine.execVmax o s
  | .vmin o => Sys2Proof.Machine.execVmin o s
  | .vabs o => Sys2Proof.Machine.execVabs o s
  | .vexp2 o => Sys2Proof.Machine.execVexp2 o s
  | .vlog2 o => Sys2Proof.Machine.execVlog2 o s
  | .vrcp o => Sys2Proof.Machine.execVrcp o s
  | .vrsqrt o => Sys2Proof.Machine.execVrsqrt o s
  | .vtanh o => Sys2Proof.Machine.execVtanh o s
  | .vcmp o => Sys2Proof.Machine.execVcmp o s
  | .vsel o => Sys2Proof.Machine.execVsel o s
  | .vred o => Sys2Proof.Machine.execVred o s
  | .vbcast o => Sys2Proof.Machine.execVbcast o s
  | .vperm o => Sys2Proof.Machine.execVperm o s
  | .vcvt o => Sys2Proof.Machine.execVcvt o s
  | .vld o => Sys2Proof.Machine.execVld o s
  | .vst o => Sys2Proof.Machine.execVst o s
  | .pset o => Sys2Proof.Machine.execPset o s
  | .mNop => Sys2Proof.Machine.execMNop s
  | .mLoop j => Sys2Proof.Machine.execMLoop j s
  | .endl => Sys2Proof.Machine.execEndl s
  | .lrot r1 => Sys2Proof.Machine.execLrot r1 s
  | .jmp t => Sys2Proof.Machine.execJmp t s
  | .halt => Sys2Proof.Machine.execHalt s
  | .dtInstructionFinish n st => Sys2Proof.Machine.execDtInstructionFinish n st s
  | .tileStall n st => Sys2Proof.Machine.execTileStall n st s
  | .grantArrival n => Sys2Proof.Machine.execGrantArrival n s
  | .slotArrival n => Sys2Proof.Machine.execSlotArrival n s
  | .closeMarkArrival n => Sys2Proof.Machine.execCloseMarkArrival n s
  | .creditArrival n => Sys2Proof.Machine.execCreditArrival n s
  | .holdFlit n => Sys2Proof.Machine.execHoldFlit n s
  | .heldFlit n => Sys2Proof.Machine.execHeldFlit n s
  | .movedFlit n => Sys2Proof.Machine.execMovedFlit n s
  | .coachReadyFlit n => Sys2Proof.Machine.execCoachReadyFlit n s
  | .coachDataFlit n => Sys2Proof.Machine.execCoachDataFlit n s
  | .coachStepFinish n => Sys2Proof.Machine.execCoachStepFinish n s
  | .quiesceMarker n => Sys2Proof.Machine.execQuiesceMarker n s
  | .auditMarker n => Sys2Proof.Machine.execAuditMarker n s
  | .auditReply n => Sys2Proof.Machine.execAuditReply n s
  | .auditNoReply n => Sys2Proof.Machine.execAuditNoReply n s
  | .auditPeriod n ep => Sys2Proof.Machine.execAuditPeriod n ep s
  | .flitReceive port seq good p => Sys2Proof.Machine.execFlitReceive port seq good p s
  | .replayRequest port seq => Sys2Proof.Machine.execReplayRequest port seq s
  | .laneFailure port lanes => Sys2Proof.Machine.execLaneFailure port lanes s
  | .retrainEnd port => Sys2Proof.Machine.execRetrainEnd port s
  | .retrain port => Sys2Proof.Machine.execRetrain port s
  | .qtailWrite q v => Sys2Proof.Machine.execQtailWrite q v s
  | .qstatHaltClear q v => Sys2Proof.Machine.execQstatHaltClear q v s
  | .recordRead q host => Sys2Proof.Machine.execRecordRead q host s
  | .launchDecision => Sys2Proof.Machine.execLaunchDecision s
  | .reservation n => Sys2Proof.Machine.execReservation n s
  | .wake p => Sys2Proof.Machine.execWake p s
  | .launchComplete p => Sys2Proof.Machine.execLaunchComplete p s
  | .completionCount q => Sys2Proof.Machine.execCompletionCount q s
  | .eventDelivery => Sys2Proof.Machine.execEventDelivery s
  | .watchdogExpiry p => Sys2Proof.Machine.execWatchdogExpiry p s
  | .pctlEnable p v => Sys2Proof.Machine.execPctlEnable p v s
  | .pctlReset p v => Sys2Proof.Machine.execPctlReset p v s
  | .arbselGo v => Sys2Proof.Machine.execArbselGo v s
  | .ppreSave p v => Sys2Proof.Machine.execPpreSave p v s
  | .ppreRestore p v => Sys2Proof.Machine.execPpreRestore p v s
  | .uresSync v => Sys2Proof.Machine.execUresSync v s
  | .uresGo v => Sys2Proof.Machine.execUresGo v s
  | .capctlSet v => Sys2Proof.Machine.execCapctlSet v s
  | .capctlClr v => Sys2Proof.Machine.execCapctlClr v s
  | .capctlSweep v => Sys2Proof.Machine.execCapctlSweep v s
  | .audctlNow port v => Sys2Proof.Machine.execAudctlNow port v s
  | .lsubGo v => Sys2Proof.Machine.execLsubGo v s
  | .aspareWrite n v => Sys2Proof.Machine.execAspareWrite n v s
  | .cxlMemRequest r => Sys2Proof.Machine.execCxlMemRequest r s
  | .bar4Request r => Sys2Proof.Machine.execBar4Request r s
  | .registerWrite off half v => Sys2Proof.Machine.execRegisterWrite off half v s
  | .reset => Sys2Proof.Machine.execReset s
  | .romStart => Sys2Proof.Machine.execRomStart s
  | .memoryInitDone second => Sys2Proof.Machine.execMemoryInitDone second s
  | .bootctlReady v => Sys2Proof.Machine.execBootctlReady v s
  | .discGo v => Sys2Proof.Machine.execDiscGo v s
  | .discoveryTimeout => Sys2Proof.Machine.execDiscoveryTimeout s
  | .mapSubmit v => Sys2Proof.Machine.execMapSubmit v s
  | .mcctlGo v => Sys2Proof.Machine.execMcctlGo v s
  | .attestGo v => Sys2Proof.Machine.execAttestGo v s
  | .flctlGo v => Sys2Proof.Machine.execFlctlGo v s
  | .freezeInput => Sys2Proof.Machine.execFreezeInput s
  | .thermalTrip temp => Sys2Proof.Machine.execThermalTrip temp s
  | .idcode => Sys2Proof.Machine.execIdcode s
  | .freeze bit => Sys2Proof.Machine.execFreeze bit s
  | .scansel v => Sys2Proof.Machine.execScansel v s
  | .scanrd => Sys2Proof.Machine.execScanrd s
  | .memaddr v => Sys2Proof.Machine.execMemaddr v s
  | .memrd => Sys2Proof.Machine.execMemrd s
  | .relaxedStoreAck n => Sys2Proof.Machine.execRelaxedStoreAck n s
  | .sredRowWaitLimit u j => Sys2Proof.Machine.execSredRowWaitLimit u j s
  | .attestReportDone => Sys2Proof.Machine.execAttestReportDone s
  | .flashProgramDone ok => Sys2Proof.Machine.execFlashProgramDone ok s
  | .lsubMoveDone => Sys2Proof.Machine.execLsubMoveDone s
  | .sweepDone => Sys2Proof.Machine.execSweepDone s
  | .msixUnmask v => Sys2Proof.Machine.execMsixUnmask v s

end Sys2Proof.Machine
end

