-- ==== Sys2Proof/Machine/Run.lean ====
section
/-! DEFINITION. The moves of the device: a core's slot (R62, R63), a word or a bundle of a stream (R202, R204, R210, R224), a
unit of a command, the passing of a ck with what falls due in it (R71, R177, R212, R282, R367), and a soft error (R415). A
move that has nothing to do changes nothing. -/

namespace Sys2Proof.Machine

/-! ## A slot of a lookup core (R62, R63) -/

/-- The context of core u that owns the slot of this ck issues in it, and has not done so. In a save or a move it issues nothing
but an instruction that it has begun (R200, R397). -/
def State.mayIssue (s : State) (u : Nat) : Bool :=
  let c := s.coreAt u
  let k := s.slotOf u
  let x := s.ctxAt u k
  x.state == .run && decide (x.readyAt ≤ s.ck) && decide (c.issuedAt ≤ s.ck) &&
    (x.since.isSome || (!s.paused c.launch && !s.moving u k.val))

/-- The context that issues takes a word. -/
def State.holdIssue (s : State) (u : Nat) (k : Fin 16) (w : BitVec 32) (len : Nat) : State :=
  { s.setCtx u k ((s.ctxAt u k).holdWord w len) with core := u, ctx := k }

/-- The slot of this ck is used. -/
def State.spendSlot (s : State) (u : Nat) : State := s.setCore u { s.coreAt u with issuedAt := s.ck + 1 }

/-- A word that is no instruction, or a fetch that fails (R95, R119, R417). -/
def State.fetchFails (s : State) (u : Nat) (k : Fin 16) (t : TrapInfo) : State :=
  if t.code = causeIntegrity then s.integrityAt u k t.value else s.trapHere u k t

/-- A context that has left its instruction waits for no entry any more (R128). -/
def State.leaveEntryQueue (s : State) (u : Nat) (k : Fin 16) : State :=
  if (s.ctxAt u k).park = .entry ∨ !(s.coreAt u).entryQueue.contains k.val then s
  else s.setCore u { s.coreAt u with entryQueue := setRemove k.val (s.coreAt u).entryQueue }

/-- What follows a meaning that has a next state. -/
def mapNext (f : State → State) : Out → Out
  | .next s => .next (f s)
  | .fault r => .fault r
  | .refused r => .refused r

/-- The slot of core u in this ck. -/
def State.stepLc (s : State) (u : Nat) : Out :=
  if !s.mayIssue u then .next s
  else
    let k := s.slotOf u
    match s.fetchWord u k with
    | .error t => .next ((s.spendSlot u).fetchFails u k t)
    | .ok w =>
      let d := decodeLc w
      let s1 := (s.spendSlot u).holdIssue u k w d.2
      match d.1 with
      | .reject _ => .next (s1.fetchFails u k ⟨causeIllegal, lcWordValue w, 0⟩)
      | .ok i => mapNext (fun s => s.leaveEntryQueue u k) (exec i s1)

/-! ## A word or a bundle of a stream (R202, R204, R210, R224) -/

/-- Whether an item of a bundle is ILLEGAL at its issue (R104, R226, R229, R236, R237, R244). -/
def State.bundleBad (s : State) (n : Nat) (b : Bundle) : Bool :=
  (match b.matrix with
    | some (.mma o) | some (.mmas o) => aUnbound o s
    | some (.mdrain o) => targetUnbound o s
    | _ => false) ||
  (match b.vector with
    | some (.pset _) | none => false
    | some i => match i with
      | .vadd o | .vsub o | .vmul o | .vfma o | .vmax o | .vmin o | .vabs o | .vexp2 o | .vlog2 o | .vrcp o | .vrsqrt o | .vtanh o
      | .vcmp o | .vsel o | .vred o | .vbcast o | .vperm o | .vcvt o | .vld o | .vst o => (s.tileAt n).governBad i o
      | _ => false) ||
  s.loopItemBad n b.loop

/-- The bits of the index-register field of a vector item, which vld and vst use. -/
def vectorJ : Instr → BitVec 4
  | .vld o | .vst o => o.vb.setWidth 4
  | _ => 0

/-- The items of a bundle that issues: the matrix item enters its queue, the vector item takes its registers, the loop item
acts, and the vector item begins. What has no vector item makes its pushes when its matrix item has finished. -/
def State.issueBundle (s : State) (n : Nat) (b : Bundle) : Out :=
  let idx := (s.strm n .m).pc
  let cmd := b.matrix.map fun _ => s.nextId
  let ends := decide (b.loop = .halt)
  let begin_ (s : State) : State :=
    match b.vector with
    | some v =>
      let h := s.newHeld n .m v ((s.strm n .m).jr (vectorJ v)) b.tok
      s.setStrm n .m { s.strm n .m with held := some { h with two := b.count, cmd := cmd, all := ends } }
    | none => s.notePush n .m idx b.tok b.count cmd ends
  let matrix : Out := match b.matrix with
    | some m => exec m s
    | none => .next s
  match matrix with
  | .next s1 =>
    match exec b.loop (begin_ s1) with
    | .next s2 => match b.vector with
      | some v => exec v s2
      | none => .next s2
    | o => o
  | o => o

/-- The next bundle of a tile issues when its matrix item finds room and its pops can be taken, as a whole or not at all. -/
def State.stepBundle (s : State) (n : Nat) : Out :=
  let x := s.strm n .m
  let f := s.fetchBundle n x.pc
  match f.2 with
  | .error t => .next (f.1.tileTrap n .m t)
  | .ok b =>
    let pops := popsOf .m b.tok b.count
    if b.matrix.isSome && decide (4 ≤ x.queue.length) then .next (s.streamWait n .m (.code n 0x40))
    else match (s.tileAt n).popMissing s.ck pops with
      | some q => .next (s.streamWait n .m (.code n (0x20 + q.val)))
      | none =>
        if s.bundleBad n b then .next (s.tileTrap n .m (s.illegalBundle n x.pc))
        else
          let t := (s.tileAt n).takePops pops
          (s.setTile n (t.put .m { x with status := .run, wait := none, issuedAt := s.ck + 1 })).issueBundle n b

/-- Whether a stream may issue in this ck. -/
def State.mayIssueDt (s : State) (n : Nat) (st : Stream) : Bool :=
  let t := s.tileAt n
  let x := t.get st
  !t.stopped && !s.paused t.launch && x.held.isNone && (x.status == .run || x.status == .wait) && decide (x.issuedAt ≤ s.ck)

/-- Whether a stream may go on with what holds it. A bundle that has issued goes on while its launch is being saved, and an item whose
writes are on their way in a stopped tile (R240). -/
def State.mayHold (s : State) (n : Nat) (st : Stream) : Bool :=
  let t := s.tileAt n
  (!t.stopped && (st == .m || !s.paused t.launch)) || ((t.get st).held.map DtHeld.sent) == some true

/-- A stream of tile n: it goes on with what holds it, or its next word or bundle issues. -/
def State.stepDt (s : State) (n : Nat) (st : Stream) : Out :=
  let s1 := { s with tile := n }
  let x := s.strm n st
  match x.held with
  | some h => if s.mayHold n st then exec h.instr s1 else .next s
  | none =>
    if !s.mayIssueDt n st then .next s
    else match st with
      | .m => s1.stepBundle n
      | _ =>
        let f := s1.fetchStream n st x.pc
        match f.2 with
        | .error t => .next (f.1.tileTrap n st t)
        | .ok i => exec i f.1

/-- A unit of a command of a queue of tile n; where two items of the matrix queue are in progress, either may go on. At the end of
a ck a command makes only the last try of a wait whose limit passes (R313). -/
def State.stepCmd (s : State) (n : Nat) (q : Stream) : Out :=
  let cs := ((s.strm n q).active q).filter fun (c : DtCmd) => !s.closing || s.retries c.wait
  match cs[Config.choice s.seq % cs.length]? with
  | some c => exec c.instr { s with tile := n }
  | none => .next s

/-! ## The passing of a ck

In each ck everything that is to happen in it happens first; then the ck is closing, and the limits that pass in it pass, so that
a wait that is satisfied in the ck of its limit completes (R313). -/

/-- Whether a wait with a limit has reached it in this ck. -/
def State.reached (s : State) (deadline : Option Nat) : Bool := (deadline.map fun t => decide (t ≤ s.ck)) == some true

/-- A context that has still to use its slot of this ck, one whose condition has come to hold, and a handler that the selector has
still to start (R63, R64, R187). -/
def State.lcDue (s : State) (u : Nat) : Bool :=
  s.mayIssue u || ((List.finRange 16).any fun k => s.mustWake u k) || (s.handlerPick u).isSome ||
    ((s.coreAt u).lines.any fun l => decide (l.bornAt + 256 ≤ s.ck))

/-- A stream of tile n that has still to issue or to try to in this ck (R204). -/
def State.streamDue (s : State) (n : Nat) (st : Stream) : Bool :=
  s.mayIssueDt n st && (((s.strm n st).wait.map fun w => w.seen / 2) != some s.ck)

/-- A round of the audit that is to begin for an endpoint of tile n (R423). -/
def State.auditDue (s : State) (n : Nat) : Bool :=
  (List.finRange 8).any fun i =>
    let e := (s.tileAt n).eps.get i
    e.auditable && match s.auditPort e with
      | some k => s.field (auditReg k) 32 32 != 0 && decide (e.audited + s.field (auditReg k) 32 32 ≤ s.rtick)
      | none => false

/-- What must happen before a ck is closing. -/
def State.due (s : State) : Bool :=
  (s.cores.any fun c => s.lcDue c.1) ||
  (s.tiles.any fun t => s.streamDue t.1 .s || s.streamDue t.1 .c || s.streamDue t.1 .m || s.auditDue t.1) ||
  s.expiryDue || s.discoveryDue

/-- A context, or a row wait, of core u whose limit passes now (R71, R152, R313, R461). -/
def State.lcExpires (s : State) (u : Nat) : Bool :=
  ((List.finRange 16).any fun k =>
    let c := s.ctxAt u k
    c.state == .parked && s.reached c.deadline && (s.stallOf u k).isSome && match c.park with
      | .reply id => s.packetLost id
      | _ => true) ||
  ((s.coreAt u).gcmds.any fun g => g.waitFrom.isSome && s.reached (limitOf (g.waitFrom.getD 0) g.limit) && !g.err)

/-- A wait of a stream of tile n, of one of its commands or of its next push whose limit passes now (R212). -/
def State.streamExpires (s : State) (n : Nat) (st : Stream) : Bool :=
  let t := s.tileAt n
  let x := t.get st
  !t.stopped &&
    ((!s.paused t.launch && ((x.wait.map fun w => w.due s.ck) == some true ||
        ((x.active st).any fun (c : DtCmd) => (c.wait.map fun w => w.due s.ck) == some true) || (s.lostWait n st).isSome)) ||
      match x.pushes with
      | p :: _ => s.reached p.deadline && (t.pushBlocked (pushesOf st p.tok p.two)).isSome
      | [] => false)

/-- A round of the audit that ends for want of a reply (R422). -/
def State.auditExpires (s : State) (n : Nat) : Bool :=
  (List.finRange 8).any fun i => (((s.tileAt n).eps.get i).audit.map fun r => decide (r.sentAt + 2 ^ 20 ≤ s.ck)) == some true

/-- A step of Coach whose wait has reached its limit (R212, R267). -/
def State.coachExpires (s : State) : Bool :=
  s.coach.any fun x => (x.committed && (x.cmd.wait.map fun w => w.due s.ck) == some true) || (s.reached x.deadline && x.waitsPeer)

/-- A limit passes in this ck, and has not been heeded. -/
def State.expiring (s : State) : Bool :=
  (s.cores.any fun c => s.lcExpires c.1) ||
  ((s.requests ++ s.waiters ++ s.watchers).any fun r => s.reached r.deadline) ||
  (s.tiles.any fun t => s.streamExpires t.1 .s || s.streamExpires t.1 .c || s.streamExpires t.1 .m || s.auditExpires t.1) ||
  s.coachExpires || s.discoveryExpires

/-- The flags of a core at the end of a ck, for the reads of CFLAGS to come (R47). -/
def Core.noteFlags (c : Core) (ck : Nat) : Core :=
  let now := c.flagWord
  let log := if now = (c.flagLog.head?.map (·.2)).getD c.flagBase then c.flagLog else (ck, now) :: c.flagLog
  let recent := log.takeWhile fun p => decide (ck < p.1 + 32)
  { c with flagLog := recent, flagBase := ((log.drop recent.length).head?.map (·.2)).getD c.flagBase }

/-- The next ck begins. -/
def State.nextCk (s : State) : State :=
  let s1 := s.settleAudits.settleReady.settlePres.markExpired
  { s1 with ck := s.ck + 1, closing := false, setNow := [], acted := [], cores := s1.cores.map fun c => (c.1, c.2.noteFlags s.ck) }

/-- A ck is closing once everything that falls due in it has happened, and passes once its limits have passed (R4, R62, R313). -/
def State.tick (s : State) : State :=
  if s.closing then if s.expiring then s else s.nextCk
  else if s.due then s else { s with closing := true }

/-! ## A soft error (R415, R416) -/

/-- Whether an address lies in a store that has check values (R414). -/
def checked (a : Nat) : Bool :=
  match storageOf a with
  | .regs => false
  | .none => decide (0x1000000000 ≤ offOf a) && (unitOf a == 2047 || (decide (1024 ≤ unitOf a) && decide (unitOf a < 1056)))
  | _ => true

/-- One bit of a byte turns, and its beat fails its check from then on. -/
def State.upset (s : State) (a : Nat) (bit : Fin 8) : State :=
  if !checked a then s
  else
    let b := a / 64 * 64
    let s1 := s.writeByte a (s.readByte a ^^^ BitVec.twoPow 8 bit.val)
    let flip := crc32c (s.readBytes b 64) ^^^ crc32c (s1.readBytes b 64)
    let put (d : BitVec 32) : State := { s1 with
      failing := if d = 0 then setRemove b s.failing else setInsert b s.failing
      syndromes := (b, d) :: s.syndromes.filter (·.1 != b) }
    if !s.failing.contains b then put flip
    else match s.syndromes.find? (·.1 == b) with
      | some x => if eccBeat b then s1 else put (x.2 ^^^ flip)
      | none => s1

/-! ## Moves -/

/-- Whether a row of the table is a step of the hardware, or an input from outside the device. -/
def isEvent (i : Instr) : Bool :=
  match encode i with
  | .hardware => true
  | _ => false

/-- The events of a frozen device: its debug port, and reset (R446, R447). -/
def whileFrozen : Instr → Bool
  | .idcode | .freeze _ | .scansel _ | .scanrd | .memaddr _ | .memrd | .reset => true
  | _ => false

/-- The steps in which a limit passes (R313). -/
def isLimit : Instr → Bool
  | .presenceWaitStall _ _ | .syncRequestDrop _ | .tileStall _ _ | .sredRowWaitLimit _ _ | .auditNoReply _ | .discoveryTimeout => true
  | _ => false

/-- Whether a move may be made now: while the ck is closing, its limits pass, and the waits that reach them are tried once more
before that; until then, everything else happens (R313). -/
def State.inPhase (s : State) : Turn → Bool
  | .tick => true
  | .event e => isLimit e == s.closing
  | .dt n st => !s.closing || s.retries (s.strm n st).wait
  | .cmd n q => !s.closing || ((s.strm n q).active q).any fun (c : DtCmd) => s.retries c.wait
  | .coach j => !s.closing || s.coach.any fun x => x.cmd.id == j && s.retries x.cmd.wait
  | _ => !s.closing

/-- A move of the device. -/
def State.move (s : State) : Turn → Out
  | .tick => .next s.tick
  | .lc u => s.stepLc u
  | .fetch u k => .next (s.fetchAhead u (ctxIdx k))
  | .dt n st => s.stepDt n st
  | .cmd n q => s.stepCmd n q
  | .gather u j => .next (s.gatherStep u j)
  | .coach j => .next (s.coachStep j)
  | .preempt p => .next (s.preemptStep p)
  | .route => .next s.routeStep
  | .ack port seq => .next (s.portAck port seq)
  | .host n => .next (s.hostStep n)
  | .discovery => .next s.discoveryStep
  | .rom => .next s.romCheck
  | .mask v => .next (s.msixMaskOn v)
  | .bar2Write off v => .next (s.bar2Write off v)
  | .bar2Read off => .next (s.bar2Read off)
  | .bar0Read off half => .next (s.bar0Read off half)
  | .bypass => .next s.bypass
  | .sample bits => .next (s.samplePreload bits)
  | .extest bits => .next (s.extest bits)
  | .multicast u => .next (s.multicastStep u)
  | .sweep a => .next (s.sweepStep a)
  | .upset a bit => .next (s.upset a bit)
  | .event e => if isEvent e then exec e s else .next s

/-- The move whose turn it is, if it may be made now; a frozen device makes none but those of its debug port. -/
def State.run (s : State) : Out :=
  if s.frozen then
    match s.turn with
    | .event e => if whileFrozen e then exec e s else .next s
    | .bypass | .sample _ | .extest _ => s.move s.turn
    | _ => .next s
  else if s.inPhase s.turn then s.move s.turn
  else .next s

/-- Who moves next is open. -/
def State.turnOver (s : State) : State := { s with turn := Config.schedule s.seq, seq := s.seq + 1 }

/-! ## Placing an instruction -/

/-- A lookup-core word of four bytes for the service core, which runs it in the slot of this ck. -/
def State.placeLc (s : State) (w : Nat) : State :=
  let u := serviceCore
  let k := s.slotOf u
  let a := lsAddr u 0x30000
  let s1 := s.writeBytes a (natToBytes 4 w)
  let c := { s1.ctxAt u k with state := .run, pc := 0x30000, prv := true, park := .none, readyAt := s.ck, window := [] }
  let s2 := s1.setCtx u k c
  { s2.setCore u { s2.coreAt u with issuedAt := s.ck } with
    failing := setRemove a s.failing, core := u, ctx := k, turn := .lc u, frozen := false, closing := false }

/-- A word or a bundle for tile 0, at index 0 of a stream that runs. -/
def State.placeDt (s : State) (st : Stream) (n w : Nat) : State :=
  let a := imemAddr 0 st 0
  let s1 := s.writeBytes a (natToBytes n w)
  let x := { s1.strm 0 st with pc := 0, status := .run, wait := none, held := none, issuedAt := s.ck }
  { s1.setTile 0 { (s1.tileAt 0).put st x with stopped := false } with
    failing := setRemove a s.failing, tile := 0, turn := .dt 0 st, frozen := false, closing := false }

/-- A word of the opcode table stands where the next move fetches its instruction: a lookup-core word in the service core, a
64-bit word in the S stream, or else in the C stream, of tile 0, and a bundle in its M stream. -/
def State.place (s : State) (nbits w : Nat) : State :=
  let v := w % 2 ^ nbits
  if nbits ≤ 32 then s.placeLc v
  else if nbits ≤ 64 then
    match decodeS (BitVec.ofNat 64 v) with
    | .ok _ => s.placeDt .s 8 v
    | .reject _ => s.placeDt .c 8 v
  else s.placeDt .m 16 v

end Sys2Proof.Machine
end

