-- ==== Sys2Proof/Safety.lean ====
section
/-! DEFINITION. What claims about the machine speak of: a safe state, an instruction that is ready to complete, the state
after it, and what a step leaves as it was. -/

namespace Sys2Proof.Machine

/-! ## Safe runs -/

/-- The invariant of the machine: memory keeps its canonical form, so that equal memories are equal data. -/
def State.Sound (s : State) : Prop := Memory.wf s.mem = true

/-- A safe step goes on: it ends in no fault and in no refusal. -/
def Safe (s : State) : Prop := ∃ t, step s = .next t

/-! ## Completion of a lookup-core instruction -/

/-- The issuing context can complete instruction i, which names these registers: each exists in its mode (R69), none holds a
failed result (R71), all are present (R70), and the word does not straddle the end of a loop (R123). -/
def State.canIssue (s : State) (i : Instr) (uses : List RegUse) : Bool :=
  !(uses.any fun r => !r.exists s.myCore.m8) && (firstFailed s.me uses).isNone && (uses.all fun r => s.me.present r.num) &&
    !s.me.straddles (wordLen (instrWord i))

/-- The state after instruction i of the issuing context, where the instruction's own effect on the context is c and it
leaves by f: nothing but the issuing context differs. -/
def State.after (s : State) (i : Instr) (c : Context) (f : Flow := .next) : State :=
  s.setMe (c.advance (wordLen (instrWord i)) f)

/-- Instruction i, which names x registers d and srcs, completes with the value v in xd. -/
def Writes (s : State) (i : Instr) (d : Reg) (srcs : List Reg) (v : Word) : Prop :=
  s.canIssue i ((d :: srcs).map .x) = true → exec i s = .next (s.after i (s.me.setX d v))

/-- Instruction i, which names these registers, completes with context c and leaves by f. -/
def Leaves (s : State) (i : Instr) (uses : List RegUse) (c : Context) (f : Flow) : Prop :=
  s.canIssue i uses = true → exec i s = .next (s.after i c f)

/-- Instruction i, which names these registers, takes a trap. -/
def Traps (s : State) (i : Instr) (uses : List RegUse) (code : BitVec 8) (value : Word) : Prop :=
  s.canIssue i uses = true → exec i s = .next (s.trap code value)

/-! ## Accesses: an instruction, the act of its home, and the answer -/

/-- The moves of several instructions and hardware steps, one after another. -/
def Moves : List Instr → State → State → Prop
  | [], s, t => s = t
  | i :: is, s, t => ∃ u, exec i s = .next u ∧ Moves is u t

/-- The moves of several instructions, one after another, each in a ck. -/
def MovesAt : List (Nat × Instr) → State → State → Prop
  | [], s, t => s = t
  | (ck, i) :: is, s, t => ∃ u, exec i { s with ck := ck } = .next u ∧ MovesAt is u t

/-- The issuing context runs, and nothing is in flight: no request, no answer, no waiting access, and no relaxed access, combining
line, gather command, beat or message of its core. -/
def State.Quiet (s : State) : Prop :=
  s.me.state = .run ∧ s.me.pending = [] ∧ s.requests = [] ∧ s.replies = [] ∧ s.waiters = [] ∧ s.watchers = [] ∧ s.claims = [] ∧
    s.myCore.relaxed = [] ∧ s.myCore.waiting = [] ∧ s.myCore.lines = [] ∧ s.myCore.entryQueue = [] ∧ s.myCore.gcmds = [] ∧
    (∀ b ∈ s.beats, b.src.unit ≠ s.core) ∧ ∀ m ∈ s.messages, m.src.unit ≠ s.core

/-- The address that an effective address reaches for an access of z bytes that passes every check of R125. -/
def State.reaches (s : State) (ea : Word) (z : Nat) (kind : Kind) (need : Need) : Option Nat :=
  if ea.toNat % z ≠ 0 then none
  else match s.translate s.core s.ctx ea need with
    | .ok dev a ga => if (s.checkHome dev a ga z kind).isNone then some a else none
    | _ => none

/-- The address on this device that a capability access of z bytes reaches when it passes every check of R196. -/
def State.capReaches (s : State) (c : BitVec 4) (index : Word) (off : BitVec 5) (z : Nat) (kind : Kind) (needR needW : Bool) :
    Option Nat :=
  let q := s.me.cap c
  let o : Int := index.toNat + off.toInt * z
  let offset : Nat := (((capBase q : Int) + o) % (2 ^ 37 : Int)).toNat
  let a := addrOf (capUnit q) offset
  if s.me.ctag.getLsbD c.toNat ∧ offset % z = 0 ∧ (needR → bitOf (capPerm q) 6) ∧ (needW → bitOf (capPerm q) 5) ∧ 0 ≤ o ∧
      o + z ≤ (capLen q : Int) ∧ (capDev q = 0xFFFF ∨ capDev q = s.dev) ∧
      s.checkHome none a (BitVec.ofNat 64 (capDev q * 2 ^ 48 + a)) z kind = none then some a
  else none

/-- The home of n bytes at an address performs a request in this ck: they lie in the memory of a core, or in SHM, that has been
initialised (R430), no beat of theirs fails (R417), and another core has a slot for it in this ck: that of its message context, which
neither traps nor is stopped nor waits on a sync access (R65, R187), or any where that context is FREE (assumption 27). -/
def State.serves (s : State) (a n : Nat) : Prop :=
  s.ready a = true ∧ s.failedBeat a n = none ∧
    match storageOf a with
    | .localStore u | .channel u | .shard u => u = s.core ∨ s.homeSlot u = true
    | .shm => True
    | _ => False

/-- The home of an address has room for any number of acts in one ck: it is SHM, or of the issuing core, or of one whose message
context is FREE (assumption 27). -/
def State.servesMany (s : State) (a : Nat) : Prop :=
  match storageOf a with
  | .localStore u | .channel u | .shard u => u = s.core ∨ (s.ctxAt u (s.coreAt u).messageCtx).state = .free
  | _ => True

/-- Core u is as before but for its contexts, and for the slots of this ck, of which its message context may have given one. -/
def CoreKept (s t : State) (u : Nat) : Prop :=
  { t.coreAt u with ctxs := (s.coreAt u).ctxs, issuedAt := (s.coreAt u).issuedAt } = s.coreAt u ∧
    ((t.coreAt u).issuedAt = (s.coreAt u).issuedAt ∨ (t.coreAt u).issuedAt = s.ck + 1)

/-- t is s after an access of the issuing context by instruction i, where the effect on the context is c: the context has gone on
to the next word, and every other context, and all that is no memory, is as it was. -/
def AfterAccess (s t : State) (i : Instr) (c : Context) : Prop :=
  t.me = ({ c with state := .run, park := .none, parkRec := 0, deadline := none, parkedAt := s.ck, ir := instrWord i,
                   readyAt := s.ck + 1 } : Context).advance (wordLen (instrWord i)) .next ∧
    (∀ u k, u ≠ s.core ∨ k ≠ s.ctx → t.ctxAt u k = s.ctxAt u k) ∧
    (∀ u, CoreKept s t u) ∧
    { t with cores := s.cores, nextId := s.nextId, mem := s.mem, empty := s.empty, tags := s.tags, failing := s.failing } = s

/-- Memory differs by a store of bytes at an address and nothing else: every byte outside it reads as before. -/
def Stored (s t : State) (a : Nat) (bytes : List Byte) : Prop :=
  ∀ j, t.readByte j = if a ≤ j ∧ j < a + bytes.length then bytes.getD (j - a) 0 else s.readByte j

/-! ## Tiles -/

/-- The tokens that a word of stream st of the tile that moves pops are there (R210). -/
def State.popsReady (s : State) (st : Stream) (tok : BitVec 4) : Prop :=
  (s.tileAt s.tile).popMissing s.ck (popsOf st tok 0) = none

/-- No loop of a stream of the tile that moves ends with its next word (R271). -/
def State.noLoopEnds (s : State) (st : Stream) : Prop :=
  ∀ r, (s.strm s.tile st).loops.head? = some r → r.last ≠ (s.strm s.tile st).pc + 1

/-- The word of a stream of the tile that moves has issued: its pops are taken, its pushes wait behind those before it, for
a command or for all that is earlier, and where no loop ends the stream stands at the next index. No other tile, no core and no
request differs. -/
def WordPasses (s t : State) (st : Stream) (tok : BitVec 4) (cmd : Option Nat) (all : Bool) : Prop :=
  let n := s.tile
  let x := s.strm n st
  (t.tileAt n).tokens = ((s.tileAt n).takePops (popsOf st tok 0)).tokens ∧
    (t.strm n st).pushes = x.pushes ++ (if pushesOf st tok 0 = [] then [] else [⟨x.pc, tok, 0, cmd, all, none⟩]) ∧
    (s.noLoopEnds st → (t.strm n st).pc = x.pc + 1 ∧ (t.strm n st).loops = x.loops) ∧
    (∀ m, m ≠ n → t.tileAt m = s.tileAt m) ∧ t.cores = s.cores ∧ t.requests = s.requests

/-- A command of the tile that moves makes its next step, alone in its queue and past its start checks: the tile runs, its launch is
not being saved, nothing is in flight, no act has been made on a granule of a tile store in this ck, and no stream before it has one to
make (R216). -/
def State.running (s : State) (st : Stream) (c : DtCmd) : Prop :=
  s.tile < 32 ∧ s.turn = .cmd s.tile st ∧ (s.strm s.tile st).queue = [c] ∧ c.started = true ∧ c.sent = false ∧ c.reqs = [] ∧
    (s.tileAt s.tile).stopped = false ∧ s.paused (s.tileAt s.tile).launch = false ∧ s.requests = [] ∧ s.replies = [] ∧
    s.waiters = [] ∧ s.watchers = [] ∧ s.claims = [] ∧ s.beats = [] ∧ s.messages = [] ∧ (∀ f ∈ s.flits, f.isSlot = false) ∧
    s.acted = [] ∧ ∀ a, s.outranked s.tile st a = false

/-- The acts of n requests that leave with numbers from id on, and the moves in which instruction i takes their answers and ends. -/
def settles (i : Instr) (id n : Nat) : List Instr := (List.range n).map (fun k => .homeAct (id + k)) ++ List.replicate (n + 1) i

/-- None of these conversions of the tile that moves is one that its launch counts (R49). -/
def State.countsNone (s : State) (rs : List Converted) : Prop := s.tileLaunch s.tile = none ∨ ∀ r ∈ rs, r.count = none

/-- The command of stream st has finished, and no other tile and no core differs. -/
def CommandEnds (s t : State) (st : Stream) : Prop :=
  (t.strm s.tile st).queue = [] ∧ (t.tileAt s.tile).stopped = false ∧ (∀ m, m ≠ s.tile → t.tileAt m = s.tileAt m) ∧ t.cores = s.cores

/-- Vector item i of the tile that moves, which names these groups, can be performed: the stream holds no other item, its governing
width is its predicate's (R244), no unfinished matrix item before it is still to write a register, or a row, that it names (R204,
R224), and no beat of its registers fails (R417). -/
def State.itemReady (s : State) (i : Instr) (o : VecOp) (groups : List (BitVec 10)) : Prop :=
  let n := s.tile
  let regs := groups.flatMap fun r => groupRegs ((s.tileAt n).rrbAt s.ck) r o.g
  (s.strm n .m).held = none ∧ (s.tileAt n).governBad i o = false ∧
    s.drainHolds n s.nextId regs (itemPieces n i o ((s.strm n .m).jr (o.vb.setWidth 4))) = false ∧ s.regsFail n regs = none

/-- What vld and vst need besides (R216, R253): nothing is in flight, and no act has been made, or is to be made by another stream, on a
granule of a tile store in this ck. -/
def State.storeFree (s : State) : Prop :=
  s.tile < 32 ∧ s.requests = [] ∧ s.replies = [] ∧ s.waiters = [] ∧ s.watchers = [] ∧ s.claims = [] ∧ s.acted = [] ∧
    ∀ a, s.outranked s.tile .m a = false

/-- The vector item of the tile that moves has finished: it holds the stream no longer, the tile goes on as it did, and no other tile
and no core differs. -/
def ItemEnds (s t : State) : Prop :=
  (t.strm s.tile .m).held = none ∧ (t.tileAt s.tile).stopped = (s.tileAt s.tile).stopped ∧
    (∀ m, m ≠ s.tile → t.tileAt m = s.tileAt m) ∧ t.cores = s.cores

/-- The elements of a unit, from number lo on, that a command has read. -/
def DtCmd.read (c : DtCmd) (lo n : Nat) : List Nat := (List.range n).map fun i => lookup 0 c.buf (lo + i)

/-- A command has read n elements from number lo on. -/
def DtCmd.hasRead (c : DtCmd) (lo n : Nat) : Prop := ∀ i < n, (c.buf.any fun p => p.1 == lo + i) = true

/-! ## Moved contexts (R393, R395) -/

/-- Context k of core u has moved whole into context j of core v, where it runs: its registers with their presence bits and tags, its
status and trap registers, its loop records, its origin and its stream slots are what they were, and both workspaces have been written.
Its old place is FREE and forwards to the new one. The fields that are the model's own begin anew. -/
def MovedTo (s t : State) (u : Nat) (k : Fin 16) (v : Nat) (j : Fin 16) : Prop :=
  let src := s.ctxAt u k
  let moved : Context :=
    { src with state := .run, wsp := (s.ctxAt v j).wsp, moved := true, readyAt := s.ck + 1, window := [], since := none,
               park := .none, parkRec := 0, deadline := none, fwd := none }
  let there := moved.workspaceBytes (s.coreAt u).m8
  let here := src.workspaceBytes (s.coreAt u).m8
  let at_ := lsAddr v moved.wsp.toNat
  let from_ := lsAddr u src.wsp.toNat
  let mine (i : Fin 8) : Bool := ((s.coreAt u).slots.get i).isOpen && ((s.coreAt u).slots.get i).owner == k.val
  t.ctxAt v j = moved ∧ (t.ctxAt u k).state = .free ∧ (t.ctxAt u k).wsp = src.wsp ∧
    (t.ctxAt u k).fwd.map Forward.target = some (BitVec.ofNat 64 (0xFFFF * 2 ^ 48 + v * 2 ^ 37 + j.val)) ∧
    (∀ i : Fin 8, (t.coreAt v).slots.get i =
      if mine i then { (s.coreAt u).slots.get i with owner := j.val } else (s.coreAt v).slots.get i) ∧
    (∀ i : Fin 8, (t.coreAt u).slots.get i = if mine i then StreamSlot.none else (s.coreAt u).slots.get i) ∧
    ∀ a, t.readByte a = if at_ ≤ a ∧ a < at_ + there.length then there.getD (a - at_) 0
      else if from_ ≤ a ∧ a < from_ + here.length then here.getD (a - from_) 0 else s.readByte a

/-! ## Frames -/

/-- Every byte of memory, every full/empty bit and every tag reads as before. -/
def SameMemory (s t : State) : Prop :=
  (∀ a, t.readByte a = s.readByte a) ∧ (∀ a, t.isFull a = s.isFull a) ∧ ∀ a, t.tagAt a = s.tagAt a

/-- Every other context is as before, and so is all that the cores share. -/
def SameOthers (s t : State) : Prop :=
  (∀ u k, u ≠ s.core ∨ k ≠ s.ctx → t.ctxAt u k = s.ctxAt u k) ∧
    ∀ u, { t.coreAt u with ctxs := (s.coreAt u).ctxs } = s.coreAt u

/-- Nothing outside the cores differs: no tile, no register of the register block, no launch, nothing in flight. -/
def SameDevice (s t : State) : Prop := { t with cores := s.cores } = s

/-- The status and the control registers of a context, and the registers that a trap saves into, are as before. -/
def SameControl (c e : Context) : Prop :=
  e.state = c.state ∧ e.fcsr = c.fcsr ∧ e.lwd = c.lwd ∧ e.tact = c.tact ∧ e.ppv = c.ppv ∧ e.prv = c.prv ∧ e.wsp = c.wsp ∧
    e.tvec = c.tvec ∧ e.code = c.code ∧ e.aux = c.aux ∧ e.tval = c.tval ∧ e.tepc = c.tepc ∧ e.stop = c.stop

/-- The registers of a context are as before but for these x registers and these w registers. -/
def SameRegs (c e : Context) (xs ws : List Reg) : Prop :=
  (∀ r, r ∉ xs → e.xr r = c.xr r ∧ e.present r.toNat = c.present r.toNat) ∧
    (∀ r, r ∉ ws → e.wr r = c.wr r ∧ e.present (32 + r.toNat) = c.present (32 + r.toNat)) ∧ e.c = c.c ∧ e.ctag = c.ctag

/-- All of these: the frame of an instruction that writes registers alone. -/
def RegisterFrame (s t : State) (xs ws : List Reg) : Prop :=
  SameMemory s t ∧ SameOthers s t ∧ SameDevice s t ∧ SameControl s.me t.me ∧ SameRegs s.me t.me xs ws

end Sys2Proof.Machine
end

