-- ==== Sys2Proof/Certificates/Slice0/Obligations.lean ====
section
/-! DEFINITION. The statements for the provers. -/

open Sys2Proof Sys2Proof.Machine

/-! ## Lookup core: integer, immediate and compact words (R94, R112 to R115) -/

/-- R112: every integer register operation completes and writes its result to xd; the context goes on to the next word
and nothing else differs. -/
def Obligations.IntegerResults : Prop :=
  ∀ (s : State) (d a b e : Reg),
    let A := s.rx a
    let B := s.rx b
    let E := s.rx e
    let sh := B.toNat % 64
    let w := min (E.toNat % 128) (64 - sh)
    Writes s (.add d a b) d [a, b] (A + B) ∧
    Writes s (.sub d a b) d [a, b] (A - B) ∧
    Writes s (.and d a b) d [a, b] (A &&& B) ∧
    Writes s (.or d a b) d [a, b] (A ||| B) ∧
    Writes s (.xor d a b) d [a, b] (A ^^^ B) ∧
    Writes s (.sll d a b) d [a, b] (A <<< sh) ∧
    Writes s (.srl d a b) d [a, b] (A >>> sh) ∧
    Writes s (.sra d a b) d [a, b] (A.sshiftRight sh) ∧
    Writes s (.slt d a b) d [a, b] (if A.toInt < B.toInt then 1 else 0) ∧
    Writes s (.sltn d a b) d [a, b] (if A.toNat < B.toNat then 1 else 0) ∧
    Writes s (.mul d a b) d [a, b] (A * B) ∧
    Writes s (.mulh d a b) d [a, b] (BitVec.ofInt 64 (A.toInt * B.toInt / 2 ^ 64)) ∧
    Writes s (.mulhn d a b) d [a, b] (BitVec.ofNat 64 (A.toNat * B.toNat / 2 ^ 64)) ∧
    Writes s (.div d a b) d [a, b] (if B = 0 then BitVec.allOnes 64 else BitVec.ofInt 64 (A.toInt.tdiv B.toInt)) ∧
    Writes s (.divn d a b) d [a, b] (if B = 0 then BitVec.allOnes 64 else BitVec.ofNat 64 (A.toNat / B.toNat)) ∧
    Writes s (.rem d a b) d [a, b] (if B = 0 then A else BitVec.ofInt 64 (A.toInt.tmod B.toInt)) ∧
    Writes s (.remn d a b) d [a, b] (if B = 0 then A else BitVec.ofNat 64 (A.toNat % B.toNat)) ∧
    Writes s (.min d a b) d [a, b] (if A.toInt < B.toInt then A else B) ∧
    Writes s (.max d a b) d [a, b] (if A.toInt < B.toInt then B else A) ∧
    Writes s (.minn d a b) d [a, b] (if A.toNat < B.toNat then A else B) ∧
    Writes s (.maxn d a b) d [a, b] (if A.toNat < B.toNat then B else A) ∧
    Writes s (.clz d a) d [a] (BitVec.ofNat 64 (if A = 0 then 64 else 63 - Nat.log2 A.toNat)) ∧
    Writes s (.ctz d a) d [a] (BitVec.ofNat 64 (trailingZeros 64 A.toNat)) ∧
    Writes s (.popc d a) d [a] (BitVec.ofNat 64 (countBits 64 A.toNat)) ∧
    Writes s (.sel d a b e) d [a, b, e] (if E = 0 then B else A) ∧
    Writes s (.ext d a b e) d [a, b, e] (BitVec.ofNat 64 (A.toNat / 2 ^ sh % 2 ^ w)) ∧
    Writes s (.ins d a b e) d [a, b, e] (resIns (s.rx d) A B E) ∧
    Writes s (.rev d a .bits) d [a] (BitVec.ofNat 64 (reverseGranules 1 64 A.toNat)) ∧
    Writes s (.rev d a .bytes) d [a] (BitVec.ofNat 64 (reverseGranules 8 8 A.toNat)) ∧
    Writes s (.rev d a .halves) d [a] (BitVec.ofNat 64 (reverseGranules 16 4 A.toNat)) ∧
    Writes s (.rev d a .words) d [a] (BitVec.ofNat 64 (reverseGranules 32 2 A.toNat))

/-! ## Lookup core: loads, stores and atomics (R125 to R128, R173 to R181) -/

/-- R125 to R127, R173, R196: a plain or acquire load whose checks pass completes over three moves: the core sends it, its home
reads the bytes as one act, and the answer is written, sign-extended by ld and zero-extended by ldn. Memory keeps every byte.
An acquire load is taken of a word that holds no barrier error (R300). An x-base load that is not naturally aligned raises
MISALIGNED with its effective address, and reads nothing; one whose address is known to lie in a register block raises that or RANGE
with the global address, which R125 and R453 leave open between them. Readings of the model in it: assumptions 27, 142. -/
def Obligations.LoadsComplete : Prop :=
  (∀ (s : State) (m : MemOp) (a : Nat),
    let z := Size.bytes m.size
    let v := s.readNat a z
    let signed := BitVec.ofInt 64 (BitVec.ofNat (8 * z) v).toInt
    let reach := s.reaches (effAddr (s.rx m.a) (s.rx m.b) m.off z) z (loadKind m.ord) ⟨true, false, false⟩
    let capReach := s.capReaches (m.a.setWidth 4) (s.rx m.b) m.off z (loadKind m.ord) true false
    let loads (i : Instr) (r : Word) : Prop := ∃ t, Moves [i, .homeAct s.nextId, .plainAccessComplete s.nextId] s t ∧
      AfterAccess s t i (s.me.setX m.d r) ∧ SameMemory s t
    s.Quiet → (m.ord = .plain ∨ m.ord = .acquire) → s.serves a z → s.loadError a z (m.ord == .acquire) = none →
    (reach = some a → s.canIssue (.ld m) [.x m.a, .x m.b, .x m.d] = true → loads (.ld m) signed) ∧
    (reach = some a → s.canIssue (.ldn m) [.x m.a, .x m.b, .x m.d] = true → loads (.ldn m) (BitVec.ofNat 64 v)) ∧
    (capReach = some a → s.canIssue (.ldCap m) [.x m.b, .x m.d] = true → loads (.ldCap m) signed) ∧
    (capReach = some a → s.canIssue (.ldnCap m) [.x m.b, .x m.d] = true → loads (.ldnCap m) (BitVec.ofNat 64 v))) ∧
  ∀ (s : State) (m : MemOp), (m.ord = .plain ∨ m.ord = .relaxed ∨ m.ord = .acquire) →
    let z := Size.bytes m.size
    let ea := effAddr (s.rx m.a) (s.rx m.b) m.off z
    let block (g : Word) : Prop := storageOf (g.toNat % 2 ^ 48) = .regs
    let refuses (code : BitVec 8) (value : Word) : Prop := Traps s (.ld m) [.x m.a, .x m.b, .x m.d] code value ∧
      Traps s (.ldn m) [.x m.a, .x m.b, .x m.d] code value
    ea.toNat % z ≠ 0 →
      ((∀ g, s.globalOf ea = some g → ¬block g) → refuses causeMisaligned ea) ∧
      (∀ g, s.globalOf ea = some g → block g → refuses causeMisaligned ea ∨ refuses causeRange g)

/-- R94: kld loads the 8 bytes at x[b] into x[d]; kst stores the 8 bytes of x[a] at x[b], and every other byte of memory reads
as before.
Readings of the model in it: assumption 27. -/
def Obligations.CompactAccessesComplete : Prop :=
  ∀ (s : State) (r b : Reg) (a : Nat), s.Quiet → s.serves a 8 →
    (s.canIssue (.kld r b) [.x b, .x r] = true → s.reaches (s.rx b) 8 (.load true) ⟨true, false, false⟩ = some a →
      ∃ t, Moves [.kld r b, .homeAct s.nextId, .plainAccessComplete s.nextId] s t ∧
        AfterAccess s t (.kld r b) (s.me.setX r (BitVec.ofNat 64 (s.readNat a 8))) ∧ SameMemory s t) ∧
    (s.canIssue (.kst r b) [.x r, .x b] = true → s.reaches (s.rx b) 8 (.store true) ⟨false, true, false⟩ = some a →
      ∃ t, Moves [.kst r b, .homeAct s.nextId, .plainAccessComplete s.nextId] s t ∧
        AfterAccess s t (.kst r b) s.me ∧ Stored s t a (natToBytes 8 (s.rx r).toNat) ∧ ∀ j, t.isFull j = s.isFull j)

/-- R125 to R127, R174, R196: a plain or release store whose checks pass stores the low bytes of x[d] at its address, as one act
of its home; every other byte of memory, every register and every full/empty bit is as before.
Readings of the model in it: assumption 27. -/
def Obligations.StoresComplete : Prop :=
  ∀ (s : State) (m : MemOp) (a : Nat),
    let z := Size.bytes m.size
    let stores (i : Instr) : Prop := ∃ t, Moves [i, .homeAct s.nextId, .plainAccessComplete s.nextId] s t ∧
      AfterAccess s t i s.me ∧ Stored s t a (natToBytes z (s.rx m.d).toNat) ∧ ∀ j, t.isFull j = s.isFull j
    s.Quiet → (m.ord = .plain ∨ m.ord = .release) → s.serves a z →
    (s.canIssue (.st m) [.x m.a, .x m.b, .x m.d] = true →
      s.reaches (effAddr (s.rx m.a) (s.rx m.b) m.off z) z (storeKind m.ord) ⟨false, true, false⟩ = some a → stores (.st m)) ∧
    (s.canIssue (.stCap m) [.x m.b, .x m.d] = true →
      s.capReaches (m.a.setWidth 4) (s.rx m.b) m.off z (storeKind m.ord) false true = some a → stores (.stCap m))

/-- R126: a plain 16-byte load or store moves w[d], as one act of a local store and as two acts of 8 bytes elsewhere, which another
core performs in two slots of its message context.
Readings of the model in it: assumptions 24, 27. -/
def Obligations.QuadAccessesComplete : Prop :=
  ∀ (s : State) (m : QuadOp) (a later : Nat),
    let act := Instr.homeAct s.nextId
    let complete := Instr.plainAccessComplete s.nextId
    let one : Prop := ∃ u, storageOf a = .localStore u
    let value := BitVec.ofNat 128 (s.readNat a 16)
    let put (t : State) : Prop := Stored s t a (natToBytes 16 (s.rw m.d).toNat) ∧ ∀ j, t.isFull j = s.isFull j
    let ends (i : Instr) (c : Context) (mem : State → Prop) : Prop :=
      (one → ∃ t, Moves [i, act, complete] s t ∧ AfterAccess s t i c ∧ mem t) ∧
      (¬one → s.servesMany a → ∃ t, Moves [i, act, act, complete] s t ∧ AfterAccess s t i c ∧ mem t) ∧
      (¬one → s.ck < later → ({ s with ck := later } : State).serves (a + 8) 8 →
        ∃ t, MovesAt [(s.ck, i), (s.ck, act), (later, act), (later, complete)] s t ∧ t.me.state = .run ∧ t.me.x = c.x ∧ t.me.w = c.w ∧
          t.me.pc = (s.me.advance (wordLen (instrWord i)) .next).pc ∧ mem t)
    let loads (i : Instr) : Prop := ends i (s.me.setW m.d value) (SameMemory s)
    let stores (i : Instr) : Prop := ends i s.me put
    s.Quiet → m.ord = .plain → s.serves a 16 → s.serves (a + 8) 8 →
    (s.canIssue (.ldq m) [.x m.a, .x m.b, .w m.d] = true →
      s.reaches (effAddr (s.rx m.a) (s.rx m.b) m.off 16) 16 (.load true) ⟨true, false, false⟩ = some a → loads (.ldq m)) ∧
    (s.canIssue (.stq m) [.x m.a, .x m.b, .w m.d] = true →
      s.reaches (effAddr (s.rx m.a) (s.rx m.b) m.off 16) 16 (.store true) ⟨false, true, false⟩ = some a → stores (.stq m)) ∧
    (s.canIssue (.ldqCap m) [.x m.b, .w m.d] = true →
      s.capReaches (m.a.setWidth 4) (s.rx m.b) m.off 16 (.load true) true false = some a → loads (.ldqCap m)) ∧
    (s.canIssue (.stqCap m) [.x m.b, .w m.d] = true →
      s.capReaches (m.a.setWidth 4) (s.rx m.b) m.off 16 (.store true) false true = some a → stores (.stqCap m))

/-- R175: the sync classes. A consume load of a full unit takes the value and leaves the unit empty; a peek load takes it and
leaves it full; a fill store into an empty unit writes its bytes and leaves it full. Every other bit stays.
Readings of the model in it: assumption 27. -/
def Obligations.SyncAccessesComplete : Prop :=
  ∀ (s : State) (m : MemOp) (a : Nat),
    let z := Size.bytes m.size
    let ea := s.rx m.a + s.rx m.b
    let v := BitVec.ofInt 64 (BitVec.ofNat (8 * z) (s.readNat a z)).toInt
    s.Quiet → s.serves a z → s.loadError a z true = none → (m.off ≠ 31 ∨ s.refusesUnbounded = false) →
    (m.ord = .consume → s.isFull a = true → s.canIssue (.ld m) [.x m.a, .x m.b, .x m.d] = true →
      s.reaches ea z (.sync false) ⟨true, true, false⟩ = some a →
      ∃ t, Moves [.ld m, .homeAct s.nextId, .plainAccessComplete s.nextId] s t ∧ AfterAccess s t (.ld m) (s.me.setX m.d v) ∧
        (∀ j, t.readByte j = s.readByte j) ∧ ∀ j, t.isFull j = (s.isFull j && bitUnit j != bitUnit a)) ∧
    (m.ord = .peek → s.isFull a = true → s.canIssue (.ld m) [.x m.a, .x m.b, .x m.d] = true →
      s.reaches ea z (.sync false) ⟨true, false, false⟩ = some a →
      ∃ t, Moves [.ld m, .homeAct s.nextId, .plainAccessComplete s.nextId] s t ∧ AfterAccess s t (.ld m) (s.me.setX m.d v) ∧
        SameMemory s t) ∧
    (m.ord = .fill → s.isFull a = false → s.canIssue (.st m) [.x m.a, .x m.b, .x m.d] = true →
      s.reaches ea z (.sync true) ⟨false, true, false⟩ = some a →
      ∃ t, Moves [.st m, .homeAct s.nextId, .plainAccessComplete s.nextId] s t ∧ AfterAccess s t (.st m) s.me ∧
        Stored s t a (natToBytes z (s.rx m.d).toNat) ∧ ∀ j, t.isFull j = (s.isFull j || bitUnit j == bitUnit a))

/-- R176: a consume load of an empty unit, and a fill store into a full one, wait at the home with no effect.
Readings of the model in it: assumption 27. -/
def Obligations.SyncAccessesWait : Prop :=
  ∀ (s : State) (m : MemOp) (a : Nat),
    let z := Size.bytes m.size
    let ea := s.rx m.a + s.rx m.b
    s.Quiet → s.serves a z → (m.off ≠ 31 ∨ s.refusesUnbounded = false) →
    (m.ord = .consume → s.isFull a = false → s.canIssue (.ld m) [.x m.a, .x m.b, .x m.d] = true →
      s.reaches ea z (.sync false) ⟨true, true, false⟩ = some a →
      ∃ t, Moves [.ld m, .homeAct s.nextId] s t ∧ t.me.state = .parked ∧ t.me.pc = s.me.pc ∧ t.waiters.length = 1 ∧ SameMemory s t) ∧
    (m.ord = .fill → s.isFull a = true → s.canIssue (.st m) [.x m.a, .x m.b, .x m.d] = true →
      s.reaches ea z (.sync true) ⟨false, true, false⟩ = some a →
      ∃ t, Moves [.st m, .homeAct s.nextId] s t ∧ t.me.state = .parked ∧ t.me.pc = s.me.pc ∧ t.waiters.length = 1 ∧ SameMemory s t)

/-- R128: a relaxed load goes out and the context goes on to the next word with x[d] absent; when the result returns, it is
written and x[d] is present again. A relaxed store that no line combines goes out and the context goes on; the store is
performed and acknowledged, and nothing of it is left in flight.
Readings of the model in it: assumption 27. -/
def Obligations.RelaxedAccessesComplete : Prop :=
  ∀ (s : State) (m : MemOp) (a : Nat),
    let z := Size.bytes m.size
    let ea := effAddr (s.rx m.a) (s.rx m.b) m.off z
    let v := BitVec.ofInt 64 (BitVec.ofNat (8 * z) (s.readNat a z)).toInt
    s.Quiet → m.ord = .relaxed → s.serves a z →
    (s.canIssue (.ld m) [.x m.a, .x m.b, .x m.d] = true → s.reaches ea z (.load false) ⟨true, false, false⟩ = some a →
      (∃ u, exec (.ld m) s = .next u ∧ u.me.state = .run ∧ u.me.pc = (s.me.advance (wordLen (instrWord (.ld m))) .next).pc ∧
        (m.d ≠ 0 → u.me.present m.d.toNat = false)) ∧
      ∃ t, Moves [.ld m, .homeAct s.nextId, .relaxedResultReturn s.nextId] s t ∧ SameMemory s t ∧ t.myCore.relaxed = [] ∧
        t.me = (s.me.setX m.d v).advance (wordLen (instrWord (.ld m))) .next) ∧
    (s.combinable none a = false → s.canIssue (.st m) [.x m.a, .x m.b, .x m.d] = true →
      s.reaches ea z (.store false) ⟨false, true, false⟩ = some a →
      ∃ t, Moves [.st m, .homeAct s.nextId, .relaxedStoreAck s.nextId] s t ∧ Stored s t a (natToBytes z (s.rx m.d).toNat) ∧
        t.myCore.relaxed = [] ∧ t.me = s.me.advance (wordLen (instrWord (.st m))) .next)

/-- R281, R282: a relaxed store to the channel or shard of another core that the buffer combines (a free choice,
assumption 2) is held in a line of the core; 256 ck after it, the line is sent as one request.
Readings of the model in it: assumption 27. -/
def Obligations.CombiningLineIsSent : Prop :=
  ∀ (s : State) (m : MemOp) (a : Nat),
    let z := Size.bytes m.size
    s.Quiet → m.ord = .relaxed → s.serves a z → s.combinable none a = true → Config.combines s.seq = true →
    s.canIssue (.st m) [.x m.a, .x m.b, .x m.d] = true →
    s.reaches (effAddr (s.rx m.a) (s.rx m.b) m.off z) z (.store false) ⟨false, true, false⟩ = some a →
    ∃ t, exec (.st m) s = .next t ∧ t.me = s.me.advance (wordLen (instrWord (.st m))) .next ∧ SameMemory s t ∧ t.requests = [] ∧
      (∃ l, t.myCore.lines = [l] ∧ l.id = s.nextId ∧ l.addr = a / 64 * 64 ∧ l.bornAt = s.ck ∧
        ∀ j < 64, l.mask.getLsbD j = decide (a % 64 ≤ j ∧ j < a % 64 + z)) ∧
      ∃ u r, exec (.combiningLineTimeout s.core s.nextId) { t with ck := s.ck + 256 } = .next u ∧ u.myCore.lines = [] ∧
        u.requests = [r] ∧ r.addr = a / 64 * 64

/-- R178, R179: a plain atomic reads the old value, writes the new one as one act of its home, and returns the old value,
sign-extended; amofadd adds fp32 values and raises their flags in FCSR.
Readings of the model in it: assumption 27. -/
def Obligations.AtomicsComplete : Prop :=
  ∀ (s : State) (m : AmoOp) (a : Nat),
    let z := amoBytes m.wide
    let old := s.readNat a z
    let new := (s.rx m.b).toNat % 2 ^ (8 * z)
    let sOld := (BitVec.ofNat (8 * z) old).toInt
    let sNew := (BitVec.ofNat (8 * z) new).toInt
    let x := BitVec.ofInt 64 sOld
    let sum := addFp .fp32 .rne (decodeFp .fp32 (old % 2 ^ 32)) (decodeFp .fp32 (new % 2 ^ 32))
    let completes (i : Instr) (stored : Nat) (f : Flags) : Prop := s.canIssue i [.x m.a, .x m.b, .x m.d] = true →
      ∃ t, Moves [i, .homeAct s.nextId, .plainAccessComplete s.nextId] s t ∧ AfterAccess s t i ((s.me.setX m.d x).raise f) ∧
        Stored s t a (natToBytes z stored) ∧ ∀ j, t.isFull j = s.isFull j
    s.Quiet → (m.ord = .plain ∨ m.ord = .acquire ∨ m.ord = .release) → s.serves a z →
    s.reaches (s.rx m.a) z .atomic ⟨true, true, false⟩ = some a →
    completes (.amoadd m) ((old + new) % 2 ^ (8 * z)) 0 ∧
    completes (.amomin m) (if sOld < sNew then old else new) 0 ∧
    completes (.amomax m) (if sOld < sNew then new else old) 0 ∧
    completes (.amoswap m) new 0 ∧
    completes (.amoand m) (old &&& new) 0 ∧
    completes (.amoor m) (old ||| new) 0 ∧
    completes (.amoxor m) (old ^^^ new) 0 ∧
    (m.wide = false → completes (.amofadd m) sum.1 sum.2) ∧
    completes (.amocas m) (if old = (s.rx m.d).toNat % 2 ^ (8 * z) then new else old) 0

/-- R178, R180, R299: arrive adds its count to a barrier word as one act and returns the word as it was; waitv on a word that
satisfies its condition returns the word's value.
Readings of the model in it: assumption 27. -/
def Obligations.BarrierAccessesComplete : Prop :=
  ∀ (s : State) (cond : WaitCond) (wide : Bool) (lw : BitVec 5) (d r b : Reg) (a : Nat), s.Quiet →
    (s.serves a 8 → (s.rx b).toNat < 2 ^ 33 → s.canIssue (.arrive d r b) [.x r, .x b, .x d] = true →
      s.reaches (s.rx r) 8 (.shmOnly true) ⟨true, true, false⟩ = some a →
      ∃ t, Moves [.arrive d r b, .homeAct s.nextId, .plainAccessComplete s.nextId] s t ∧
        AfterAccess s t (.arrive d r b) (s.me.setX d (BitVec.ofNat 64 (s.readNat a 8))) ∧
        let old := s.readNat a 8
        Stored s t a (natToBytes 8 ((if (s.rx b).getLsbD 32 ∨ 2 ^ 63 ≤ old then 2 ^ 63 else 0) + old / 2 ^ 32 % 2 ^ 31 * 2 ^ 32 +
          (old + (s.rx b).toNat % 2 ^ 32) % 2 ^ 32))) ∧
    (s.serves a (amoBytes wide) → (lw ≠ 31 ∨ s.refusesUnbounded = false) → barrierError (s.readNat (a / 8 * 8) 8) = false →
      waitHolds cond (amoBytes wide) (s.rx b) (BitVec.ofNat 64 (s.readNat a (amoBytes wide))) = true →
      s.canIssue (.waitv cond wide lw d r b) [.x r, .x b, .x d] = true →
      s.reaches (s.rx r) (amoBytes wide) (.shmOnly false) ⟨true, false, false⟩ = some a →
      ∃ t, Moves [.waitv cond wide lw d r b, .homeAct s.nextId, .plainAccessComplete s.nextId] s t ∧
        AfterAccess s t (.waitv cond wide lw d r b)
          (s.me.setX d (BitVec.ofInt 64 (BitVec.ofNat (8 * amoBytes wide) (s.readNat a (amoBytes wide))).toInt)) ∧ SameMemory s t)


/-! ## Lookup core: immediates, constants, compact words, branches, jumps and loops (R94, R114 to R124) -/

/-- R94, R114: every immediate operation and every compact operation completes with its result; I is the immediate,
sign-extended. -/
def Obligations.ImmediateResults : Prop :=
  ∀ (s : State) (d a b : Reg) (imm : BitVec 15) (sh n : BitVec 6),
    let A := s.rx a
    let D := s.rx d
    let I := BitVec.ofInt 64 imm.toInt
    let K := BitVec.ofInt 64 n.toInt
    Writes s (.addi d a imm) d [a] (A + I) ∧
    Writes s (.andi d a imm) d [a] (A &&& I) ∧
    Writes s (.ori d a imm) d [a] (A ||| I) ∧
    Writes s (.xori d a imm) d [a] (A ^^^ I) ∧
    Writes s (.slti d a imm) d [a] (if A.toInt < imm.toInt then 1 else 0) ∧
    Writes s (.sltni d a imm) d [a] (if A.toNat < I.toNat then 1 else 0) ∧
    Writes s (.slli d a sh) d [a] (A <<< sh.toNat) ∧
    Writes s (.srli d a sh) d [a] (A >>> sh.toNat) ∧
    Writes s (.srai d a sh) d [a] (A.sshiftRight sh.toNat) ∧
    Writes s (.kmv d b) d [b] (s.rx b) ∧
    Writes s (.kadd d b) d [b] (D + s.rx b) ∧
    Writes s (.ksub d b) d [b] (D - s.rx b) ∧
    Writes s (.kand d b) d [b] (D &&& s.rx b) ∧
    Writes s (.kor d b) d [b] (D ||| s.rx b) ∧
    Writes s (.kxor d b) d [b] (D ^^^ s.rx b) ∧
    Writes s (.kaddi d n) d [] (D + K) ∧
    Writes s (.kli d n) d [] K ∧
    Writes s (.kslli d n) d [] (D <<< n.toNat) ∧
    Writes s (.ksrli d n) d [] (D >>> n.toNat)

/-- R115: lhi sets bits [63:44] and clears the others; addpc adds to its own address, modulo 2^18. -/
def Obligations.ConstantsAndCodeAddresses : Prop :=
  ∀ (s : State) (d : Reg) (imm : BitVec 20),
    Writes s (.lhi d imm) d [] (BitVec.ofNat 64 (imm.toNat * 2 ^ 44)) ∧
    Writes s (.addpc d imm) d [] (BitVec.ofInt 64 (((s.me.pc.toNat : Int) + imm.toInt) % 2 ^ 18))

/-- R73, R114: an addi to an s register is seen by every read that issues one rotation later or more, and by no earlier one; an
addi from an s register reads the value of the ck in which it issues. -/
def Obligations.SharedRegisters : Prop :=
  ∀ (s : State) (n : BitVec 3) (d a : Reg) (imm : BitVec 15),
    let I := BitVec.ofInt 64 imm.toInt
    let old := s.myCore.sregs.get ⟨n.toNat, n.isLt⟩
    Writes s (.addiSSrc d n imm) d [] (old.read s.ck + I) ∧
    (old.pend.Pairwise (·.1 ≤ ·.1) → s.canIssue (.addiSDest n a imm) [.x a] = true →
      ∃ t, exec (.addiSDest n a imm) s = .next t ∧
        t.me = s.me.advance (wordLen (instrWord (.addiSDest n a imm))) .next ∧
        (∀ u k, u ≠ s.core ∨ k ≠ s.ctx → t.ctxAt u k = s.ctxAt u k) ∧
        (∀ u, { t.coreAt u with ctxs := (s.coreAt u).ctxs, sregs := (s.coreAt u).sregs } = s.coreAt u) ∧ SameDevice s t ∧
        (∀ ck, s.ck + s.myCore.nctx ≤ ck → (t.myCore.sregs.get ⟨n.toNat, n.isLt⟩).read ck = s.rx a + I) ∧
        (∀ ck, s.ck ≤ ck → ck < s.ck + s.myCore.nctx → (t.myCore.sregs.get ⟨n.toNat, n.isLt⟩).read ck = old.read ck) ∧
        ∀ m : Fin 8, m.val ≠ n.toNat → t.myCore.sregs.get m = s.myCore.sregs.get m)


/-- R116: a branch whose condition holds goes to P + 2 × sext(imm15); one whose condition does not hold goes on at P + 4. It
writes no register. The compact branches test against x0 (R94). -/
def Obligations.BranchTargets : Prop :=
  ∀ (s : State) (a b : Reg) (imm : BitVec 15) (n : BitVec 6),
    let A := s.rx a
    let B := s.rx b
    let goes (i : Instr) (uses : List RegUse) (off : Int) (taken : Prop) [Decidable taken] : Prop := s.canIssue i uses = true →
      exec i s = .next (s.after i s.me (if taken then .jump (BitVec.ofInt 18 (s.me.pc.toNat + 2 * off)) false else .next)) ∧
        (taken → (s.after i s.me (.jump (BitVec.ofInt 18 (s.me.pc.toNat + 2 * off)) false)).me.pc =
          BitVec.ofInt 18 (s.me.pc.toNat + 2 * off)) ∧
        (¬taken → s.me.activeAt true = false → s.me.activeAt false = false →
          (s.after i s.me .next).me.pc = s.me.pc + BitVec.ofNat 18 (wordLen (instrWord i)))
    goes (.beq a b imm) [.x a, .x b] imm.toInt (A = B) ∧
    goes (.bne a b imm) [.x a, .x b] imm.toInt (A ≠ B) ∧
    goes (.blt a b imm) [.x a, .x b] imm.toInt (A.toInt < B.toInt) ∧
    goes (.bge a b imm) [.x a, .x b] imm.toInt (B.toInt ≤ A.toInt) ∧
    goes (.bltn a b imm) [.x a, .x b] imm.toInt (A.toNat < B.toNat) ∧
    goes (.bgen a b imm) [.x a, .x b] imm.toInt (B.toNat ≤ A.toNat) ∧
    goes (.kbeqz a n) [.x a, .x 0] n.toInt (A = 0) ∧
    goes (.kbnez a n) [.x a, .x 0] n.toInt (A ≠ 0)

/-- R117: jal and jalr write the next sequential PC to xd and go to their target; jalr forms its target from the value of x[a]
before any write, and raises MISALIGNED for one that is odd or not below 2^18, writing nothing. kj is jal x0 (R94). -/
def Obligations.JumpsLink : Prop :=
  ∀ (s : State) (d a : Reg) (imm : BitVec 20) (off : BitVec 15) (n : BitVec 11),
    let link := BitVec.ofNat 64 ((s.me.pc.toNat + 4) % 2 ^ 18)
    let T := s.rx a + BitVec.ofInt 64 off.toInt
    Leaves s (.jal d imm) [.x d] (s.me.setX d link) (.jump (BitVec.ofInt 18 (s.me.pc.toNat + 2 * imm.toInt)) (d != 0)) ∧
    (T.toNat < 2 ^ 18 → T.toNat % 2 = 0 →
      Leaves s (.jalr d a off) [.x d, .x a] (s.me.setX d link) (.jump (BitVec.ofNat 18 T.toNat) (d != 0))) ∧
    (2 ^ 18 ≤ T.toNat ∨ T.toNat % 2 = 1 → Traps s (.jalr d a off) [.x d, .x a] causeMisaligned T) ∧
    Leaves s (.kj n) [] s.me (.jump (BitVec.ofInt 18 (s.me.pc.toNat + 2 * n.toInt)) false)

/-- R122: loop and loopi. A body that passes the top of the local store, a third level, and a body that leaves the outer one
raise ILLEGAL; no iterations skip the body; else the record of the next level of the bank in use is made. R118, R123: at the
end of the body of the innermost active level, the count falls by one, and the PC goes to START while it is not 0, else the level
becomes invalid and the PC goes to END, where an outer body that ends there too is tested in the same step. R124: a transfer out of the
body of an active level makes that level invalid; a call leaves every level as it is.
Readings of the model in it: assumptions 19, 21. -/
def Obligations.HardwareLoops : Prop :=
  (∀ (s : State) (a : Reg) (n : BitVec 15) (len : BitVec 10),
    let start := s.me.pc.toNat + 4
    let last := start + 2 * len.toNat
    let rec0 := s.me.loops.get (s.me.level true)
    let rec1 := s.me.loops.get (s.me.level false)
    let enters (i : Instr) (uses : List RegUse) (count : Word) : Prop :=
      let r : LoopRec := ⟨count, true, s.me.tact, BitVec.ofNat 18 last, BitVec.ofNat 18 start⟩
      let e := s.me.advance (wordLen (instrWord i)) .next
      let word := instrWord i
      (2 ^ 18 < last → Traps s i uses causeIllegal word) ∧
      (last ≤ 2 ^ 18 → count = 0 → Leaves s i uses s.me (.skip (BitVec.ofNat 18 last))) ∧
      (last ≤ 2 ^ 18 → count ≠ 0 → rec0.v = false → s.canIssue i uses = true →
        exec i s = .next (s.setMe { e with loops := vset e.loops (s.me.level true) r })) ∧
      (last ≤ 2 ^ 18 → count ≠ 0 → rec0.v = true → rec1.v = true → Traps s i uses causeIllegal word) ∧
      (last ≤ 2 ^ 18 → count ≠ 0 → rec0.v = true → rec1.v = false → (start < rec0.start.toNat ∨ rec0.lastNat < last) →
        Traps s i uses causeIllegal word) ∧
      (last ≤ 2 ^ 18 → count ≠ 0 → rec0.v = true → rec1.v = false → rec0.start.toNat ≤ start → last ≤ rec0.lastNat →
        s.canIssue i uses = true → exec i s = .next (s.setMe { e with loops := vset e.loops (s.me.level false) r }))
    enters (.loop a len) [.x a] (s.rx a) ∧ enters (.loopi n len) [] (BitVec.ofNat 64 n.toNat)) ∧
  (∀ (c : Context) (len : Nat),
    let r := c.loops.get (c.level true)
    let e := c.advance len .next
    c.activeAt false = false → c.activeAt true = true → r.start.toNat ≤ c.pc.toNat → c.pc.toNat < r.lastNat →
    (c.pc.toNat + len = r.lastNat → r.count ≠ 1 →
      e.pc = r.start ∧ e.loops.get (c.level true) = { r with count := r.count - 1 }) ∧
    (c.pc.toNat + len = r.lastNat → r.count = 1 →
      e.pc = r.last ∧ e.loops.get (c.level true) = { r with count := 0, v := false }) ∧
    (c.pc.toNat + len < r.lastNat → e.pc = BitVec.ofNat 18 (c.pc.toNat + len) ∧ e.loops = c.loops)) ∧
  (∀ (c : Context) (len : Nat),
    let r := c.loops.get (c.level false)
    let q := c.loops.get (c.level true)
    let e := c.advance len .next
    c.activeAt false = true → r.start.toNat ≤ c.pc.toNat → c.pc.toNat < r.lastNat →
    (c.pc.toNat + len = r.lastNat → r.count ≠ 1 →
      e.pc = r.start ∧ e.loops.get (c.level false) = { r with count := r.count - 1 } ∧ e.loops.get (c.level true) = q) ∧
    (c.pc.toNat + len = r.lastNat → r.count = 1 → e.loops.get (c.level false) = { r with count := 0, v := false } ∧
      (c.activeAt true = false ∨ q.lastNat ≠ r.lastNat → e.pc = r.last ∧ e.loops.get (c.level true) = q) ∧
      (c.activeAt true = true → q.lastNat = r.lastNat →
        (q.count ≠ 1 → e.pc = q.start ∧ e.loops.get (c.level true) = { q with count := q.count - 1 }) ∧
        (q.count = 1 → e.pc = q.last ∧ e.loops.get (c.level true) = { q with count := 0, v := false }))) ∧
    (c.pc.toNat + len < r.lastNat → e.pc = BitVec.ofNat 18 (c.pc.toNat + len) ∧ e.loops = c.loops)) ∧
  ∀ (c : Context) (len : Nat) (target : BitVec 18),
    let inside (r : LoopRec) (pc : BitVec 18) : Prop := r.start.toNat ≤ pc.toNat ∧ pc.toNat < r.lastNat
    let e := c.advance len (.jump target false)
    let call := c.advance len (.jump target true)
    call.pc = target ∧ call.loops = c.loops ∧ e.pc = target ∧
      (∀ outer, let r := c.loops.get (c.level outer)
        (c.activeAt outer = true → inside r c.pc → ¬inside r target → e.loops.get (c.level outer) = { r with v := false }) ∧
        (c.activeAt outer = false ∨ ¬inside r c.pc ∨ inside r target → e.loops.get (c.level outer) = r)) ∧
      ∀ l, l ≠ c.level true → l ≠ c.level false → e.loops.get l = c.loops.get l

/-! ## Lookup core: traps, control registers and system instructions (R68, R74 to R81, R197 to R201) -/

/-- R80: what taking a trap does. The first saves the PC, the cause, the value and the mode, enters supervisor mode and goes to
TVEC; a second one stops the context where it stands, with a stop record. Neither alters another context. -/
def Obligations.TrapEntry : Prop :=
  ∀ (s : State) (code : BitVec 8) (value : Word) (aux : BitVec 16),
    let t := s.trap code value aux
    (∀ u k, u ≠ s.core ∨ k ≠ s.ctx → t.ctxAt u k = s.ctxAt u k) ∧
    (s.me.tact = false →
      t.me.tepc = s.me.pc ∧ t.me.code = code ∧ t.me.aux = aux ∧ t.me.tval = value ∧ t.me.ppv = s.me.prv ∧ t.me.prv = true ∧
      t.me.tact = true ∧ t.me.pc = s.me.tvec ∧ t.me.state = .run ∧ t.me.x = s.me.x ∧ t.me.w = s.me.w ∧ t.me.c = s.me.c ∧
      t.me.ctag = s.me.ctag ∧ t.me.xp = s.me.xp ∧ t.me.wp = s.me.wp ∧ t.me.fcsr = s.me.fcsr ∧ t.me.lwd = s.me.lwd ∧
      t.me.loops = s.me.loops ∧ SameMemory s t ∧ SameDevice s t) ∧
    (s.me.tact = true →
      t.me.state = .stopped ∧ t.me.stop = (code, value) ∧ t.me.pc = s.me.pc ∧ t.me.tepc = s.me.tepc ∧ t.me.code = s.me.code ∧
      t.me.tval = s.me.tval ∧ t.me.x = s.me.x ∧ t.me.w = s.me.w)

/-- R94, R198: svc, brk and kbrk take their traps: SERVICE with TEPC at the PC that the loop-end test gives, BREAKPOINT with TEPC
at the instruction itself; the handler runs next. -/
def Obligations.TrapInstructions : Prop :=
  ∀ (s : State) (imm : BitVec 10), s.me.tact = false →
    let enters (i : Instr) (code : BitVec 8) (value : Word) (back : BitVec 18) : Prop := s.canIssue i [] = true →
      ∃ t, exec i s = .next t ∧ t.me.tepc = back ∧ t.me.code = code ∧ t.me.aux = 0 ∧ t.me.tval = value ∧
        t.me.ppv = s.me.prv ∧ t.me.prv = true ∧ t.me.tact = true ∧ t.me.pc = s.me.tvec ∧ t.me.state = .run ∧
        SameMemory s t ∧ SameDevice s t ∧ (∀ u k, u ≠ s.core ∨ k ≠ s.ctx → t.ctxAt u k = s.ctxAt u k)
    enters (.svc imm) causeService (BitVec.ofNat 64 imm.toNat) (s.me.advance 4 .next).pc ∧
    enters (.brk imm) causeBreakpoint (BitVec.ofNat 64 imm.toNat) s.me.pc ∧
    enters .kbrk causeBreakpoint 0 s.me.pc

/-- R198: eret in supervisor mode makes every loop record of the trap bank invalid and restores the PC and the mode. In user
mode it raises PRIVILEGE. -/
def Obligations.TrapReturn : Prop :=
  ∀ s : State,
    (s.me.prv = true → s.canIssue .eret [] = true →
      ∃ t, exec .eret s = .next t ∧ t.me.pc = s.me.tepc ∧ t.me.prv = s.me.ppv ∧ t.me.tact = false ∧
        (∀ l, t.me.loops.get l = (if (s.me.loops.get l).t then { s.me.loops.get l with v := false } else s.me.loops.get l)) ∧
        t.me.ppv = s.me.ppv ∧ t.me.tepc = s.me.tepc ∧ t.me.code = s.me.code ∧ t.me.tval = s.me.tval ∧ t.me.state = s.me.state ∧
        SameRegs s.me t.me [] [] ∧ SameMemory s t ∧ SameOthers s t ∧ SameDevice s t) ∧
    (s.me.prv = false → Traps s .eret [] causePrivilege (instrWord .eret))

/-- R197: the control-register instructions. An unallocated number, and a write to a read-only register, raise ILLEGAL; a
supervisor register in user mode raises PRIVILEGE; else csrr reads and csrw, csrs and csrc write the value they compute. A write to
WSP is stated by WorkspaceSwitch. What the read-only registers read as: CTXID names the device, the core, its mode and the context
(R76); CYCLE is the count whose low bits name the slot (R62); CFLAGS is, where no flag of the cluster has changed for 32 ck, the OR of
the flags of its contexts that are not FREE, with a bit for each position that has NV set (R47). -/
def Obligations.ControlRegisterAccess : Prop :=
  ∀ (s : State) (n : BitVec 10) (d a : Reg),
    let word := instrWord
    let A := s.rx a
    let allowed (r : Csr) : Prop := r.user = true ∨ s.me.prv = true
    let puts (i : Instr) (r : Csr) (v : Word) : Prop := s.canIssue i [.x a] = true →
      (s.csrPut r v).me.straddles 4 = false → exec i s = .next ((s.csrPut r v).after i (s.csrPut r v).me)
    let refused (i : Instr) (uses : List RegUse) (writes : Bool) : Prop :=
      (Csr.ofNum n = none → Traps s i uses causeIllegal (word i)) ∧
      (∀ r, Csr.ofNum n = some r → writes = true → r.readOnly = true → Traps s i uses causeIllegal (word i)) ∧
      (∀ r, Csr.ofNum n = some r → (writes = false ∨ r.readOnly = false) → ¬allowed r → Traps s i uses causePrivilege (word i))
    refused (.csrr d n) [.x d] false ∧ refused (.csrw n a) [.x a] true ∧ refused (.csrs n a) [.x a] true ∧
    refused (.csrc n a) [.x a] true ∧
    ∀ r, Csr.ofNum n = some r → allowed r →
      Writes s (.csrr d n) d [] (s.csrRead r) ∧
      (r.readOnly = false → r ≠ .wsp →
        puts (.csrw n a) r A ∧ puts (.csrs n a) r (s.csrRead r ||| A) ∧ puts (.csrc n a) r (s.csrRead r &&& ~~~A)) ∧
      (s.dev < 2 ^ 16 → s.core < 2 ^ 11 →
        (s.csrRead .ctxid).toNat = s.dev * 2 ^ 48 + s.core * 2 ^ 37 + (if s.myCore.m8 then 16 else 0) + s.ctx.val) ∧
      s.csrRead .cycle = BitVec.ofNat 64 (s.ck + s.myCore.phase) ∧
      (s.ck + s.myCore.phase < 2 ^ 64 → (s.csrRead .cycle).toNat % s.myCore.nctx = (s.slotOf s.core).val) ∧
      let near (u : Nat) : Prop := u < 1008 ∧ s.cluster u = s.cluster s.core
      let flag (u b : Nat) : Prop := ∃ k, (s.ctxAt u k).state ≠ .free ∧ (s.ctxAt u k).fcsr.getLsbD b = true
      let still (u : Nat) : Prop := (∀ p ∈ (s.coreAt u).flagLog, p.1 + 32 ≤ s.ck) ∧
        (((s.coreAt u).flagLog.head?.map (·.2)).getD (s.coreAt u).flagBase) = (s.coreAt u).flagWord
      (∀ u, near u → still u) →
        (∀ b < 5, (s.csrRead .cflags).getLsbD b = true ↔ ∃ u, near u ∧ flag u b) ∧
        (∀ i < 16, (s.csrRead .cflags).getLsbD (16 + i) = true ↔ ∃ u, near u ∧ localIndex (s.position u) = i ∧ flag u 4) ∧
        ∀ b, (5 ≤ b ∧ b < 16 ∨ 32 ≤ b) → (s.csrRead .cflags).getLsbD b = false

/-- R45, R75 to R79: what a control register reads as after a write, and the frame of the write. FCSR takes its flags and CVM as they
are written and keeps RM where 101, 110 or 111 is written (R45); PRV is not written; LWD 31 is refused in a launch that refuses
unbounded waits (R77); the service core's PPV ignores writes (R74). -/
def Obligations.ControlRegisterReadBack : Prop :=
  ∀ (s : State) (v : Word),
    (s.csrPut .tvec v).csrRead .tvec = v &&& 0x3FFFE ∧
    (s.csrPut .tepc v).csrRead .tepc = v &&& 0x3FFFE ∧
    (s.csrPut .tcause v).csrRead .tcause = v &&& 0xFFFF000000FF ∧
    (s.csrPut .tval v).csrRead .tval = v ∧
    (let f := (s.csrPut .fcsr v).csrRead .fcsr
     (∀ b < 5, f.getLsbD b = v.getLsbD b) ∧ f.getLsbD 8 = v.getLsbD 8 ∧ f.toNat < 2 ^ 9 ∧
      f.extractLsb' 5 3 = (if v.extractLsb' 5 3 = 5 ∨ v.extractLsb' 5 3 = 6 ∨ v.extractLsb' 5 3 = 7 then
        (s.csrRead .fcsr).extractLsb' 5 3 else v.extractLsb' 5 3)) ∧
    (∀ r q, r ≠ q → (s.csrPut r v).csrRead q = s.csrRead q) ∧
    (s.csrPut .cstat v).me.prv = s.me.prv ∧
    (s.csrPut .cstat v).me.tact = v.getLsbD 2 ∧
    (s.core ≠ serviceCore → (s.csrPut .cstat v).me.ppv = v.getLsbD 1) ∧
    (s.core = serviceCore → (s.csrPut .cstat v).me.ppv = s.me.ppv) ∧
    (s.csrPut .cstat v).me.lwd =
      (if v.toNat / 2 ^ 8 % 32 = 31 ∧ s.refusesUnbounded then s.me.lwd else BitVec.ofNat 5 (v.toNat / 2 ^ 8)) ∧
    ∀ r, SameMemory s (s.csrPut r v) ∧ SameOthers s (s.csrPut r v) ∧ SameDevice s (s.csrPut r v) ∧
      SameRegs s.me (s.csrPut r v).me [] [] ∧ (s.csrPut r v).me.pc = s.me.pc ∧ (s.csrPut r v).me.loops = s.me.loops

/-- R68: a write to WSP in supervisor mode. A value that is no workspace address raises MISALIGNED, and one that overlaps another
bound workspace PROTECTION; a new workspace of which a beat fails raises INTEGRITY, and nothing is switched (R417); else the
completed context, the issuing one advanced past the csrw, is written to its old workspace byte for byte, and the context goes on with
what the new one holds: every register with its presence bit and tag, PC, FCSR, CSTAT, TVEC, the registers of the last trap and the
loop records.
Readings of the model in it: assumptions 43, 125, 146, 153, 155, 156. -/
def Obligations.WorkspaceSwitch : Prop :=
  ∀ (s : State) (a : Reg),
    let v := s.rx a
    let n := if s.myCore.m8 then 2048 else 1024
    let bad := 2 ^ 18 ≤ v.toNat ∨ v.toNat % 1024 ≠ 0 ∨ (s.myCore.m8 = true ∧ v.toNat % 2048 ≠ 0)
    let meets := ∃ k : Fin 16, k ≠ s.ctx ∧ k.val < s.myCore.nctx ∧ (s.ctxAt s.core k).state ≠ .free ∧
      (s.ctxAt s.core k).wsp.toNat < v.toNat + n ∧ v.toNat < (s.ctxAt s.core k).wsp.toNat + n
    let old := lsAddr s.core s.me.wsp.toNat
    let new := lsAddr s.core v.toNat
    s.me.prv = true →
    (bad → Traps s (.csrw 0x101 a) [.x a] causeMisaligned v) ∧
    (¬bad → meets → Traps s (.csrw 0x101 a) [.x a] causeProtection v) ∧
    (∀ b, ¬bad → ¬meets → s.me.state = .run → (s.myCore.relaxed.all fun r => r.ctx != s.ctx.val) = true →
      s.failedBeat new n = some b → s.me.tact = false → s.canIssue (.csrw 0x101 a) [.x a] = true →
      ∃ t, exec (.csrw 0x101 a) s = .next t ∧ t.me.code = causeIntegrity ∧ t.me.tval = gaWord b ∧ t.me.tepc = s.me.pc ∧
        t.me.pc = s.me.tvec ∧ t.me.wsp = s.me.wsp ∧ t.me.x = s.me.x ∧ SameMemory s t) ∧
    (¬bad → ¬meets → s.me.state = .run → (s.myCore.relaxed.all fun r => r.ctx != s.ctx.val) = true → s.failedBeat new n = none →
      s.canIssue (.csrw 0x101 a) [.x a] = true →
      ∃ t, exec (.csrw 0x101 a) s = .next t ∧ t.me.state = .run ∧ t.me.wsp.toNat = v.toNat ∧
        Stored s t old ((s.me.advance 4 .next).workspaceBytes s.myCore.m8) ∧
        (let word (o : Nat) : Nat := t.readNat (new + o) 8
         let sup := s.core = serviceCore
         t.me.pc = BitVec.ofNat 18 (word 0x300 / 2 * 2) ∧ t.me.fcsr = BitVec.ofNat 9 (word 0x308) ∧
         (∀ n < 64, t.me.present n = (n == 0 || bitOf (word 0x310) n)) ∧ t.me.ctag = BitVec.ofNat 16 (word 0x318) ∧
         t.me.lwd = BitVec.ofNat 5 (word 0x320 / 2 ^ 8) ∧ t.me.tact = bitOf (word 0x320) 2 ∧
         (t.me.ppv = true ↔ sup ∨ bitOf (word 0x320) 1 = true) ∧ (t.me.prv = true ↔ sup ∨ bitOf (word 0x320) 0 = true) ∧
         t.me.tvec = BitVec.ofNat 18 (word 0x328 / 2 * 2) ∧ t.me.code = BitVec.ofNat 8 (word 0x330) ∧
         t.me.aux = BitVec.ofNat 16 (word 0x330 / 2 ^ 32) ∧ t.me.tval = BitVec.ofNat 64 (word 0x338) ∧
         t.me.tepc = BitVec.ofNat 18 (word 0x340 / 2 * 2) ∧
         (∀ r : Reg, r ≠ 0 → t.me.xr r = BitVec.ofNat 64 (word (8 * r.toNat))) ∧
         (∀ r : Reg, r.toNat < 16 → t.me.wr r = BitVec.ofNat 128 (t.readNat (new + 0x100 + 16 * r.toNat) 16)) ∧
         (∀ r : Reg, 16 ≤ r.toNat → s.myCore.m8 = true → t.me.wr r = BitVec.ofNat 128 (t.readNat (new + 0x300 + 16 * r.toNat) 16)) ∧
         (∀ r : BitVec 4, t.me.cap r = BitVec.ofNat 128 (t.readNat (new + 0x200 + 16 * r.toNat) 16)) ∧
         ∀ l : Fin 4, let w (o : Nat) : Nat := word (0x350 + 16 * l.val + (if l.val < 2 then 0 else 16) + o)
          t.me.loops.get l = ⟨BitVec.ofNat 64 (w 0), bitOf (w 8) 63, bitOf (w 8) 62, BitVec.ofNat 18 (w 8 / 2 ^ 18),
            BitVec.ofNat 18 (w 8 / 2 * 2)⟩) ∧
        (∀ u k, u ≠ s.core ∨ k ≠ s.ctx → t.ctxAt u k = s.ctxAt u k) ∧ SameDevice s { t with mem := s.mem, failing := s.failing, syndromes := s.syndromes })

/-- R182, R192, R199: fences and scopes. A fence whose accesses are done goes on at once, and one that waits parks and changes
nothing else; ifence leaves no fetched byte; sjoin sets and sleave clears the bit of the issuing core in a scope table, and xd is the
number of bits then set.
Readings of the model in it: assumption 27. -/
def Obligations.FencesAndScopes : Prop :=
  ∀ (s : State) (lv : Level) (n : BitVec 6) (d a : Reg),
    let ends (i : Instr) (lv : Level) : Prop := s.canIssue i [] = true → (s.myCore.lines.filter (·.ctx == s.ctx.val)) = [] →
      (s.fenceDone s.core s.ctx.val lv = true → exec i s = .next (s.after i s.me)) ∧
      (s.fenceDone s.core s.ctx.val lv = false →
        ∃ t, exec i s = .next t ∧ t.me.state = .parked ∧ t.me.park = .fence lv ∧ t.me.deadline = none ∧ t.me.pc = s.me.pc ∧
          SameMemory s t ∧ SameRegs s.me t.me [] [] ∧ SameOthers s t ∧ SameDevice s t)
    ends (.fence lv) lv ∧
    (s.failedBeat (scopeAddr n.toNat) 256 = none → ends (.fenceScope n) (s.scopeLevel s.core n.toNat)) ∧
    (s.myCore.ownStoresDone s.core s.ctx.val = true → s.canIssue .ifence [] = true →
      ∃ t, exec .ifence s = .next t ∧ t.me.window = [] ∧ t.me.pc = (s.me.advance 4 .next).pc ∧ t.me.state = .run ∧
        SameMemory s t ∧ SameRegs s.me t.me [] [] ∧ SameOthers s t ∧ SameDevice s t) ∧
    let addr := scopeAddr (s.rx a).toNat
    let acts (i : Instr) (put : Bool) : Prop := s.Quiet → s.core < 1008 → s.canIssue i [.x a, .x d] = true →
      (64 ≤ (s.rx a).toNat → exec i s = .next (s.trap causeIllegal (instrWord i))) ∧
      ((s.rx a).toNat < 64 → s.serves addr 128 →
        ∃ t, Moves [i, .homeAct s.nextId, .plainAccessComplete s.nextId] s t ∧
          (∀ j < 128, t.readByte (addr + j) = if j = s.core / 8 then
            (if put then s.readByte (addr + j) ||| BitVec.twoPow 8 (s.core % 8) else s.readByte (addr + j) &&& ~~~BitVec.twoPow 8 (s.core % 8))
            else s.readByte (addr + j)) ∧
          (∀ j, j < addr ∨ addr + 128 ≤ j → t.readByte j = s.readByte j) ∧
          AfterAccess s t i (s.me.setX d (BitVec.ofNat 64 (countBits 1008 (t.readNat addr 128)))))
    acts (.sjoin d a) true ∧ acts (.sleave d a) false

/-- R193 to R195: capabilities. cmk narrows and never widens; cinfo reads a field; cld reads the 16 bytes with the tag of the pair;
cst stores the register with its tag AND its D permission.
Readings of the model in it: assumptions 27, 31. -/
def Obligations.CapabilityInstructions : Prop :=
  ∀ (s : State) (cd ca : BitVec 4) (d a b : Reg) (sel : BitVec 3) (addr : Nat),
    let q := s.me.cap ca
    let o := (s.rx b).toNat % 2 ^ 37
    let n := (s.rx (b + 1)).toNat
    let sweeping := bitOf (s.reg 0x218).toNat 2
    (s.canIssue (.cmk cd ca b) [.x b, .x (b + 1)] = true → (s.rx b).toNat < 2 ^ 44 → n < 2 ^ 37 → sweeping = false →
      ∃ t, exec (.cmk cd ca b) s = .next t ∧ SameMemory s t ∧ SameOthers s t ∧ SameDevice s t ∧
        capBase (t.me.cap cd) = (capBase q + o) % 2 ^ 37 ∧ capLen (t.me.cap cd) = n ∧
        capPerm (t.me.cap cd) = (capPerm q &&& ((s.rx b).toNat / 2 ^ 37)) ∧ capDev (t.me.cap cd) = capDev q ∧
        capUnit (t.me.cap cd) = capUnit q ∧ capTid (t.me.cap cd) = capTid q ∧
        t.me.ctag.getLsbD cd.toNat = (s.me.ctag.getLsbD ca.toNat && bitOf (capPerm q) 0 && decide (o + n ≤ capLen q)) ∧
        (∀ e, e ≠ cd → t.me.cap e = s.me.cap e ∧ t.me.ctag.getLsbD e.toNat = s.me.ctag.getLsbD e.toNat)) ∧
    ((2 ^ 44 ≤ (s.rx b).toNat ∨ 2 ^ 37 ≤ n) → Traps s (.cmk cd ca b) [.x b, .x (b + 1)] causeIllegal (instrWord (.cmk cd ca b))) ∧
    Writes s (.cinfo d ca sel) d []
      (match sel.toNat with
        | 0 => BitVec.ofNat 64 (capBase q) | 1 => BitVec.ofNat 64 (capLen q) | 2 => BitVec.ofNat 64 (capPerm q)
        | 3 => BitVec.ofNat 64 (capTid q) | 4 => if s.me.ctag.getLsbD ca.toNat then 1 else 0 | 5 => BitVec.ofNat 64 (capDev q)
        | 6 => BitVec.ofNat 64 (capUnit q) | _ => BitVec.ofNat 64 (capDev q * 2 ^ 48 + capUnit q * 2 ^ 37 + capBase q)) ∧
    (s.Quiet → s.serves addr 16 → sweeping = false → s.canIssue (.cld cd a b) [.x a, .x b] = true →
      s.reaches (s.rx a + s.rx b) 16 (.shmOnly false) ⟨true, true, false⟩ = some addr →
      ∃ t, Moves [.cld cd a b, .homeAct s.nextId, .plainAccessComplete s.nextId] s t ∧ SameMemory s t ∧
        AfterAccess s t (.cld cd a b) (s.me.setCap cd (BitVec.ofNat 128 (s.readNat addr 16)) (s.tagAt addr))) ∧
    (s.Quiet → s.serves addr 16 → sweeping = false → s.canIssue (.cst cd a b) [.x a, .x b] = true →
      s.reaches (s.rx a + s.rx b) 16 (.shmOnly true) ⟨true, true, false⟩ = some addr →
      ∃ t, Moves [.cst cd a b, .homeAct s.nextId, .plainAccessComplete s.nextId] s t ∧ AfterAccess s t (.cst cd a b) s.me ∧
        Stored s t addr (natToBytes 16 (s.me.cap cd).toNat) ∧ (∀ j, t.isFull j = s.isFull j) ∧
        t.tagAt addr = (s.me.ctag.getLsbD cd.toNat && bitOf (capPerm (s.me.cap cd)) 0))

/-! ## Lookup core: messages and work (R171 to R191) -/

/-- R72, R183: sendr, the arrival of its message at the target, and the end of the sender's wait. An accepted message writes the
register and sets its presence bit and changes nothing else of the target, and xd is 0; a refused one changes nothing of it, and xd is 1,
or the sender takes REGISTER where d is 0. No other context changes. -/
def Obligations.RegisterMessages : Prop :=
  ∀ (s : State) (tctx : BitVec 4) (r : BitVec 6) (d a b : Reg),
    let i := Instr.sendr tctx r d a b
    let u := unitOfId (s.rx a)
    let k := ctxIdx tctx.toNat
    let n := r.setWidth 5
    let named := BitVec.ofNat 64 ((s.rx a).toNat / 2 ^ 37 * 2 ^ 37 + r.toNat * 2 ^ 4 + tctx.toNat)
    let moves := [i, .registerMessage s.nextId, .contextWake s.core s.ctx.val]
    let sender (v : Nat) (j : Fin 16) : Prop := v = s.core ∧ j = s.ctx
    let others (t : State) : Prop := ∀ v j, ¬sender v j → (v ≠ u ∨ j ≠ k) → t.ctxAt v j = s.ctxAt v j
    let untouched (t : State) : Prop := ∀ v j, ¬sender v j → t.ctxAt v j = s.ctxAt v j
    s.Quiet → s.messages = [] → s.answers = [] →
    s.canIssue i ([.x a, .x b, .x d] ++ if r.toNat < 32 then [] else [.x (b + 1)]) = true → s.devOf (s.rx a) = none →
    s.checkId s.myLaunch (s.rx a) false = none → s.moving u tctx.toNat = false → (s.ctxAt u k).fwd = none →
    (s.acceptsRegister u tctx r.toNat = true →
      ∃ t, Moves moves s t ∧ (t.ctxAt u k).present r.toNat = true ∧ (r.toNat < 32 → (t.ctxAt u k).xr n = s.rx b) ∧
        (32 ≤ r.toNat → (t.ctxAt u k).wr n = s.rx (b + 1) ++ s.rx b) ∧ (d ≠ 0 → t.me.xr d = 0) ∧ t.me.state = .run ∧
        t.me.pc = (s.me.advance 4 .next).pc ∧ SameMemory s t ∧ others t ∧
        (¬sender u k → t.ctxAt u k =
          if r.toNat < 32 then (s.ctxAt u k).setX n (s.rx b) else (s.ctxAt u k).setW n (s.rx (b + 1) ++ s.rx b)) ∧
        (sender u k → SameRegs s.me t.me (d :: if r.toNat < 32 then [n] else []) (if r.toNat < 32 then [] else [n]))) ∧
    (s.acceptsRegister u tctx r.toNat = false → d ≠ 0 →
      ∃ t, Moves moves s t ∧ t.me.xr d = 1 ∧ t.me.state = .run ∧
        t.me.pc = (s.me.advance 4 .next).pc ∧ SameMemory s t ∧ SameRegs s.me t.me [d] [] ∧ untouched t) ∧
    (s.acceptsRegister u tctx r.toNat = false → d = 0 → s.me.tact = false →
      ∃ t, Moves moves s t ∧ t.me.code = causeRegister ∧ t.me.tval = named ∧
        t.me.tepc = s.me.pc ∧ t.me.pc = s.me.tvec ∧ SameMemory s t ∧ SameRegs s.me t.me [] [] ∧ untouched t)

/-- R185 to R188: senda puts an entry at the end of the queue of the target core, which holds 64; the selector gives the message
context the oldest entry whose handler is valid and not held; hld and unhld change the bit that later selections see; wait ends the
handler.
Readings of the model in it: assumption 42. -/
def Obligations.ActiveMessages : Prop :=
  (∀ (s : State) (h : BitVec 8) (d a b : Reg),
    let i := Instr.senda h d a b
    let u := unitOfId (s.rx a)
    let q := (s.coreAt u).msgq
    s.Quiet → s.messages = [] → s.answers = [] → s.canIssue i [.x a, .x b, .x d] = true → s.devOf (s.rx a) = none →
    s.checkId s.myLaunch (s.rx a) false = none →
    (q.length < 64 →
      ∃ t, Moves [i, .activeMessage s.nextId, .contextWake s.core s.ctx.val] s t ∧
        (t.coreAt u).msgq = q ++ [⟨h, s.rx b, s.coreId s.core s.ctx.val⟩] ∧ (d ≠ 0 → t.me.xr d = 0) ∧
        t.me.pc = (s.me.advance 4 .next).pc ∧ t.me.state = .run ∧ SameRegs s.me t.me [d] [] ∧ SameMemory s t) ∧
    (64 ≤ q.length → d ≠ 0 →
      ∃ t, Moves [i, .activeMessage s.nextId, .contextWake s.core s.ctx.val] s t ∧ (t.coreAt u).msgq = q ∧ t.me.xr d = 1 ∧
        t.me.pc = (s.me.advance 4 .next).pc ∧ t.me.state = .run ∧ SameRegs s.me t.me [d] [] ∧ SameMemory s t)) ∧
  (∀ (s : State) (u : Nat) (e : QueueEntry) (before after : List QueueEntry),
    let c := s.coreAt u
    let m := s.ctxAt u c.messageCtx
    let ready (e : QueueEntry) : Bool := s.handlerEntry u e.hidx % 2 == 1 && !(c.holdBits s.ck).getLsbD e.hidx.toNat
    c.handling = false → m.state = .parked → m.park = .queue → s.paused c.launch = false → c.msgq = before ++ e :: after → (∀ x ∈ before, ready x = false) →
    ready e = true →
    ∃ t, exec (.handlerSelect u) s = .next t ∧ (t.coreAt u).msgq = before ++ after ∧ (t.coreAt u).handling = true ∧
      let n := t.ctxAt u c.messageCtx
      n.state = .run ∧ n.pc = BitVec.ofNat 18 (s.handlerEntry u e.hidx % 2 ^ 18 / 2 * 2) ∧ n.xr 10 = e.arg ∧ n.xr 11 = e.source ∧
      n.xr 12 = BitVec.ofNat 64 e.hidx.toNat ∧ SameMemory s t ∧ SameDevice s t) ∧
  (∀ (s : State) (h : BitVec 8) (put : Bool), s.myCore.holdAt ≤ s.ck →
    let i := if put then Instr.hld h else Instr.unhld h
    s.canIssue i [] = true →
    ∃ t, exec i s = .next t ∧ t.me = s.me.advance 4 .next ∧ SameMemory s t ∧ SameDevice s t ∧
      t.myCore.holdBits s.ck = s.myCore.holdBits s.ck ∧
      ∀ ck, s.ck < ck → ∀ j : BitVec 8, (t.myCore.holdBits ck).getLsbD j.toNat =
        if j = h then put else (s.myCore.holdBits ck).getLsbD j.toNat) ∧
  ∀ s : State, s.ctx = s.myCore.messageCtx → s.canIssue (.wait 0 0) [] = true →
    ∃ t, exec (.wait 0 0) s = .next t ∧ t.me.state = .parked ∧ t.me.park = .queue ∧ t.myCore.handling = false ∧
      SameRegs s.me t.me [] [] ∧ SameMemory s t ∧ SameDevice s t

/-- R184, R190: the end of a context, and the arming of registers by wait. A head or a started context becomes DONE, a spawned one
FREE; wait xd, and wait with a mask in x[a], clear presence bits and go on. -/
def Obligations.ContextsEnd : Prop :=
  ∀ (s : State) (d a : Reg), s.Quiet → s.myCore.conts = [] →
    (∀ x ∈ s.cores, ∀ j, (x.2.ctxs.get j).fwd = none) →
    (s.ctx = 0 → s.myCore.firstBusy = none →
      ∃ t, exec (.wait 0 0) s = .next t ∧ t.me.state = .done ∧ SameMemory s t) ∧
    (s.myCore.isUser s.ctx.val = true → s.me.origin = .started →
      ∃ t, exec (.wait 0 0) s = .next t ∧ t.me.state = .done ∧ t.me.xr 10 = s.me.xr 10 ∧ SameMemory s t) ∧
    (s.myCore.isUser s.ctx.val = true → s.me.origin ≠ .started →
      ∃ t, exec (.wait 0 0) s = .next t ∧ t.me.state = .free ∧ SameMemory s t) ∧
    (d ≠ 0 → s.canIssue (.wait d 0) [.x d] = true → exec (.wait d 0) s = .next (s.after (.wait d 0) (s.me.absent d.toNat))) ∧
    (a ≠ 0 → s.canIssue (.wait 0 a) [.x a] = true → s.canIssue (.wait 0 a) (maskRegs (s.rx a)) = true →
      ∃ t, exec (.wait 0 a) s = .next t ∧ t.me.pc = (s.me.advance 4 .next).pc ∧ t.me.x = s.me.x ∧ t.me.w = s.me.w ∧
        (∀ n < 64, t.me.present n = (s.me.present n && (n == 0 || !(s.rx a).getLsbD n))) ∧ SameMemory s t ∧ SameOthers s t ∧
        SameDevice s t)

/-- R189, R190: work. spawn starts the lowest eligible context of the target, or is a call where there is none; fork pushes a task on
the deque; steal takes the newest task of its launch and starts it here; start and reap begin and end a context of the head's core.
Readings of the model in it: assumptions 36 to 38. -/
def Obligations.WorkBegins : Prop :=
  ∀ (s : State) (d a b : Reg), s.Quiet → s.messages = [] → s.answers = [] →
    (∀ x ∈ s.cores, ∀ j, (x.2.ctxs.get j).fwd = none) →
    let args := [s.rx 10, s.rx 11, s.rx 12, s.rx 13]
    let pcOk := (s.rx b).toNat < 2 ^ 18 ∧ (s.rx b).toNat % 2 = 0
    let starts (t : State) (u : Nat) (k : Fin 16) (pc : BitVec 18) (v : List Word) : Prop :=
      (t.ctxAt u k).state = .run ∧ (t.ctxAt u k).pc = pc ∧
        [(t.ctxAt u k).xr 10, (t.ctxAt u k).xr 11, (t.ctxAt u k).xr 12, (t.ctxAt u k).xr 13] = v
    let goesOn (t : State) (v : Word) : Prop := (d ≠ 0 → t.me.xr d = v) ∧ t.me.pc = (s.me.advance 4 .next).pc ∧ t.me.state = .run ∧
      SameRegs s.me t.me [d] [] ∧ SameMemory s t
    let five : List RegUse := [.x a, .x b, .x d, .x 10, .x 11, .x 12, .x 13]
    let u := unitOfId (s.rx a)
    (pcOk → s.canIssue (.spawn d a b) five = true → s.devOf (s.rx a) = none → s.checkId s.myLaunch (s.rx a) false = none →
      (s.coreAt u).conts = [] →
      (∀ k, (s.coreAt u).firstEligible = some k →
        ∃ t, Moves [.spawn d a b, .spawnRequest s.nextId, .contextWake s.core s.ctx.val] s t ∧
          starts t u k ((s.rx b).setWidth 18) args ∧ goesOn t 0) ∧
      ((s.coreAt u).firstEligible = none →
        ∃ t, Moves [.spawn d a b, .spawnRequest s.nextId, .contextWake s.core s.ctx.val] s t ∧
          t.me.pc = (s.rx b).setWidth 18 ∧ (d ≠ 0 → t.me.xr d = BitVec.ofNat 64 ((s.me.pc.toNat + 4) % 2 ^ 18)) ∧ t.me.state = .run ∧
          SameRegs s.me t.me [d] [] ∧ SameMemory s t)) ∧
    (pcOk → s.canIssue (.fork d b) [.x b, .x d, .x 10, .x 11, .x 12, .x 13] = true →
      (s.myCore.deque.length < 64 →
        ∃ t, exec (.fork d b) s = .next t ∧ t.myCore.deque = ⟨s.rx b, args, s.myCore.launch⟩ :: s.myCore.deque ∧ goesOn t 0) ∧
      (64 ≤ s.myCore.deque.length →
        ∃ t, exec (.fork d b) s = .next t ∧ t.myCore.deque = s.myCore.deque ∧ goesOn t 1)) ∧
    (s.canIssue (.steal d) [.x d] = true →
      (s.myCore.firstEligible = none → exec (.steal d) s = .next (s.after (.steal d) (s.me.setX d (BitVec.allOnes 64)))) ∧
      (∀ k x rest, s.myCore.firstEligible = some k → s.myCore.deque = x :: rest → x.launch = s.myCore.launch → x.args.length = 4 →
        ∃ t, exec (.steal d) s = .next t ∧ t.myCore.deque = rest ∧ starts t s.core k (x.pc.setWidth 18) x.args ∧
          goesOn t (BitVec.ofNat 64 k.val))) ∧
    (pcOk → s.ctx = 0 → s.myCore.isUser (s.rx a).toNat = true → s.canIssue (.start d a b) five = true →
      (s.myCore.eligible (ctxIdx (s.rx a).toNat) = true →
        ∃ t, exec (.start d a b) s = .next t ∧ starts t s.core (ctxIdx (s.rx a).toNat) ((s.rx b).setWidth 18) args ∧ goesOn t 0) ∧
      (s.myCore.eligible (ctxIdx (s.rx a).toNat) = false → ∃ t, exec (.start d a b) s = .next t ∧ goesOn t 1)) ∧
    (s.ctx = 0 → s.myCore.isUser (s.rx a).toNat = true → s.myCore.conts = [] → s.canIssue (.reap d a) [.x a, .x d] = true →
      let k := ctxIdx (s.rx a).toNat
      ((s.ctxAt s.core k).state = .free → exec (.reap d a) s = .next (s.after (.reap d a) (s.me.setX d (BitVec.allOnes 64)))) ∧
      ((s.ctxAt s.core k).state = .done →
        ∃ t, exec (.reap d a) s = .next t ∧ (t.ctxAt s.core k).state = .free ∧ goesOn t ((s.ctxAt s.core k).xr 10)))

/-- R191: join takes one from the count of its record as one act; where the count was 1, a continuation goes to the record's TARGET
and starts there at EPC with ARG in x10.
Readings of the model in it: assumption 27. -/
def Obligations.JoinsContinue : Prop :=
  ∀ (s : State) (r : Reg) (a : Nat), s.Quiet → s.messages = [] → s.serves a 32 → s.canIssue (.join r) [.x r] = true →
    s.reaches (s.rx r) 32 (.shmOnly true) ⟨true, true, false⟩ = some a →
    let old := s.readNat a 8
    let target := BitVec.ofNat 64 (s.readNat (a + 8) 8)
    let epc := BitVec.ofNat 64 (s.readNat (a + 16) 8)
    let arg := BitVec.ofNat 64 (s.readNat (a + 24) 8)
    let u := unitOfId target
    let moves := [Instr.join r, .homeAct s.nextId, .plainAccessComplete s.nextId]
    (old ≠ 1 → ∃ t, Moves moves s t ∧ AfterAccess s t (.join r) s.me ∧ t.messages = [] ∧
      Stored s t a (natToBytes 8 ((old + 2 ^ 64 - 1) % 2 ^ 64))) ∧
    (old = 1 → s.checkId s.myLaunch target false = none → s.devOf target = none → epc.toNat < 2 ^ 18 → epc.toNat % 2 = 0 →
      (s.coreAt u).conts = [] → ∀ k, (s.coreAt u).firstEligible = some k →
      ∃ t, Moves (moves ++ [.joinContinuation (s.nextId + 1)]) s t ∧ Stored s t a (natToBytes 8 0) ∧
        t.me.pc = (s.me.advance 4 .next).pc ∧ t.me.state = .run ∧ (t.ctxAt u k).state = .run ∧ (t.ctxAt u k).pc = epc.setWidth 18 ∧
        (t.ctxAt u k).xr 10 = arg ∧ (t.ctxAt u k).xr 11 = 0 ∧ (t.ctxAt u k).origin = .joined)

/-! ## Lookup core: the ends of waits, supervisor operations and translation (R71, R83, R84, R177, R200, R201, R370 to R379) -/

/-- R64, R71, R177: how waits end. A context that waits for a presence bit issues again once the bits are set, and takes STALL with
the lowest absent register at its limit; a request that waits for a full/empty bit is dropped at its deadline, with no effect, and
its context takes STALL with the address of the granule or word. -/
def Obligations.WaitsEnd : Prop :=
  (∀ (s : State) (u : Nat) (k : Fin 16) (regs : List Nat),
    let c := s.ctxAt u k
    c.state = .parked → c.park = .presence regs → c.failed = [] →
    ((∀ n ∈ regs, c.present n = true) →
      ∃ t, exec (.contextWake u k.val) s = .next t ∧ (t.ctxAt u k).state = .run ∧ (t.ctxAt u k).pc = c.pc ∧
        (t.ctxAt u k).readyAt = s.ck + 1 ∧ SameMemory s t ∧ SameDevice s t) ∧
    (∀ n limit, n ∈ regs → n < 64 → c.present n = false → (∀ m ∈ regs, m < n → c.present m = true) →
      c.deadline = some limit → limit ≤ s.ck → c.tact = false →
      ∃ t, exec (.presenceWaitStall u k.val) s = .next t ∧ (t.ctxAt u k).code = causeStall ∧
        (t.ctxAt u k).tval = BitVec.ofNat 64 n ∧ (t.ctxAt u k).tepc = c.pc ∧ (t.ctxAt u k).pc = c.tvec ∧ SameMemory s t ∧
        SameDevice s t)) ∧
  ∀ (s : State) (r : Request) (k : Fin 16) (u limit : Nat),
    let c := s.ctxAt u k
    s.waiters = [r] → s.requests = [] → s.watchers = [] → r.src = .ctx u k.val →
    r.deadline = some limit → limit ≤ s.ck → c.state = .parked → c.park = .reply r.id → c.tact = false →
    ∃ t, exec (.syncRequestDrop r.id) s = .next t ∧ t.waiters = [] ∧ (t.ctxAt u k).code = causeStall ∧
      (t.ctxAt u k).tval = gaWord (bitUnit r.addr) ∧ (t.ctxAt u k).tepc = c.pc ∧ (t.ctxAt u k).pc = c.tvec ∧ SameMemory s t

/-- R83, R84: repart by the head context, in supervisor mode, of a core that is quiescent. To the current mode it changes nothing; to
the other one it lays out the workspaces of the new mode, writes TVEC into those of contexts 1 on, and leaves every user context
FREE. Elsewhere than in the head context it is ILLEGAL. R201: tlbinv of this core's TLB in supervisor mode parks until the TLB has
dropped the page, or all; then it goes on.
Readings of the model in it: assumptions 40, and 126 for ILLEGAL before PRIVILEGE. -/
def Obligations.SupervisorOperations : Prop :=
  (∀ (s : State) (m8 : Bool),
    let i := Instr.repart m8
    let w := s.me.wsp.toNat
    let n := if m8 then 8 else 16
    let stride := if m8 then 2048 else 1024
    (s.ctx ≠ 0 → Traps s i [] causeIllegal (instrWord i)) ∧
    (s.ctx = 0 → s.me.prv = false → Traps s i [] causePrivilege (instrWord i)) ∧
    (s.ctx = 0 → s.me.prv = true → s.me.state = .run → s.canIssue i [] = true →
      (s.park i (.repart m8) (limitOf s.ck s.me.lwd) (parkRecord 5 s.me.lwd false 0)).quiescent s.core = true →
      (s.myCore.m8 = m8 →
        ∃ t, exec i s = .next t ∧ t.me.state = .run ∧ t.me.pc = (s.me.advance 4 .next).pc ∧ SameMemory s t ∧ SameOthers s t ∧
          SameRegs s.me t.me [] [] ∧ SameDevice s t) ∧
      (s.myCore.m8 ≠ m8 → (m8 = true → w % 2048 = 0) → w % 1024 = 0 → w + 16384 ≤ 2 ^ 18 →
        ∃ t, exec i s = .next t ∧ t.myCore.m8 = m8 ∧ t.me.state = .run ∧ t.me.x = s.me.x ∧ t.me.pc = (s.me.advance 4 .next).pc ∧
          (∀ k : Fin 16, 1 ≤ k.val → k.val < n - 2 → (t.ctxAt s.core k).state = .free) ∧
          (∀ k : Fin 16, 1 ≤ k.val → k.val < n → (t.ctxAt s.core k).wsp = BitVec.ofNat 18 (w + stride * k.val) ∧
            t.readNat (lsAddr s.core (w + stride * k.val + 0x328)) 8 = s.me.tvec.toNat)))) ∧
  ∀ (s : State) (all : Bool) (a : Reg),
    let i := Instr.tlbinv (if all then 1 else 0) a
    let wake := Instr.contextWake s.core s.ctx.val
    s.core < 1008 →
    (s.me.prv = false → Traps s i [.x a] causePrivilege (instrWord i)) ∧
    (s.me.prv = true → s.canIssue i [.x a] = true →
      (∃ u, exec i s = .next u ∧ u.me.state = .parked ∧ u.me.deadline = none) ∧
      ∃ t, Moves [i, wake, wake] s t ∧ t.me.state = .run ∧ t.me.pc = (s.me.advance 4 .next).pc ∧
        t.myCore.tlb = (if all then [] else s.myCore.tlb.filter fun e =>
          (s.rx a).toNat / 2 ^ e.size != e.page / 2 ^ e.size) ∧
        SameMemory s t ∧ SameRegs s.me t.me [] [])

/-- R200, R388, R392 to R395: a migrate of a running context of another core, at rest, to a suitable core: the whole context, with its
registers, presence bits, tags, status and trap registers, loop records, stream slots and origin, moves to the lowest eligible context
there, its old slot is FREE and forwards to the new one, and xd is the new core identifier. Where the host chooses, it is asked, and
the context moves so when its answer names a suitable core; where it answers that there is no target, xd is 2^64 − 1 and nothing moves.
Readings of the model in it: assumptions 87, 88. -/
def Obligations.ContextsMigrate : Prop :=
  (∀ (s : State) (d a : Reg) (u v : Nat) (k j : Fin 16),
    let i := Instr.migrate d a
    let src := s.ctxAt u k
    s.me.prv = true → s.me.state = .run → s.canIssue i [.x a, .x d] = true → s.rx d ≠ BitVec.allOnes 64 →
    s.devOf (s.rx a) = none → s.devOf (s.rx d) = none → s.checkId s.myLaunch (s.rx a) true = none →
    s.checkId s.myLaunch (s.rx d) false = none → unitOfId (s.rx a) = u → (s.rx a).toNat % 16 = k.val → unitOfId (s.rx d) = v →
    u ≠ s.core → v ≠ u → (s.coreAt u).isUser k.val = true → src.state = .run → src.since = none → src.fwd = none → s.moving u k.val = false →
    s.paused (s.coreAt u).launch = false → s.settled u k.val = true → s.suitable u k.val v = true →
    (s.coreAt v).firstEligible = some j →
    ∃ t, exec i s = .next t ∧ (d ≠ 0 → t.me.xr d = s.coreId v j.val) ∧ t.me.pc = (s.me.advance 4 .next).pc ∧ t.me.state = .run ∧
      SameRegs s.me t.me [d] [] ∧ MovedTo s t u k v j ∧
      ∀ w m, (w ≠ s.core ∨ m ≠ s.ctx) → (w ≠ u ∨ m ≠ k) → (w ≠ v ∨ m ≠ j) → t.ctxAt w m = s.ctxAt w m) ∧
  ∀ (s : State) (d : Reg) (i u : Nat) (j k : Fin 16),
    let c := s.ctxAt i j
    let goesOn (t : State) : Prop := (t.ctxAt i j).state = .run ∧ (t.ctxAt i j).pc = (c.advance (wordLen c.ir) .next).pc ∧
      SameRegs c (t.ctxAt i j) [d] []
    c.state = .parked → c.park = .migrate d u k.val none (some true) →
    (s.ctxAt u k).state = .run → c.straddles (wordLen c.ir) = false →
    (∀ x ∈ s.cores, ∀ m, (match (x.2.ctxs.get m).park with | .migrate .. => true | _ => false) = true → x = (i, s.coreAt i) ∧ m = j) →
    (s.reg 0x190 = BitVec.allOnes 64 →
      ∃ t, exec (.migrationResponse (s.coreId u k.val)) s = .next t ∧ goesOn t ∧
        (d ≠ 0 → (t.ctxAt i j).xr d = BitVec.allOnes 64) ∧
        ((u ≠ i ∨ k ≠ j) → t.ctxAt u k = { s.ctxAt u k with parkRec := 0 }) ∧ SameMemory s t) ∧
    ∀ (v : Nat) (m : Fin 16), s.devOf (s.reg 0x190) = none → s.reg 0x190 ≠ BitVec.allOnes 64 → unitOfId (s.reg 0x190) = v → v < 1008 →
      u ≠ i → v ≠ u → s.suitable u k.val v = true → (s.coreAt v).firstEligible = some m →
      ∃ t, exec (.migrationResponse (s.coreId u k.val)) s = .next t ∧ goesOn t ∧ (d ≠ 0 → (t.ctxAt i j).xr d = s.coreId v m.val) ∧
        MovedTo s t u k v m

/-- R372 to R379: a walk. It asks the home of its next entry for it. A pointer takes it one level down; a leaf, from its entry or in
the host's answer, fills the TLB of the core and lets the context that waits make its access anew; an invalid entry, and a root
that lets no walk begin, raise TRANSLATION with the address. The host's answer to a request that a tlbinv has made void is discarded.
Readings of the model in it: assumptions 27, 34, 135, 162. -/
def Obligations.WalksEnd : Prop :=
  ∀ (s : State) (w : Walk) (u : Nat) (k : Fin 16) (va : Word),
    let c := s.ctxAt u k
    let filled (t : State) (l : TlbEntry) : Prop := t.walks = [] ∧ (t.ctxAt u k).state = .run ∧ (t.ctxAt u k).pc = c.pc ∧
      l ∈ (t.coreAt u).tlb ∧ (∀ v, v ≠ u → CoreKept s t v ∧ (t.coreAt v).ctxs = (s.coreAt v).ctxs) ∧ SameMemory s t
    s.walks = [w] → w.started = true → w.who = [.ctx u k.val] → c.state = .parked → c.park = .walk va →
    let faults (t : State) : Prop := t.walks = [] ∧ (t.ctxAt u k).code = causeTranslation ∧ (t.ctxAt u k).tval = va ∧
      (t.ctxAt u k).tepc = c.pc ∧ (t.ctxAt u k).pc = c.tvec ∧ SameMemory s t
    (w.asked = false → w.assisted = false → s.requests = [] → s.replies = [] → s.beats = [] → s.messages = [] →
      let moves := [Instr.pageWalk w.id, .homeAct s.nextId, .pageWalk w.id]
      let a := w.entryAddr
      let e := s.readNat a 8
      (w.rootOk = true → tableHome w.table = true → s.ready a = true → s.failedBeat a 8 = none →
        (storageOf a = .shm ∨ ∃ v, (storageOf a = .channel v ∨ storageOf a = .shard v) ∧
          s.homeSlot v = true) →
        (∀ p, w.take e = .next p → ∃ t, Moves moves s t ∧ t.walks = [{ w with level := w.level + 1, table := p }] ∧
          (∀ v, CoreKept s t v ∧ (t.coreAt v).ctxs = (s.coreAt v).ctxs) ∧ t.requests = [] ∧ SameMemory s t) ∧
        (∀ l, w.take e = .leaf l → ∃ t, Moves moves s t ∧ filled t l) ∧
        (w.take e = .fault → c.tact = false → ∃ t, Moves moves s t ∧ faults t)) ∧
      (w.rootOk = false → c.tact = false → ∃ t, exec (.pageWalk w.id) s = .next t ∧ faults t)) ∧
    ∀ (v : Word) (l : TlbEntry), w.asked = true → v.toNat / 64 % 64 = w.cluster → v.toNat / 4 % 16 = w.tag / 4 →
      leafOf (s.reg 0x180).toNat (v.toNat % 4) w.vpn = some l →
      (w.stale = false → ∃ t, exec (.translationResponse v) s = .next t ∧ filled t l) ∧
      (w.stale = true → ∃ t, exec (.translationResponse v) s = .next t ∧ t.walks = [{ w with asked := false, stale := false }] ∧
        t.cores = s.cores ∧ SameMemory s t)

/-! ## Lookup core: packed operations (R129 to R136) -/

/-- R131 to R134: the packed operations act lane by lane: an integer lane is narrowed from the exact result, a float lane is
rounded once, and the flags of all lanes are ORed into FCSR.
Readings of the model in it: assumptions 46, 125. -/
def Obligations.PackedArithmetic : Prop :=
  ∀ (s : State) (p : PackOp),
    let t := p.ty
    let w := t.width
    let lane (q : Quad) (j : Nat) : Nat := q.toNat / 2 ^ (w * j) % 2 ^ w
    let a := lane (s.rw p.a)
    let b := lane (s.rw p.b)
    let mode := Mode.ofCode s.me.rm p.m
    let sat := p.m == 1
    let int (v : Int) : Nat × Flags := (intResult t sat v, 0)
    let fits (i : Instr) (uses : List RegUse) (w n : Nat) (f : Nat → Nat × Flags) : Prop :=
      let rs := (List.range n).map f
      Leaves s i uses ((s.me.setW p.d (BitVec.ofNat 128 (joinLanes w (rs.map (·.1))))).raise (unionFlags (rs.map (·.2)))) .next
    let three : List RegUse := [.w p.d, .w p.a, .w p.b]
    let n := 128 / w
    fits (.padd p) three w n (fun j => if t.isInt then int (decodeInt t (a j) + decodeInt t (b j))
      else addFp t mode (decodeFp t (a j)) (decodeFp t (b j))) ∧
    fits (.psub p) three w n (fun j => if t.isInt then int (decodeInt t (a j) - decodeInt t (b j))
      else subFp t mode (decodeFp t (a j)) (decodeFp t (b j))) ∧
    fits (.pmul p) three w n (fun j => if t.isInt then int (decodeInt t (a j) * decodeInt t (b j))
      else mulFp t mode (decodeFp t (a j)) (decodeFp t (b j))) ∧
    fits (.pfma p) three w n (fun j => fmaFp t mode (decodeFp t (a j)) (decodeFp t (b j)) (decodeFp t (lane (s.rw p.d) j))) ∧
    fits (.pmin p) three w n (fun j => if t.isInt then (if decodeInt t (a j) < decodeInt t (b j) then a j else b j, 0)
      else minMaxFp t true (a j) (b j)) ∧
    fits (.pmax p) three w n (fun j => if t.isInt then (if decodeInt t (a j) < decodeInt t (b j) then b j else a j, 0)
      else minMaxFp t false (a j) (b j)) ∧
    fits (.pabs p) [.w p.d, .w p.a] w n (fun j => if t.isInt then int (decodeInt t (a j)).natAbs else absFp t (a j)) ∧
    fits (.pshl p) three w n (fun j =>
      let v := decodeInt t (a j)
      if b j < w then int (v * 2 ^ (b j)) else (if sat ∧ v ≠ 0 then wrapInt w (if v < 0 then t.minInt else t.maxInt) else 0, 0)) ∧
    fits (.pshr p) three w n (fun j => (wrapInt w (decodeInt t (a j) / 2 ^ min (b j) w), 0)) ∧
    fits (.pcmp p) three w n (fun j =>
      let r := if t.isInt then (condInt p.m (decodeInt t (a j)) (decodeInt t (b j)), 0)
        else condFp p.m (decodeFp t (a j)) (decodeFp t (b j))
      (if r.1 then 2 ^ w - 1 else 0, r.2)) ∧
    let acc := (dotShape t).1
    let g := (dotShape t).2
    let d (j : Nat) : Nat := (s.rw p.d).toNat / 2 ^ (acc.width * j) % 2 ^ acc.width
    (g * (128 / acc.width) = n → fits (.pdot p) three acc.width (128 / acc.width) (fun j =>
      let at' := (List.range g).map fun i => g * j + i
      if t.isInt then
        (intResult acc sat ((at'.map fun i => decodeInt t (a i) * decodeInt t (b i)).foldl (· + ·) (decodeInt acc (d j))), 0)
      else dotFp .fp32 mode (at'.map fun i => (decodeFp t (a i), decodeFp t (b i))) [decodeFp .fp32 (d j)]))

/-- R135, R136: the packed moves and conversions. pcvt converts the n low lanes, clears the bits above them and ORs the flags; it
adds to the counters of its launch, which this statement leaves out by its premise (R49).
Readings of the model in it: assumptions 46, 125. -/
def Obligations.PackedMoves : Prop :=
  ∀ (s : State) (t : ElTy) (p : PackOp) (d a b lane : Reg),
    let w := t.width
    let mask := s.rw d
    let old := (s.rw d).toNat
    let j := lane.toNat
    let el := (s.rw a).toNat / 2 ^ (w * j) % 2 ^ w
    Leaves s (.psel d a b) [.w d, .w a, .w b] (s.me.setW d ((s.rw a &&& mask) ||| (s.rw b &&& ~~~mask))) .next ∧
    Leaves s (.pmov d a) [.w d, .w a] (s.me.setW d (s.rw a)) .next ∧
    Leaves s (.psplat t d a) [.w d, .x a]
      (s.me.setW d (BitVec.ofNat 128 (joinLanes w (List.replicate (128 / w) ((s.rx a).toNat % 2 ^ w))))) .next ∧
    (j < 128 / w → Leaves s (.pext t d a lane) [.x d, .w a]
      (s.me.setX d (if t.isSigned then BitVec.ofInt 64 (BitVec.ofNat w el).toInt else BitVec.ofNat 64 el)) .next) ∧
    (j < 128 / w → Leaves s (.pins t d a lane) [.w d, .x a]
      (s.me.setW d (BitVec.ofNat 128
        (old - (old / 2 ^ (w * j) % 2 ^ w) * 2 ^ (w * j) + (s.rx a).toNat % 2 ^ w * 2 ^ (w * j)))) .next) ∧
    let from' := p.ty.width
    let to' := (packDest p).width
    let rs := (List.range (128 / max from' to')).map fun i =>
      convertEl p.ty (packDest p) (Mode.ofCode s.me.rm p.m) (p.b.getLsbD 4 || (!(packDest p).isInt && !s.me.cvm))
        ((s.rw p.a).toNat / 2 ^ (from' * i) % 2 ^ from')
    ((s.lcLaunch s.core = none ∨ ∀ r ∈ rs, r.count = none) →
      Leaves s (.pcvt p) [.w p.d, .w p.a]
        ((s.me.setW p.d (BitVec.ofNat 128 (joinLanes to' (rs.map (·.bits))))).raise (unionFlags (rs.map (·.flags)))) .next)

/-! ## Lookup core: the gather unit, the stream engine and bit streams (R137 to R169) -/

/-- R137, R145, R147: a command of the gather unit waits for a place of its core; its descriptor and its list are read, one act each;
once its checks pass it is accepted: it stands last among the commands with its list. Its destination is then emptied, a unit at a
step, and with the last of them the context goes on. A ddp with a result leaves xd absent.
Readings of the model in it: assumptions 49 to 51, 154, 158, 159, 163. -/
def Obligations.GatherCommandsAreAccepted : Prop :=
  ∀ (s : State) (i : Instr) (kind : GatherKind) (x : XOp) (g : GatherCmd),
    let scw := s.rx x.e
    let core := s.myCore
    let args : GatherArgs := ⟨kind, x, s.rx x.a, s.rx x.b, s.rx x.d, scw⟩
    let accepts := List.replicate ((firstReads s.core args).length + 1) (Instr.commandAcceptance s.core)
    let parked := (s.setMyCore { core with gwait := core.gwait ++ [(s.ctx.val, i)] }).park i .acceptance
    let n := destBytes kind g.table scw
    let pieces := if kind = .ddp then [(g.dest, 12 * g.ids.length)] else g.pieces n
    (kind, i) ∈ [(.gth, Instr.gth x), (.ddp, .ddp x), (.sred, .sred x), (.sadd, .sadd x), (.scst, .scst x)] → s.Sound → s.Quiet → core.gwait = [] → core.gread = [] → s.canIssue i [.x x.a, .x x.b, .x x.d, .x x.e] = true →
    scwOk kind scw = true → ¬(kind = .gth ∧ bitOf (scwMode scw) 3 ∧ s.rx x.b ≠ 0) →
    parked.checkCommand s.core s.ctx i args = (.ok [], some g) →
    g.id = s.nextId ∧ g.count = 0 ∧ g.ids = s.readList s.core (s.rx x.a).toNat (if kind = .sred then 4 else 8) (scwN scw) ∧
    ∃ (u : State) (c : GatherCmd) (n : Nat), Moves (i :: accepts) s u ∧ u.myCore.gcmds = [c] ∧ c.id = g.id ∧ c.kind = kind ∧
      c.ids = g.ids ∧ c.barrier = g.barrier ∧ c.table = g.table ∧ n ≤ c.empties.length ∧
      let t := (List.range n).foldl (fun st _ => st.gatherStep s.core g.id) u
      t.me.state = .run ∧ t.me.pc = (s.me.advance 4 .next).pc ∧ t.myCore.gcmds.map (·.id) = [g.id] ∧
      (∀ a, t.readByte a = s.readByte a) ∧
      (∀ p ∈ pieces, 0 < p.2 → (∀ m, storageOf p.1 ≠ .tileStore m) → ∀ a ∈ unitsOf p.1 p.2, t.isFull a = false) ∧
      (kind = .ddp ∧ x.d ≠ 0 → t.me.present x.d.toNat = false) ∧ SameRegs s.me t.me (if kind = .ddp then [x.d] else []) []

/-- R25, R147, R148, R151, R152, R157, R163, R284, R296: the moves of accepted commands. The beat that its port serves next has one of its
granules or words written and set full as one act; a row enters the transform queue; sred stops with its error bit at the limit of
a row's wait; a command that is done arrives at its barrier with the number of its units done and its error bit, or writes xd (ddp);
a core takes a new step of a table.
Readings of the model in it: assumptions 51, 53 to 56, 138, 160. -/
def Obligations.GatherCommandsProceed : Prop :=
  (∀ (s : State) (n : Nat) (b : Beat), s.beats[n]? = some b → s.beatNext (s.destPort b.addr) = some b → b.left ≠ [] →
    (∀ a ∈ b.left, b.addr ≤ a ∧ a + unitBytes a ≤ b.addr + 64 ∧ s.busy a (unitBytes a) = false ∧ s.boundAt a (unitBytes a) = false) →
    b.bytes.length = 64 → s.waiters = [] → s.watchers = [] →
    ∃ t, exec (.beatArrival n) s = .next t ∧ ∃ a ∈ b.left, Stored s t a ((b.bytes.drop (a - b.addr)).take (unitBytes a)) ∧
      t.isFull a = true ∧
      let rest := b.left.filter (· != a)
      t.beats = (if rest = [] then s.beats.eraseIdx n else s.beats.set n { b with left := rest }) ∧
      (b.addr % 64 = 0 → b.left = unitsOf b.addr 64 → (b.addr ∈ t.failing ↔ b.failed = true))) ∧
  (∀ (s : State) (q : QueuedRow) (g : GatherCmd),
    let c := s.coreAt q.u
    s.qrows = [q] → c.gcmds = [g] → g.id = q.cmd → (∀ f ∈ g.flight, q.seg.index ≤ f.entry) →
    (∃ f ∈ g.flight, f.entry = q.seg.index) → c.queueRoom q.seg.bytes.length = true →
    ∃ t, exec (.segmentArrival q.u) s = .next t ∧ t.qrows = [] ∧
      (c.cursor = none → c.txq = [] → (t.coreAt q.u).cursor = some q.seg.load ∧ (t.coreAt q.u).txq = []) ∧
      (c.cursor.isSome → (t.coreAt q.u).cursor = c.cursor ∧ (t.coreAt q.u).txq = c.txq ++ [q.seg]) ∧
      (t.coreAt q.u).gcmds.map (·.count) = [g.count + 1] ∧ SameMemory s t) ∧
  (∀ (s : State) (u : Nat) (g : GatherCmd) (start : Nat),
    let row := lsAddr u (g.src + g.ids.getD (g.offs.getD g.next 0 + g.pos) 0 * g.table.rb)
    (s.coreAt u).gcmds = [g] → g.waitFrom = some start → g.limit ≠ 31 → start + 2 ^ (g.limit.toNat + 6) ≤ s.ck →
    s.rangeFull row g.table.rb = false →
    ∃ t, exec (.sredRowWaitLimit u g.id) s = .next t ∧ (t.coreAt u).gcmds = [{ g with err := true, waitFrom := none }] ∧ SameMemory s t) ∧
  (∀ (s : State) (u : Nat) (g : GatherCmd),
    (s.coreAt u).gcmds = [g] → g.flight = [] → g.left = [] → g.kept = [] → g.sent = false → (g.err = true ∨ g.total ≤ g.next) →
    s.waiters = [] → s.watchers = [] →
    (∀ a, g.barrier = some a → g.kind ≠ .ddp → storageOf a = .shm → s.failedBeat a 8 = none → s.requests = [] → s.replies = [] →
      s.beats = [] →
      ∃ t, Moves [.gatherCommandComplete u g.id, .homeAct s.nextId, .gatherCommandComplete u g.id] s t ∧ (t.coreAt u).gcmds = [] ∧
        (∀ c ∈ t.claims, c.cmd = g.id → c.failed = true) ∧
        let old := s.readNat a 8
        Stored s t a (natToBytes 8 ((if g.err ∨ 2 ^ 63 ≤ old then 2 ^ 63 else 0) + old / 2 ^ 32 % 2 ^ 31 * 2 ^ 32 +
          (old + g.count) % 2 ^ 32))) ∧
    (g.kind = .ddp → g.d ≠ 0 → g.barrier = none → g.err = false → (s.ctxAt u (ctxIdx g.ctx)).pending = [⟨g.d.toNat, g.id⟩] →
      ∃ t, exec (.gatherCommandComplete u g.id) s = .next t ∧ (t.coreAt u).gcmds = [] ∧
        (t.ctxAt u (ctxIdx g.ctx)).xr g.d = BitVec.ofNat 64 g.uniq.length ∧ (t.ctxAt u (ctxIdx g.ctx)).present g.d.toNat = true ∧
        SameMemory s t)) ∧
  ∀ (s : State) (u : Nat) (j : StepJob), s.stepJobs = [j] → j.waiting.contains u = true →
    ∃ t, exec (.stepTake u) s = .next t ∧ SameMemory s t ∧ (∀ v, v ≠ u → t.coreAt v = s.coreAt v) ∧
      (∀ v, j.step = some v → (t.coreAt u).stepOf j.tid = v ∧ (t.coreAt u).noMerge.contains j.tid = false) ∧
      (j.inv = true → ∀ row ∈ (t.coreAt u).cache, row.tid ≠ j.tid) ∧
      ((∃ v ∈ j.waiting, v ≠ u) → ∃ k, t.stepJobs = [k] ∧ k.waiting = j.waiting.filter (· != u))

/-- R157: tstep. At the bank of the descriptor, the step word advances by one where it holds the value expected and is below
2^64 − 2, and the new step starts on its way to every core; else memory keeps every byte. The context goes on with xd absent. -/
def Obligations.TstepAdvancesTheStep : Prop :=
  ∀ (s : State) (d a e : Reg) (p : Nat) (l : Launch),
    let i := Instr.tstep d a e
    let scw := s.rx e
    let tid := scwTid scw
    let word := tdAddr tid + 0x10
    let old := s.readNat word 8
    let adv := old = (s.rx a).toNat ∧ old < 2 ^ 64 - 2
    let inv := bitOf (scwMode scw) 0
    s.Quiet → s.stepJobs = [] → s.canIssue i [.x a, .x d, .x e] = true → scw.toNat % 2 ^ 52 = 0 → scwMode scw < 2 →
    s.lcLaunch s.core = some (p, l) → l.binds tid = true → s.descriptorFails tid = none →
    (s.readTable tid).isSome = true → s.failedBeat word 8 = none →
    ∃ t, Moves [i, .homeAct s.nextId] s t ∧ t.me.pc = (s.me.advance 4 .next).pc ∧ t.me.state = .run ∧
      (d ≠ 0 → t.me.present d.toNat = false) ∧ SameRegs s.me t.me [d] [] ∧
      (adv → Stored s t word (natToBytes 8 (old + 1))) ∧ (¬adv → ∀ x, t.readByte x = s.readByte x) ∧
      (t.stepJobs.map fun j => (j.tid, j.step, j.inv, j.waiting)) =
        (if adv ∨ inv = true then [(tid, if adv then some (BitVec.ofNat 64 (old + 1)) else none, inv, List.range 1008)] else [])

/-- R159 to R162: the stream engine. sopen takes the lowest free slot, and sclose gives one back; snext takes the next element, read as a
request at its home, and 2^64 − 1 at the end. A merge of two streams at their last elements: where the elements are equal, sint and smrg
alike count one and put it out; where they are not, sint counts none, puts none out and moves the lower side alone, and smrg counts two
and puts out the lower one and then the other. Words are put out at x[e], which is 0 for none; x[e] then stands behind them.
Readings of the model in it: assumptions 27, 57, 58, 157, 163. -/
def Obligations.StreamsAdvance : Prop :=
  ∀ (s : State) (x : XOp) (d a : Reg), s.Quiet →
    let k := s.ctx.val
    let c := s.myCore
    let four : List RegUse := [.x x.a, .x x.b, .x x.d, .x x.e]
    let size := if s.rx x.e = 0 then 4 else 8
    let wake := Instr.contextWake s.core k
    let goesOn (t : State) : Prop := t.me.pc = (s.me.advance 4 .next).pc ∧ t.me.state = .run
    let reads (slot : StreamSlot) (at_ : Nat) : Prop := slot.pos < slot.n ∧ (slot.w = 4 ∨ slot.w = 8) ∧
      (∃ dev ga, s.translateEngine (.stream s.core k) s.core s.ctx (slot.va + BitVec.ofNat 64 (slot.pos * slot.w)) ⟨true, false, false⟩ =
        .ok dev at_ ga) ∧
      refuses (some s.core) s.me.prv (.load false) slot.w at_ = false ∧ s.boundAt at_ slot.w = false ∧ s.serves at_ slot.w
    (s.canIssue (.sopen x) four = true → (s.rx x.e).toNat ≤ 1 → (s.rx x.b).toNat < 2 ^ 32 → (s.rx x.a).toNat % size = 0 →
      (∀ n : Fin 8, (c.slots.get n).isOpen = false → (∀ m : Fin 8, m < n → (c.slots.get m).isOpen = true) →
        ∃ t, exec (.sopen x) s = .next t ∧ goesOn t ∧ (x.d ≠ 0 → t.me.xr x.d = BitVec.ofNat 64 n.val) ∧
          t.myCore.slots.get n = ⟨true, s.rx x.a, (s.rx x.b).toNat, size, 0, k⟩ ∧ SameMemory s t ∧ SameRegs s.me t.me [x.d] []) ∧
      ((∀ m : Fin 8, (c.slots.get m).isOpen = true) →
        exec (.sopen x) s = .next (s.after (.sopen x) (s.me.setX x.d (BitVec.allOnes 64))))) ∧
    (s.canIssue (.sclose a) [.x a] = true →
      ((c.slotOf k (s.rx a)).isSome → ∃ t, exec (.sclose a) s = .next t ∧ goesOn t ∧ t.myCore.slotOf k (s.rx a) = none ∧
        SameMemory s t ∧ SameRegs s.me t.me [] []) ∧
      (c.slotOf k (s.rx a) = none → exec (.sclose a) s = .next (s.trap causeIllegal (instrWord (.sclose a))))) ∧
    (∀ slot, c.slotOf k (s.rx a) = some slot → s.canIssue (.snext d a) [.x a, .x d] = true →
      (slot.n ≤ slot.pos → ∃ t, Moves [.snext d a, wake] s t ∧ goesOn t ∧ (d ≠ 0 → t.me.xr d = BitVec.allOnes 64) ∧
        SameMemory s t ∧ SameRegs s.me t.me [d] []) ∧
      (∀ at_, reads slot at_ →
        ∃ t, Moves [.snext d a, wake, .homeAct s.nextId, wake, wake] s t ∧ goesOn t ∧
          (d ≠ 0 → t.me.xr d = BitVec.ofNat 64 (s.readNat at_ slot.w)) ∧
          t.myCore.slotOf k (s.rx a) = some { slot with pos := slot.pos + 1 } ∧ SameMemory s t ∧ SameRegs s.me t.me [d] [])) ∧
    ∀ slotA slotB, c.slotOf k (s.rx x.a) = some slotA → c.slotOf k (s.rx x.b) = some slotB → s.rx x.a ≠ s.rx x.b → x.d ≠ 0 →
      x.d ≠ x.a → x.d ≠ x.b → x.d ≠ x.e →
      let out := (s.rx x.e).toNat
      let room (n : Nat) : Prop := out = 0 ∨ (out % 8 = 0 ∧ out + 8 * n ≤ 2 ^ 18 ∧ s.bound s.core out (8 * n) = false)
      let puts (t : State) (ys : List Nat) : Prop := t.me.xr x.d = s.rx x.d + BitVec.ofNat 64 ys.length ∧
        (out = 0 → SameMemory s t ∧ (x.e ≠ 0 → t.me.xr x.e = 0)) ∧
        (out ≠ 0 → Stored s t (lsAddr s.core out) (ys.flatMap (natToBytes 8)) ∧ t.me.xr x.e = s.rx x.e + BitVec.ofNat 64 (8 * ys.length) ∧
          ∀ a, t.isFull a = (s.isFull a || (List.range ys.length).any fun j => bitUnit a == bitUnit (lsAddr s.core (out + 8 * j)))) ∧
        SameRegs s.me t.me [x.d, x.e] []
      let at_ (t : State) (pa pb : Nat) : Prop := t.myCore.slotOf k (s.rx x.a) = some { slotA with pos := pa } ∧
        t.myCore.slotOf k (s.rx x.b) = some { slotB with pos := pb }
      let read (i : Instr) (wakes : Nat) : List Instr :=
        [i, wake, .homeAct s.nextId, wake, wake, .homeAct (s.nextId + 1), wake] ++ List.replicate wakes wake
      let merges (i : Instr) (union : Bool) : Prop := s.canIssue i four = true → out % 8 = 0 →
        (slotA.n ≤ slotA.pos → slotB.n ≤ slotB.pos →
          ∃ t, Moves [i, wake] s t ∧ goesOn t ∧ puts t [] ∧ at_ t slotA.pos slotB.pos) ∧
        (∀ ea eb, slotA.pos + 1 = slotA.n → slotB.pos + 1 = slotB.n → reads slotA ea → reads slotB eb →
          (homeOf ea ≠ homeOf eb ∨ s.servesMany eb) →
          let va := s.readNat ea slotA.w
          let vb := s.readNat eb slotB.w
          (va = vb → room 1 → ∃ t, Moves (read i 2) s t ∧ goesOn t ∧ puts t [va] ∧ at_ t slotA.n slotB.n) ∧
          (va ≠ vb → union = false → ∃ t, Moves (read i 2) s t ∧ goesOn t ∧ puts t [] ∧
            at_ t (if va < vb then slotA.n else slotA.pos) (if vb < va then slotB.n else slotB.pos)) ∧
          (va ≠ vb → union = true → room 2 →
            ∃ t, Moves (read i 3) s t ∧ goesOn t ∧ puts t [min va vb, max va vb] ∧ at_ t slotA.n slotB.n))
      merges (.sint x) false ∧ merges (.smrg x) true

/-- R164 to R169: the bit-stream instructions of the transform context on its current segment, whose bits are good. bget and bpeek read n
bits, those past the end as 0; bskip moves the cursor; bdec and bdecn decode codewords; bsync changes the segment or the accumulator.
Without a current segment bget and bdec raise ILLEGAL.
Readings of the model in it: assumptions 59, 60. -/
def Obligations.BitStreams : Prop :=
  ∀ (s : State) (x : XOp) (d a b : Reg) (cur : Cursor), s.Quiet → s.ctx = s.myCore.transformCtx →
    let n := (s.rx a).toNat
    let peek := cur.seg.bits / 2 ^ cur.p % 2 ^ min n (cur.stop - cur.p)
    let goes (i : Instr) (uses : List RegUse) (c : Context) (e : Option Cursor) : Prop := s.canIssue i uses = true →
      ∃ t, exec i s = .next t ∧ t.me = c.advance (wordLen (instrWord i)) .next ∧ t.myCore.cursor = e ∧ SameMemory s t ∧
        ∀ u k, u ≠ s.core ∨ k ≠ s.ctx → t.ctxAt u k = s.ctxAt u k
    (s.myCore.cursor = none → Traps s (.bget d a) [.x a, .x d] causeIllegal (instrWord (.bget d a)) ∧
      Traps s (.bdec d) [.x d] causeIllegal (instrWord (.bdec d))) ∧
    (s.myCore.cursor = some cur → cur.seg.bad = [] → cur.p ≤ cur.stop →
      (1 ≤ n → n ≤ 64 →
        goes (.bget d a) [.x a, .x d] (s.me.setX d (BitVec.ofNat 64 peek)) (some { cur with p := min (cur.p + n) cur.stop }) ∧
        goes (.bpeek d a) [.x a, .x d] (s.me.setX d (BitVec.ofNat 64 peek)) (some cur)) ∧
      goes (.bskip a) [.x a] s.me (some { cur with p := min (cur.p + n) cur.stop }) ∧
      (∀ v, cur.err = false → cur.symbol.value = some v →
        goes (.bdec d) [.x d] (s.me.setX d (BitVec.ofNat 64 v)) (some { cur with p := cur.symbol.last })) ∧
      (cur.err = false → cur.symbol.value = none →
        goes (.bdec d) [.x d] (s.me.setX d (BitVec.allOnes 64)) (some { cur with err := true })) ∧
      (∀ v, s.canIssue (.bdecn x) [.x x.a, .x x.b, .x x.d, .x x.e] = true → s.rx x.e = 0 → s.rx x.b = 1 → x.d ≠ 0 →
        s.localOperand s.core (s.rx x.a) 8 8 = none → cur.err = false → cur.p < cur.stop → cur.symbol.value = some v →
        let wake := Instr.contextWake s.core s.ctx.val
        ∃ t, Moves [.bdecn x, wake, wake] s t ∧ t.me.xr x.d = 1 ∧ t.me.pc = (s.me.advance 4 .next).pc ∧
          t.myCore.cursor = some { cur with p := cur.symbol.last, acc := cur.acc + BitVec.ofNat 64 v } ∧
          Stored s t (lsAddr s.core (s.rx x.a).toNat) (natToBytes 8 (cur.acc + BitVec.ofNat 64 v).toNat) ∧
          t.isFull (lsAddr s.core (s.rx x.a).toNat) = true ∧ t.claims = []) ∧
      (s.rx b = 3 → goes (.bsync d a b) [.x a, .x b, .x d] (s.me.setX d cur.acc) (some { cur with acc := s.rx a })) ∧
      (∀ g rest, s.rx b = 0 → s.myCore.txq = g :: rest →
        goes (.bsync d a b) [.x a, .x b, .x d] (s.me.setX d (BitVec.ofNat 64 g.index)) (some g.load)))

/-! ## Dense tiles: issue, control and the loop slot (R202 to R212, R235 to R238, R269 to R272) -/

/-- R204, R210, R224, R259: a command word of the S or C stream issues once its queue has room and its tokens are there: it enters
its queue with the index registers and the records that it captures, of which no beat fails, and the stream goes on. A word of cvt whose
sat does not apply to its destination is ILLEGAL. A matrix item enters the matrix queue, and
the bundle's loop item is what moves the stream on. Only a keeper, the lowest tile of four, issues skeep. -/
def Obligations.CommandsAreQueued : Prop :=
  ∀ s : State, (∀ n q, s.turn ≠ .cmd n q) →
    let n := s.tile
    let rec64 (sh : BitVec 7) : List Byte := if sh.toNat < 64 then s.readBytes (shapeAddr n sh.toNat) 64 else []
    let queued (st : Stream) (i : Instr) (tok ja jb : BitVec 4) (sha shb : BitVec 7) : Prop :=
      let x := s.strm n st
      x.queue.length < 16 → s.popsReady st tok → s.recordsFail n [sha, shb] = none →
      ∃ t c, exec i s = .next t ∧ (t.strm n st).queue = x.queue ++ [c] ∧ (t.strm n st).status = .run ∧ c.id = s.nextId ∧
        c.idx = x.pc ∧ c.instr = i ∧ c.ja = x.jr ja ∧ c.jb = x.jr jb ∧ c.recA = rec64 sha ∧ c.recB = rec64 shb ∧
        c.cursor = 0 ∧ c.started = false ∧ WordPasses s t st tok (some s.nextId) false ∧ SameMemory s t
    let copy (st : Stream) (i : Instr) (o : CopyOp) : Prop := queued st i o.tok o.ja o.jb o.sha o.shb
    let entered (i : Instr) (plane : Bool) : Prop :=
      let x := s.strm n .m
      x.queue.length < 4 →
      ∃ t c, exec i s = .next t ∧ (t.strm n .m).queue = x.queue ++ [c] ∧ c.id = s.nextId ∧ c.instr = i ∧ c.cursor = 0 ∧
        c.started = false ∧ (matrixPath i).2 = some plane ∧ (t.strm n .m).pc = x.pc ∧ SameMemory s t ∧ t.cores = s.cores ∧
        ∀ m, m ≠ n → t.tileAt m = s.tileAt m
    (∀ o : CopyOp, copy .s (.xld o) o ∧ copy .s (.xst o) o ∧ copy .s (.xcp o) o ∧ copy .s (.xstash o) o ∧ copy .s (.xrest o) o ∧
      copy .c (.cpack o) o ∧ copy .c (.cunpack o) o) ∧
    (∀ o : CvtOp, (cvtBad o s = false → copy .c (.cvt o) o.copy) ∧
      (cvtBad o s = true → exec (.cvt o) s = .next (s.tileTrap n .c ⟨causeIllegal, instrWord (.cvt o), 0, 0⟩))) ∧
    (∀ o : BldOp, queued .s (.xbld o) o.tok o.ja 0 o.sha 64) ∧
    (∀ o : BindOp, queued .s (.xbindIn o) o.tok 0 0 64 64 ∧ queued .s (.xbindOut o) o.tok 0 0 64 64) ∧
    (∀ (l : BitVec 3) (tok : BitVec 4), queued .s (.xbindOff l tok) tok 0 0 64 64 ∧ queued .s (.xsetRstage l tok) tok 0 0 64 64) ∧
    (∀ o : CoachOp, queued .s (.xceHalve o) o.tok o.ja o.jb o.sha o.shb ∧ queued .s (.xceDbl o) o.tok o.ja o.jb o.sha o.shb ∧
      queued .s (.xceXchg o) o.tok o.ja o.jb o.sha o.shb) ∧
    (∀ o : ScaleOp, queued .c (.bscale o) o.tok o.ja o.jb o.sha o.shb) ∧
    (∀ (k : BitVec 2) (tok : BitVec 4), queued .c (.srecv k tok) tok 0 0 64 64) ∧
    (∀ o : KeepOp, (n % 4 = 0 → queued .c (.skeep o) o.tok o.ja o.jb o.sha o.shb) ∧
      (n % 4 ≠ 0 → exec (.skeep o) s = .next (s.tileTrap n .c ⟨causeIllegal, instrWord (.skeep o), 0, 0⟩))) ∧
    (∀ o : MmaOp, aUnbound o s = false → entered (.mma o) o.plane ∧ entered (.mmas o) o.plane) ∧
    (∀ plane : Bool, entered (.mzero plane) plane) ∧
    ∀ o : DrainOp, targetUnbound o s = false → entered (.mdrain o) o.plane

/-- R206, R207, R245, R269 to R272, R300: the words of the S and C streams that are no commands. Each finishes when it issues: it writes
its register, takes its records, discards the commands that have not started, enters or skips a loop, halts its stream, or waits; xwait.bar
waits for an earlier command that has still to write its word (R204). A write of
the tile FCSR waits while an earlier command of its stream reads or writes it, and loses no flag that the hardware sets in its ck.
Readings of the model in it: assumptions 72 to 74. -/
def Obligations.StreamWordsComplete : Prop :=
  ∀ s : State,
    let n := s.tile
    let tile := s.tileAt n
    let passes (st : Stream) (i : Instr) (tok : BitVec 4) (after : State → Prop) : Prop := s.popsReady st tok →
      ∃ t, exec i s = .next t ∧ (t.strm n st).status = .run ∧ WordPasses s t st tok none false ∧ after t
    let sameJ (st : Stream) (t : State) : Prop := s.noLoopEnds st → ∀ r, (t.strm n st).jr r = (s.strm n st).jr r
    let sets (st : Stream) (o : SetOp) (v : BitVec 32) (t : State) : Prop := s.noLoopEnds st →
      ∀ r, (t.strm n st).jr r = if r = o.ja ∧ r ≠ 0 then (s.strm n st).jr o.jb + v else (s.strm n st).jr r
    let low (o : SetOp) : BitVec 32 := o.imm.zeroExtend 32
    let drained (st : Stream) (t : State) : Prop := SameMemory s t ∧
      (t.strm n st).queue = (s.strm n st).queue.filter fun (c : DtCmd) => c.started || c.occ.isSome
    let fcsrIs (imm : BitVec 16) (t : State) : Prop := SameMemory s t ∧
      (∀ i < 5, (t.tileAt n).fcsr.getLsbD i = (imm.getLsbD i || (tile.fcsr.getLsbD i && (s.flagsJustSet n).getLsbD i))) ∧ ((t.tileAt n).fcsr.getLsbD 8 = imm.getLsbD 8) ∧
      (t.tileAt n).fcsr.extractLsb' 5 3 = (if 5 ≤ imm.toNat / 32 % 8 then tile.fcsr.extractLsb' 5 3 else imm.extractLsb' 5 3)
    let fcsrWaits (st : Stream) (i : Instr) : Prop := ∃ t, exec i s = .next t ∧ (t.strm n st).status = .wait ∧
      (t.strm n st).pc = (s.strm n st).pc ∧ (t.tileAt n).fcsr = tile.fcsr ∧ (t.tileAt n).tokens = tile.tokens ∧ SameMemory s t
    let halts (st : Stream) (i : Instr) (tok : BitVec 4) : Prop := s.popsReady st tok →
      ∃ t, exec i s = .next t ∧ (t.strm n st).status = .halting ∧ WordPasses s t st tok none true ∧ SameMemory s t
    let loops (st : Stream) (i : Instr) (o : DtLoopOp) : Prop :=
      let x := s.strm n st
      let last := x.pc + 1 + o.len.toNat
      let count := x.jr o.ja
      let bad := 4096 < last ∨ count ≠ 0 ∧ (2 ≤ x.loops.length ∨ ∃ r, x.loops.head? = some r ∧ ¬(r.start ≤ x.pc + 1 ∧ last ≤ r.last))
      s.popsReady st o.tok →
      (bad → exec i s = .next (s.tileTrap n st ⟨causeIllegal, instrWord i, 0, 0⟩)) ∧
      (¬bad → count = 0 → s.noLoopEnds st →
        ∃ t, exec i s = .next t ∧ (t.strm n st).pc = last ∧ (t.strm n st).loops = x.loops ∧ SameMemory s t) ∧
      (¬bad → count ≠ 0 → ∃ t, exec i s = .next t ∧ (t.strm n st).pc = x.pc + 1 ∧
        (t.strm n st).loops = ⟨count, x.pc + 1, last, o.jb, o.step⟩ :: x.loops ∧ SameMemory s t)
    (∀ tok : BitVec 4,
      passes .s (.xnop tok) tok (fun t => sameJ .s t ∧ SameMemory s t) ∧ passes .c (.cnop tok) tok (fun t => sameJ .c t ∧ SameMemory s t) ∧
      passes .s (.xwaitDrain tok) tok (drained .s) ∧ passes .c (.csetDrain tok) tok (drained .c) ∧
      halts .s (.xhalt tok) tok ∧ halts .c (.chalt tok) tok ∧
      ((s.strm n .s).held = none →
        (s.streamDrained n .s = true → passes .s (.xwait tok) tok (fun t => (t.strm n .s).held = none ∧ SameMemory s t)) ∧
        (s.streamDrained n .s = false → s.popsReady .s tok → ∃ t, exec (.xwait tok) s = .next t ∧
          (t.strm n .s).held.isSome ∧ (t.strm n .s).status = .wait ∧ (t.strm n .s).pc = (s.strm n .s).pc ∧ SameMemory s t))) ∧
    (∀ o : SetOp,
      passes .s (.xset o) o.tok (fun t => sets .s o (low o) t ∧ SameMemory s t) ∧
      passes .s (.xsetHi o) o.tok (fun t => sets .s o (low o <<< 16) t ∧ SameMemory s t) ∧
      passes .c (.cset o) o.tok (fun t => sets .c o (low o) t ∧ SameMemory s t) ∧
      passes .c (.csetHi o) o.tok (fun t => sets .c o (low o <<< 16) t ∧ SameMemory s t) ∧
      passes .s (.xsetMj o) o.tok (fun t => SameMemory s t ∧ (t.strm n .m).pc = (s.strm n .m).pc ∧
        ∀ r, (t.strm n .m).jr r = if r = o.ja ∧ r ≠ 0 then (s.strm n .s).jr o.jb + low o else (s.strm n .m).jr r)) ∧
    (∀ (imm : BitVec 16) (tok : BitVec 4),
      passes .s (.xsetTctl imm tok) tok (fun t => SameMemory s t ∧
        (t.tileAt n).lwd = (if imm.extractLsb' 8 5 = 31 ∧ s.tileBounded n then tile.lwd else imm.extractLsb' 8 5) ∧
        (t.tileAt n).aq = if imm.extractLsb' 0 2 = 3 then tile.aq else imm.extractLsb' 0 2) ∧
      (s.fcsrInUse n .s = false → passes .s (.xsetFcsr imm tok) tok (fcsrIs imm)) ∧
      (s.fcsrInUse n .c = false → passes .c (.csetFcsr imm tok) tok (fcsrIs imm)) ∧
      (s.fcsrInUse n .s = true → fcsrWaits .s (.xsetFcsr imm tok)) ∧ (s.fcsrInUse n .c = true → fcsrWaits .c (.csetFcsr imm tok)) ∧
      passes .s (.xsetRrb imm tok) tok (fun t => SameMemory s t ∧ (t.tileAt n).rrbAt s.ck = tile.rrbAt s.ck ∧
        ∀ ck, s.ck < ck → (t.tileAt n).rrbAt ck = imm.extractLsb' 0 8)) ∧
    (∀ (k count : BitVec 7) (word : BitVec 16) (tok : BitVec 4), k.toNat + count.toNat ≤ 64 → word.toNat + 8 * count.toNat ≤ 4096 →
      s.failedBeat (imemAddr n .s word.toNat) (64 * count.toNat) = none →
      passes .s (.xsetRload k count word tok) tok (fun t =>
        (∀ i < count.toNat, ∀ b < 64,
          t.readByte (shapeAddr n (k.toNat + i) + b) = s.readByte (imemAddr n .s (word.toNat + 8 * i) + b)) ∧
        ∀ a, (a < shapeAddr n k.toNat ∨ shapeAddr n (k.toNat + count.toNat) ≤ a) → t.readByte a = s.readByte a)) ∧
    (∀ o : DtLoopOp, loops .s (.xloop o) o ∧ loops .c (.cloop o) o) ∧
    (∀ (tok : BitVec 4) (r : DtLoop) (rest : List DtLoop), s.popsReady .s tok → (s.strm n .s).loops = r :: rest →
      r.last = (s.strm n .s).pc + 1 →
      ∃ t, exec (.xnop tok) s = .next t ∧
        (r.count ≠ 1 → (t.strm n .s).pc = r.start ∧ (t.strm n .s).loops = { r with count := r.count - 1 } :: rest) ∧
        (r.count = 1 → rest = [] → (t.strm n .s).pc = r.last ∧ (t.strm n .s).loops = []) ∧
        ((r.count ≠ 1 ∨ rest = []) → ∀ j, (t.strm n .s).jr j =
          if j = r.ind ∧ j ≠ 0 then (s.strm n .s).jr j + r.step.zeroExtend 32 else (s.strm n .s).jr j)) ∧
    ∀ (sha : BitVec 7) (ja : BitVec 4) (imm : BitVec 16) (tok : BitVec 4) (r : ShapeRec) (a : Nat),
      let i := Instr.xwaitBar sha ja imm tok
      s.failedBeat (shapeAddr n sha.toNat) 64 = none → (sha = 64 → s.stagePending n = false) →
      s.popsReady .s tok → (s.strm n .s).held = none → s.beats = [] → s.requests = [] → s.replies = [] → s.messages = [] →
      (∀ f ∈ s.flits, f.isSlot = false) → s.barRecord n sha = some r →
      r.misaligned n = none → s.spot n .s (r.side s.dev n 0 0) r.addr.toNat ⟨true, false, false⟩ = .at none a →
      (s.barPending n r = true → ∃ t, exec i s = .next t ∧ (t.strm n .s).held.isSome ∧ (t.strm n .s).status = .wait ∧
        (t.strm n .s).pc = (s.strm n .s).pc ∧ t.requests = [] ∧ SameMemory s t) ∧
      (s.barPending n r = false →
      storageOf a = .shm → s.ready a = true → s.failedBeat a 8 = none → bitOf (s.readNat (a / 8 * 8) 8) 63 = false →
      ((s.strm n .s).jr ja + imm.zeroExtend 32).toNat ≤ s.readNat (a / 8 * 8) 8 % 2 ^ 32 →
      ∃ t, Moves [i, .homeAct s.nextId, i] s t ∧ (t.strm n .s).held = none ∧ WordPasses s t .s tok none false ∧ SameMemory s t)

/-- R206, R211, R212, R235 to R238, R246: the items of the loop slot, the end of an instruction, and a wait that passes its limit.
Readings of the model in it: assumptions 77, 80, 148. -/
def Obligations.LoopSlotAndEnds : Prop :=
  ∀ s : State,
    let n := s.tile
    let x := s.strm n .m
    let at_ (t : State) (pc : Nat) (ls : List DtLoop) (status : StreamStatus) : Prop :=
      (t.strm n .m).pc = pc ∧ (t.strm n .m).loops = ls ∧ (t.strm n .m).status = status ∧
        (∀ j, (t.strm n .m).jr j = x.jr j) ∧ (t.strm n .m).queue = x.queue ∧ SameMemory s t ∧ t.cores = s.cores ∧
        ∀ m, m ≠ n → t.tileAt m = s.tileAt m
    let traps (i : Instr) : Prop := exec i s = .next (s.tileTrap n .m (s.illegalBundle n x.pc))
    (∃ t, exec .mNop s = .next t ∧ at_ t (x.pc + 1) x.loops x.status) ∧
    (∃ t, exec .halt s = .next t ∧ at_ t (x.pc + 1) x.loops .halting) ∧
    (∀ j : BitVec 4,
      (s.matchingEnd n 4096 (x.pc + 1) 0 = none → traps (.mLoop j)) ∧
      ∀ last, s.matchingEnd n 4096 (x.pc + 1) 0 = some last →
        (x.jr j = 0 → ∃ t, exec (.mLoop j) s = .next t ∧ at_ t (last + 1) x.loops x.status) ∧
        (x.jr j ≠ 0 → 4 ≤ x.loops.length → traps (.mLoop j)) ∧
        (x.jr j ≠ 0 → x.loops.length < 4 →
          ∃ t, exec (.mLoop j) s = .next t ∧ at_ t (x.pc + 1) (⟨x.jr j, x.pc + 1, last, 0, 0⟩ :: x.loops) x.status)) ∧
    (x.loops = [] → traps .endl ∧ ∀ r1, traps (.lrot r1)) ∧
    (∀ r rest, x.loops = r :: rest →
      let pc := if r.count = 1 then r.last + 1 else r.start
      let ls := if r.count = 1 then rest else { r with count := r.count - 1 } :: rest
      (∃ t, exec .endl s = .next t ∧ at_ t pc ls x.status ∧ (t.tileAt n).rrbAt s.ck = (s.tileAt n).rrbAt s.ck) ∧
      ∀ r1 : BitVec 4, ∃ t, exec (.lrot r1) s = .next t ∧ at_ t pc ls x.status ∧
        (t.tileAt n).rrbAt s.ck = (s.tileAt n).rrbAt s.ck + (r1.zeroExtend 8 + 1)) ∧
    (∀ target : BitVec 12, ∃ t ls, exec (.jmp target) s = .next t ∧ at_ t target.toNat ls x.status ∧ ls <:+ x.loops ∧
      (∀ r, ls.head? = some r → r.start ≤ target.toNat ∧ target.toNat ≤ r.last) ∧
      ∀ r ∈ x.loops.take (x.loops.length - ls.length), ¬(r.start ≤ target.toNat ∧ target.toNat ≤ r.last)) ∧
    ∀ (m : Nat) (st : Stream),
      let y := s.strm m st
      (∀ p rest, y.pushes = p :: rest → (∀ id, p.cmd = some id → s.unfinished m st id = false) →
        (p.all = true → s.streamDrained m st = true) → (s.tileAt m).pushBlocked (pushesOf st p.tok p.two) = none →
        ∃ t, exec (.dtInstructionFinish m st) s = .next t ∧ (t.strm m st).pushes = rest ∧
          (t.tileAt m).tokens = ((s.tileAt m).doPushes s.ck p.idx (pushesOf st p.tok p.two)).tokens ∧ SameMemory s t ∧
          ∀ k, k ≠ m → t.tileAt k = s.tileAt k) ∧
      (y.pushes = [] → y.status = .halting → y.held = none → s.streamDrained m st = true →
        ∃ t, exec (.dtInstructionFinish m st) s = .next t ∧ (t.strm m st).status = .halted ∧ SameMemory s t ∧
          ∀ k, k ≠ m → t.tileAt k = s.tileAt k) ∧
      ∀ w : DtWait, (s.tileAt m).stopped = false → y.wait = some w → w.passed s.ck = true →
        ∃ t, exec (.tileStall m st) s = .next t ∧ (t.tileAt m).stopped = true ∧ (t.tileAt m).valid = true ∧
          (t.tileAt m).code = causeStall ∧ (t.tileAt m).strm = BitVec.ofNat 2 (streamCode st) ∧
          (t.tileAt m).val0 = (match w.what with | .code u c => queueId s.dev (1024 + u) c | .address a _ => gaWord a) ∧
          ((t.tileAt m).aux = match w.what with | .code u c => s.waitProducer m st u c false | .address a _ => s.claimProducer a)

/-! ## Dense tiles: commands (R231 to R234, R258 to R268, R303 to R307) -/

/-- R217, R231, R232, R233, R260 to R263, R269: the last steps of commands of the S and C streams. An element moves bit for bit (xld, xst,
xcp, cpack, cunpack) or converted (cvt) into its place, whose granule is set full, and every other byte stays; bscale writes a block
and its scale; xbld writes a column of B; skeep delivers both images and srecv takes them; xset.rstage takes a record. Each granule or
word that is written is one act of its home. In a launch, cvt and bscale add to its counters the events of R49, which this statement
leaves out by its premises.
Readings of the model in it: assumptions 61, 62, 68, 78, and 125 for a reserved RM in FCSR. -/
def Obligations.CopiesComplete : Prop :=
  ∀ (s : State) (c : DtCmd) (a b : ShapeRec),
    let n := s.tile
    let fcsr := (s.tileAt n).fcsr
    let mode (rm : BitVec 3) : Mode := Mode.ofCode (fcsr.extractLsb' 5 3) rm
    let single (o : CopyOp) : Prop := parseShape c.recA = some a ∧ parseShape c.recB = some b ∧ a.count = 1 ∧ b.count = 1 ∧
      o.rq = 0 ∧ o.wq = 0 ∧ c.cursor = 0 ∧ c.buf = []
    let inTile (r : ShapeRec) (x : Nat) : Prop := r.kind = 1 ∧ x % elBytes r.ty = 0 ∧ x + elBytes r.ty ≤ 0x400000
    let el (r : ShapeRec) (at_ : Nat) : Nat := s.readNat at_ (elBytes r.ty) % 2 ^ r.ty.width
    let puts (t : State) (at_ v : Nat) : Prop :=
      Stored s t at_ (natToBytes (elBytes b.ty) (if b.ty = .e2m1 then s.readNat at_ 1 / 16 * 16 + v % 16 else v)) ∧
        t.isFull at_ = true
    let home (r : ShapeRec) (x g at_ : Nat) (need : Need) : Prop := r.kind = 2 ∧ x % elBytes r.ty = 0 ∧ g % 8 = 0 ∧ storageOf g = .shm ∧
      s.ready g = true ∧ s.failedBeat g 8 = none ∧
      s.spot n .s ⟨.virt false, x, r.ty, r.sizes, r.strides, 1⟩ (at_ : Nat) need = .at none (g + (at_ - x / 8 * 8))
    let moves (st : Stream) (i : Instr) (o : CopyOp) (v : Nat → Nat) : Prop :=
      let x := a.addr.toNat + c.ja.toNat * 2 ^ o.sa.toNat
      let y := b.addr.toNat + c.jb.toNat * 2 ^ o.sb.toNat
      c.instr = i → s.running st c → single o → inTile a x → inTile b y → s.failedBeat (tsAddr n (x / 16 * 16)) 16 = none →
      ∃ t, Moves ([i, i] ++ settles i s.nextId 1) s t ∧ CommandEnds s t st ∧ puts t (tsAddr n y) (v (el a (tsAddr n x)))
    (∀ o : CopyOp,
      let x := a.addr.toNat + c.ja.toNat * 2 ^ o.sa.toNat
      let y := b.addr.toNat + c.jb.toNat * 2 ^ o.sb.toNat
      (a.ty = b.ty → moves .s (.xcp o) o fun v => v) ∧
      (a.ty = .n8 → b.ty = .e2m1 → moves .c (.cpack o) o fun v => v) ∧
      (a.ty = .e2m1 → b.ty = .n8 → moves .c (.cunpack o) o fun v => v) ∧
      (∀ g, a.ty = b.ty → c.instr = .xld o → s.running .s c → single o → home a x g x ⟨true, false, false⟩ → inTile b y →
        ∃ t, Moves ([.xld o, .homeAct s.nextId, .xld o, .xld o] ++ settles (.xld o) (s.nextId + 1) 1) s t ∧ CommandEnds s t .s ∧
          puts t (tsAddr n y) (el a (g + x % 8))) ∧
      ∀ g, a.ty = b.ty → c.instr = .xst o → s.running .s c → single o → inTile a x → home b y g (y / 8 * 8) ⟨false, true, false⟩ →
        s.spot n .s ⟨.virt false, y, b.ty, b.sizes, b.strides, 1⟩ (y : Nat) ⟨false, true, false⟩ = .at none (g + y % 8) →
        s.failedBeat (tsAddr n (x / 16 * 16)) 16 = none →
        ∃ t, Moves [.xst o, .xst o, .homeAct s.nextId, .xst o, .xst o] s t ∧ CommandEnds s t .s ∧
          puts t (g + y % 8) (el a (tsAddr n x))) ∧
    (∀ o : CvtOp, a.ty ≠ b.ty → (o.sat = true → b.ty = .e4m3 ∨ b.ty = .e5m2 ∨ b.ty.isInt = true) →
      let conv := convertEl a.ty b.ty (mode o.rm) (o.sat || (!b.ty.isInt && !fcsr.getLsbD 8))
      s.countsNone [conv (el a (tsAddr n (a.addr.toNat + c.ja.toNat * 2 ^ o.copy.sa.toNat)))] →
      moves .c (.cvt o) o.copy fun v => (conv v).bits) ∧
    (∀ o : ScaleOp,
      let y := b.addr.toNat + c.jb.toNat
      let z := 512 * o.srow.toNat
      let r := scaleBlock a.ty b.ty (mode o.rm) (o.sat || !fcsr.getLsbD 8) o.fit (c.read 0 32)
      c.instr = .bscale o → s.running .c c → parseShape c.recA = some a → parseShape c.recB = some b → a.kind = 1 → b.kind = 1 →
      a.count = 32 → b.sizes = [32, 1, 1, 1] → b.strides.getD 0 0 = 1 → a.ty.isFloat = true → (b.ty = .e4m3 ∨ b.ty = .e5m2) → o.rq = 0 →
      o.wq = 0 → c.cursor = 0 → c.hasRead 0 32 → y + 32 ≤ 0x400000 → (y + 32 ≤ z ∨ z < y) → s.countsNone r.2 →
      ∃ t, Moves (.bscale o :: settles (.bscale o) s.nextId ((y + 47) / 16 - y / 16 + 1)) s t ∧ CommandEnds s t .c ∧ t.readByte (tsAddr n z) = BitVec.ofNat 8 r.1 ∧
        ∀ i < 32, t.readByte (tsAddr n (y + i)) = BitVec.ofNat 8 (((r.2.map (·.bits)).getD i 0))) ∧
    (∀ o : BldOp,
      let k := a.sizes.getD 0 1
      let cols := a.sizes.getD 1 1
      c.instr = .xbld o → s.running .s c → parseShape c.recA = some a → a.kind = 2 → isMatrixType a.ty = true → a.ty ≠ .e2m1 →
      cols ≤ 128 → a.sizes.getD 2 1 = 1 → a.sizes.getD 3 1 = 1 → 1024 * o.off.toNat + k * a.ty.width ≤ 8 * 131072 → o.rq = 0 →
      c.cursor + 1 = cols → c.hasRead (c.cursor * k) k →
      ∃ t, exec (.xbld o) s = .next t ∧ CommandEnds s t .s ∧
        Stored s t (bsramAddr n c.cursor (128 * o.off.toNat))
          (natToBytes (k * a.ty.width / 8) (joinLanes a.ty.width (c.read (c.cursor * k) k)))) ∧
    (∀ (o : KeepOp) (m : Nat),
      c.instr = .skeep o → s.running .c c → parseShape c.recA = some a → parseShape c.recB = some b → a.kind = 1 → b.kind = 1 →
      a.ty = .n8 → b.ty = .n8 → a.count = 512 → b.count = 512 → o.rq = 0 → c.cursor = 0 → keepTargets n o.mask = [m] →
      c.hasRead 0 1024 → (s.tileAt m).pendFull.getLsbD o.n.toNat = false →
      ∃ t, exec (.skeep o) s = .next t ∧ (t.strm n .c).queue = [] ∧ (t.tileAt m).pendFull.getLsbD o.n.toNat = true ∧
        Stored s t (pendAddr m o.n.toNat) ((c.read 0 1024).map (BitVec.ofNat 8))) ∧
    (∀ (k : BitVec 2) (tok : BitVec 4),
      c.instr = .srecv k tok → s.running .c c → (s.tileAt n).pendFull.getLsbD k.toNat = true →
      ∃ t, exec (.srecv k tok) s = .next t ∧ CommandEnds s t .c ∧ (t.tileAt n).pendFull.getLsbD k.toNat = false ∧
        Stored s t (scaleAddr n k.toNat) (s.readBytes (pendAddr n k.toNat) 1024)) ∧
    ∀ (l : BitVec 3) (tok : BitVec 4),
      c.instr = .xsetRstage l tok → s.running .s c → (s.ep n l).dir = .inbound → 64 ≤ (s.ep n l).avail → s.epFailed n l 0 64 = none →
      ∃ t, exec (.xsetRstage l tok) s = .next t ∧ CommandEnds s t .s ∧ Stored s t (shapeAddr n 64) (s.epBytes n l 0 64)

/-- R54 to R60, R264 to R266, R304: a stash of one block is read, coded by the codec of the floe's controller and written as one act; a restore
reads and decodes it there and writes its elements, granule by granule. In a launch, xstash adds to its counters the events of R49 and
R61, which this statement leaves out by its premise.
Readings of the model in it: assumptions 81, 83. -/
def Obligations.FirnBlocksComplete : Prop :=
  ∀ (s : State) (c : DtCmd) (o : CopyOp) (f x : ShapeRec) (g : Nat → Nat),
    let n := s.tile
    let cnt := x.count
    let k := f.floeK
    let one (i : Instr) : Prop := c.instr = i ∧ s.running .s c ∧ c.cursor = 0 ∧ c.occ = none ∧ c.phys ≠ [] ∧ s.firn = [] ∧
      f.kind = 4 ∧ x.kind = 1 ∧ f.ty = x.ty ∧ f.count = cnt ∧ cnt ≤ 64 ∧ o.rq = 0 ∧ o.wq = 0
    let placed (extra : Nat) (need : Need) (offs : List Nat) : Prop :=
      (∀ p ∈ offs, s.floeSpot n f extra 0 need p = .at none (g p) ∧ s.ready (g p) = true) ∧ (offs.map g).Nodup
    (let extra := c.jb.toNat * 2 ^ o.sb.toNat
     let offs := f.blockBytes 0 true
     let vals := (c.read 0 cnt).map (firnValue x.ty)
     let block := encodeBlock k f.floeDelta vals
     let bytes := block.bytes k
     one (.xstash o) → parseShape c.recA = some x → parseShape c.recB = some f → placed extra ⟨false, true, true⟩ offs →
     c.hasRead 0 cnt → (s.tileLaunch n = none ∨ block.counts f.ty vals = (0, 0)) →
     ∃ t, Moves [.xstash o, .firnBlockEncode s.nextId, .xstash o] s t ∧ CommandEnds s t .s ∧ t.firn = [] ∧
       (∀ i < offs.length, t.readByte (g (offs.getD i 0)) = bytes.getD i 0) ∧
       ∀ j, (∀ p ∈ offs, j ≠ g p) → t.readByte j = s.readByte j) ∧
    (let extra := c.ja.toNat * 2 ^ o.sa.toNat
     let offs := f.blockBytes 0 false
     let bytes := offs.map fun p => s.readByte (g p)
     let elems := decodeBlock f.ty k (bytesToNat (bytes.take 2)) (bytesToNat (bytes.drop 2))
     let z := elBytes x.ty
     let y := x.addr.toNat + c.jb.toNat * 2 ^ o.sb.toNat
     one (.xrest o) → parseShape c.recA = some f → parseShape c.recB = some x → placed extra ⟨true, false, true⟩ offs → c.buf = [] →
     (∀ p ∈ offs, s.failedBeat (g p) 1 = none) → x.sizes = [cnt, 1, 1, 1] → x.strides.getD 0 0 = 1 → y % z = 0 →
     y + z * cnt ≤ 0x400000 →
     ∃ t, Moves ([.xrest o, .firnBlockDecode s.nextId, .xrest o, .xrest o] ++
         settles (.xrest o) (s.nextId + 1) ((y + z * cnt + 15) / 16 - y / 16)) s t ∧ CommandEnds s t .s ∧ t.firn = [] ∧
       (∀ i < cnt, t.readNat (tsAddr n (y + z * i)) z = elems.getD i 0 % 2 ^ (8 * z)) ∧
       ∀ j, (j < tsAddr n y ∨ tsAddr n (y + z * cnt) ≤ j) → t.readByte j = s.readByte j)

/-! ## Dense tiles: the matrix unit and the vector unit (R223 to R230, R241 to R254) -/

/-- R52, R53, R226 to R230: a row of mma or mmas is written to its plane, with the flags of its products and sums; mzero clears a plane; a
row of mdrain is converted and written to its target, a tile store granule by granule, and a slot that its last row leaves not full is
sent. In a launch, mdrain adds to its counters the events of R49, which this statement leaves out by its premise.
Readings of the model in it: assumptions 75, 76, and 125 for a reserved RM in FCSR. -/
def Obligations.MatrixItemsComplete : Prop :=
  ∀ (s : State) (c : DtCmd),
    let n := s.tile
    let fcsr := (s.tileAt n).fcsr
    let goesOn (t : State) (last : Bool) : Prop := (t.tileAt n).stopped = false ∧ t.cores = s.cores ∧
      if last then (t.strm n .m).queue = [] else (t.strm n .m).queue = [{ c with cursor := c.cursor + 1, buf := [], wait := none }]
    let row (o : MmaOp) (i : Instr) (scaled : Bool) : Prop :=
      let k := (o.k1.toNat + 1)
      let bytes := 64 * ((k * o.ty.width + 511) / 512)
      let vals := match o.a with
        | .ts _ => c.read 0 k
        | .ep l => lanes o.ty.width k (bytesToNat (s.epBytes n l 0 ((k * o.ty.width + 7) / 8)))
      let rows := s.mmaRow n c.cursor o scaled vals
      c.instr = i → s.running .m c → c.cursor < 128 → s.mmaFails n c.cursor o scaled = none →
      (match o.a with
        | .ts _ => c.hasRead 0 k ∧ (s.tileAt n).aq ≠ 2
        | .ep l => c.buf = [] ∧ bytes ≤ (s.ep n l).avail ∧ s.epFailed n l 0 bytes = none) →
      ∃ t, exec i s = .next t ∧ goesOn t (c.cursor == 127) ∧
        Stored s t (accAddr n o.plane.toNat c.cursor) (natToBytes 512 (joinLanes 32 (rows.map (·.1)))) ∧
        (t.tileAt n).fcsr = fcsr ||| (unionFlags (rows.map (·.2))).zeroExtend 9
    (∀ o : MmaOp, row o (.mma o) false ∧ row o (.mmas o) true) ∧
    (∀ (o : MmaOp) (vals : List Nat) (col : Nat), col < 128 → o.k1.toNat < 16 →
      let k := o.k1.toNat + 1
      let as := vals.map (decodeEl o.ty)
      let bs := (lanes o.ty.width k (s.readNat (bsramAddr n col (128 * o.off.toNat)) ((k * o.ty.width + 7) / 8))).map (decodeEl o.ty)
      let old := if o.clr then 0 else s.readNat (accAddr n o.plane.toNat c.cursor + 4 * col) 4
      let sum := sumRound .fp32 .rne ((as.zip bs).map fun p => (mulNum p.1 p.2).1)
      vals.length = k → ((s.mmaRow n c.cursor o false vals).map (·.1)).getD col 0 =
        (addFp .fp32 .rne (decodeFp .fp32 old) (decodeFp .fp32 sum.1)).1) ∧
    (∀ plane : Bool, c.instr = .mzero plane → s.running .m c →
      ∃ t, exec (.mzero plane) s = .next t ∧ goesOn t true ∧
        ∀ j, t.readByte j = if accAddr n plane.toNat 0 ≤ j ∧ j < accAddr n plane.toNat 128 then 0 else s.readByte j) ∧
    (∀ o : DrainOp,
      let w := o.ty.width
      let from_ := accAddr n o.plane.toNat (drainRow o c)
      let conv := (lanes 32 128 (s.readNat from_ 512)).map
        (convertEl .fp32 o.ty (Mode.ofCode (fcsr.extractLsb' 5 3) o.rm) (o.sat || (!o.ty.isInt && !fcsr.getLsbD 8)))
      let bytes := natToBytes (16 * w) (joinLanes w (conv.map (·.bits)))
      let cleared (t : State) (j : Nat) : Prop := t.readByte j = if o.clr ∧ from_ ≤ j ∧ j < from_ + 512 then 0 else s.readByte j
      c.instr = .mdrain o → s.running .m c → c.cursor < drainUnits o → s.failedBeat from_ 512 = none → s.countsNone conv →
      c.buf = [] →
      (∀ r, o.target = .ts r → ∃ t, Moves (.mdrain o :: settles (.mdrain o) s.nextId w) s t ∧ goesOn t (c.cursor == 127) ∧
        let dst := tsAddr n (512 * ((r.toNat + c.cursor) % 8192))
        (∀ j < 16 * w, t.readByte (dst + j) = bytes.getD j 0) ∧ (∀ j, (j < dst ∨ dst + 16 * w ≤ j) → cleared t j) ∧
        ∀ u ∈ unitsOf dst (16 * w), t.isFull u = true) ∧
      (∀ base, o.target = .v base → c.phys = drainRegs o 0 → ∃ t, exec (.mdrain o) s = .next t ∧ goesOn t (c.cursor == 15) ∧
        (∀ j < w / 4, ∀ b < 64, t.readByte (vregAddr n (c.phys.getD (w / 4 * c.cursor + j) 0) + b) = bytes.getD (64 * j + b) 0) ∧
        ∀ a, (∀ j < w / 4, a < vregAddr n (c.phys.getD (w / 4 * c.cursor + j) 0) ∨
          vregAddr n (c.phys.getD (w / 4 * c.cursor + j) 0) + 64 ≤ a) → cleared t a) ∧
      ∀ l, o.target = .ep l → (s.ep n l).fill < 512 → (s.ep n l).canSend (((s.ep n l).fill + 16 * w) / 512) = true →
        ∃ t, exec (.mdrain o) s = .next t ∧ (t.ep n l).fill = ((s.ep n l).fill + 16 * w) % 512 ∧ (t.strm n .m).queue =
          if c.cursor = 127 ∧ (t.ep n l).fill = 0 then [] else [{ c with cursor := c.cursor + 1, wait := none }]) ∧
    ∀ (o : DrainOp) (l : BitVec 3), o.target = .ep l → c.instr = .mdrain o → s.running .m c → c.cursor = 128 → (s.ep n l).fill ≠ 0 →
      (s.ep n l).canSend 1 = true →
      ∃ t, exec (.mdrain o) s = .next t ∧ (t.strm n .m).queue = [] ∧ (t.ep n l).fill = 0 ∧ (t.ep n l).permits = (s.ep n l).permits - 1

/-- R241 to R254: a vector item completes where its stream holds no other item, its governing width is its predicate's, no matrix item
before it is still to write what it names, and no beat of its registers fails: it reads its groups, writes the group of its
destination, ORs its flags and lets its stream go on; elements at or above the predicate's count keep their old values. Every other byte
of memory stays, but for what vst stores. vld and vst complete on granules that their qualifiers allow and on which no act has been made
in this ck: vld reads them one by one and then empties them, where it is to, and vst writes them one by one. In a launch, vcvt adds to its
counters the events of R49, which this statement leaves out by its premise.
Readings of the model in it: assumptions 7, 76, 124 for a vred of no active element, and 125 for a reserved RM in FCSR. -/
def Obligations.VectorItemsComplete : Prop :=
  ∀ (s : State) (o : VecOp),
    let n := s.tile
    let tile := s.tileAt n
    let w := o.ty.width
    let cnt := o.g.toNat * (512 / w)
    let regs (r : BitVec 10) : List Nat := groupRegs (tile.rrbAt s.ck) r o.g
    let el (r : BitVec 10) (e : Nat) : Nat := s.regsVal n (regs r) / 2 ^ (w * e) % 2 ^ w
    let act (e : Nat) : Bool := isActive (tile.activeCount o) e
    let rm := tile.fcsr.extractLsb' 5 3
    let mode := Mode.ofCode rm o.m
    let sat := packSat o.m
    let outside (t : State) : Prop := ItemEnds s t ∧
      ∀ a, (∀ r ∈ regs o.vd, a < vregAddr n r ∨ vregAddr n r + 64 ≤ a) → t.readByte a = s.readByte a
    let each (t : State) (new : Nat → Nat × Flags) : Prop := outside t ∧
      (∀ e < cnt, t.regsVal n (regs o.vd) / 2 ^ (w * e) % 2 ^ w = if act e then (new e).1 % 2 ^ w else el o.vd e) ∧
      (t.tileAt n).fcsr = tile.fcsr ||| (unionFlags ((List.range cnt).map fun e => if act e then (new e).2 else 0)).zeroExtend 9
    let one : List (BitVec 10) := [o.vd, o.va]
    let two : List (BitVec 10) := [o.vd, o.va, o.vb]
    let int (v : Int) : Nat × Flags := (intResult o.ty sat v, 0)
    let a (e : Nat) : Nat := el o.va e
    let b (e : Nat) : Nat := el o.vb e
    let dInt (v : Nat) : Int := decodeInt o.ty v
    let dFp (v : Nat) : Machine.Num := decodeFp o.ty v
    (s.itemReady (.vadd o) o two → ∃ t, exec (.vadd o) s = .next t ∧ each t fun e =>
      if o.ty.isInt then int (dInt (a e) + dInt (b e)) else addFp o.ty mode (dFp (a e)) (dFp (b e))) ∧
    (s.itemReady (.vsub o) o two → ∃ t, exec (.vsub o) s = .next t ∧ each t fun e =>
      if o.ty.isInt then int (dInt (a e) - dInt (b e)) else subFp o.ty mode (dFp (a e)) (dFp (b e))) ∧
    (s.itemReady (.vmul o) o two → ∃ t, exec (.vmul o) s = .next t ∧ each t fun e =>
      if o.ty.isInt then int (dInt (a e) * dInt (b e)) else mulFp o.ty mode (dFp (a e)) (dFp (b e))) ∧
    (s.itemReady (.vfma o) o two → ∃ t, exec (.vfma o) s = .next t ∧ each t fun e =>
      fmaFp o.ty mode (dFp (a e)) (dFp (b e)) (dFp (el o.vd e))) ∧
    (s.itemReady (.vmax o) o two → ∃ t, exec (.vmax o) s = .next t ∧ each t fun e =>
      if o.ty.isInt then (if dInt (a e) < dInt (b e) then b e else a e, 0) else minMaxFp o.ty false (a e) (b e)) ∧
    (s.itemReady (.vmin o) o two → ∃ t, exec (.vmin o) s = .next t ∧ each t fun e =>
      if o.ty.isInt then (if dInt (a e) < dInt (b e) then a e else b e, 0) else minMaxFp o.ty true (a e) (b e)) ∧
    (s.itemReady (.vabs o) o one → ∃ t, exec (.vabs o) s = .next t ∧ each t fun e =>
      absLane o.ty sat (a e)) ∧
    (s.itemReady (.vcmp o) o two → ∃ t, exec (.vcmp o) s = .next t ∧ each t fun e =>
      cmpLane o.ty o.m (a e) (b e)) ∧
    (s.itemReady (.vsel o) o two → ∃ t, exec (.vsel o) s = .next t ∧ each t fun e =>
      ((a e &&& el o.vd e) ||| (b e &&& (2 ^ w - 1 - el o.vd e)), 0)) ∧
    (s.itemReady (.vexp2 o) o one → ∃ t, exec (.vexp2 o) s = .next t ∧ each t fun e =>
      vexp2Of o.ty (a e)) ∧
    (s.itemReady (.vlog2 o) o one → ∃ t, exec (.vlog2 o) s = .next t ∧ each t fun e =>
      vlog2Of o.ty (a e)) ∧
    (s.itemReady (.vrcp o) o one → ∃ t, exec (.vrcp o) s = .next t ∧ each t fun e =>
      vrcpOf o.ty (a e)) ∧
    (s.itemReady (.vrsqrt o) o one → ∃ t, exec (.vrsqrt o) s = .next t ∧ each t fun e =>
      vrsqrtOf o.ty (a e)) ∧
    (s.itemReady (.vtanh o) o one → ∃ t, exec (.vtanh o) s = .next t ∧ each t fun e =>
      vtanhOf o.ty (a e)) ∧
    (s.itemReady (.vbcast o) o one → ∃ t, exec (.vbcast o) s = .next t ∧ each t fun _ =>
      (if o.vf.toNat < cnt then a o.vf.toNat else 0, 0)) ∧
    (s.itemReady (.vperm o) o two → ∃ t, exec (.vperm o) s = .next t ∧ each t fun e =>
      (a (b e % cnt), 0)) ∧
    (s.itemReady (.vred o) o one → ∃ t, exec (.vred o) s = .next t ∧ outside t ∧
      let xs := ((List.range cnt).filter act).map a
      let r := reduceElems o.ty (redType o.ty (o.vf.getLsbD 2)) (o.vf.toNat % 4) o.m rm xs
      t.regsVal n (regs o.vd) = r.1 % 2 ^ (512 * o.g.toNat) ∧ (t.tileAt n).fcsr = tile.fcsr ||| r.2.zeroExtend 9) ∧
    (let d := vcvtDest o
     let m := 512 * o.g.toNat / max w d.width
     let conv (e : Nat) : Converted := convertEl o.ty d mode (o.vf.getLsbD 4 || (!d.isInt && !tile.fcsr.getLsbD 8)) (a e)
     s.itemReady (.vcvt o) o one → s.countsNone (((List.range m).filter act).map conv) →
      ∃ t, exec (.vcvt o) s = .next t ∧ outside t ∧
        (t.tileAt n).fcsr = tile.fcsr ||| (unionFlags (((List.range m).filter act).map fun e => (conv e).flags)).zeroExtend 9 ∧
        ∀ e < m, t.regsVal n (regs o.vd) / 2 ^ (d.width * e) % 2 ^ d.width =
          if act e then (conv e).bits % 2 ^ d.width else s.regsVal n (regs o.vd) / 2 ^ (d.width * e) % 2 ^ d.width) ∧
    (s.storeFree → 0 < o.g.toNat →
      let as := pieces n o ((s.strm n .m).jr (o.vb.setWidth 4))
      let q := o.vf.extractLsb' 3 2
      let granules := pieceGranules as
      let id := s.nextId
      let reads := List.replicate (4 * o.g.toNat + 1) (Instr.vld o)
      (s.itemReady (.vld o) o [o.vd] → (q = 0 ∨ ∀ g ∈ granules, s.isFull g = true) → as.findSome? (s.failedBeat · 64) = none →
        ∃ t, Moves (if q = 2 then reads ++ settles (.vld o) id (4 * o.g.toNat) else reads) s t ∧ outside t ∧ (q = 2 → ∀ g ∈ granules, t.isFull g = false) ∧ ∀ k < o.g.toNat, ∀ j < 64,
          t.readByte (vregAddr n ((regs o.vd).getD k 0) + j) = s.readByte (as.getD k 0 + j)) ∧
      (s.itemReady (.vst o) o [o.vd] → (q = 1 → ∀ g ∈ granules, s.isFull g = false) →
        ∃ t, Moves (.vst o :: settles (.vst o) id (4 * o.g.toNat)) s t ∧ ItemEnds s t ∧ (∀ k < o.g.toNat, ∀ j < 64,
            t.readByte (as.getD k 0 + j) = s.readByte (vregAddr n ((regs o.vd).getD k 0) + j) ∧ t.isFull (as.getD k 0 + j) = true) ∧
          ∀ x, (∀ p ∈ as, x < p ∨ p + 64 ≤ x) → t.readByte x = s.readByte x)) ∧
    (s.itemReady (.pset o) o [] → ∃ t, exec (.pset o) s = .next t ∧ ItemEnds s t ∧ SameMemory s t ∧
      ∀ p : Fin 8, (t.tileAt n).preds.get p =
        if p.val = o.vd.toNat % 8 then BitVec.ofNat 16 (((widCode w).getD 0).toNat * 512 + o.va.toNat % 512) else tile.preds.get p)

/-! ## Links, Coach, audits and fabric ports (R219 to R222, R234, R267, R268, R306, R307, R399, R419 to R425) -/

/-- R219 to R222, R234, R309, R399, R406, R422 to R425: xbind binds and unbinds an endpoint; what the flits of a pair do when they arrive at
its endpoint, as the first of their pair, a slot when the port of its tile serves it; and the rounds of the permit audit.
Readings of the model in it: assumptions 71, 98, 103, 138. -/
def Obligations.LinksMove : Prop :=
  ∀ (s : State) (t l : Nat) (src : Nat × Nat × Nat),
    let q := epIdx l
    let e := s.ep t q
    let own := e.dir ≠ .unbound ∧ e.peer = src
    let inward := e.dir = .inbound ∧ e.peer = src ∧ e.broken = false
    let outward := e.dir = .outbound ∧ e.peer = src ∧ e.broken = false
    let comes (body : LinkBody) : Prop := ∃ born, s.flits = [⟨t, l, src, body, born⟩]
    let only (u : State) : Prop := u.cores = s.cores ∧ ∀ m, m ≠ t → u.tileAt m = s.tileAt m
    let kept (u : State) : Prop := only u ∧ SameMemory s u
    let sent (u : State) (body : LinkBody) : Prop := e.peer.1 = s.dev → 
      u.flits = [⟨e.peer.2.1, e.peer.2.2, (s.dev, t, q.toNat), body, s.nextId⟩]
    (outward → e.granted = false → e.held = false → comes .grant → ∃ u, exec (.grantArrival 0) s = .next u ∧ kept u ∧
      u.ep t q = { e with permits := e.permits + 32, granted := true, audit := e.audit.map fun a => { a with c := a.c + 32 } }) ∧
    (e.dir = .unbound → e.pend = none → comes .grant → ∃ u, exec (.grantArrival 0) s = .next u ∧ kept u ∧
      u.ep t q = { e with pend := some src }) ∧
    (∀ bytes born, inward → e.filled < 32 → s.awaitsMove t l = false → bytes.length = 512 → s.flits = [⟨t, l, src, .slot bytes [], born⟩] →
      (src.1 = s.dev → s.crossNext (64 + t) = some (64 + src.2.1, born)) →
      ∃ u, exec (.slotArrival 0) s = .next u ∧ only u ∧
        let slot := (e.head.toNat + e.filled) % 32
        u.ep t q = { e with occ := e.occ ||| BitVec.twoPow 32 slot } ∧ Stored s u (slotAddr t l slot) bytes) ∧
    (e.dir = .inbound → e.peer = src → comes .close → ∃ u, exec (.closeMarkArrival 0) s = .next u ∧ kept u ∧
      u.ep t q = { e with close := true }) ∧
    (own → comes .gone → ∃ u, exec (.closeMarkArrival 0) s = .next u ∧ kept u ∧ u.ep t q = e.break) ∧
    (∀ k, outward → s.awaitsMove t l = false → comes (.credit k) → ∃ u, exec (.creditArrival 0) s = .next u ∧ kept u ∧
      u.ep t q = { e with permits := e.permits + k, audit := e.audit.map fun a => { a with c := a.c + k } }) ∧
    (own → e.owed = 0 → comes .hold → ∃ u, exec (.holdFlit 0) s = .next u ∧ kept u ∧
      u.ep t q = { e with held := true, audit := none } ∧ sent u .held) ∧
    (own → comes .held → ∃ u, exec (.heldFlit 0) s = .next u ∧ kept u ∧ u.ep t q = { e with heldBack := true }) ∧
    (∀ dev tile ep, e.dir ≠ .unbound → comes (.moved dev tile ep none) → ∃ u, exec (.movedFlit 0) s = .next u ∧ kept u ∧
      (u.ep t q).peer = (dev, tile, ep) ∧ (u.ep t q).held = false ∧ (u.ep t q).heldBack = false) ∧
    (∀ p, inward → e.held = false → e.closing = false → s.awaitsMove t l = false → comes (.marker p) →
      ∃ u, exec (.auditMarker 0) s = .next u ∧ kept u ∧ u.ep t q = e ∧ sent u (.reply (e.filled + e.owed))) ∧
    (∀ p, own → e.dir ≠ .inbound ∨ e.held = true ∨ e.closing = true ∨ e.broken = true → s.awaitsMove t l = false → comes (.marker p) →
      ∃ u, exec (.auditMarker 0) s = .next u ∧ kept u ∧ u.ep t q = e ∧ sent u .noRound) ∧
    (own → comes .noRound → ∃ u, exec (.auditReply 0) s = .next u ∧ kept u ∧ u.ep t q = { e with audit := none }) ∧
    (∀ (o : Nat) (r : AuditRound) (k : Nat), e.inRound = true → e.peer = src → e.audit = some r → s.auditPort e = some k →
      comes (.reply o) →
      (r.p + o + r.c = s.field (auditReg k) 0 6 → ∃ u, exec (.auditReply 0) s = .next u ∧ kept u ∧
        u.ep t q = { e with audit := none } ∧ u.events = s.events) ∧
      (r.p + o + r.c ≠ s.field (auditReg k) 0 6 → ∃ u, exec (.auditReply 0) s = .next u ∧ kept u ∧
        u.ep t q = { e with held := true, audit := none } ∧ sent u .hold ∧ u.events.length = s.events.length + 1)) ∧
    (∀ r, l < 8 → e.inRound = true → e.audit = some r → r.sentAt + 2 ^ 20 ≤ s.ck →
      ∃ u, exec (.auditNoReply (8 * t + l)) s = .next u ∧ kept u ∧ (u.ep t q).broken = true ∧ (u.ep t q).held = true ∧
        u.events.length = s.events.length + 1) ∧
    (∀ k, s.auditPort e = some k → e.auditable = true → s.field (auditReg k) 32 32 ≠ 0 →
      e.audited + s.field (auditReg k) 32 32 ≤ s.rtick → s.flits = [] →
      ∃ u, exec (.auditPeriod t l) s = .next u ∧ kept u ∧ (u.ep t q).audit = some ⟨e.permits, 0, s.ck⟩ ∧ sent u (.marker e.permits)) ∧
    let n := s.tile
    let alone (c : DtCmd) (i : Instr) : Prop := s.turn = .cmd n .s ∧ (s.strm n .s).queue = [c] ∧ c.instr = i ∧
      (s.tileAt n).stopped = false ∧ s.paused (s.tileAt n).launch = false
    (∀ (c : DtCmd) (o : BindOp), (s.ep n o.own).dir = .unbound → s.inLaunchBox n (s.bindPeer o).1 = true → s.names (s.bindPeer o).1 = true →
      let bound : Endpoint := { Endpoint.none with dir := .outbound, peer := s.bindPeer o }
      (alone c (.xbindIn o) → (s.ep n o.own).pend = none → s.flits = [] →
        ∃ u, exec (.xbindIn o) s = .next u ∧ CommandEnds s u .s ∧ u.ep n o.own = { bound with dir := .inbound } ∧ SameMemory s u ∧
          ((s.bindPeer o).1 = s.dev → u.flits = [⟨o.tile.toNat, o.ep.toNat, (s.dev, n, o.own.toNat), .grant, s.nextId⟩])) ∧
      (alone c (.xbindOut o) → (s.ep n o.own).pend = none →
        ∃ u, exec (.xbindOut o) s = .next u ∧ CommandEnds s u .s ∧ u.ep n o.own = bound ∧ SameMemory s u) ∧
      (alone c (.xbindOut o) → (s.ep n o.own).pend = some (s.bindPeer o) →
        ∃ u, exec (.xbindOut o) s = .next u ∧ CommandEnds s u .s ∧
          u.ep n o.own = { bound with permits := 32, granted := true } ∧ SameMemory s u)) ∧
    ∀ (c : DtCmd) (o : BitVec 3) (tok : BitVec 4),
      let f := s.ep n o
      alone c (.xbindOff o tok) → f.broken = false →
      (f.dir = .inbound → f.close = true → f.occ = 0 → f.owed = 0 →
        ∃ u, exec (.xbindOff o tok) s = .next u ∧ CommandEnds s u .s ∧ u.ep n o = Endpoint.none ∧ SameMemory s u) ∧
      (f.dir = .outbound → f.closing = true → f.fill = 0 → f.permits = 32 →
        ∃ u, exec (.xbindOff o tok) s = .next u ∧ CommandEnds s u .s ∧ u.ep n o = Endpoint.none ∧ SameMemory s u) ∧
      (f.dir = .outbound → f.closing = false → f.held = false → f.fill = 0 → s.flits = [] → f.peer.1 = s.dev →
        ∃ u, exec (.xbindOff o tok) s = .next u ∧ (u.strm n .s).queue = [{ c with started := true, wait := none }] ∧
          u.ep n o = { f with closing := true, audit := none } ∧ SameMemory s u ∧
          u.flits = [⟨f.peer.2.1, f.peer.2.2, (s.dev, n, o.toNat), .close, s.nextId⟩]) ∧
      (f.dir = .unbound → ∃ u, exec (.xbindOff o tok) s = .next u ∧ (u.tileAt n).stopped = true ∧
        ((s.tileAt n).stopped = false → (u.tileAt n).code = causeIllegal))

/-- R267, R268, R306, R307, R398: an xce whose checks pass is handed to Coach with the occurrence of its key; a ready flit of its peer commits
the step, a data flit brings elements and is acknowledged, and a step of which nothing is left finishes.
Readings of the model in it: assumptions 84, 85. -/
def Obligations.CoachStepsMove : Prop :=
  (∀ (s : State) (c : DtCmd) (o : CoachOp) (i : Instr) (kind : Nat) (x : CoachStart),
    let n := s.tile
    let key := occKey o.scope.toNat o.step.toNat
    let occ := lookup 0 (s.tileAt n).occs key
    (kind, i) ∈ [(0, Instr.xceHalve o), (1, .xceDbl o), (2, .xceXchg o)] → s.turn = .cmd n .s → (s.strm n .s).queue = [c] → c.instr = i →
    (s.tileAt n).stopped = false → s.paused (s.tileAt n).launch = false → c.started = false → c.occ = none →
    o.sha ≠ 64 → o.shb ≠ 64 → s.failedBeat (scopeAddr o.scope.toNat + 0x88) 8 = none → s.coachStart kind o c.recA c.recB = some x → s.names x.peer = true →
    s.sideTrap n x.src c.ja.toNat false (0, false) i = none → s.sideTrap n x.dst c.jb.toNat true (0, false) i = none →
    (o.ch = true → (s.coach.filter fun y => y.tile == n && y.chain && !y.committed).length < 16) →
    ∃ t y, exec i s = .next t ∧ t.coach = s.coach ++ [y] ∧ y.tile = n ∧ y.occ = occ ∧ y.peer = x.peer ∧ y.terms = x.terms ∧
      y.chain = o.ch ∧ y.cmd.id = c.id ∧ lookup 0 (t.tileAt n).occs key = occ + 1 ∧ SameMemory s t ∧
      (o.ch = true → (t.strm n .s).queue = []) ∧ (o.ch = false → ((t.strm n .s).queue.map fun c => (c.id, c.started)) = [(c.id, true)])) ∧
  (∀ (s : State) (x : CoachStep) (tile scope step occ dev cnt : Nat) (kind op : BitVec 2) (sty dty : ElTy),
    let terms : CoachTerms := ⟨kind, op, sty, dty, cnt⟩
    s.inbox = [.coachReady tile scope step occ dev kind op sty dty cnt] →
    (s.coach = [] → ∃ t, exec (.coachReadyFlit 0) s = .next t ∧ t.inbox = [] ∧
      t.readies = s.readies ++ [(tile, scope, step, occ, dev, terms)] ∧ SameMemory s t) ∧
    (s.coach = [x] → s.keyed tile scope step occ dev = some x → x.ready = true → x.terms = terms →
      ∃ t, exec (.coachReadyFlit 0) s = .next t ∧ t.inbox = [] ∧ t.coach = [{ x with got := some terms, deadline := none }] ∧
        SameMemory s t)) ∧
  (∀ (s : State) (x : CoachStep) (tile scope step occ dev first : Nat) (elems : List Nat),
    s.coach = [x] → s.keyed tile scope step occ dev = some x →
    (s.inbox = [.coachData tile scope step occ dev first elems] → x.committed = true → x.recv.length = first →
      ∃ t p, exec (.coachDataFlit 0) s = .next t ∧ t.inbox = [] ∧ (t.coach.map (·.recv)) = [x.recv ++ elems] ∧
        t.outbox = s.outbox ++ [p] ∧ p.dest = dev ∧ p.body = .coachAck tile scope step occ s.dev ∧ SameMemory s t) ∧
    (s.inbox = [.coachAck tile scope step occ dev] →
      ∃ t, exec (.coachDataFlit 0) s = .next t ∧ t.inbox = [] ∧ (t.coach.map (·.acked)) = [x.acked + 1] ∧ SameMemory s t)) ∧
  (∀ (s : State) (x : CoachStep) (c : DtCmd), s.coach = [x] → x.over = true → (s.strm x.tile .s).queue = [c] → c.id = x.cmd.id →
    ∃ t, exec (.coachStepFinish x.cmd.id) s = .next t ∧ t.coach = [] ∧ (t.strm x.tile .s).queue = [{ c with cursor := 1 }] ∧
      SameMemory s t) ∧
  ∀ (s : State) (j : Preempt) (dev part : Nat), s.inbox = [.quiesce dev part] → s.preempts = [j] → j.part = part → j.restore = false →
    ∃ t, exec (.quiesceMarker 0) s = .next t ∧ t.inbox = [] ∧ t.preempts = [{ j with heard := j.heard ++ [dev] }] ∧ SameMemory s t

/-- R419 to R421: a port takes a flit that is in sequence and good, and asks for a replay of any other; it sends the flits it keeps again and
counts them, and retrains once one of them has been sent again eight times in a row; it retrains on lanes that fail and at the request
of software; and the end of retraining sets the width that lanes among those not known bad allow, below which the flits of the port go
by another way.
Readings of the model in it: assumption 107. -/
def Obligations.PortsMove : Prop :=
  ∀ (s : State) (k seq : Nat) (p : Packet) (lanes : BitVec 8),
    let x := s.port k
    let only (t : State) : Prop :=
      (∀ j, j ≠ k → t.port j = s.port j) ∧ SameMemory s t ∧ t.cores = s.cores ∧ t.tiles = s.tiles
    (s.portUp k = true → x.training = false →
      (∃ t, exec (.flitReceive k x.want true p) s = .next t ∧ only t ∧ t.port k = { x with want := x.want + 1, asks := false } ∧
        t.outbox = s.outbox ++ [p]) ∧
      (∀ good, (good = false ∨ seq ≠ x.want) →
        ∃ t, exec (.flitReceive k seq good p) s = .next t ∧ only t ∧ t.port k = { x with asks := true } ∧ t.outbox = s.outbox) ∧
      (∀ f ∈ x.kept, seq ≤ f.1 →
        let n := (x.kept.filter fun f => decide (seq ≤ f.1)).length
        let again := x.kept.map fun f => (f.1, f.2.1, if seq ≤ f.1 then f.2.2 + 1 else 0)
        ∃ t, exec (.replayRequest k seq) s = .next t ∧ only t ∧ t.outbox = s.outbox ∧ (t.port k).kept = again ∧
          t.field (linkReg k) 32 32 = min (s.field (linkReg k) 32 32 + n) (2 ^ 32 - 1) ∧
          ((t.port k).training = true ↔ ∃ f ∈ again, f.2.2 = 8)) ∧
      (lanes ≠ 0 → ∃ t, exec (.laneFailure k lanes) s = .next t ∧ only t ∧ (t.port k).training = true ∧
        (t.port k).bad = x.bad ||| lanes ∧ (t.port k).kept = x.kept ∧ t.outbox = s.outbox)) ∧
    (x.training = true → s.justSet (linkReg k) 2 = false → ∃ t, exec (.retrainEnd k) s = .next t ∧ only t ∧
      (t.port k).training = false ∧ t.field (linkReg k) 2 1 = 0 ∧
      ∃ good : BitVec 8, good &&& x.bad = 0 ∧ t.field (linkReg k) 8 8 = good.toNat ∧ (t.port k).bad = ~~~good ∧
        t.portWidth k = (if x.widen then widthOf good else min (s.portWidth k) (widthOf good)) ∧
        (t.portWidth k < s.portWidth k → t.field (linkReg k) 1 1 = 1) ∧
        (t.portWidth k = 0 → (t.port k).kept = [] ∧ t.outbox = x.kept.map (·.2.1) ++ s.outbox) ∧
        (t.portWidth k ≠ 0 → (t.port k).kept = x.kept.map (fun f => (f.1, f.2.1, 0)) ∧ t.outbox = s.outbox ∧
          t.field (linkReg k) 32 32 = min (s.field (linkReg k) 32 32 + x.cut) (2 ^ 32 - 1))) ∧
    (k < 8 → ∃ t, exec (.retrain k) s = .next t ∧ only t ∧ (t.port k).training = true ∧ (t.port k).widen = true ∧
      (t.port k).bad = 0 ∧ t.field (linkReg k) 2 1 = 1)

/-! ## The launch unit (R346 to R368, R397, R407 to R409, R429) -/

/-- R346 to R368, R396, R397, R406 to R409, R429: the steps of a launch, from its record to its completion, and the acts of software on
queues and partitions: enabling, resets, a save, a restore, and the resume of a stopped unit.
Readings of the model in it: assumptions 89, 92 to 95, 99. -/
def Obligations.LaunchesProceed : Prop :=
  ∀ s : State,
    let halted (t : State) (q cause : Nat) : Prop := t.field (qReg q 5) 1 1 = 1 ∧ t.field (qReg q 5) 8 8 = cause
    let alone (h : HomeLaunch) (l : Launch) : Prop := s.mayAct = true ∧ s.inbox = [] ∧ s.homes = [h] ∧ h.devs = [s.dev] ∧
      h.queue = l.queue ∧ s.launches = [(h.part, l)] ∧ s.held = [] ∧ l.home = s.dev
    let resetOf (t : State) (p state : Nat) (l : Launch) : Prop := t.homes = [] ∧ t.launches = [] ∧ t.resets = s.resets ++ [⟨p, state, l⟩] ∧
      (∀ u ∈ s.partLcs p, ∀ k, (t.ctxAt u k).state = .free) ∧ ∀ n ∈ s.partDts p, (t.tileAt n).launch = none
    let fits (q : Nat) (r : List Word) : Prop :=
      let l := launchOfRecord s r s.dev q
      (s.queue q).record = some r ∧ l.devices s.dev = [s.dev] ∧ s.masksHold (s.qPart q) l = true
    let taken (t : State) (q : Nat) (r : List Word) : Prop :=
      let p := s.qPart q
      t.held = s.held ++ [⟨p, launchOfRecord s r s.dev q, some [], false, [], [], none⟩] ∧ t.homes.length = s.homes.length + 1 ∧
        t.field (qReg q 5) 0 1 = 1 ∧ t.field (pReg p 4) 0 1 = 1 ∧ t.field (pReg p 4) 16 6 = q ∧ t.field (qReg q 5) 16 8 = 0 ∧
        t.rr = q ∧ SameMemory s t
    (∀ (q : Nat) (v : Word),
      let n : BitVec 32 := v.setWidth 32
      let x := s.queue q
      let bad := 2 ^ 31 ≤ (n - x.seen).toNat ∨ 2 ^ s.field (qReg q 1) 0 4 < (n - s.qHead q).toNat
      (¬bad → ∃ t, exec (.qtailWrite q v) s = .next t ∧ t.queue q = { x with seen := n, bad := false } ∧ t.reg (qReg q 2) = zext n ∧
        SameMemory s t) ∧
      (bad → ∃ t, exec (.qtailWrite q v) s = .next t ∧ t.queue q = { x with bad := true } ∧ halted t q 1 ∧
        t.events.length = s.events.length + 1 ∧ SameMemory s t) ∧
      ∃ t, exec (.qstatHaltClear q v) s = .next t ∧ t.field (qReg q 5) 1 1 =
          (if v.getLsbD 1 ∧ s.justSet (qReg q 5) 1 = false then 0 else s.field (qReg q 5) 1 1) ∧
        SameMemory s t) ∧
    (∀ (q : Nat) (host : List Word),
      let ga := s.recordAddr q
      let a := ga % 2 ^ 48
      let ready := s.mayAct = true ∧ q < 64 ∧ (s.queue q).bad = false ∧ (s.queue q).record = none ∧ s.field (qReg q 5) 1 1 = 0 ∧
        (s.queue q).seen ≠ s.qHead q
      let reads (ws : List Word) : Prop := s.recordOk (launchOfRecord s ws s.dev q) = true →
        ∃ t, exec (.recordRead q host) s = .next t ∧ (t.queue q).record = some ws ∧ SameMemory s t
      ready →
      (s.field (qReg q 1) 16 1 = 0 → s.ready a = true → s.recordHere ga = true → s.failedBeat a 256 = none →
        reads ((List.range 32).map fun i => BitVec.ofNat 64 (s.readNat (a + 8 * i) 8))) ∧
      (s.field (qReg q 1) 16 1 = 0 → s.recordFar ga = true → (s.queue q).asked = none →
        ∃ t, exec (.recordRead q host) s = .next t ∧ (t.queue q).asked = some s.nextId ∧ (t.queue q).record = none ∧ SameMemory s t) ∧
      (s.field (qReg q 1) 16 1 = 1 → host.length = 32 → reads host)) ∧
    (∀ q r, s.mayAct = true → s.arbAsked = false → s.field 0x20 1 1 = 0 → s.choose true = some (.queue q) → fits q r →
      ∃ t, exec .launchDecision s = .next t ∧ taken t q r) ∧
    (∀ v : Word, ∃ t, exec (.arbselGo v) s = .next t ∧ t.field 0x28 0 6 = v.toNat % 64 ∧
      t.field 0x28 6 1 = (if v.getLsbD 6 then 1 else s.field 0x28 6 1) ∧ SameMemory s t) ∧
    (∀ r, s.mayAct = true → s.arbAsked = true →
      let q := s.field 0x28 0 6
      (s.field 0x20 1 1 = 1 → s.eligibleQueue q = true → fits q r →
        ∃ t, exec .launchDecision s = .next t ∧ t.field 0x28 6 1 = 0 ∧ taken t q r) ∧
      (s.field 0x20 1 1 = 0 ∨ s.eligibleQueue q = false →
        ∃ t, exec .launchDecision s = .next t ∧ t.field 0x28 6 1 = 0 ∧ t.held = s.held ∧ t.homes = s.homes ∧ SameMemory s t)) ∧
    (∀ (home queue part pri : Nat) (record : List Word), s.inbox = [.reserve home queue part pri record] →
      s.field (pReg part 3) 0 1 = 1 →
      ∃ t, exec (.reservation 0) s = .next t ∧ t.inbox = [] ∧ t.resvs = s.resvs ++ [⟨home, queue, part, pri, 0, record⟩] ∧ SameMemory s t) ∧
    (∀ (h : HeldLaunch) (counters : List Word), s.mayAct = true → s.held = [h] → h.go = some counters → h.stepped = true →
      s.stepJobs = [] → s.imageFar h.launch = false →
      let l := h.launch
      ∃ t, exec (.wake h.part) s = .next t ∧ t.held = [] ∧ t.launches = s.launches ++ [(h.part, l)] ∧
        t.field (pReg h.part 4) 0 1 = 1 ∧
        ∀ n < 32, l.hasDt n = true → (t.tileAt n).launch = some h.part ∧ (t.tileAt n).stopped = false ∧ (t.tileAt n).lwd = 10 ∧
          (t.tileAt n).fcsr = 0 ∧ ∀ st : Stream, (t.strm n st).status = .run ∧
            (t.strm n st).pc = bitsOf (l.word 0x20) (match st with | .s => 0 | .c => 16 | .m => 32) 12) ∧
    (∀ (p : Nat) (l : Launch), s.launches = [(p, l)] → l.home = s.dev → s.mayAct = true → s.preempts = [] →
      (∀ i < l.lcCnt, s.lcComplete (l.lcBase + i) = true ∧ (s.coreAt (l.lcBase + i)).lines = [] ∧ s.lcSettled (l.lcBase + i) = true) →
      (∀ n < 32, l.hasDt n = true → s.dtComplete n = true) → (∀ h ∈ s.homes, h.queue = l.queue → h.expired = false) →
      ∃ t, exec (.launchComplete p) s = .next t ∧ t.launches = [] ∧ t.field (pReg p 4) 0 1 = 0 ∧
        t.inbox = s.inbox ++ [.complete s.dev l.queue] ∧ ∀ n < 32, l.hasDt n = true → (t.tileAt n).launch = none) ∧
    (∀ (q : Nat) (h : HomeLaunch), s.mayAct = true → s.inbox = [.complete s.dev q] → s.homes = [h] → h.queue = q → h.devs = [s.dev] → h.expired = false →
      ∃ t, exec (.completionCount q) s = .next t ∧ t.inbox = [] ∧ t.homes = [] ∧ t.reg (qReg q 4) = s.reg (qReg q 4) + 1 ∧
        t.field (qReg q 5) 0 1 = 0 ∧ SameMemory s t) ∧
    (∀ (e : Event) (rest : List Event), s.events = e :: rest →
      (s.field 0x20 2 1 = 0 → (s.coreAt serviceCore).msgq.length < 64 →
        ∃ t, exec .eventDelivery s = .next t ∧ t.events = rest ∧
          (t.coreAt serviceCore).msgq = (s.coreAt serviceCore).msgq ++ [⟨0xF0 + e.code, e.x10, e.x11⟩] ∧ SameMemory s t) ∧
      (s.field 0x20 2 1 = 1 → s.ringRoom 0 = true →
        ∃ t, exec .eventDelivery s = .next t ∧ t.events = rest ∧ t.cores = s.cores ∧ s.posts.length < t.posts.length ∧ SameMemory s t)) ∧
    (∀ (h : HomeLaunch) (l : Launch), alone h l → h.expired = true →
      ∃ t, exec (.watchdogExpiry h.part) s = .next t ∧ resetOf t h.part 5 l) ∧
    (∀ (p : Nat) (v : Word), ∃ t, exec (.pctlReset p v) s = .next t ∧
      t.field (pReg p 3) 1 1 = (if v.getLsbD 1 then 1 else s.field (pReg p 3) 1 1) ∧ SameMemory s t) ∧
    (∀ (h : HomeLaunch) (l : Launch), alone h l → h.expired = false → s.resets = [] → s.field (pReg h.part 3) 1 1 = 1 →
      s.justSet (pReg h.part 3) 1 = false → ∃ t, exec (.watchdogExpiry h.part) s = .next t ∧ resetOf t h.part 7 l) ∧
    (∀ (p state : Nat) (l : Launch), s.mayAct = true → s.inbox = [] → (∀ h ∈ s.homes, h.part = p → h.expired = false) →
      s.resets = [⟨p, state, l⟩] → l.home = s.dev → s.justSet (pReg p 3) 1 = false →
      ∃ t, exec (.watchdogExpiry p) s = .next t ∧ t.resets = [] ∧ halted t l.queue (if state = 5 then 0x12 else 0x07) ∧
        t.field (qReg l.queue 5) 0 1 = 0 ∧ t.field (pReg p 4) 0 1 = 0 ∧ t.field (pReg p 3) 1 1 = 0 ∧
        t.events.length = s.events.length + 1 ∧ t.cores = s.cores) ∧
    (∀ (p : Nat) (v : Word),
      let shared := ∃ q < 16, q ≠ p ∧ s.field (pReg q 3) 0 1 = 1 ∧ ∃ n < 3, s.reg (pReg p n) &&& s.reg (pReg q n) ≠ 0
      (v.getLsbD 0 = true → s.field 0x1000 8 1 = 1 → ¬shared →
        ∃ t, exec (.pctlEnable p v) s = .next t ∧ t.field (pReg p 3) 0 1 = 1 ∧ SameMemory s t) ∧
      (v.getLsbD 0 = true → s.field 0x1000 8 1 = 1 → shared → s.field (pReg p 3) 0 1 = 0 →
        ∃ t, exec (.pctlEnable p v) s = .next t ∧ t.field (pReg p 3) 0 1 = 0 ∧ t.field (pReg p 4) 3 1 = 1 ∧ SameMemory s t) ∧
      (v.getLsbD 0 = false → ∃ t, exec (.pctlEnable p v) s = .next t ∧ t.field (pReg p 3) 0 1 = 0 ∧ SameMemory s t)) ∧
    (∀ (p : Nat) (v : Word), s.preBusy p = false →
      let s1 := s.preWrite p v
      (∀ l, v.getLsbD 0 = true → s.launchOf p = some l → l.home = s.dev → s1.imageInOne p l.imageSize = true →
        ∃ t, exec (.ppreSave p v) s = .next t ∧ t.field (pReg p 6) 0 1 = 1 ∧ t.homePreempts.length = s.homePreempts.length + 1 ∧
          (∃ x ∈ t.inbox, ∃ left, x = .preempt s.dev l.queue p .save l.box left) ∧ SameMemory s t) ∧
      let box := s1.newBox p (((s1.imageRecord (s1.imageAddr p)).getD 5 0).toNat % 2 ^ 32)
      let l := s1.imageLaunch p s.dev box
      (v.getLsbD 1 = true → s1.imageCheck p s.dev box = 0 → s1.field (qReg l.queue 5) 0 1 = 1 → s.homes = [] → s.homePreempts = [] →
        ∃ t, exec (.ppreRestore p v) s = .next t ∧ t.field (pReg p 6) 1 1 = 1 ∧ t.homePreempts.length = 1 ∧ SameMemory s t)) ∧
    ∀ v : Word,
      let u := bitsOf v.toNat 37 11
      let k := ctxIdx (bitsOf v.toNat 8 4)
      let s1 := s.uresFields v
      (∀ a p l, v.getLsbD 1 = true → s.lcLaunch u = some (p, l) → (s.ctxAt u k).state = .stopped → s1.resumeArea = some a →
        let bytes := (s.ctxAt u k).workspaceBytes (s.coreAt u).m8
        ∃ t, exec (.uresSync v) s = .next t ∧ t.field 0x40 4 4 = 0 ∧ t.cores = s.cores ∧
          ∀ j, t.readByte j = if a ≤ j ∧ j < a + max bytes.length 2048 then bytes.getD (j - a) 0 else s.readByte j) ∧
      (∀ p l, v.getLsbD 0 = true → 1024 ≤ u → u < 1056 → s.tileLaunch (u - 1024) = some (p, l) →
        (s.tileAt (u - 1024)).stopped = true → (s.tileAt (u - 1024)).valid = false → (s.tileAt (u - 1024)).late = [] →
        ∃ t, exec (.uresGo v) s = .next t ∧ t.field 0x40 4 4 = 0 ∧ (t.tileAt (u - 1024)).stopped = false ∧
          ∀ st, (s.strm (u - 1024) st).status = .stopped → (t.strm (u - 1024) st).status = .run)

/-! ## Boot, services and the debug port (R380 to R382, R426 to R428, R430 to R448, R451 to R458, R463) -/

/-- R380 to R382, R423, R426, R427, R451, R453, R457, R463: the services of the register block: tags and sweeps, the audit engines, spares, the host's
accesses, a plain register, and interrupts.
Readings of the model in it: assumptions 109, 111 to 113, 119. -/
def Obligations.ServicesAct : Prop :=
  ∀ (s : State) (v : Word),
    (v.getLsbD 0 = true → s.capBusy 0 = false → issuable (BitVec.ofNat 128 (s.readNat s.capPair 16)) = true →
      ∃ t, exec (.capctlSet v) s = .next t ∧ t.tagAt s.capPair = true ∧ t.field 0x218 4 4 = 0 ∧ ∀ a, t.readByte a = s.readByte a) ∧
    (v.getLsbD 0 = true → s.capBusy 0 = false → issuable (BitVec.ofNat 128 (s.readNat s.capPair 16)) = false →
      ∃ t, exec (.capctlSet v) s = .next t ∧ t.field 0x218 4 4 = 1 ∧ SameMemory s t) ∧
    (v.getLsbD 1 = true → s.capBusy 1 = false →
      ∃ t, exec (.capctlClr v) s = .next t ∧ t.tagAt s.capPair = false ∧ t.field 0x218 4 4 = 0 ∧ ∀ a, t.readByte a = s.readByte a) ∧
    (v.getLsbD 2 = true → s.capBusy 2 = false →
      ∃ t, exec (.capctlSweep v) s = .next t ∧ t.field 0x218 2 1 = 1 ∧ SameMemory s t) ∧
    (s.field 0x218 2 1 = 1 → s.justSet 0x218 2 = false → ∃ t, exec .sweepDone s = .next t ∧ t.field 0x218 2 1 = 0 ∧ (∀ a, t.readByte a = s.readByte a) ∧
      (∀ a ∈ s.tags, a ∈ t.tags ↔ s.sweepPair a = false) ∧
      ∀ x ∈ s.cores, ∀ k, (t.ctxAt x.1 k).state ≠ .free → ∀ i < 16, (t.ctxAt x.1 k).ctag.getLsbD i = true →
        s.sweepHits ((t.ctxAt x.1 k).cap (BitVec.ofNat 4 i)) = false) ∧
    (∀ port, port ≤ 8 → v.getLsbD 8 = false →
      ∃ t, exec (.audctlNow port v) s = .next t ∧ t.field (auditReg port) 32 32 = bitsOf v.toNat 32 32 ∧
        t.field (auditReg port) 0 6 = bitsOf v.toNat 0 6 ∧ t.flits = s.flits ∧ SameMemory s t) ∧
    (∀ port, port ≤ 8 → v.getLsbD 8 = true → s.field (auditReg port) 8 1 = 0 →
      ∃ t, exec (.audctlNow port v) s = .next t ∧ t.field (auditReg port) 8 1 = 1 ∧ SameMemory s t ∧
        ∀ n < 32, ∀ l : BitVec 3, s.auditPort (s.ep n l) = some port → (s.ep n l).auditable = true →
          (t.ep n l).audit = some ⟨(s.ep n l).permits, 0, s.ck⟩) ∧
    (∀ n < 32, (∀ p < 16, (s.reg (pReg p 1)).getLsbD n = true → s.field (pReg p 4) 0 1 = 0 ∧ s.field (pReg p 4) 2 1 = 0) →
      let f (i : Nat) : Nat := bitsOf v.toNat (8 * i) 8
      (∀ i < 4, f i < 130 ∨ f i = 255) → (f 0 ≠ f 1 ∨ f 0 = 0) → (f 2 ≠ f 3 ∨ f 2 = 0) →
      ∃ t, exec (.aspareWrite n v) s = .next t ∧ (t.reg (0x12050 + 128 * n)).toNat = v.toNat % 2 ^ 32 ∧
        ∀ a, t.readByte a = if accAddr n 0 0 ≤ a ∧ a < accAddr n 2 0 then 0 else s.readByte a) ∧
    (let s1 := ((s.setField 0x30 37 11 (bitsOf v.toNat 37 11)).setField 0x30 11 5 (bitsOf v.toNat 11 5)).setField 0x30 6 5 (bitsOf v.toNat 6 5)
     s.field 0x30 0 1 = 0 → v.getLsbD 0 = true → s1.halfReg (pmapReg s1.movePos) / 2 ^ 13 = 2 → s1.field 0x30 37 11 < 1008 →
     s1.moveInUse = false → s1.poolInUse = false →
     ∃ t, exec (.lsubGo v) s = .next t ∧ t.field 0x30 0 1 = 1 ∧ t.lsub = some (s1.field 0x30 37 11, s1.movePos) ∧ SameMemory s t) ∧
    (∀ n goal, s.lsub = some (n, goal) → s.justSet 0x30 0 = false → goal < 1024 → n < 1008 → s.halfReg (lmapReg n) < 1024 →
     s.halfReg (lmapReg n) ≠ goal →
     ∃ t, exec .lsubMoveDone s = .next t ∧ t.lsub = none ∧ t.field 0x30 0 1 = 0 ∧ t.field 0x30 1 3 = 0 ∧ t.halfReg (lmapReg n) = goal ∧
       t.halfReg (pmapReg goal) = 2 ^ 13 + n ∧ t.halfReg (pmapReg (s.halfReg (lmapReg n))) = 4 * 2 ^ 13 ∧
       t.coreAt n = { coreReset n with steps := (s.coreAt n).steps } ∧ Memory.wf t.mem = true) ∧
    (∀ (r : HostReq) (a : Nat), hdmAddr r.offset = some a → 0 < r.len → r.len ≤ 64 - r.offset % 64 → s.ready a = true → r.poison = false →
      s.watchers = [] →
      (∀ bytes, r.write = some bytes → bytes.length = r.len →
        (∃ t, exec (.cxlMemRequest r) s = .next t ∧ Stored s t a bytes ∧ t.hostReqs = s.hostReqs) ∧
        (s.hostReqs.any (hostBehind r) = false → ∃ t, exec (.bar4Request r) s = .next t ∧ Stored s t a bytes ∧ t.hostReqs = s.hostReqs) ∧
        (s.hostReqs.any (hostBehind r) = true →
          ∃ t, exec (.bar4Request r) s = .next t ∧ t.hostReqs = s.hostReqs ++ [r] ∧ SameMemory s t)) ∧
      (r.write = none → s.failedBeat a r.len = none →
        (∃ t, exec (.cxlMemRequest r) s = .next t ∧ t.hostOut = s.hostOut ++ [(r.offset, s.readBytes a r.len, false)] ∧ SameMemory s t) ∧
        ∃ t, exec (.bar4Request r) s = .next t ∧ t.hostOut = s.hostOut ++ [(r.offset, s.readBytes a r.len, false)] ∧ SameMemory s t)) ∧
    (∀ off, (off = 0x180 ∨ off = 0x208 ∨ off = 0x1010) →
      let low : Word := v &&& 0xFFFFFFFF
      (∃ t, exec (.registerWrite off false v) s = .next t ∧ t.reg off = v ∧ SameMemory s t) ∧
      (∃ t, exec (.registerWrite off true v) s = .next t ∧ t.reg off = low ||| (s.reg off &&& 0xFFFFFFFF00000000) ∧ SameMemory s t) ∧
      ∃ t, exec (.registerWrite (off + 4) true v) s = .next t ∧ t.reg off = (v <<< 32) ||| (s.reg off &&& 0xFFFFFFFF) ∧ SameMemory s t) ∧
    ∀ n < 68, ∃ t, exec (.msixUnmask n) s = .next t ∧ t.msixMask.getLsbD n = false ∧ t.msixPend.getLsbD n = false ∧
      t.posts = (if s.msixPend.getLsbD n then s.posts ++ [s.msixPost n] else s.posts) ∧ SameMemory s t

/-- R427, R430 to R448, R458, R463: reset and boot, discovery and the map, the multicast, attestation and the flash; a freeze; and the debug
port, whose registers read as zeros unless the device is frozen and not locked.
Readings of the model in it: assumptions 8, 10 for the bytes outside the planes after a reset, 116 to 118, 121, 123, 141 for the check
value of a failing beat that memrd reads, and 166. -/
def Obligations.BootAndDebugAct : Prop :=
  ∀ (s : State) (v : Word),
    (∃ t, exec .reset s = .next t ∧ t.ck = 0 ∧ t.cores = [] ∧ t.tiles = [] ∧
      (∀ a, t.readByte a = if inPlane a then s.readByte a else emptyByte) ∧ (∀ b ∈ t.failing, inPlane b = true ∧ b ∈ s.failing) ∧ t.empty = [] ∧ t.tags = [] ∧ t.requests = [] ∧
      t.launches = [] ∧ t.events = [] ∧ t.frozen = false ∧ t.booted = false ∧ t.flash = s.flash) ∧
    (s.booted = false → s.watchers = [] →
      ∃ t, exec .romStart s = .next t ∧ t.booted = true ∧
        (∀ i < 0x100000, t.readByte (shmBase + 0x100000 + i) = s.flashByte i) ∧
        (∀ i < 0x8000, t.readByte (lsAddr serviceCore (0x30000 + i)) = Config.rom i) ∧
        let c := t.ctxAt serviceCore 0
        let m := t.ctxAt serviceCore 15
        c.state = .run ∧ c.pc = 0x30000 ∧ c.tvec = 0x37F00 ∧ c.wsp = 0x38000 ∧ m.state = .parked ∧ m.park = .queue ∧ m.wsp = 0x3BC00) ∧
    (s.turn = .rom → s.frozen = false → s.closing = false → s.booted = true → s.romEnd = none → (s.ctxAt serviceCore 0).state = .run →
      s.failedBeat packageAddr 0x20 = none → s.packageForm = false →
      ∃ t, step s = .next t ∧ t.reg 0x1010 = 0x100000000000001 ∧ (t.ctxAt serviceCore 0).state = .done ∧ t.romFailed = true ∧
        SameMemory s t) ∧
    (∀ second, ∃ t, exec (.memoryInitDone second) s = .next t ∧ SameMemory s t ∧
      t.tierReady = (second || s.tierReady) ∧ t.hbmReady = (!second || s.hbmReady)) ∧
    (v.getLsbD 0 = true → ∃ t, exec (.bootctlReady v) s = .next t ∧ SameMemory s t ∧ t.field 0x1000 0 1 = 1 ∧
      t.field 0x1000 8 1 = s.field 0x1000 8 1 ∧ t.settleReady = t) ∧
    (s.field 0x1000 0 1 = 1 → s.justSet 0x1000 0 = false →
      let t := s.settleReady
      SameMemory s t ∧
      ((s.discState ≠ 2 ∨ s.romFailed = true) → t.field 0x1000 0 1 = 0 ∧ t.field 0x1000 8 1 = s.field 0x1000 8 1) ∧
      (s.discState = 2 → s.romFailed = false →
        (s.hbmReady = true → s.tierReady = true → t.field 0x1000 8 1 = 1 ∧ t.field 0x1000 0 1 = 0) ∧
        ((s.hbmReady = false ∨ s.tierReady = false) → t = s))) ∧
    (v.getLsbD 0 = true → s.discState = 0 →
      ∃ t, exec (.discGo v) s = .next t ∧ t.discState = 1 ∧ t.field 0x1008 0 1 = 1 ∧ t.discAt = s.ck ∧ SameMemory s t) ∧
    (s.discState = 1 → s.field 0x1008 3 1 = 0 → s.reported = false → s.discAt + 2 ^ 20 ≤ s.ck →
      ∃ t, exec .discoveryTimeout s = .next t ∧ t.discState = 3 ∧ t.field 0x1008 0 1 = 0 ∧ SameMemory s t) ∧
    (v.getLsbD 0 = true → s.discState = 1 → s.field 0x1008 3 1 = 1 →
      ∃ t, exec (.mapSubmit v) s = .next t ∧ SameMemory s t ∧
        t.discState = if s.hostMapOk = true then 2 else 3) ∧
    (let bad := s.discState ≠ 2 ∨ s.field 0x1000 8 1 = 1 ∨ s.mcDst % 16 ≠ 0 ∨ s.mcSrc % 16 ≠ 0 ∨ 2 ^ 18 < s.mcDst + s.mcLen ∨
       2 ^ 18 < s.mcSrc + s.mcLen
     v.getLsbD 0 = true → s.field 0x1020 1 2 ≠ 1 →
     (bad → ∃ t, exec (.mcctlGo v) s = .next t ∧ t.field 0x1020 1 2 = 3 ∧ SameMemory s t) ∧
     (¬bad → ∃ t m, exec (.mcctlGo v) s = .next t ∧ t.field 0x1020 1 2 = 1 ∧ t.mcast = some m ∧ m.dst = s.mcDst ∧ m.left.length = 1008 ∧
       SameMemory s t)) ∧
    (s.field 0x1028 0 1 = 0 → v.getLsbD 0 = true → 256 * bitsOf v.toNat 8 19 + 30048 ≤ 0x7FF4000 →
      ∃ t, exec (.attestGo v) s = .next t ∧ t.field 0x1028 0 1 = 1 ∧ t.attestBuf = 256 * bitsOf v.toNat 8 19 ∧
        t.attest = some (shmBase + t.attestBuf, t.report) ∧ SameMemory s t) ∧
    (∀ a r, s.attest = some (a, r) → s.justSet 0x1028 0 = false → s.watchers = [] → ∃ t, exec .attestReportDone s = .next t ∧ t.attest = none ∧ t.field 0x1028 0 1 = 0 ∧
      t.field 0x1028 4 4 = 0 ∧
      Stored s t a (r ++ slhSign attestSecret ((List.range 32).map (Config.attestRandom s.seq)) r)) ∧
    (s.field 0x400 0 1 = 0 → v.getLsbD 0 = true → ∃ t, exec (.flctlGo v) s = .next t ∧ t.field 0x400 0 1 = 1 ∧
      t.flashJob = some (bitsOf v.toNat 32 12, s.regBytes 0x4000 4096) ∧ SameMemory s t) ∧
    (∀ (page : Nat) (bytes : List Byte) (ok : Bool), s.flashJob = some (page, bytes) → s.justSet 0x400 0 = false →
      ∃ t, exec (.flashProgramDone ok) s = .next t ∧ t.flashJob = none ∧ t.field 0x400 0 1 = 0 ∧ t.field 0x400 4 4 = (if ok then 0 else 2) ∧
        (ok = true → ∀ i < 4096, t.flashByte (4096 * page + i) = bytes.getD i 0) ∧
        ∀ a, a / 4096 ≠ page → t.flashByte a = s.flashByte a) ∧
    (∃ t, exec .freezeInput s = .next t ∧ t.frozen = true ∧ (∀ k < 8, t.portWidth k = 0) ∧ SameMemory s t) ∧
    (∀ temp : BitVec 16, ∃ t, exec (.thermalTrip temp) s = .next t ∧ t.field 0x38 0 16 = temp.toNat ∧ SameMemory s t ∧
      (840 < temp.toNat → t.frozen = true ∧ t.field 0x38 16 1 = 1 ∧ t.thermN = false) ∧
      (temp.toNat ≤ 840 → t.frozen = s.frozen ∧ t.thermN = s.thermN)) ∧
    (∃ t, exec .idcode s = .next t ∧
      t.tdo = natToBytes 4 (s.field 0x1800 0 16 % 16 * 2 ^ 28 + 0xA3F2 * 2 ^ 12 + Config.maker.toNat * 2 + 1) ∧ SameMemory s t) ∧
    (∃ t, exec (.freeze true) s = .next t ∧ t.frozen = true ∧ t.debugIr = 0x20 ∧ SameMemory s t) ∧
    exec (.freeze false) s = .next { s with debugIr := 0x20 } ∧
    (∀ sel : BitVec 32, exec (.scansel sel) s = .next { s with debugIr := 0x21, scanSel := sel }) ∧
    (∃ t, exec .scanrd s = .next t ∧ SameMemory s t ∧ t.debugIr = 0x22 ∧
      t.tdo = if s.frozen = true ∧ s.debugLocked = false then s.chain else List.replicate s.chain.length 0) ∧
    (∃ t, exec (.memaddr v) s = .next t ∧ t.memAddr.toNat = v.toNat / 64 * 64 ∧ t.debugIr = 0x23 ∧ SameMemory s t) ∧
    ∃ t, exec .memrd s = .next t ∧ t.memAddr = s.memAddr + 64 ∧ t.debugIr = 0x24 ∧ SameMemory s t ∧
      ((s.frozen = false ∨ s.debugLocked = true) → t.tdo = List.replicate 68 0) ∧
      (s.frozen = true → s.debugLocked = false → s.hasBeat s.memAddr = true →
        let a := s.memAddr.toNat % 2 ^ 48
        t.tdo.take 64 = s.readBytes a 64 ∧ (s.failing.contains a = false → t.tdo.drop 64 = natToBytes 4 (crc32c (s.readBytes a 64)).toNat) ∧
        (s.failing.contains a = true → t.tdo.drop 64 = natToBytes 4 (crc32c (s.readBytes a 64) ^^^ s.syndrome a).toNat))

/-! ## Frames, encodings and steps -/

/-- R112 to R117, R129, R135: the frame of the instructions that write one register or none: memory, every other context and core,
every device register, the status and trap registers of the context and its other registers are as before. -/
def Obligations.RegisterWritersFrame : Prop :=
  ∀ (s t : State) (d a b e lane : Reg) (imm : BitVec 15) (off : BitVec 20) (n : BitVec 6) (g : RevGran) (ty : ElTy),
    let frame (uses : List RegUse) (xs ws : List Reg) (is : List Instr) : Prop :=
      ∀ i ∈ is, s.canIssue i uses = true → exec i s = .next t → RegisterFrame s t xs ws
    frame [.x d, .x a, .x b] [d] [] [.add d a b, .sub d a b, .and d a b, .or d a b, .xor d a b, .sll d a b, .srl d a b, .sra d a b,
      .slt d a b, .sltn d a b, .mul d a b, .mulh d a b, .mulhn d a b, .div d a b, .divn d a b, .rem d a b, .remn d a b, .min d a b,
      .max d a b, .minn d a b, .maxn d a b] ∧
    frame [.x d, .x a, .x b, .x e] [d] [] [.sel d a b e, .ext d a b e, .ins d a b e] ∧
    frame [.x d, .x a] [d] [] [.clz d a, .ctz d a, .popc d a, .rev d a g, .addi d a imm, .andi d a imm, .ori d a imm, .xori d a imm,
      .slti d a imm, .sltni d a imm, .slli d a n, .srli d a n, .srai d a n, .kmv d a, .kadd d a, .ksub d a, .kand d a, .kor d a,
      .kxor d a] ∧
    frame [.x d] [d] [] [.lhi d off, .addpc d off, .jal d off, .kaddi d n, .kli d n, .kslli d n, .ksrli d n] ∧
    frame [.x a, .x b] [] [] [.beq a b imm, .bne a b imm, .blt a b imm, .bge a b imm, .bltn a b imm, .bgen a b imm] ∧
    frame [.w d, .w a, .w b] [] [d] [.psel d a b] ∧ frame [.w d, .w a] [] [d] [.pmov d a] ∧
    frame [.w d, .x a] [] [d] [.psplat ty d a] ∧ (lane.toNat < 128 / ty.width →
      frame [.x d, .w a] [d] [] [.pext ty d a lane] ∧ frame [.w d, .x a] [] [d] [.pins ty d a lane])

/-- R86, R94, R96, R100 to R102: the words of a few instructions, field by field, decode to them. -/
def Obligations.WordsDecode : Prop :=
  decode32 (0#5 ++ 0#5 ++ 2#5 ++ 1#5 ++ 3#5 ++ 0x01#6 ++ 1#1) = .ok (.add 3 1 2) ∧
  decode32 (0x7FFF#15 ++ 1#5 ++ 5#5 ++ 0x02#6 ++ 1#1) = .ok (.addi 5 1 (-1)) ∧
  decode32 (1#10 ++ 2#5 ++ 1#5 ++ 3#5 ++ 0x0B#6 ++ 1#1) = .ok (.beq 1 2 35) ∧
  decode32 (2#3 ++ 3#2 ++ 4#5 ++ 2#5 ++ 1#5 ++ 3#5 ++ 0x15#6 ++ 1#1) = .ok (.ld ⟨.acquire, .d, 4, 2, 1, 3⟩) ∧
  decode16 (1#1 ++ 2#5 ++ 1#5 ++ 2#4 ++ 0#1) = .reject .reservedField ∧
  decode16 (0#1 ++ 2#5 ++ 1#5 ++ 2#4 ++ 0#1) = .ok (.kadd 1 2) ∧
  decodeS (0#7 ++ 0#7 ++ 2#4 ++ 1#4 ++ 0#4 ++ 3#12 ++ 0#2 ++ 4#8 ++ 0#6 ++ 0x0C#6 ++ 5#4) = .ok (.xloop ⟨2, 1, 3, 4, 5⟩) ∧
  decodeC (0#48 ++ 1#6 ++ 1#6 ++ 0#4) = .ok (.chalt 0) ∧
  decodeMatrix (3#4 ++ 0#24 ++ 1#1 ++ 0#19) = .ok (some (.mzero true)) ∧
  decodeLoop (5#4 ++ 9#12) = .ok (.jmp 9) ∧
  decode32 (0#25 ++ 0x3F#6 ++ 1#1) = .reject .unallocated

/-- R85 to R104: decoding what is encoded of any well-formed instruction gives it back, so that no bit of an operand is lost. -/
def Obligations.EncodedWordsDecode : Prop :=
  ∀ i : Instr, wellFormed i = true →
    match encode i with
    | .lc32 w => decodeLc w = (.ok i, 4)
    | .lc16 w => decodeLc (w.zeroExtend 32) = (.ok i, 2)
    | .sWord w => decodeS w = .ok i
    | .cWord w => decodeC w = .ok i
    | .matrixSlot w => decodeMatrix w = .ok (some i)
    | .vectorSlot w => decodeVector w = .ok (some i)
    | .loopSlot w => decodeLoop w = .ok i
    | .hardware => isEvent i = true

/-- R62, R63, R85, R199, R202, R204, R224: a step runs the instruction that is decoded. The slot of a core runs the word at the PC of the
context that owns it; a stream runs the word at its index, or its bundle; an event runs as it is, one
in which a limit passes while the ck is closing. A fetch with nothing ahead in its
window reads the bytes at the PC, which no workspace covers and whose check holds.
Readings of the model in it: assumptions 1, 22. -/
def Obligations.StepsRunWhatIsDecoded : Prop :=
  ∀ s : State, s.frozen = false →
    (s.closing = false → ∀ (u : Nat) (w : BitVec 32) (i : Instr) (len : Nat),
      let k := s.slotOf u
      s.turn = .lc u → s.mayIssue u = true → s.fetchWord u k = .ok w → decodeLc w = (.ok i, len) →
      step s = mapNext (fun t => (t.leaveEntryQueue u k).turnOver) (exec i ((s.spendSlot u).holdIssue u k w len))) ∧
    (∀ (u : Nat) (k : Fin 16),
      let c := s.ctxAt u k
      let pc2 := (c.pc.toNat + 2) % 2 ^ 18
      let b (n : Nat) : Byte := s.readByte (lsAddr u n)
      c.window = [] → s.bound u c.pc.toNat 2 = false → s.bound u pc2 2 = false → s.failedBeat (lsAddr u c.pc.toNat) 2 = none →
      s.failedBeat (lsAddr u pc2) 2 = none →
      s.fetchWord u k = .ok (if (b c.pc.toNat).getLsbD 0 then b (pc2 + 1) ++ b pc2 ++ b (c.pc.toNat + 1) ++ b c.pc.toNat
        else 0#16 ++ b (c.pc.toNat + 1) ++ b c.pc.toNat)) ∧
    (s.closing = false → ∀ (n : Nat) (st : Stream) (i : Instr),
      (st = .s ∨ st = .c) → s.turn = .dt n st → (s.strm n st).held = none → s.mayIssueDt n st = true →
      (({ s with tile := n } : State).fetchStream n st (s.strm n st).pc).2 = .ok i →
      step s = mapNext State.turnOver (exec i { s with tile := n })) ∧
    (s.closing = false → ∀ (n : Nat) (b : Bundle),
      let x := s.strm n .m
      let s1 : State := { s with tile := n }
      let t := (s.tileAt n).takePops (popsOf .m b.tok b.count)
      s.turn = .dt n .m → x.held = none → s.mayIssueDt n .m = true → (s1.fetchBundle n x.pc).2 = .ok b →
      (b.matrix.isSome = true → x.queue.length < 4) → (s.tileAt n).popMissing s.ck (popsOf .m b.tok b.count) = none →
      s1.bundleBad n b = false →
      step s = mapNext State.turnOver
        ((s1.setTile n (t.put .m { x with status := .run, wait := none, issuedAt := s.ck + 1 })).issueBundle n b)) ∧
    ∀ e : Instr, s.turn = .event e → isEvent e = true → isLimit e = s.closing → step s = mapNext State.turnOver (exec e s)

/-- Every step keeps memory in its canonical form, so that equal memories are equal data. -/
def Obligations.StepsKeepMemoryCanonical : Prop :=
  ∀ s t : State, s.Sound → step s = .next t → t.Sound

/-- R24, R76 to R79, R203, R213, R245, R255, R356: what reset leaves. Memory is in canonical form; every word and granule is full, no tag is set, and
tile stores and shape records hold zeros; every context is FREE with LWD 10, no trap active, in user mode but for those of the service core;
every RRB is 0; no launch
runs. That a stream is HALTED before its first launch is the model's choice (assumption 9). -/
def Obligations.ResetState : Prop :=
  let s := State.reset
  s.Sound ∧ s.ck = 0 ∧ s.rr = 0 ∧ s.launches = [] ∧ s.requests = [] ∧ s.frozen = false ∧
    (∀ a, s.isFull a = true ∧ s.tagAt a = false) ∧
    (∀ n < 32, (∀ o < 0x400000, s.readByte (tsAddr n o) = 0) ∧ ∀ r ≤ 64, ∀ b < 64, s.readByte (shapeAddr n r + b) = 0) ∧
    (∀ u k, (s.ctxAt u k).state = .free ∧ (s.ctxAt u k).lwd = 10 ∧ (s.ctxAt u k).tact = false ∧ (s.ctxAt u k).fcsr = 0 ∧
      (s.ctxAt u k).prv = decide (u = serviceCore) ∧ (s.ctxAt u k).ppv = decide (u = serviceCore)) ∧
    ∀ n, (s.tileAt n).rrb = 0 ∧ (s.tileAt n).lwd = 10 ∧ (s.tileAt n).aq = 1 ∧ (s.tileAt n).fcsr = 0 ∧ (s.tileAt n).stopped = false ∧
      ∀ st, (s.strm n st).status = .halted
end

