-- ==== Sys2Proof/Laws/State.lean ====
section
/-! SUPPORT. One lemma per field and per update of the state: what each update leaves and what it sets. -/

namespace Sys2Proof.Machine

/-! ## State.writeByte -/

@[simp] theorem State.writeByte_ck (s : State) (a : Nat) (b : Byte) : (s.writeByte a b).ck = s.ck := rfl
@[simp] theorem State.writeByte_closing (s : State) (a : Nat) (b : Byte) : (s.writeByte a b).closing = s.closing := rfl
@[simp] theorem State.writeByte_seq (s : State) (a : Nat) (b : Byte) : (s.writeByte a b).seq = s.seq := rfl
@[simp] theorem State.writeByte_turn (s : State) (a : Nat) (b : Byte) : (s.writeByte a b).turn = s.turn := rfl
@[simp] theorem State.writeByte_core (s : State) (a : Nat) (b : Byte) : (s.writeByte a b).core = s.core := rfl
@[simp] theorem State.writeByte_ctx (s : State) (a : Nat) (b : Byte) : (s.writeByte a b).ctx = s.ctx := rfl
@[simp] theorem State.writeByte_tile (s : State) (a : Nat) (b : Byte) : (s.writeByte a b).tile = s.tile := rfl
@[simp] theorem State.writeByte_cores (s : State) (a : Nat) (b : Byte) : (s.writeByte a b).cores = s.cores := rfl
@[simp] theorem State.writeByte_mem (s : State) (a : Nat) (b : Byte) : (s.writeByte a b).mem = storeAt emptyByte a b s.mem := rfl
@[simp] theorem State.writeByte_empty (s : State) (a : Nat) (b : Byte) : (s.writeByte a b).empty = s.empty := rfl
@[simp] theorem State.writeByte_tags (s : State) (a : Nat) (b : Byte) : (s.writeByte a b).tags = s.tags := rfl
@[simp] theorem State.writeByte_failing (s : State) (a : Nat) (b : Byte) : (s.writeByte a b).failing = s.failing := rfl
@[simp] theorem State.writeByte_syndromes (s : State) (a : Nat) (b : Byte) : (s.writeByte a b).syndromes = s.syndromes := rfl
@[simp] theorem State.writeByte_acted (s : State) (a : Nat) (b : Byte) : (s.writeByte a b).acted = s.acted := rfl
@[simp] theorem State.writeByte_nextId (s : State) (a : Nat) (b : Byte) : (s.writeByte a b).nextId = s.nextId := rfl
@[simp] theorem State.writeByte_requests (s : State) (a : Nat) (b : Byte) : (s.writeByte a b).requests = s.requests := rfl
@[simp] theorem State.writeByte_waiters (s : State) (a : Nat) (b : Byte) : (s.writeByte a b).waiters = s.waiters := rfl
@[simp] theorem State.writeByte_watchers (s : State) (a : Nat) (b : Byte) : (s.writeByte a b).watchers = s.watchers := rfl
@[simp] theorem State.writeByte_replies (s : State) (a : Nat) (b : Byte) : (s.writeByte a b).replies = s.replies := rfl
@[simp] theorem State.writeByte_messages (s : State) (a : Nat) (b : Byte) : (s.writeByte a b).messages = s.messages := rfl
@[simp] theorem State.writeByte_answers (s : State) (a : Nat) (b : Byte) : (s.writeByte a b).answers = s.answers := rfl
@[simp] theorem State.writeByte_beats (s : State) (a : Nat) (b : Byte) : (s.writeByte a b).beats = s.beats := rfl
@[simp] theorem State.writeByte_portTurn (s : State) (a : Nat) (b : Byte) : (s.writeByte a b).portTurn = s.portTurn := rfl
@[simp] theorem State.writeByte_qrows (s : State) (a : Nat) (b : Byte) : (s.writeByte a b).qrows = s.qrows := rfl
@[simp] theorem State.writeByte_walks (s : State) (a : Nat) (b : Byte) : (s.writeByte a b).walks = s.walks := rfl
@[simp] theorem State.writeByte_walkFaults (s : State) (a : Nat) (b : Byte) : (s.writeByte a b).walkFaults = s.walkFaults := rfl
@[simp] theorem State.writeByte_tileTlbs (s : State) (a : Nat) (b : Byte) : (s.writeByte a b).tileTlbs = s.tileTlbs := rfl
@[simp] theorem State.writeByte_posts (s : State) (a : Nat) (b : Byte) : (s.writeByte a b).posts = s.posts := rfl
@[simp] theorem State.writeByte_msixMask (s : State) (a : Nat) (b : Byte) : (s.writeByte a b).msixMask = s.msixMask := rfl
@[simp] theorem State.writeByte_msixPend (s : State) (a : Nat) (b : Byte) : (s.writeByte a b).msixPend = s.msixPend := rfl
@[simp] theorem State.writeByte_msixTable (s : State) (a : Nat) (b : Byte) : (s.writeByte a b).msixTable = s.msixTable := rfl
@[simp] theorem State.writeByte_barOut (s : State) (a : Nat) (b : Byte) : (s.writeByte a b).barOut = s.barOut := rfl
@[simp] theorem State.writeByte_stepJobs (s : State) (a : Nat) (b : Byte) : (s.writeByte a b).stepJobs = s.stepJobs := rfl
@[simp] theorem State.writeByte_claims (s : State) (a : Nat) (b : Byte) : (s.writeByte a b).claims = s.claims := rfl
@[simp] theorem State.writeByte_tiles (s : State) (a : Nat) (b : Byte) : (s.writeByte a b).tiles = s.tiles := rfl
@[simp] theorem State.writeByte_flits (s : State) (a : Nat) (b : Byte) : (s.writeByte a b).flits = s.flits := rfl
@[simp] theorem State.writeByte_firn (s : State) (a : Nat) (b : Byte) : (s.writeByte a b).firn = s.firn := rfl
@[simp] theorem State.writeByte_coach (s : State) (a : Nat) (b : Byte) : (s.writeByte a b).coach = s.coach := rfl
@[simp] theorem State.writeByte_readies (s : State) (a : Nat) (b : Byte) : (s.writeByte a b).readies = s.readies := rfl
@[simp] theorem State.writeByte_inbox (s : State) (a : Nat) (b : Byte) : (s.writeByte a b).inbox = s.inbox := rfl
@[simp] theorem State.writeByte_remote (s : State) (a : Nat) (b : Byte) : (s.writeByte a b).remote = s.remote := rfl
@[simp] theorem State.writeByte_lost (s : State) (a : Nat) (b : Byte) : (s.writeByte a b).lost = s.lost := rfl
@[simp] theorem State.writeByte_recalled (s : State) (a : Nat) (b : Byte) : (s.writeByte a b).recalled = s.recalled := rfl
@[simp] theorem State.writeByte_outbox (s : State) (a : Nat) (b : Byte) : (s.writeByte a b).outbox = s.outbox := rfl
@[simp] theorem State.writeByte_seqOut (s : State) (a : Nat) (b : Byte) : (s.writeByte a b).seqOut = s.seqOut := rfl
@[simp] theorem State.writeByte_regs (s : State) (a : Nat) (b : Byte) : (s.writeByte a b).regs = s.regs := rfl
@[simp] theorem State.writeByte_setNow (s : State) (a : Nat) (b : Byte) : (s.writeByte a b).setNow = s.setNow := rfl
@[simp] theorem State.writeByte_launches (s : State) (a : Nat) (b : Byte) : (s.writeByte a b).launches = s.launches := rfl
@[simp] theorem State.writeByte_events (s : State) (a : Nat) (b : Byte) : (s.writeByte a b).events = s.events := rfl
@[simp] theorem State.writeByte_ilast (s : State) (a : Nat) (b : Byte) : (s.writeByte a b).ilast = s.ilast := rfl
@[simp] theorem State.writeByte_queues (s : State) (a : Nat) (b : Byte) : (s.writeByte a b).queues = s.queues := rfl
@[simp] theorem State.writeByte_rr (s : State) (a : Nat) (b : Byte) : (s.writeByte a b).rr = s.rr := rfl
@[simp] theorem State.writeByte_resvs (s : State) (a : Nat) (b : Byte) : (s.writeByte a b).resvs = s.resvs := rfl
@[simp] theorem State.writeByte_homes (s : State) (a : Nat) (b : Byte) : (s.writeByte a b).homes = s.homes := rfl
@[simp] theorem State.writeByte_held (s : State) (a : Nat) (b : Byte) : (s.writeByte a b).held = s.held := rfl
@[simp] theorem State.writeByte_resets (s : State) (a : Nat) (b : Byte) : (s.writeByte a b).resets = s.resets := rfl
@[simp] theorem State.writeByte_preempts (s : State) (a : Nat) (b : Byte) : (s.writeByte a b).preempts = s.preempts := rfl
@[simp] theorem State.writeByte_homePreempts (s : State) (a : Nat) (b : Byte) : (s.writeByte a b).homePreempts = s.homePreempts := rfl
@[simp] theorem State.writeByte_ports (s : State) (a : Nat) (b : Byte) : (s.writeByte a b).ports = s.ports := rfl
@[simp] theorem State.writeByte_seqIn (s : State) (a : Nat) (b : Byte) : (s.writeByte a b).seqIn = s.seqIn := rfl
@[simp] theorem State.writeByte_early (s : State) (a : Nat) (b : Byte) : (s.writeByte a b).early = s.early := rfl
@[simp] theorem State.writeByte_partials (s : State) (a : Nat) (b : Byte) : (s.writeByte a b).partials = s.partials := rfl
@[simp] theorem State.writeByte_merges (s : State) (a : Nat) (b : Byte) : (s.writeByte a b).merges = s.merges := rfl
@[simp] theorem State.writeByte_frozen (s : State) (a : Nat) (b : Byte) : (s.writeByte a b).frozen = s.frozen := rfl
@[simp] theorem State.writeByte_booted (s : State) (a : Nat) (b : Byte) : (s.writeByte a b).booted = s.booted := rfl
@[simp] theorem State.writeByte_romEnd (s : State) (a : Nat) (b : Byte) : (s.writeByte a b).romEnd = s.romEnd := rfl
@[simp] theorem State.writeByte_hbmReady (s : State) (a : Nat) (b : Byte) : (s.writeByte a b).hbmReady = s.hbmReady := rfl
@[simp] theorem State.writeByte_tierReady (s : State) (a : Nat) (b : Byte) : (s.writeByte a b).tierReady = s.tierReady := rfl
@[simp] theorem State.writeByte_flash (s : State) (a : Nat) (b : Byte) : (s.writeByte a b).flash = s.flash := rfl
@[simp] theorem State.writeByte_flashJob (s : State) (a : Nat) (b : Byte) : (s.writeByte a b).flashJob = s.flashJob := rfl
@[simp] theorem State.writeByte_mcast (s : State) (a : Nat) (b : Byte) : (s.writeByte a b).mcast = s.mcast := rfl
@[simp] theorem State.writeByte_attest (s : State) (a : Nat) (b : Byte) : (s.writeByte a b).attest = s.attest := rfl
@[simp] theorem State.writeByte_discAt (s : State) (a : Nat) (b : Byte) : (s.writeByte a b).discAt = s.discAt := rfl
@[simp] theorem State.writeByte_reported (s : State) (a : Nat) (b : Byte) : (s.writeByte a b).reported = s.reported := rfl
@[simp] theorem State.writeByte_lsub (s : State) (a : Nat) (b : Byte) : (s.writeByte a b).lsub = s.lsub := rfl
@[simp] theorem State.writeByte_hostReqs (s : State) (a : Nat) (b : Byte) : (s.writeByte a b).hostReqs = s.hostReqs := rfl
@[simp] theorem State.writeByte_hostOut (s : State) (a : Nat) (b : Byte) : (s.writeByte a b).hostOut = s.hostOut := rfl
@[simp] theorem State.writeByte_scanSel (s : State) (a : Nat) (b : Byte) : (s.writeByte a b).scanSel = s.scanSel := rfl
@[simp] theorem State.writeByte_memAddr (s : State) (a : Nat) (b : Byte) : (s.writeByte a b).memAddr = s.memAddr := rfl
@[simp] theorem State.writeByte_debugIr (s : State) (a : Nat) (b : Byte) : (s.writeByte a b).debugIr = s.debugIr := rfl
@[simp] theorem State.writeByte_tdo (s : State) (a : Nat) (b : Byte) : (s.writeByte a b).tdo = s.tdo := rfl
@[simp] theorem State.writeByte_boundary (s : State) (a : Nat) (b : Byte) : (s.writeByte a b).boundary = s.boundary := rfl

/-! ## State.setFull -/

@[simp] theorem State.setFull_ck (s : State) (a : Nat) : (s.setFull a).ck = s.ck := rfl
@[simp] theorem State.setFull_closing (s : State) (a : Nat) : (s.setFull a).closing = s.closing := rfl
@[simp] theorem State.setFull_seq (s : State) (a : Nat) : (s.setFull a).seq = s.seq := rfl
@[simp] theorem State.setFull_turn (s : State) (a : Nat) : (s.setFull a).turn = s.turn := rfl
@[simp] theorem State.setFull_core (s : State) (a : Nat) : (s.setFull a).core = s.core := rfl
@[simp] theorem State.setFull_ctx (s : State) (a : Nat) : (s.setFull a).ctx = s.ctx := rfl
@[simp] theorem State.setFull_tile (s : State) (a : Nat) : (s.setFull a).tile = s.tile := rfl
@[simp] theorem State.setFull_cores (s : State) (a : Nat) : (s.setFull a).cores = s.cores := rfl
@[simp] theorem State.setFull_mem (s : State) (a : Nat) : (s.setFull a).mem = s.mem := rfl
@[simp] theorem State.setFull_empty (s : State) (a : Nat) : (s.setFull a).empty = setRemove (bitUnit a) s.empty := rfl
@[simp] theorem State.setFull_tags (s : State) (a : Nat) : (s.setFull a).tags = s.tags := rfl
@[simp] theorem State.setFull_failing (s : State) (a : Nat) : (s.setFull a).failing = s.failing := rfl
@[simp] theorem State.setFull_syndromes (s : State) (a : Nat) : (s.setFull a).syndromes = s.syndromes := rfl
@[simp] theorem State.setFull_acted (s : State) (a : Nat) : (s.setFull a).acted = s.acted := rfl
@[simp] theorem State.setFull_nextId (s : State) (a : Nat) : (s.setFull a).nextId = s.nextId := rfl
@[simp] theorem State.setFull_requests (s : State) (a : Nat) : (s.setFull a).requests = s.requests := rfl
@[simp] theorem State.setFull_waiters (s : State) (a : Nat) : (s.setFull a).waiters = s.waiters := rfl
@[simp] theorem State.setFull_watchers (s : State) (a : Nat) : (s.setFull a).watchers = s.watchers := rfl
@[simp] theorem State.setFull_replies (s : State) (a : Nat) : (s.setFull a).replies = s.replies := rfl
@[simp] theorem State.setFull_messages (s : State) (a : Nat) : (s.setFull a).messages = s.messages := rfl
@[simp] theorem State.setFull_answers (s : State) (a : Nat) : (s.setFull a).answers = s.answers := rfl
@[simp] theorem State.setFull_beats (s : State) (a : Nat) : (s.setFull a).beats = s.beats := rfl
@[simp] theorem State.setFull_portTurn (s : State) (a : Nat) : (s.setFull a).portTurn = s.portTurn := rfl
@[simp] theorem State.setFull_qrows (s : State) (a : Nat) : (s.setFull a).qrows = s.qrows := rfl
@[simp] theorem State.setFull_walks (s : State) (a : Nat) : (s.setFull a).walks = s.walks := rfl
@[simp] theorem State.setFull_walkFaults (s : State) (a : Nat) : (s.setFull a).walkFaults = s.walkFaults := rfl
@[simp] theorem State.setFull_tileTlbs (s : State) (a : Nat) : (s.setFull a).tileTlbs = s.tileTlbs := rfl
@[simp] theorem State.setFull_posts (s : State) (a : Nat) : (s.setFull a).posts = s.posts := rfl
@[simp] theorem State.setFull_msixMask (s : State) (a : Nat) : (s.setFull a).msixMask = s.msixMask := rfl
@[simp] theorem State.setFull_msixPend (s : State) (a : Nat) : (s.setFull a).msixPend = s.msixPend := rfl
@[simp] theorem State.setFull_msixTable (s : State) (a : Nat) : (s.setFull a).msixTable = s.msixTable := rfl
@[simp] theorem State.setFull_barOut (s : State) (a : Nat) : (s.setFull a).barOut = s.barOut := rfl
@[simp] theorem State.setFull_stepJobs (s : State) (a : Nat) : (s.setFull a).stepJobs = s.stepJobs := rfl
@[simp] theorem State.setFull_claims (s : State) (a : Nat) : (s.setFull a).claims = s.claims := rfl
@[simp] theorem State.setFull_tiles (s : State) (a : Nat) : (s.setFull a).tiles = s.tiles := rfl
@[simp] theorem State.setFull_flits (s : State) (a : Nat) : (s.setFull a).flits = s.flits := rfl
@[simp] theorem State.setFull_firn (s : State) (a : Nat) : (s.setFull a).firn = s.firn := rfl
@[simp] theorem State.setFull_coach (s : State) (a : Nat) : (s.setFull a).coach = s.coach := rfl
@[simp] theorem State.setFull_readies (s : State) (a : Nat) : (s.setFull a).readies = s.readies := rfl
@[simp] theorem State.setFull_inbox (s : State) (a : Nat) : (s.setFull a).inbox = s.inbox := rfl
@[simp] theorem State.setFull_remote (s : State) (a : Nat) : (s.setFull a).remote = s.remote := rfl
@[simp] theorem State.setFull_lost (s : State) (a : Nat) : (s.setFull a).lost = s.lost := rfl
@[simp] theorem State.setFull_recalled (s : State) (a : Nat) : (s.setFull a).recalled = s.recalled := rfl
@[simp] theorem State.setFull_outbox (s : State) (a : Nat) : (s.setFull a).outbox = s.outbox := rfl
@[simp] theorem State.setFull_seqOut (s : State) (a : Nat) : (s.setFull a).seqOut = s.seqOut := rfl
@[simp] theorem State.setFull_regs (s : State) (a : Nat) : (s.setFull a).regs = s.regs := rfl
@[simp] theorem State.setFull_setNow (s : State) (a : Nat) : (s.setFull a).setNow = s.setNow := rfl
@[simp] theorem State.setFull_launches (s : State) (a : Nat) : (s.setFull a).launches = s.launches := rfl
@[simp] theorem State.setFull_events (s : State) (a : Nat) : (s.setFull a).events = s.events := rfl
@[simp] theorem State.setFull_ilast (s : State) (a : Nat) : (s.setFull a).ilast = s.ilast := rfl
@[simp] theorem State.setFull_queues (s : State) (a : Nat) : (s.setFull a).queues = s.queues := rfl
@[simp] theorem State.setFull_rr (s : State) (a : Nat) : (s.setFull a).rr = s.rr := rfl
@[simp] theorem State.setFull_resvs (s : State) (a : Nat) : (s.setFull a).resvs = s.resvs := rfl
@[simp] theorem State.setFull_homes (s : State) (a : Nat) : (s.setFull a).homes = s.homes := rfl
@[simp] theorem State.setFull_held (s : State) (a : Nat) : (s.setFull a).held = s.held := rfl
@[simp] theorem State.setFull_resets (s : State) (a : Nat) : (s.setFull a).resets = s.resets := rfl
@[simp] theorem State.setFull_preempts (s : State) (a : Nat) : (s.setFull a).preempts = s.preempts := rfl
@[simp] theorem State.setFull_homePreempts (s : State) (a : Nat) : (s.setFull a).homePreempts = s.homePreempts := rfl
@[simp] theorem State.setFull_ports (s : State) (a : Nat) : (s.setFull a).ports = s.ports := rfl
@[simp] theorem State.setFull_seqIn (s : State) (a : Nat) : (s.setFull a).seqIn = s.seqIn := rfl
@[simp] theorem State.setFull_early (s : State) (a : Nat) : (s.setFull a).early = s.early := rfl
@[simp] theorem State.setFull_partials (s : State) (a : Nat) : (s.setFull a).partials = s.partials := rfl
@[simp] theorem State.setFull_merges (s : State) (a : Nat) : (s.setFull a).merges = s.merges := rfl
@[simp] theorem State.setFull_frozen (s : State) (a : Nat) : (s.setFull a).frozen = s.frozen := rfl
@[simp] theorem State.setFull_booted (s : State) (a : Nat) : (s.setFull a).booted = s.booted := rfl
@[simp] theorem State.setFull_romEnd (s : State) (a : Nat) : (s.setFull a).romEnd = s.romEnd := rfl
@[simp] theorem State.setFull_hbmReady (s : State) (a : Nat) : (s.setFull a).hbmReady = s.hbmReady := rfl
@[simp] theorem State.setFull_tierReady (s : State) (a : Nat) : (s.setFull a).tierReady = s.tierReady := rfl
@[simp] theorem State.setFull_flash (s : State) (a : Nat) : (s.setFull a).flash = s.flash := rfl
@[simp] theorem State.setFull_flashJob (s : State) (a : Nat) : (s.setFull a).flashJob = s.flashJob := rfl
@[simp] theorem State.setFull_mcast (s : State) (a : Nat) : (s.setFull a).mcast = s.mcast := rfl
@[simp] theorem State.setFull_attest (s : State) (a : Nat) : (s.setFull a).attest = s.attest := rfl
@[simp] theorem State.setFull_discAt (s : State) (a : Nat) : (s.setFull a).discAt = s.discAt := rfl
@[simp] theorem State.setFull_reported (s : State) (a : Nat) : (s.setFull a).reported = s.reported := rfl
@[simp] theorem State.setFull_lsub (s : State) (a : Nat) : (s.setFull a).lsub = s.lsub := rfl
@[simp] theorem State.setFull_hostReqs (s : State) (a : Nat) : (s.setFull a).hostReqs = s.hostReqs := rfl
@[simp] theorem State.setFull_hostOut (s : State) (a : Nat) : (s.setFull a).hostOut = s.hostOut := rfl
@[simp] theorem State.setFull_scanSel (s : State) (a : Nat) : (s.setFull a).scanSel = s.scanSel := rfl
@[simp] theorem State.setFull_memAddr (s : State) (a : Nat) : (s.setFull a).memAddr = s.memAddr := rfl
@[simp] theorem State.setFull_debugIr (s : State) (a : Nat) : (s.setFull a).debugIr = s.debugIr := rfl
@[simp] theorem State.setFull_tdo (s : State) (a : Nat) : (s.setFull a).tdo = s.tdo := rfl
@[simp] theorem State.setFull_boundary (s : State) (a : Nat) : (s.setFull a).boundary = s.boundary := rfl

/-! ## State.setEmpty -/

@[simp] theorem State.setEmpty_ck (s : State) (a : Nat) : (s.setEmpty a).ck = s.ck := rfl
@[simp] theorem State.setEmpty_closing (s : State) (a : Nat) : (s.setEmpty a).closing = s.closing := rfl
@[simp] theorem State.setEmpty_seq (s : State) (a : Nat) : (s.setEmpty a).seq = s.seq := rfl
@[simp] theorem State.setEmpty_turn (s : State) (a : Nat) : (s.setEmpty a).turn = s.turn := rfl
@[simp] theorem State.setEmpty_core (s : State) (a : Nat) : (s.setEmpty a).core = s.core := rfl
@[simp] theorem State.setEmpty_ctx (s : State) (a : Nat) : (s.setEmpty a).ctx = s.ctx := rfl
@[simp] theorem State.setEmpty_tile (s : State) (a : Nat) : (s.setEmpty a).tile = s.tile := rfl
@[simp] theorem State.setEmpty_cores (s : State) (a : Nat) : (s.setEmpty a).cores = s.cores := rfl
@[simp] theorem State.setEmpty_mem (s : State) (a : Nat) : (s.setEmpty a).mem = s.mem := rfl
@[simp] theorem State.setEmpty_empty (s : State) (a : Nat) : (s.setEmpty a).empty = setInsert (bitUnit a) s.empty := rfl
@[simp] theorem State.setEmpty_tags (s : State) (a : Nat) : (s.setEmpty a).tags = s.tags := rfl
@[simp] theorem State.setEmpty_failing (s : State) (a : Nat) : (s.setEmpty a).failing = s.failing := rfl
@[simp] theorem State.setEmpty_syndromes (s : State) (a : Nat) : (s.setEmpty a).syndromes = s.syndromes := rfl
@[simp] theorem State.setEmpty_acted (s : State) (a : Nat) : (s.setEmpty a).acted = s.acted := rfl
@[simp] theorem State.setEmpty_nextId (s : State) (a : Nat) : (s.setEmpty a).nextId = s.nextId := rfl
@[simp] theorem State.setEmpty_requests (s : State) (a : Nat) : (s.setEmpty a).requests = s.requests := rfl
@[simp] theorem State.setEmpty_waiters (s : State) (a : Nat) : (s.setEmpty a).waiters = s.waiters := rfl
@[simp] theorem State.setEmpty_watchers (s : State) (a : Nat) : (s.setEmpty a).watchers = s.watchers := rfl
@[simp] theorem State.setEmpty_replies (s : State) (a : Nat) : (s.setEmpty a).replies = s.replies := rfl
@[simp] theorem State.setEmpty_messages (s : State) (a : Nat) : (s.setEmpty a).messages = s.messages := rfl
@[simp] theorem State.setEmpty_answers (s : State) (a : Nat) : (s.setEmpty a).answers = s.answers := rfl
@[simp] theorem State.setEmpty_beats (s : State) (a : Nat) : (s.setEmpty a).beats = s.beats := rfl
@[simp] theorem State.setEmpty_portTurn (s : State) (a : Nat) : (s.setEmpty a).portTurn = s.portTurn := rfl
@[simp] theorem State.setEmpty_qrows (s : State) (a : Nat) : (s.setEmpty a).qrows = s.qrows := rfl
@[simp] theorem State.setEmpty_walks (s : State) (a : Nat) : (s.setEmpty a).walks = s.walks := rfl
@[simp] theorem State.setEmpty_walkFaults (s : State) (a : Nat) : (s.setEmpty a).walkFaults = s.walkFaults := rfl
@[simp] theorem State.setEmpty_tileTlbs (s : State) (a : Nat) : (s.setEmpty a).tileTlbs = s.tileTlbs := rfl
@[simp] theorem State.setEmpty_posts (s : State) (a : Nat) : (s.setEmpty a).posts = s.posts := rfl
@[simp] theorem State.setEmpty_msixMask (s : State) (a : Nat) : (s.setEmpty a).msixMask = s.msixMask := rfl
@[simp] theorem State.setEmpty_msixPend (s : State) (a : Nat) : (s.setEmpty a).msixPend = s.msixPend := rfl
@[simp] theorem State.setEmpty_msixTable (s : State) (a : Nat) : (s.setEmpty a).msixTable = s.msixTable := rfl
@[simp] theorem State.setEmpty_barOut (s : State) (a : Nat) : (s.setEmpty a).barOut = s.barOut := rfl
@[simp] theorem State.setEmpty_stepJobs (s : State) (a : Nat) : (s.setEmpty a).stepJobs = s.stepJobs := rfl
@[simp] theorem State.setEmpty_claims (s : State) (a : Nat) : (s.setEmpty a).claims = s.claims := rfl
@[simp] theorem State.setEmpty_tiles (s : State) (a : Nat) : (s.setEmpty a).tiles = s.tiles := rfl
@[simp] theorem State.setEmpty_flits (s : State) (a : Nat) : (s.setEmpty a).flits = s.flits := rfl
@[simp] theorem State.setEmpty_firn (s : State) (a : Nat) : (s.setEmpty a).firn = s.firn := rfl
@[simp] theorem State.setEmpty_coach (s : State) (a : Nat) : (s.setEmpty a).coach = s.coach := rfl
@[simp] theorem State.setEmpty_readies (s : State) (a : Nat) : (s.setEmpty a).readies = s.readies := rfl
@[simp] theorem State.setEmpty_inbox (s : State) (a : Nat) : (s.setEmpty a).inbox = s.inbox := rfl
@[simp] theorem State.setEmpty_remote (s : State) (a : Nat) : (s.setEmpty a).remote = s.remote := rfl
@[simp] theorem State.setEmpty_lost (s : State) (a : Nat) : (s.setEmpty a).lost = s.lost := rfl
@[simp] theorem State.setEmpty_recalled (s : State) (a : Nat) : (s.setEmpty a).recalled = s.recalled := rfl
@[simp] theorem State.setEmpty_outbox (s : State) (a : Nat) : (s.setEmpty a).outbox = s.outbox := rfl
@[simp] theorem State.setEmpty_seqOut (s : State) (a : Nat) : (s.setEmpty a).seqOut = s.seqOut := rfl
@[simp] theorem State.setEmpty_regs (s : State) (a : Nat) : (s.setEmpty a).regs = s.regs := rfl
@[simp] theorem State.setEmpty_setNow (s : State) (a : Nat) : (s.setEmpty a).setNow = s.setNow := rfl
@[simp] theorem State.setEmpty_launches (s : State) (a : Nat) : (s.setEmpty a).launches = s.launches := rfl
@[simp] theorem State.setEmpty_events (s : State) (a : Nat) : (s.setEmpty a).events = s.events := rfl
@[simp] theorem State.setEmpty_ilast (s : State) (a : Nat) : (s.setEmpty a).ilast = s.ilast := rfl
@[simp] theorem State.setEmpty_queues (s : State) (a : Nat) : (s.setEmpty a).queues = s.queues := rfl
@[simp] theorem State.setEmpty_rr (s : State) (a : Nat) : (s.setEmpty a).rr = s.rr := rfl
@[simp] theorem State.setEmpty_resvs (s : State) (a : Nat) : (s.setEmpty a).resvs = s.resvs := rfl
@[simp] theorem State.setEmpty_homes (s : State) (a : Nat) : (s.setEmpty a).homes = s.homes := rfl
@[simp] theorem State.setEmpty_held (s : State) (a : Nat) : (s.setEmpty a).held = s.held := rfl
@[simp] theorem State.setEmpty_resets (s : State) (a : Nat) : (s.setEmpty a).resets = s.resets := rfl
@[simp] theorem State.setEmpty_preempts (s : State) (a : Nat) : (s.setEmpty a).preempts = s.preempts := rfl
@[simp] theorem State.setEmpty_homePreempts (s : State) (a : Nat) : (s.setEmpty a).homePreempts = s.homePreempts := rfl
@[simp] theorem State.setEmpty_ports (s : State) (a : Nat) : (s.setEmpty a).ports = s.ports := rfl
@[simp] theorem State.setEmpty_seqIn (s : State) (a : Nat) : (s.setEmpty a).seqIn = s.seqIn := rfl
@[simp] theorem State.setEmpty_early (s : State) (a : Nat) : (s.setEmpty a).early = s.early := rfl
@[simp] theorem State.setEmpty_partials (s : State) (a : Nat) : (s.setEmpty a).partials = s.partials := rfl
@[simp] theorem State.setEmpty_merges (s : State) (a : Nat) : (s.setEmpty a).merges = s.merges := rfl
@[simp] theorem State.setEmpty_frozen (s : State) (a : Nat) : (s.setEmpty a).frozen = s.frozen := rfl
@[simp] theorem State.setEmpty_booted (s : State) (a : Nat) : (s.setEmpty a).booted = s.booted := rfl
@[simp] theorem State.setEmpty_romEnd (s : State) (a : Nat) : (s.setEmpty a).romEnd = s.romEnd := rfl
@[simp] theorem State.setEmpty_hbmReady (s : State) (a : Nat) : (s.setEmpty a).hbmReady = s.hbmReady := rfl
@[simp] theorem State.setEmpty_tierReady (s : State) (a : Nat) : (s.setEmpty a).tierReady = s.tierReady := rfl
@[simp] theorem State.setEmpty_flash (s : State) (a : Nat) : (s.setEmpty a).flash = s.flash := rfl
@[simp] theorem State.setEmpty_flashJob (s : State) (a : Nat) : (s.setEmpty a).flashJob = s.flashJob := rfl
@[simp] theorem State.setEmpty_mcast (s : State) (a : Nat) : (s.setEmpty a).mcast = s.mcast := rfl
@[simp] theorem State.setEmpty_attest (s : State) (a : Nat) : (s.setEmpty a).attest = s.attest := rfl
@[simp] theorem State.setEmpty_discAt (s : State) (a : Nat) : (s.setEmpty a).discAt = s.discAt := rfl
@[simp] theorem State.setEmpty_reported (s : State) (a : Nat) : (s.setEmpty a).reported = s.reported := rfl
@[simp] theorem State.setEmpty_lsub (s : State) (a : Nat) : (s.setEmpty a).lsub = s.lsub := rfl
@[simp] theorem State.setEmpty_hostReqs (s : State) (a : Nat) : (s.setEmpty a).hostReqs = s.hostReqs := rfl
@[simp] theorem State.setEmpty_hostOut (s : State) (a : Nat) : (s.setEmpty a).hostOut = s.hostOut := rfl
@[simp] theorem State.setEmpty_scanSel (s : State) (a : Nat) : (s.setEmpty a).scanSel = s.scanSel := rfl
@[simp] theorem State.setEmpty_memAddr (s : State) (a : Nat) : (s.setEmpty a).memAddr = s.memAddr := rfl
@[simp] theorem State.setEmpty_debugIr (s : State) (a : Nat) : (s.setEmpty a).debugIr = s.debugIr := rfl
@[simp] theorem State.setEmpty_tdo (s : State) (a : Nat) : (s.setEmpty a).tdo = s.tdo := rfl
@[simp] theorem State.setEmpty_boundary (s : State) (a : Nat) : (s.setEmpty a).boundary = s.boundary := rfl

/-! ## State.clearTags -/

@[simp] theorem State.clearTags_ck (s : State) (a n : Nat) : (s.clearTags a n).ck = s.ck := rfl
@[simp] theorem State.clearTags_closing (s : State) (a n : Nat) : (s.clearTags a n).closing = s.closing := rfl
@[simp] theorem State.clearTags_seq (s : State) (a n : Nat) : (s.clearTags a n).seq = s.seq := rfl
@[simp] theorem State.clearTags_turn (s : State) (a n : Nat) : (s.clearTags a n).turn = s.turn := rfl
@[simp] theorem State.clearTags_core (s : State) (a n : Nat) : (s.clearTags a n).core = s.core := rfl
@[simp] theorem State.clearTags_ctx (s : State) (a n : Nat) : (s.clearTags a n).ctx = s.ctx := rfl
@[simp] theorem State.clearTags_tile (s : State) (a n : Nat) : (s.clearTags a n).tile = s.tile := rfl
@[simp] theorem State.clearTags_cores (s : State) (a n : Nat) : (s.clearTags a n).cores = s.cores := rfl
@[simp] theorem State.clearTags_mem (s : State) (a n : Nat) : (s.clearTags a n).mem = s.mem := rfl
@[simp] theorem State.clearTags_empty (s : State) (a n : Nat) : (s.clearTags a n).empty = s.empty := rfl
@[simp] theorem State.clearTags_tags (s : State) (a n : Nat) : (s.clearTags a n).tags = s.tags.filter fun t => !(decide (t < a + n) && decide (a < t + 16)) := rfl
@[simp] theorem State.clearTags_failing (s : State) (a n : Nat) : (s.clearTags a n).failing = s.failing := rfl
@[simp] theorem State.clearTags_syndromes (s : State) (a n : Nat) : (s.clearTags a n).syndromes = s.syndromes := rfl
@[simp] theorem State.clearTags_acted (s : State) (a n : Nat) : (s.clearTags a n).acted = s.acted := rfl
@[simp] theorem State.clearTags_nextId (s : State) (a n : Nat) : (s.clearTags a n).nextId = s.nextId := rfl
@[simp] theorem State.clearTags_requests (s : State) (a n : Nat) : (s.clearTags a n).requests = s.requests := rfl
@[simp] theorem State.clearTags_waiters (s : State) (a n : Nat) : (s.clearTags a n).waiters = s.waiters := rfl
@[simp] theorem State.clearTags_watchers (s : State) (a n : Nat) : (s.clearTags a n).watchers = s.watchers := rfl
@[simp] theorem State.clearTags_replies (s : State) (a n : Nat) : (s.clearTags a n).replies = s.replies := rfl
@[simp] theorem State.clearTags_messages (s : State) (a n : Nat) : (s.clearTags a n).messages = s.messages := rfl
@[simp] theorem State.clearTags_answers (s : State) (a n : Nat) : (s.clearTags a n).answers = s.answers := rfl
@[simp] theorem State.clearTags_beats (s : State) (a n : Nat) : (s.clearTags a n).beats = s.beats := rfl
@[simp] theorem State.clearTags_portTurn (s : State) (a n : Nat) : (s.clearTags a n).portTurn = s.portTurn := rfl
@[simp] theorem State.clearTags_qrows (s : State) (a n : Nat) : (s.clearTags a n).qrows = s.qrows := rfl
@[simp] theorem State.clearTags_walks (s : State) (a n : Nat) : (s.clearTags a n).walks = s.walks := rfl
@[simp] theorem State.clearTags_walkFaults (s : State) (a n : Nat) : (s.clearTags a n).walkFaults = s.walkFaults := rfl
@[simp] theorem State.clearTags_tileTlbs (s : State) (a n : Nat) : (s.clearTags a n).tileTlbs = s.tileTlbs := rfl
@[simp] theorem State.clearTags_posts (s : State) (a n : Nat) : (s.clearTags a n).posts = s.posts := rfl
@[simp] theorem State.clearTags_msixMask (s : State) (a n : Nat) : (s.clearTags a n).msixMask = s.msixMask := rfl
@[simp] theorem State.clearTags_msixPend (s : State) (a n : Nat) : (s.clearTags a n).msixPend = s.msixPend := rfl
@[simp] theorem State.clearTags_msixTable (s : State) (a n : Nat) : (s.clearTags a n).msixTable = s.msixTable := rfl
@[simp] theorem State.clearTags_barOut (s : State) (a n : Nat) : (s.clearTags a n).barOut = s.barOut := rfl
@[simp] theorem State.clearTags_stepJobs (s : State) (a n : Nat) : (s.clearTags a n).stepJobs = s.stepJobs := rfl
@[simp] theorem State.clearTags_claims (s : State) (a n : Nat) : (s.clearTags a n).claims = s.claims := rfl
@[simp] theorem State.clearTags_tiles (s : State) (a n : Nat) : (s.clearTags a n).tiles = s.tiles := rfl
@[simp] theorem State.clearTags_flits (s : State) (a n : Nat) : (s.clearTags a n).flits = s.flits := rfl
@[simp] theorem State.clearTags_firn (s : State) (a n : Nat) : (s.clearTags a n).firn = s.firn := rfl
@[simp] theorem State.clearTags_coach (s : State) (a n : Nat) : (s.clearTags a n).coach = s.coach := rfl
@[simp] theorem State.clearTags_readies (s : State) (a n : Nat) : (s.clearTags a n).readies = s.readies := rfl
@[simp] theorem State.clearTags_inbox (s : State) (a n : Nat) : (s.clearTags a n).inbox = s.inbox := rfl
@[simp] theorem State.clearTags_remote (s : State) (a n : Nat) : (s.clearTags a n).remote = s.remote := rfl
@[simp] theorem State.clearTags_lost (s : State) (a n : Nat) : (s.clearTags a n).lost = s.lost := rfl
@[simp] theorem State.clearTags_recalled (s : State) (a n : Nat) : (s.clearTags a n).recalled = s.recalled := rfl
@[simp] theorem State.clearTags_outbox (s : State) (a n : Nat) : (s.clearTags a n).outbox = s.outbox := rfl
@[simp] theorem State.clearTags_seqOut (s : State) (a n : Nat) : (s.clearTags a n).seqOut = s.seqOut := rfl
@[simp] theorem State.clearTags_regs (s : State) (a n : Nat) : (s.clearTags a n).regs = s.regs := rfl
@[simp] theorem State.clearTags_setNow (s : State) (a n : Nat) : (s.clearTags a n).setNow = s.setNow := rfl
@[simp] theorem State.clearTags_launches (s : State) (a n : Nat) : (s.clearTags a n).launches = s.launches := rfl
@[simp] theorem State.clearTags_events (s : State) (a n : Nat) : (s.clearTags a n).events = s.events := rfl
@[simp] theorem State.clearTags_ilast (s : State) (a n : Nat) : (s.clearTags a n).ilast = s.ilast := rfl
@[simp] theorem State.clearTags_queues (s : State) (a n : Nat) : (s.clearTags a n).queues = s.queues := rfl
@[simp] theorem State.clearTags_rr (s : State) (a n : Nat) : (s.clearTags a n).rr = s.rr := rfl
@[simp] theorem State.clearTags_resvs (s : State) (a n : Nat) : (s.clearTags a n).resvs = s.resvs := rfl
@[simp] theorem State.clearTags_homes (s : State) (a n : Nat) : (s.clearTags a n).homes = s.homes := rfl
@[simp] theorem State.clearTags_held (s : State) (a n : Nat) : (s.clearTags a n).held = s.held := rfl
@[simp] theorem State.clearTags_resets (s : State) (a n : Nat) : (s.clearTags a n).resets = s.resets := rfl
@[simp] theorem State.clearTags_preempts (s : State) (a n : Nat) : (s.clearTags a n).preempts = s.preempts := rfl
@[simp] theorem State.clearTags_homePreempts (s : State) (a n : Nat) : (s.clearTags a n).homePreempts = s.homePreempts := rfl
@[simp] theorem State.clearTags_ports (s : State) (a n : Nat) : (s.clearTags a n).ports = s.ports := rfl
@[simp] theorem State.clearTags_seqIn (s : State) (a n : Nat) : (s.clearTags a n).seqIn = s.seqIn := rfl
@[simp] theorem State.clearTags_early (s : State) (a n : Nat) : (s.clearTags a n).early = s.early := rfl
@[simp] theorem State.clearTags_partials (s : State) (a n : Nat) : (s.clearTags a n).partials = s.partials := rfl
@[simp] theorem State.clearTags_merges (s : State) (a n : Nat) : (s.clearTags a n).merges = s.merges := rfl
@[simp] theorem State.clearTags_frozen (s : State) (a n : Nat) : (s.clearTags a n).frozen = s.frozen := rfl
@[simp] theorem State.clearTags_booted (s : State) (a n : Nat) : (s.clearTags a n).booted = s.booted := rfl
@[simp] theorem State.clearTags_romEnd (s : State) (a n : Nat) : (s.clearTags a n).romEnd = s.romEnd := rfl
@[simp] theorem State.clearTags_hbmReady (s : State) (a n : Nat) : (s.clearTags a n).hbmReady = s.hbmReady := rfl
@[simp] theorem State.clearTags_tierReady (s : State) (a n : Nat) : (s.clearTags a n).tierReady = s.tierReady := rfl
@[simp] theorem State.clearTags_flash (s : State) (a n : Nat) : (s.clearTags a n).flash = s.flash := rfl
@[simp] theorem State.clearTags_flashJob (s : State) (a n : Nat) : (s.clearTags a n).flashJob = s.flashJob := rfl
@[simp] theorem State.clearTags_mcast (s : State) (a n : Nat) : (s.clearTags a n).mcast = s.mcast := rfl
@[simp] theorem State.clearTags_attest (s : State) (a n : Nat) : (s.clearTags a n).attest = s.attest := rfl
@[simp] theorem State.clearTags_discAt (s : State) (a n : Nat) : (s.clearTags a n).discAt = s.discAt := rfl
@[simp] theorem State.clearTags_reported (s : State) (a n : Nat) : (s.clearTags a n).reported = s.reported := rfl
@[simp] theorem State.clearTags_lsub (s : State) (a n : Nat) : (s.clearTags a n).lsub = s.lsub := rfl
@[simp] theorem State.clearTags_hostReqs (s : State) (a n : Nat) : (s.clearTags a n).hostReqs = s.hostReqs := rfl
@[simp] theorem State.clearTags_hostOut (s : State) (a n : Nat) : (s.clearTags a n).hostOut = s.hostOut := rfl
@[simp] theorem State.clearTags_scanSel (s : State) (a n : Nat) : (s.clearTags a n).scanSel = s.scanSel := rfl
@[simp] theorem State.clearTags_memAddr (s : State) (a n : Nat) : (s.clearTags a n).memAddr = s.memAddr := rfl
@[simp] theorem State.clearTags_debugIr (s : State) (a n : Nat) : (s.clearTags a n).debugIr = s.debugIr := rfl
@[simp] theorem State.clearTags_tdo (s : State) (a n : Nat) : (s.clearTags a n).tdo = s.tdo := rfl
@[simp] theorem State.clearTags_boundary (s : State) (a n : Nat) : (s.clearTags a n).boundary = s.boundary := rfl

/-! ## State.recheck -/

@[simp] theorem State.recheck_ck (s : State) (a n : Nat) (bad : List Nat) : (s.recheck a n bad).ck = s.ck := rfl
@[simp] theorem State.recheck_closing (s : State) (a n : Nat) (bad : List Nat) : (s.recheck a n bad).closing = s.closing := rfl
@[simp] theorem State.recheck_seq (s : State) (a n : Nat) (bad : List Nat) : (s.recheck a n bad).seq = s.seq := rfl
@[simp] theorem State.recheck_turn (s : State) (a n : Nat) (bad : List Nat) : (s.recheck a n bad).turn = s.turn := rfl
@[simp] theorem State.recheck_core (s : State) (a n : Nat) (bad : List Nat) : (s.recheck a n bad).core = s.core := rfl
@[simp] theorem State.recheck_ctx (s : State) (a n : Nat) (bad : List Nat) : (s.recheck a n bad).ctx = s.ctx := rfl
@[simp] theorem State.recheck_tile (s : State) (a n : Nat) (bad : List Nat) : (s.recheck a n bad).tile = s.tile := rfl
@[simp] theorem State.recheck_cores (s : State) (a n : Nat) (bad : List Nat) : (s.recheck a n bad).cores = s.cores := rfl
@[simp] theorem State.recheck_mem (s : State) (a n : Nat) (bad : List Nat) : (s.recheck a n bad).mem = s.mem := rfl
@[simp] theorem State.recheck_empty (s : State) (a n : Nat) (bad : List Nat) : (s.recheck a n bad).empty = s.empty := rfl
@[simp] theorem State.recheck_tags (s : State) (a n : Nat) (bad : List Nat) : (s.recheck a n bad).tags = s.tags := rfl
@[simp] theorem State.recheck_acted (s : State) (a n : Nat) (bad : List Nat) : (s.recheck a n bad).acted = s.acted := rfl
@[simp] theorem State.recheck_nextId (s : State) (a n : Nat) (bad : List Nat) : (s.recheck a n bad).nextId = s.nextId := rfl
@[simp] theorem State.recheck_requests (s : State) (a n : Nat) (bad : List Nat) : (s.recheck a n bad).requests = s.requests := rfl
@[simp] theorem State.recheck_waiters (s : State) (a n : Nat) (bad : List Nat) : (s.recheck a n bad).waiters = s.waiters := rfl
@[simp] theorem State.recheck_watchers (s : State) (a n : Nat) (bad : List Nat) : (s.recheck a n bad).watchers = s.watchers := rfl
@[simp] theorem State.recheck_replies (s : State) (a n : Nat) (bad : List Nat) : (s.recheck a n bad).replies = s.replies := rfl
@[simp] theorem State.recheck_messages (s : State) (a n : Nat) (bad : List Nat) : (s.recheck a n bad).messages = s.messages := rfl
@[simp] theorem State.recheck_answers (s : State) (a n : Nat) (bad : List Nat) : (s.recheck a n bad).answers = s.answers := rfl
@[simp] theorem State.recheck_beats (s : State) (a n : Nat) (bad : List Nat) : (s.recheck a n bad).beats = s.beats := rfl
@[simp] theorem State.recheck_portTurn (s : State) (a n : Nat) (bad : List Nat) : (s.recheck a n bad).portTurn = s.portTurn := rfl
@[simp] theorem State.recheck_qrows (s : State) (a n : Nat) (bad : List Nat) : (s.recheck a n bad).qrows = s.qrows := rfl
@[simp] theorem State.recheck_walks (s : State) (a n : Nat) (bad : List Nat) : (s.recheck a n bad).walks = s.walks := rfl
@[simp] theorem State.recheck_walkFaults (s : State) (a n : Nat) (bad : List Nat) : (s.recheck a n bad).walkFaults = s.walkFaults := rfl
@[simp] theorem State.recheck_tileTlbs (s : State) (a n : Nat) (bad : List Nat) : (s.recheck a n bad).tileTlbs = s.tileTlbs := rfl
@[simp] theorem State.recheck_posts (s : State) (a n : Nat) (bad : List Nat) : (s.recheck a n bad).posts = s.posts := rfl
@[simp] theorem State.recheck_msixMask (s : State) (a n : Nat) (bad : List Nat) : (s.recheck a n bad).msixMask = s.msixMask := rfl
@[simp] theorem State.recheck_msixPend (s : State) (a n : Nat) (bad : List Nat) : (s.recheck a n bad).msixPend = s.msixPend := rfl
@[simp] theorem State.recheck_msixTable (s : State) (a n : Nat) (bad : List Nat) : (s.recheck a n bad).msixTable = s.msixTable := rfl
@[simp] theorem State.recheck_barOut (s : State) (a n : Nat) (bad : List Nat) : (s.recheck a n bad).barOut = s.barOut := rfl
@[simp] theorem State.recheck_stepJobs (s : State) (a n : Nat) (bad : List Nat) : (s.recheck a n bad).stepJobs = s.stepJobs := rfl
@[simp] theorem State.recheck_claims (s : State) (a n : Nat) (bad : List Nat) : (s.recheck a n bad).claims = s.claims := rfl
@[simp] theorem State.recheck_tiles (s : State) (a n : Nat) (bad : List Nat) : (s.recheck a n bad).tiles = s.tiles := rfl
@[simp] theorem State.recheck_flits (s : State) (a n : Nat) (bad : List Nat) : (s.recheck a n bad).flits = s.flits := rfl
@[simp] theorem State.recheck_firn (s : State) (a n : Nat) (bad : List Nat) : (s.recheck a n bad).firn = s.firn := rfl
@[simp] theorem State.recheck_coach (s : State) (a n : Nat) (bad : List Nat) : (s.recheck a n bad).coach = s.coach := rfl
@[simp] theorem State.recheck_readies (s : State) (a n : Nat) (bad : List Nat) : (s.recheck a n bad).readies = s.readies := rfl
@[simp] theorem State.recheck_inbox (s : State) (a n : Nat) (bad : List Nat) : (s.recheck a n bad).inbox = s.inbox := rfl
@[simp] theorem State.recheck_remote (s : State) (a n : Nat) (bad : List Nat) : (s.recheck a n bad).remote = s.remote := rfl
@[simp] theorem State.recheck_lost (s : State) (a n : Nat) (bad : List Nat) : (s.recheck a n bad).lost = s.lost := rfl
@[simp] theorem State.recheck_recalled (s : State) (a n : Nat) (bad : List Nat) : (s.recheck a n bad).recalled = s.recalled := rfl
@[simp] theorem State.recheck_outbox (s : State) (a n : Nat) (bad : List Nat) : (s.recheck a n bad).outbox = s.outbox := rfl
@[simp] theorem State.recheck_seqOut (s : State) (a n : Nat) (bad : List Nat) : (s.recheck a n bad).seqOut = s.seqOut := rfl
@[simp] theorem State.recheck_regs (s : State) (a n : Nat) (bad : List Nat) : (s.recheck a n bad).regs = s.regs := rfl
@[simp] theorem State.recheck_setNow (s : State) (a n : Nat) (bad : List Nat) : (s.recheck a n bad).setNow = s.setNow := rfl
@[simp] theorem State.recheck_launches (s : State) (a n : Nat) (bad : List Nat) : (s.recheck a n bad).launches = s.launches := rfl
@[simp] theorem State.recheck_events (s : State) (a n : Nat) (bad : List Nat) : (s.recheck a n bad).events = s.events := rfl
@[simp] theorem State.recheck_ilast (s : State) (a n : Nat) (bad : List Nat) : (s.recheck a n bad).ilast = s.ilast := rfl
@[simp] theorem State.recheck_queues (s : State) (a n : Nat) (bad : List Nat) : (s.recheck a n bad).queues = s.queues := rfl
@[simp] theorem State.recheck_rr (s : State) (a n : Nat) (bad : List Nat) : (s.recheck a n bad).rr = s.rr := rfl
@[simp] theorem State.recheck_resvs (s : State) (a n : Nat) (bad : List Nat) : (s.recheck a n bad).resvs = s.resvs := rfl
@[simp] theorem State.recheck_homes (s : State) (a n : Nat) (bad : List Nat) : (s.recheck a n bad).homes = s.homes := rfl
@[simp] theorem State.recheck_held (s : State) (a n : Nat) (bad : List Nat) : (s.recheck a n bad).held = s.held := rfl
@[simp] theorem State.recheck_resets (s : State) (a n : Nat) (bad : List Nat) : (s.recheck a n bad).resets = s.resets := rfl
@[simp] theorem State.recheck_preempts (s : State) (a n : Nat) (bad : List Nat) : (s.recheck a n bad).preempts = s.preempts := rfl
@[simp] theorem State.recheck_homePreempts (s : State) (a n : Nat) (bad : List Nat) : (s.recheck a n bad).homePreempts = s.homePreempts := rfl
@[simp] theorem State.recheck_ports (s : State) (a n : Nat) (bad : List Nat) : (s.recheck a n bad).ports = s.ports := rfl
@[simp] theorem State.recheck_seqIn (s : State) (a n : Nat) (bad : List Nat) : (s.recheck a n bad).seqIn = s.seqIn := rfl
@[simp] theorem State.recheck_early (s : State) (a n : Nat) (bad : List Nat) : (s.recheck a n bad).early = s.early := rfl
@[simp] theorem State.recheck_partials (s : State) (a n : Nat) (bad : List Nat) : (s.recheck a n bad).partials = s.partials := rfl
@[simp] theorem State.recheck_merges (s : State) (a n : Nat) (bad : List Nat) : (s.recheck a n bad).merges = s.merges := rfl
@[simp] theorem State.recheck_frozen (s : State) (a n : Nat) (bad : List Nat) : (s.recheck a n bad).frozen = s.frozen := rfl
@[simp] theorem State.recheck_booted (s : State) (a n : Nat) (bad : List Nat) : (s.recheck a n bad).booted = s.booted := rfl
@[simp] theorem State.recheck_romEnd (s : State) (a n : Nat) (bad : List Nat) : (s.recheck a n bad).romEnd = s.romEnd := rfl
@[simp] theorem State.recheck_hbmReady (s : State) (a n : Nat) (bad : List Nat) : (s.recheck a n bad).hbmReady = s.hbmReady := rfl
@[simp] theorem State.recheck_tierReady (s : State) (a n : Nat) (bad : List Nat) : (s.recheck a n bad).tierReady = s.tierReady := rfl
@[simp] theorem State.recheck_flash (s : State) (a n : Nat) (bad : List Nat) : (s.recheck a n bad).flash = s.flash := rfl
@[simp] theorem State.recheck_flashJob (s : State) (a n : Nat) (bad : List Nat) : (s.recheck a n bad).flashJob = s.flashJob := rfl
@[simp] theorem State.recheck_mcast (s : State) (a n : Nat) (bad : List Nat) : (s.recheck a n bad).mcast = s.mcast := rfl
@[simp] theorem State.recheck_attest (s : State) (a n : Nat) (bad : List Nat) : (s.recheck a n bad).attest = s.attest := rfl
@[simp] theorem State.recheck_discAt (s : State) (a n : Nat) (bad : List Nat) : (s.recheck a n bad).discAt = s.discAt := rfl
@[simp] theorem State.recheck_reported (s : State) (a n : Nat) (bad : List Nat) : (s.recheck a n bad).reported = s.reported := rfl
@[simp] theorem State.recheck_lsub (s : State) (a n : Nat) (bad : List Nat) : (s.recheck a n bad).lsub = s.lsub := rfl
@[simp] theorem State.recheck_hostReqs (s : State) (a n : Nat) (bad : List Nat) : (s.recheck a n bad).hostReqs = s.hostReqs := rfl
@[simp] theorem State.recheck_hostOut (s : State) (a n : Nat) (bad : List Nat) : (s.recheck a n bad).hostOut = s.hostOut := rfl
@[simp] theorem State.recheck_scanSel (s : State) (a n : Nat) (bad : List Nat) : (s.recheck a n bad).scanSel = s.scanSel := rfl
@[simp] theorem State.recheck_memAddr (s : State) (a n : Nat) (bad : List Nat) : (s.recheck a n bad).memAddr = s.memAddr := rfl
@[simp] theorem State.recheck_debugIr (s : State) (a n : Nat) (bad : List Nat) : (s.recheck a n bad).debugIr = s.debugIr := rfl
@[simp] theorem State.recheck_tdo (s : State) (a n : Nat) (bad : List Nat) : (s.recheck a n bad).tdo = s.tdo := rfl
@[simp] theorem State.recheck_boundary (s : State) (a n : Nat) (bad : List Nat) : (s.recheck a n bad).boundary = s.boundary := rfl

/-! ## State.setCore -/

@[simp] theorem State.setCore_ck (s : State) (u : Nat) (c : Core) : (s.setCore u c).ck = s.ck := rfl
@[simp] theorem State.setCore_closing (s : State) (u : Nat) (c : Core) : (s.setCore u c).closing = s.closing := rfl
@[simp] theorem State.setCore_seq (s : State) (u : Nat) (c : Core) : (s.setCore u c).seq = s.seq := rfl
@[simp] theorem State.setCore_turn (s : State) (u : Nat) (c : Core) : (s.setCore u c).turn = s.turn := rfl
@[simp] theorem State.setCore_core (s : State) (u : Nat) (c : Core) : (s.setCore u c).core = s.core := rfl
@[simp] theorem State.setCore_ctx (s : State) (u : Nat) (c : Core) : (s.setCore u c).ctx = s.ctx := rfl
@[simp] theorem State.setCore_tile (s : State) (u : Nat) (c : Core) : (s.setCore u c).tile = s.tile := rfl
@[simp] theorem State.setCore_cores (s : State) (u : Nat) (c : Core) : (s.setCore u c).cores = insertAt u c s.cores := rfl
@[simp] theorem State.setCore_mem (s : State) (u : Nat) (c : Core) : (s.setCore u c).mem = s.mem := rfl
@[simp] theorem State.setCore_empty (s : State) (u : Nat) (c : Core) : (s.setCore u c).empty = s.empty := rfl
@[simp] theorem State.setCore_tags (s : State) (u : Nat) (c : Core) : (s.setCore u c).tags = s.tags := rfl
@[simp] theorem State.setCore_failing (s : State) (u : Nat) (c : Core) : (s.setCore u c).failing = s.failing := rfl
@[simp] theorem State.setCore_syndromes (s : State) (u : Nat) (c : Core) : (s.setCore u c).syndromes = s.syndromes := rfl
@[simp] theorem State.setCore_acted (s : State) (u : Nat) (c : Core) : (s.setCore u c).acted = s.acted := rfl
@[simp] theorem State.setCore_nextId (s : State) (u : Nat) (c : Core) : (s.setCore u c).nextId = s.nextId := rfl
@[simp] theorem State.setCore_requests (s : State) (u : Nat) (c : Core) : (s.setCore u c).requests = s.requests := rfl
@[simp] theorem State.setCore_waiters (s : State) (u : Nat) (c : Core) : (s.setCore u c).waiters = s.waiters := rfl
@[simp] theorem State.setCore_watchers (s : State) (u : Nat) (c : Core) : (s.setCore u c).watchers = s.watchers := rfl
@[simp] theorem State.setCore_replies (s : State) (u : Nat) (c : Core) : (s.setCore u c).replies = s.replies := rfl
@[simp] theorem State.setCore_messages (s : State) (u : Nat) (c : Core) : (s.setCore u c).messages = s.messages := rfl
@[simp] theorem State.setCore_answers (s : State) (u : Nat) (c : Core) : (s.setCore u c).answers = s.answers := rfl
@[simp] theorem State.setCore_beats (s : State) (u : Nat) (c : Core) : (s.setCore u c).beats = s.beats := rfl
@[simp] theorem State.setCore_portTurn (s : State) (u : Nat) (c : Core) : (s.setCore u c).portTurn = s.portTurn := rfl
@[simp] theorem State.setCore_qrows (s : State) (u : Nat) (c : Core) : (s.setCore u c).qrows = s.qrows := rfl
@[simp] theorem State.setCore_walks (s : State) (u : Nat) (c : Core) : (s.setCore u c).walks = s.walks := rfl
@[simp] theorem State.setCore_walkFaults (s : State) (u : Nat) (c : Core) : (s.setCore u c).walkFaults = s.walkFaults := rfl
@[simp] theorem State.setCore_tileTlbs (s : State) (u : Nat) (c : Core) : (s.setCore u c).tileTlbs = s.tileTlbs := rfl
@[simp] theorem State.setCore_posts (s : State) (u : Nat) (c : Core) : (s.setCore u c).posts = s.posts := rfl
@[simp] theorem State.setCore_msixMask (s : State) (u : Nat) (c : Core) : (s.setCore u c).msixMask = s.msixMask := rfl
@[simp] theorem State.setCore_msixPend (s : State) (u : Nat) (c : Core) : (s.setCore u c).msixPend = s.msixPend := rfl
@[simp] theorem State.setCore_msixTable (s : State) (u : Nat) (c : Core) : (s.setCore u c).msixTable = s.msixTable := rfl
@[simp] theorem State.setCore_barOut (s : State) (u : Nat) (c : Core) : (s.setCore u c).barOut = s.barOut := rfl
@[simp] theorem State.setCore_stepJobs (s : State) (u : Nat) (c : Core) : (s.setCore u c).stepJobs = s.stepJobs := rfl
@[simp] theorem State.setCore_claims (s : State) (u : Nat) (c : Core) : (s.setCore u c).claims = s.claims := rfl
@[simp] theorem State.setCore_tiles (s : State) (u : Nat) (c : Core) : (s.setCore u c).tiles = s.tiles := rfl
@[simp] theorem State.setCore_flits (s : State) (u : Nat) (c : Core) : (s.setCore u c).flits = s.flits := rfl
@[simp] theorem State.setCore_firn (s : State) (u : Nat) (c : Core) : (s.setCore u c).firn = s.firn := rfl
@[simp] theorem State.setCore_coach (s : State) (u : Nat) (c : Core) : (s.setCore u c).coach = s.coach := rfl
@[simp] theorem State.setCore_readies (s : State) (u : Nat) (c : Core) : (s.setCore u c).readies = s.readies := rfl
@[simp] theorem State.setCore_inbox (s : State) (u : Nat) (c : Core) : (s.setCore u c).inbox = s.inbox := rfl
@[simp] theorem State.setCore_remote (s : State) (u : Nat) (c : Core) : (s.setCore u c).remote = s.remote := rfl
@[simp] theorem State.setCore_lost (s : State) (u : Nat) (c : Core) : (s.setCore u c).lost = s.lost := rfl
@[simp] theorem State.setCore_recalled (s : State) (u : Nat) (c : Core) : (s.setCore u c).recalled = s.recalled := rfl
@[simp] theorem State.setCore_outbox (s : State) (u : Nat) (c : Core) : (s.setCore u c).outbox = s.outbox := rfl
@[simp] theorem State.setCore_seqOut (s : State) (u : Nat) (c : Core) : (s.setCore u c).seqOut = s.seqOut := rfl
@[simp] theorem State.setCore_regs (s : State) (u : Nat) (c : Core) : (s.setCore u c).regs = s.regs := rfl
@[simp] theorem State.setCore_setNow (s : State) (u : Nat) (c : Core) : (s.setCore u c).setNow = s.setNow := rfl
@[simp] theorem State.setCore_launches (s : State) (u : Nat) (c : Core) : (s.setCore u c).launches = s.launches := rfl
@[simp] theorem State.setCore_events (s : State) (u : Nat) (c : Core) : (s.setCore u c).events = s.events := rfl
@[simp] theorem State.setCore_ilast (s : State) (u : Nat) (c : Core) : (s.setCore u c).ilast = s.ilast := rfl
@[simp] theorem State.setCore_queues (s : State) (u : Nat) (c : Core) : (s.setCore u c).queues = s.queues := rfl
@[simp] theorem State.setCore_rr (s : State) (u : Nat) (c : Core) : (s.setCore u c).rr = s.rr := rfl
@[simp] theorem State.setCore_resvs (s : State) (u : Nat) (c : Core) : (s.setCore u c).resvs = s.resvs := rfl
@[simp] theorem State.setCore_homes (s : State) (u : Nat) (c : Core) : (s.setCore u c).homes = s.homes := rfl
@[simp] theorem State.setCore_held (s : State) (u : Nat) (c : Core) : (s.setCore u c).held = s.held := rfl
@[simp] theorem State.setCore_resets (s : State) (u : Nat) (c : Core) : (s.setCore u c).resets = s.resets := rfl
@[simp] theorem State.setCore_preempts (s : State) (u : Nat) (c : Core) : (s.setCore u c).preempts = s.preempts := rfl
@[simp] theorem State.setCore_homePreempts (s : State) (u : Nat) (c : Core) : (s.setCore u c).homePreempts = s.homePreempts := rfl
@[simp] theorem State.setCore_ports (s : State) (u : Nat) (c : Core) : (s.setCore u c).ports = s.ports := rfl
@[simp] theorem State.setCore_seqIn (s : State) (u : Nat) (c : Core) : (s.setCore u c).seqIn = s.seqIn := rfl
@[simp] theorem State.setCore_early (s : State) (u : Nat) (c : Core) : (s.setCore u c).early = s.early := rfl
@[simp] theorem State.setCore_partials (s : State) (u : Nat) (c : Core) : (s.setCore u c).partials = s.partials := rfl
@[simp] theorem State.setCore_merges (s : State) (u : Nat) (c : Core) : (s.setCore u c).merges = s.merges := rfl
@[simp] theorem State.setCore_frozen (s : State) (u : Nat) (c : Core) : (s.setCore u c).frozen = s.frozen := rfl
@[simp] theorem State.setCore_booted (s : State) (u : Nat) (c : Core) : (s.setCore u c).booted = s.booted := rfl
@[simp] theorem State.setCore_romEnd (s : State) (u : Nat) (c : Core) : (s.setCore u c).romEnd = s.romEnd := rfl
@[simp] theorem State.setCore_hbmReady (s : State) (u : Nat) (c : Core) : (s.setCore u c).hbmReady = s.hbmReady := rfl
@[simp] theorem State.setCore_tierReady (s : State) (u : Nat) (c : Core) : (s.setCore u c).tierReady = s.tierReady := rfl
@[simp] theorem State.setCore_flash (s : State) (u : Nat) (c : Core) : (s.setCore u c).flash = s.flash := rfl
@[simp] theorem State.setCore_flashJob (s : State) (u : Nat) (c : Core) : (s.setCore u c).flashJob = s.flashJob := rfl
@[simp] theorem State.setCore_mcast (s : State) (u : Nat) (c : Core) : (s.setCore u c).mcast = s.mcast := rfl
@[simp] theorem State.setCore_attest (s : State) (u : Nat) (c : Core) : (s.setCore u c).attest = s.attest := rfl
@[simp] theorem State.setCore_discAt (s : State) (u : Nat) (c : Core) : (s.setCore u c).discAt = s.discAt := rfl
@[simp] theorem State.setCore_reported (s : State) (u : Nat) (c : Core) : (s.setCore u c).reported = s.reported := rfl
@[simp] theorem State.setCore_lsub (s : State) (u : Nat) (c : Core) : (s.setCore u c).lsub = s.lsub := rfl
@[simp] theorem State.setCore_hostReqs (s : State) (u : Nat) (c : Core) : (s.setCore u c).hostReqs = s.hostReqs := rfl
@[simp] theorem State.setCore_hostOut (s : State) (u : Nat) (c : Core) : (s.setCore u c).hostOut = s.hostOut := rfl
@[simp] theorem State.setCore_scanSel (s : State) (u : Nat) (c : Core) : (s.setCore u c).scanSel = s.scanSel := rfl
@[simp] theorem State.setCore_memAddr (s : State) (u : Nat) (c : Core) : (s.setCore u c).memAddr = s.memAddr := rfl
@[simp] theorem State.setCore_debugIr (s : State) (u : Nat) (c : Core) : (s.setCore u c).debugIr = s.debugIr := rfl
@[simp] theorem State.setCore_tdo (s : State) (u : Nat) (c : Core) : (s.setCore u c).tdo = s.tdo := rfl
@[simp] theorem State.setCore_boundary (s : State) (u : Nat) (c : Core) : (s.setCore u c).boundary = s.boundary := rfl

/-! ## State.setCtx -/

@[simp] theorem State.setCtx_ck (s : State) (u : Nat) (k : Fin 16) (x : Context) : (s.setCtx u k x).ck = s.ck := rfl
@[simp] theorem State.setCtx_closing (s : State) (u : Nat) (k : Fin 16) (x : Context) : (s.setCtx u k x).closing = s.closing := rfl
@[simp] theorem State.setCtx_seq (s : State) (u : Nat) (k : Fin 16) (x : Context) : (s.setCtx u k x).seq = s.seq := rfl
@[simp] theorem State.setCtx_turn (s : State) (u : Nat) (k : Fin 16) (x : Context) : (s.setCtx u k x).turn = s.turn := rfl
@[simp] theorem State.setCtx_core (s : State) (u : Nat) (k : Fin 16) (x : Context) : (s.setCtx u k x).core = s.core := rfl
@[simp] theorem State.setCtx_ctx (s : State) (u : Nat) (k : Fin 16) (x : Context) : (s.setCtx u k x).ctx = s.ctx := rfl
@[simp] theorem State.setCtx_tile (s : State) (u : Nat) (k : Fin 16) (x : Context) : (s.setCtx u k x).tile = s.tile := rfl
@[simp] theorem State.setCtx_cores (s : State) (u : Nat) (k : Fin 16) (x : Context) : (s.setCtx u k x).cores = insertAt u ((s.coreAt u).setCtx k x) s.cores := rfl
@[simp] theorem State.setCtx_mem (s : State) (u : Nat) (k : Fin 16) (x : Context) : (s.setCtx u k x).mem = s.mem := rfl
@[simp] theorem State.setCtx_empty (s : State) (u : Nat) (k : Fin 16) (x : Context) : (s.setCtx u k x).empty = s.empty := rfl
@[simp] theorem State.setCtx_tags (s : State) (u : Nat) (k : Fin 16) (x : Context) : (s.setCtx u k x).tags = s.tags := rfl
@[simp] theorem State.setCtx_failing (s : State) (u : Nat) (k : Fin 16) (x : Context) : (s.setCtx u k x).failing = s.failing := rfl
@[simp] theorem State.setCtx_syndromes (s : State) (u : Nat) (k : Fin 16) (x : Context) : (s.setCtx u k x).syndromes = s.syndromes := rfl
@[simp] theorem State.setCtx_acted (s : State) (u : Nat) (k : Fin 16) (x : Context) : (s.setCtx u k x).acted = s.acted := rfl
@[simp] theorem State.setCtx_nextId (s : State) (u : Nat) (k : Fin 16) (x : Context) : (s.setCtx u k x).nextId = s.nextId := rfl
@[simp] theorem State.setCtx_requests (s : State) (u : Nat) (k : Fin 16) (x : Context) : (s.setCtx u k x).requests = s.requests := rfl
@[simp] theorem State.setCtx_waiters (s : State) (u : Nat) (k : Fin 16) (x : Context) : (s.setCtx u k x).waiters = s.waiters := rfl
@[simp] theorem State.setCtx_watchers (s : State) (u : Nat) (k : Fin 16) (x : Context) : (s.setCtx u k x).watchers = s.watchers := rfl
@[simp] theorem State.setCtx_replies (s : State) (u : Nat) (k : Fin 16) (x : Context) : (s.setCtx u k x).replies = s.replies := rfl
@[simp] theorem State.setCtx_messages (s : State) (u : Nat) (k : Fin 16) (x : Context) : (s.setCtx u k x).messages = s.messages := rfl
@[simp] theorem State.setCtx_answers (s : State) (u : Nat) (k : Fin 16) (x : Context) : (s.setCtx u k x).answers = s.answers := rfl
@[simp] theorem State.setCtx_beats (s : State) (u : Nat) (k : Fin 16) (x : Context) : (s.setCtx u k x).beats = s.beats := rfl
@[simp] theorem State.setCtx_portTurn (s : State) (u : Nat) (k : Fin 16) (x : Context) : (s.setCtx u k x).portTurn = s.portTurn := rfl
@[simp] theorem State.setCtx_qrows (s : State) (u : Nat) (k : Fin 16) (x : Context) : (s.setCtx u k x).qrows = s.qrows := rfl
@[simp] theorem State.setCtx_walks (s : State) (u : Nat) (k : Fin 16) (x : Context) : (s.setCtx u k x).walks = s.walks := rfl
@[simp] theorem State.setCtx_walkFaults (s : State) (u : Nat) (k : Fin 16) (x : Context) : (s.setCtx u k x).walkFaults = s.walkFaults := rfl
@[simp] theorem State.setCtx_tileTlbs (s : State) (u : Nat) (k : Fin 16) (x : Context) : (s.setCtx u k x).tileTlbs = s.tileTlbs := rfl
@[simp] theorem State.setCtx_posts (s : State) (u : Nat) (k : Fin 16) (x : Context) : (s.setCtx u k x).posts = s.posts := rfl
@[simp] theorem State.setCtx_msixMask (s : State) (u : Nat) (k : Fin 16) (x : Context) : (s.setCtx u k x).msixMask = s.msixMask := rfl
@[simp] theorem State.setCtx_msixPend (s : State) (u : Nat) (k : Fin 16) (x : Context) : (s.setCtx u k x).msixPend = s.msixPend := rfl
@[simp] theorem State.setCtx_msixTable (s : State) (u : Nat) (k : Fin 16) (x : Context) : (s.setCtx u k x).msixTable = s.msixTable := rfl
@[simp] theorem State.setCtx_barOut (s : State) (u : Nat) (k : Fin 16) (x : Context) : (s.setCtx u k x).barOut = s.barOut := rfl
@[simp] theorem State.setCtx_stepJobs (s : State) (u : Nat) (k : Fin 16) (x : Context) : (s.setCtx u k x).stepJobs = s.stepJobs := rfl
@[simp] theorem State.setCtx_claims (s : State) (u : Nat) (k : Fin 16) (x : Context) : (s.setCtx u k x).claims = s.claims := rfl
@[simp] theorem State.setCtx_tiles (s : State) (u : Nat) (k : Fin 16) (x : Context) : (s.setCtx u k x).tiles = s.tiles := rfl
@[simp] theorem State.setCtx_flits (s : State) (u : Nat) (k : Fin 16) (x : Context) : (s.setCtx u k x).flits = s.flits := rfl
@[simp] theorem State.setCtx_firn (s : State) (u : Nat) (k : Fin 16) (x : Context) : (s.setCtx u k x).firn = s.firn := rfl
@[simp] theorem State.setCtx_coach (s : State) (u : Nat) (k : Fin 16) (x : Context) : (s.setCtx u k x).coach = s.coach := rfl
@[simp] theorem State.setCtx_readies (s : State) (u : Nat) (k : Fin 16) (x : Context) : (s.setCtx u k x).readies = s.readies := rfl
@[simp] theorem State.setCtx_inbox (s : State) (u : Nat) (k : Fin 16) (x : Context) : (s.setCtx u k x).inbox = s.inbox := rfl
@[simp] theorem State.setCtx_remote (s : State) (u : Nat) (k : Fin 16) (x : Context) : (s.setCtx u k x).remote = s.remote := rfl
@[simp] theorem State.setCtx_lost (s : State) (u : Nat) (k : Fin 16) (x : Context) : (s.setCtx u k x).lost = s.lost := rfl
@[simp] theorem State.setCtx_recalled (s : State) (u : Nat) (k : Fin 16) (x : Context) : (s.setCtx u k x).recalled = s.recalled := rfl
@[simp] theorem State.setCtx_outbox (s : State) (u : Nat) (k : Fin 16) (x : Context) : (s.setCtx u k x).outbox = s.outbox := rfl
@[simp] theorem State.setCtx_seqOut (s : State) (u : Nat) (k : Fin 16) (x : Context) : (s.setCtx u k x).seqOut = s.seqOut := rfl
@[simp] theorem State.setCtx_regs (s : State) (u : Nat) (k : Fin 16) (x : Context) : (s.setCtx u k x).regs = s.regs := rfl
@[simp] theorem State.setCtx_setNow (s : State) (u : Nat) (k : Fin 16) (x : Context) : (s.setCtx u k x).setNow = s.setNow := rfl
@[simp] theorem State.setCtx_launches (s : State) (u : Nat) (k : Fin 16) (x : Context) : (s.setCtx u k x).launches = s.launches := rfl
@[simp] theorem State.setCtx_events (s : State) (u : Nat) (k : Fin 16) (x : Context) : (s.setCtx u k x).events = s.events := rfl
@[simp] theorem State.setCtx_ilast (s : State) (u : Nat) (k : Fin 16) (x : Context) : (s.setCtx u k x).ilast = s.ilast := rfl
@[simp] theorem State.setCtx_queues (s : State) (u : Nat) (k : Fin 16) (x : Context) : (s.setCtx u k x).queues = s.queues := rfl
@[simp] theorem State.setCtx_rr (s : State) (u : Nat) (k : Fin 16) (x : Context) : (s.setCtx u k x).rr = s.rr := rfl
@[simp] theorem State.setCtx_resvs (s : State) (u : Nat) (k : Fin 16) (x : Context) : (s.setCtx u k x).resvs = s.resvs := rfl
@[simp] theorem State.setCtx_homes (s : State) (u : Nat) (k : Fin 16) (x : Context) : (s.setCtx u k x).homes = s.homes := rfl
@[simp] theorem State.setCtx_held (s : State) (u : Nat) (k : Fin 16) (x : Context) : (s.setCtx u k x).held = s.held := rfl
@[simp] theorem State.setCtx_resets (s : State) (u : Nat) (k : Fin 16) (x : Context) : (s.setCtx u k x).resets = s.resets := rfl
@[simp] theorem State.setCtx_preempts (s : State) (u : Nat) (k : Fin 16) (x : Context) : (s.setCtx u k x).preempts = s.preempts := rfl
@[simp] theorem State.setCtx_homePreempts (s : State) (u : Nat) (k : Fin 16) (x : Context) : (s.setCtx u k x).homePreempts = s.homePreempts := rfl
@[simp] theorem State.setCtx_ports (s : State) (u : Nat) (k : Fin 16) (x : Context) : (s.setCtx u k x).ports = s.ports := rfl
@[simp] theorem State.setCtx_seqIn (s : State) (u : Nat) (k : Fin 16) (x : Context) : (s.setCtx u k x).seqIn = s.seqIn := rfl
@[simp] theorem State.setCtx_early (s : State) (u : Nat) (k : Fin 16) (x : Context) : (s.setCtx u k x).early = s.early := rfl
@[simp] theorem State.setCtx_partials (s : State) (u : Nat) (k : Fin 16) (x : Context) : (s.setCtx u k x).partials = s.partials := rfl
@[simp] theorem State.setCtx_merges (s : State) (u : Nat) (k : Fin 16) (x : Context) : (s.setCtx u k x).merges = s.merges := rfl
@[simp] theorem State.setCtx_frozen (s : State) (u : Nat) (k : Fin 16) (x : Context) : (s.setCtx u k x).frozen = s.frozen := rfl
@[simp] theorem State.setCtx_booted (s : State) (u : Nat) (k : Fin 16) (x : Context) : (s.setCtx u k x).booted = s.booted := rfl
@[simp] theorem State.setCtx_romEnd (s : State) (u : Nat) (k : Fin 16) (x : Context) : (s.setCtx u k x).romEnd = s.romEnd := rfl
@[simp] theorem State.setCtx_hbmReady (s : State) (u : Nat) (k : Fin 16) (x : Context) : (s.setCtx u k x).hbmReady = s.hbmReady := rfl
@[simp] theorem State.setCtx_tierReady (s : State) (u : Nat) (k : Fin 16) (x : Context) : (s.setCtx u k x).tierReady = s.tierReady := rfl
@[simp] theorem State.setCtx_flash (s : State) (u : Nat) (k : Fin 16) (x : Context) : (s.setCtx u k x).flash = s.flash := rfl
@[simp] theorem State.setCtx_flashJob (s : State) (u : Nat) (k : Fin 16) (x : Context) : (s.setCtx u k x).flashJob = s.flashJob := rfl
@[simp] theorem State.setCtx_mcast (s : State) (u : Nat) (k : Fin 16) (x : Context) : (s.setCtx u k x).mcast = s.mcast := rfl
@[simp] theorem State.setCtx_attest (s : State) (u : Nat) (k : Fin 16) (x : Context) : (s.setCtx u k x).attest = s.attest := rfl
@[simp] theorem State.setCtx_discAt (s : State) (u : Nat) (k : Fin 16) (x : Context) : (s.setCtx u k x).discAt = s.discAt := rfl
@[simp] theorem State.setCtx_reported (s : State) (u : Nat) (k : Fin 16) (x : Context) : (s.setCtx u k x).reported = s.reported := rfl
@[simp] theorem State.setCtx_lsub (s : State) (u : Nat) (k : Fin 16) (x : Context) : (s.setCtx u k x).lsub = s.lsub := rfl
@[simp] theorem State.setCtx_hostReqs (s : State) (u : Nat) (k : Fin 16) (x : Context) : (s.setCtx u k x).hostReqs = s.hostReqs := rfl
@[simp] theorem State.setCtx_hostOut (s : State) (u : Nat) (k : Fin 16) (x : Context) : (s.setCtx u k x).hostOut = s.hostOut := rfl
@[simp] theorem State.setCtx_scanSel (s : State) (u : Nat) (k : Fin 16) (x : Context) : (s.setCtx u k x).scanSel = s.scanSel := rfl
@[simp] theorem State.setCtx_memAddr (s : State) (u : Nat) (k : Fin 16) (x : Context) : (s.setCtx u k x).memAddr = s.memAddr := rfl
@[simp] theorem State.setCtx_debugIr (s : State) (u : Nat) (k : Fin 16) (x : Context) : (s.setCtx u k x).debugIr = s.debugIr := rfl
@[simp] theorem State.setCtx_tdo (s : State) (u : Nat) (k : Fin 16) (x : Context) : (s.setCtx u k x).tdo = s.tdo := rfl
@[simp] theorem State.setCtx_boundary (s : State) (u : Nat) (k : Fin 16) (x : Context) : (s.setCtx u k x).boundary = s.boundary := rfl

/-! ## State.setMe -/

@[simp] theorem State.setMe_ck (s : State) (x : Context) : (s.setMe x).ck = s.ck := rfl
@[simp] theorem State.setMe_closing (s : State) (x : Context) : (s.setMe x).closing = s.closing := rfl
@[simp] theorem State.setMe_seq (s : State) (x : Context) : (s.setMe x).seq = s.seq := rfl
@[simp] theorem State.setMe_turn (s : State) (x : Context) : (s.setMe x).turn = s.turn := rfl
@[simp] theorem State.setMe_core (s : State) (x : Context) : (s.setMe x).core = s.core := rfl
@[simp] theorem State.setMe_ctx (s : State) (x : Context) : (s.setMe x).ctx = s.ctx := rfl
@[simp] theorem State.setMe_tile (s : State) (x : Context) : (s.setMe x).tile = s.tile := rfl
@[simp] theorem State.setMe_cores (s : State) (x : Context) : (s.setMe x).cores = insertAt s.core (s.myCore.setCtx s.ctx x) s.cores := rfl
@[simp] theorem State.setMe_mem (s : State) (x : Context) : (s.setMe x).mem = s.mem := rfl
@[simp] theorem State.setMe_empty (s : State) (x : Context) : (s.setMe x).empty = s.empty := rfl
@[simp] theorem State.setMe_tags (s : State) (x : Context) : (s.setMe x).tags = s.tags := rfl
@[simp] theorem State.setMe_failing (s : State) (x : Context) : (s.setMe x).failing = s.failing := rfl
@[simp] theorem State.setMe_syndromes (s : State) (x : Context) : (s.setMe x).syndromes = s.syndromes := rfl
@[simp] theorem State.setMe_acted (s : State) (x : Context) : (s.setMe x).acted = s.acted := rfl
@[simp] theorem State.setMe_nextId (s : State) (x : Context) : (s.setMe x).nextId = s.nextId := rfl
@[simp] theorem State.setMe_requests (s : State) (x : Context) : (s.setMe x).requests = s.requests := rfl
@[simp] theorem State.setMe_waiters (s : State) (x : Context) : (s.setMe x).waiters = s.waiters := rfl
@[simp] theorem State.setMe_watchers (s : State) (x : Context) : (s.setMe x).watchers = s.watchers := rfl
@[simp] theorem State.setMe_replies (s : State) (x : Context) : (s.setMe x).replies = s.replies := rfl
@[simp] theorem State.setMe_messages (s : State) (x : Context) : (s.setMe x).messages = s.messages := rfl
@[simp] theorem State.setMe_answers (s : State) (x : Context) : (s.setMe x).answers = s.answers := rfl
@[simp] theorem State.setMe_beats (s : State) (x : Context) : (s.setMe x).beats = s.beats := rfl
@[simp] theorem State.setMe_portTurn (s : State) (x : Context) : (s.setMe x).portTurn = s.portTurn := rfl
@[simp] theorem State.setMe_qrows (s : State) (x : Context) : (s.setMe x).qrows = s.qrows := rfl
@[simp] theorem State.setMe_walks (s : State) (x : Context) : (s.setMe x).walks = s.walks := rfl
@[simp] theorem State.setMe_walkFaults (s : State) (x : Context) : (s.setMe x).walkFaults = s.walkFaults := rfl
@[simp] theorem State.setMe_tileTlbs (s : State) (x : Context) : (s.setMe x).tileTlbs = s.tileTlbs := rfl
@[simp] theorem State.setMe_posts (s : State) (x : Context) : (s.setMe x).posts = s.posts := rfl
@[simp] theorem State.setMe_msixMask (s : State) (x : Context) : (s.setMe x).msixMask = s.msixMask := rfl
@[simp] theorem State.setMe_msixPend (s : State) (x : Context) : (s.setMe x).msixPend = s.msixPend := rfl
@[simp] theorem State.setMe_msixTable (s : State) (x : Context) : (s.setMe x).msixTable = s.msixTable := rfl
@[simp] theorem State.setMe_barOut (s : State) (x : Context) : (s.setMe x).barOut = s.barOut := rfl
@[simp] theorem State.setMe_stepJobs (s : State) (x : Context) : (s.setMe x).stepJobs = s.stepJobs := rfl
@[simp] theorem State.setMe_claims (s : State) (x : Context) : (s.setMe x).claims = s.claims := rfl
@[simp] theorem State.setMe_tiles (s : State) (x : Context) : (s.setMe x).tiles = s.tiles := rfl
@[simp] theorem State.setMe_flits (s : State) (x : Context) : (s.setMe x).flits = s.flits := rfl
@[simp] theorem State.setMe_firn (s : State) (x : Context) : (s.setMe x).firn = s.firn := rfl
@[simp] theorem State.setMe_coach (s : State) (x : Context) : (s.setMe x).coach = s.coach := rfl
@[simp] theorem State.setMe_readies (s : State) (x : Context) : (s.setMe x).readies = s.readies := rfl
@[simp] theorem State.setMe_inbox (s : State) (x : Context) : (s.setMe x).inbox = s.inbox := rfl
@[simp] theorem State.setMe_remote (s : State) (x : Context) : (s.setMe x).remote = s.remote := rfl
@[simp] theorem State.setMe_lost (s : State) (x : Context) : (s.setMe x).lost = s.lost := rfl
@[simp] theorem State.setMe_recalled (s : State) (x : Context) : (s.setMe x).recalled = s.recalled := rfl
@[simp] theorem State.setMe_outbox (s : State) (x : Context) : (s.setMe x).outbox = s.outbox := rfl
@[simp] theorem State.setMe_seqOut (s : State) (x : Context) : (s.setMe x).seqOut = s.seqOut := rfl
@[simp] theorem State.setMe_regs (s : State) (x : Context) : (s.setMe x).regs = s.regs := rfl
@[simp] theorem State.setMe_setNow (s : State) (x : Context) : (s.setMe x).setNow = s.setNow := rfl
@[simp] theorem State.setMe_launches (s : State) (x : Context) : (s.setMe x).launches = s.launches := rfl
@[simp] theorem State.setMe_events (s : State) (x : Context) : (s.setMe x).events = s.events := rfl
@[simp] theorem State.setMe_ilast (s : State) (x : Context) : (s.setMe x).ilast = s.ilast := rfl
@[simp] theorem State.setMe_queues (s : State) (x : Context) : (s.setMe x).queues = s.queues := rfl
@[simp] theorem State.setMe_rr (s : State) (x : Context) : (s.setMe x).rr = s.rr := rfl
@[simp] theorem State.setMe_resvs (s : State) (x : Context) : (s.setMe x).resvs = s.resvs := rfl
@[simp] theorem State.setMe_homes (s : State) (x : Context) : (s.setMe x).homes = s.homes := rfl
@[simp] theorem State.setMe_held (s : State) (x : Context) : (s.setMe x).held = s.held := rfl
@[simp] theorem State.setMe_resets (s : State) (x : Context) : (s.setMe x).resets = s.resets := rfl
@[simp] theorem State.setMe_preempts (s : State) (x : Context) : (s.setMe x).preempts = s.preempts := rfl
@[simp] theorem State.setMe_homePreempts (s : State) (x : Context) : (s.setMe x).homePreempts = s.homePreempts := rfl
@[simp] theorem State.setMe_ports (s : State) (x : Context) : (s.setMe x).ports = s.ports := rfl
@[simp] theorem State.setMe_seqIn (s : State) (x : Context) : (s.setMe x).seqIn = s.seqIn := rfl
@[simp] theorem State.setMe_early (s : State) (x : Context) : (s.setMe x).early = s.early := rfl
@[simp] theorem State.setMe_partials (s : State) (x : Context) : (s.setMe x).partials = s.partials := rfl
@[simp] theorem State.setMe_merges (s : State) (x : Context) : (s.setMe x).merges = s.merges := rfl
@[simp] theorem State.setMe_frozen (s : State) (x : Context) : (s.setMe x).frozen = s.frozen := rfl
@[simp] theorem State.setMe_booted (s : State) (x : Context) : (s.setMe x).booted = s.booted := rfl
@[simp] theorem State.setMe_romEnd (s : State) (x : Context) : (s.setMe x).romEnd = s.romEnd := rfl
@[simp] theorem State.setMe_hbmReady (s : State) (x : Context) : (s.setMe x).hbmReady = s.hbmReady := rfl
@[simp] theorem State.setMe_tierReady (s : State) (x : Context) : (s.setMe x).tierReady = s.tierReady := rfl
@[simp] theorem State.setMe_flash (s : State) (x : Context) : (s.setMe x).flash = s.flash := rfl
@[simp] theorem State.setMe_flashJob (s : State) (x : Context) : (s.setMe x).flashJob = s.flashJob := rfl
@[simp] theorem State.setMe_mcast (s : State) (x : Context) : (s.setMe x).mcast = s.mcast := rfl
@[simp] theorem State.setMe_attest (s : State) (x : Context) : (s.setMe x).attest = s.attest := rfl
@[simp] theorem State.setMe_discAt (s : State) (x : Context) : (s.setMe x).discAt = s.discAt := rfl
@[simp] theorem State.setMe_reported (s : State) (x : Context) : (s.setMe x).reported = s.reported := rfl
@[simp] theorem State.setMe_lsub (s : State) (x : Context) : (s.setMe x).lsub = s.lsub := rfl
@[simp] theorem State.setMe_hostReqs (s : State) (x : Context) : (s.setMe x).hostReqs = s.hostReqs := rfl
@[simp] theorem State.setMe_hostOut (s : State) (x : Context) : (s.setMe x).hostOut = s.hostOut := rfl
@[simp] theorem State.setMe_scanSel (s : State) (x : Context) : (s.setMe x).scanSel = s.scanSel := rfl
@[simp] theorem State.setMe_memAddr (s : State) (x : Context) : (s.setMe x).memAddr = s.memAddr := rfl
@[simp] theorem State.setMe_debugIr (s : State) (x : Context) : (s.setMe x).debugIr = s.debugIr := rfl
@[simp] theorem State.setMe_tdo (s : State) (x : Context) : (s.setMe x).tdo = s.tdo := rfl
@[simp] theorem State.setMe_boundary (s : State) (x : Context) : (s.setMe x).boundary = s.boundary := rfl

/-! ## State.setMyCore -/

@[simp] theorem State.setMyCore_ck (s : State) (c : Core) : (s.setMyCore c).ck = s.ck := rfl
@[simp] theorem State.setMyCore_closing (s : State) (c : Core) : (s.setMyCore c).closing = s.closing := rfl
@[simp] theorem State.setMyCore_seq (s : State) (c : Core) : (s.setMyCore c).seq = s.seq := rfl
@[simp] theorem State.setMyCore_turn (s : State) (c : Core) : (s.setMyCore c).turn = s.turn := rfl
@[simp] theorem State.setMyCore_core (s : State) (c : Core) : (s.setMyCore c).core = s.core := rfl
@[simp] theorem State.setMyCore_ctx (s : State) (c : Core) : (s.setMyCore c).ctx = s.ctx := rfl
@[simp] theorem State.setMyCore_tile (s : State) (c : Core) : (s.setMyCore c).tile = s.tile := rfl
@[simp] theorem State.setMyCore_cores (s : State) (c : Core) : (s.setMyCore c).cores = insertAt s.core c s.cores := rfl
@[simp] theorem State.setMyCore_mem (s : State) (c : Core) : (s.setMyCore c).mem = s.mem := rfl
@[simp] theorem State.setMyCore_empty (s : State) (c : Core) : (s.setMyCore c).empty = s.empty := rfl
@[simp] theorem State.setMyCore_tags (s : State) (c : Core) : (s.setMyCore c).tags = s.tags := rfl
@[simp] theorem State.setMyCore_failing (s : State) (c : Core) : (s.setMyCore c).failing = s.failing := rfl
@[simp] theorem State.setMyCore_syndromes (s : State) (c : Core) : (s.setMyCore c).syndromes = s.syndromes := rfl
@[simp] theorem State.setMyCore_acted (s : State) (c : Core) : (s.setMyCore c).acted = s.acted := rfl
@[simp] theorem State.setMyCore_nextId (s : State) (c : Core) : (s.setMyCore c).nextId = s.nextId := rfl
@[simp] theorem State.setMyCore_requests (s : State) (c : Core) : (s.setMyCore c).requests = s.requests := rfl
@[simp] theorem State.setMyCore_waiters (s : State) (c : Core) : (s.setMyCore c).waiters = s.waiters := rfl
@[simp] theorem State.setMyCore_watchers (s : State) (c : Core) : (s.setMyCore c).watchers = s.watchers := rfl
@[simp] theorem State.setMyCore_replies (s : State) (c : Core) : (s.setMyCore c).replies = s.replies := rfl
@[simp] theorem State.setMyCore_messages (s : State) (c : Core) : (s.setMyCore c).messages = s.messages := rfl
@[simp] theorem State.setMyCore_answers (s : State) (c : Core) : (s.setMyCore c).answers = s.answers := rfl
@[simp] theorem State.setMyCore_beats (s : State) (c : Core) : (s.setMyCore c).beats = s.beats := rfl
@[simp] theorem State.setMyCore_portTurn (s : State) (c : Core) : (s.setMyCore c).portTurn = s.portTurn := rfl
@[simp] theorem State.setMyCore_qrows (s : State) (c : Core) : (s.setMyCore c).qrows = s.qrows := rfl
@[simp] theorem State.setMyCore_walks (s : State) (c : Core) : (s.setMyCore c).walks = s.walks := rfl
@[simp] theorem State.setMyCore_walkFaults (s : State) (c : Core) : (s.setMyCore c).walkFaults = s.walkFaults := rfl
@[simp] theorem State.setMyCore_tileTlbs (s : State) (c : Core) : (s.setMyCore c).tileTlbs = s.tileTlbs := rfl
@[simp] theorem State.setMyCore_posts (s : State) (c : Core) : (s.setMyCore c).posts = s.posts := rfl
@[simp] theorem State.setMyCore_msixMask (s : State) (c : Core) : (s.setMyCore c).msixMask = s.msixMask := rfl
@[simp] theorem State.setMyCore_msixPend (s : State) (c : Core) : (s.setMyCore c).msixPend = s.msixPend := rfl
@[simp] theorem State.setMyCore_msixTable (s : State) (c : Core) : (s.setMyCore c).msixTable = s.msixTable := rfl
@[simp] theorem State.setMyCore_barOut (s : State) (c : Core) : (s.setMyCore c).barOut = s.barOut := rfl
@[simp] theorem State.setMyCore_stepJobs (s : State) (c : Core) : (s.setMyCore c).stepJobs = s.stepJobs := rfl
@[simp] theorem State.setMyCore_claims (s : State) (c : Core) : (s.setMyCore c).claims = s.claims := rfl
@[simp] theorem State.setMyCore_tiles (s : State) (c : Core) : (s.setMyCore c).tiles = s.tiles := rfl
@[simp] theorem State.setMyCore_flits (s : State) (c : Core) : (s.setMyCore c).flits = s.flits := rfl
@[simp] theorem State.setMyCore_firn (s : State) (c : Core) : (s.setMyCore c).firn = s.firn := rfl
@[simp] theorem State.setMyCore_coach (s : State) (c : Core) : (s.setMyCore c).coach = s.coach := rfl
@[simp] theorem State.setMyCore_readies (s : State) (c : Core) : (s.setMyCore c).readies = s.readies := rfl
@[simp] theorem State.setMyCore_inbox (s : State) (c : Core) : (s.setMyCore c).inbox = s.inbox := rfl
@[simp] theorem State.setMyCore_remote (s : State) (c : Core) : (s.setMyCore c).remote = s.remote := rfl
@[simp] theorem State.setMyCore_lost (s : State) (c : Core) : (s.setMyCore c).lost = s.lost := rfl
@[simp] theorem State.setMyCore_recalled (s : State) (c : Core) : (s.setMyCore c).recalled = s.recalled := rfl
@[simp] theorem State.setMyCore_outbox (s : State) (c : Core) : (s.setMyCore c).outbox = s.outbox := rfl
@[simp] theorem State.setMyCore_seqOut (s : State) (c : Core) : (s.setMyCore c).seqOut = s.seqOut := rfl
@[simp] theorem State.setMyCore_regs (s : State) (c : Core) : (s.setMyCore c).regs = s.regs := rfl
@[simp] theorem State.setMyCore_setNow (s : State) (c : Core) : (s.setMyCore c).setNow = s.setNow := rfl
@[simp] theorem State.setMyCore_launches (s : State) (c : Core) : (s.setMyCore c).launches = s.launches := rfl
@[simp] theorem State.setMyCore_events (s : State) (c : Core) : (s.setMyCore c).events = s.events := rfl
@[simp] theorem State.setMyCore_ilast (s : State) (c : Core) : (s.setMyCore c).ilast = s.ilast := rfl
@[simp] theorem State.setMyCore_queues (s : State) (c : Core) : (s.setMyCore c).queues = s.queues := rfl
@[simp] theorem State.setMyCore_rr (s : State) (c : Core) : (s.setMyCore c).rr = s.rr := rfl
@[simp] theorem State.setMyCore_resvs (s : State) (c : Core) : (s.setMyCore c).resvs = s.resvs := rfl
@[simp] theorem State.setMyCore_homes (s : State) (c : Core) : (s.setMyCore c).homes = s.homes := rfl
@[simp] theorem State.setMyCore_held (s : State) (c : Core) : (s.setMyCore c).held = s.held := rfl
@[simp] theorem State.setMyCore_resets (s : State) (c : Core) : (s.setMyCore c).resets = s.resets := rfl
@[simp] theorem State.setMyCore_preempts (s : State) (c : Core) : (s.setMyCore c).preempts = s.preempts := rfl
@[simp] theorem State.setMyCore_homePreempts (s : State) (c : Core) : (s.setMyCore c).homePreempts = s.homePreempts := rfl
@[simp] theorem State.setMyCore_ports (s : State) (c : Core) : (s.setMyCore c).ports = s.ports := rfl
@[simp] theorem State.setMyCore_seqIn (s : State) (c : Core) : (s.setMyCore c).seqIn = s.seqIn := rfl
@[simp] theorem State.setMyCore_early (s : State) (c : Core) : (s.setMyCore c).early = s.early := rfl
@[simp] theorem State.setMyCore_partials (s : State) (c : Core) : (s.setMyCore c).partials = s.partials := rfl
@[simp] theorem State.setMyCore_merges (s : State) (c : Core) : (s.setMyCore c).merges = s.merges := rfl
@[simp] theorem State.setMyCore_frozen (s : State) (c : Core) : (s.setMyCore c).frozen = s.frozen := rfl
@[simp] theorem State.setMyCore_booted (s : State) (c : Core) : (s.setMyCore c).booted = s.booted := rfl
@[simp] theorem State.setMyCore_romEnd (s : State) (c : Core) : (s.setMyCore c).romEnd = s.romEnd := rfl
@[simp] theorem State.setMyCore_hbmReady (s : State) (c : Core) : (s.setMyCore c).hbmReady = s.hbmReady := rfl
@[simp] theorem State.setMyCore_tierReady (s : State) (c : Core) : (s.setMyCore c).tierReady = s.tierReady := rfl
@[simp] theorem State.setMyCore_flash (s : State) (c : Core) : (s.setMyCore c).flash = s.flash := rfl
@[simp] theorem State.setMyCore_flashJob (s : State) (c : Core) : (s.setMyCore c).flashJob = s.flashJob := rfl
@[simp] theorem State.setMyCore_mcast (s : State) (c : Core) : (s.setMyCore c).mcast = s.mcast := rfl
@[simp] theorem State.setMyCore_attest (s : State) (c : Core) : (s.setMyCore c).attest = s.attest := rfl
@[simp] theorem State.setMyCore_discAt (s : State) (c : Core) : (s.setMyCore c).discAt = s.discAt := rfl
@[simp] theorem State.setMyCore_reported (s : State) (c : Core) : (s.setMyCore c).reported = s.reported := rfl
@[simp] theorem State.setMyCore_lsub (s : State) (c : Core) : (s.setMyCore c).lsub = s.lsub := rfl
@[simp] theorem State.setMyCore_hostReqs (s : State) (c : Core) : (s.setMyCore c).hostReqs = s.hostReqs := rfl
@[simp] theorem State.setMyCore_hostOut (s : State) (c : Core) : (s.setMyCore c).hostOut = s.hostOut := rfl
@[simp] theorem State.setMyCore_scanSel (s : State) (c : Core) : (s.setMyCore c).scanSel = s.scanSel := rfl
@[simp] theorem State.setMyCore_memAddr (s : State) (c : Core) : (s.setMyCore c).memAddr = s.memAddr := rfl
@[simp] theorem State.setMyCore_debugIr (s : State) (c : Core) : (s.setMyCore c).debugIr = s.debugIr := rfl
@[simp] theorem State.setMyCore_tdo (s : State) (c : Core) : (s.setMyCore c).tdo = s.tdo := rfl
@[simp] theorem State.setMyCore_boundary (s : State) (c : Core) : (s.setMyCore c).boundary = s.boundary := rfl

/-! ## State.setReg -/

@[simp] theorem State.setReg_ck (s : State) (off : Nat) (v : Word) : (s.setReg off v).ck = s.ck := rfl
@[simp] theorem State.setReg_closing (s : State) (off : Nat) (v : Word) : (s.setReg off v).closing = s.closing := rfl
@[simp] theorem State.setReg_seq (s : State) (off : Nat) (v : Word) : (s.setReg off v).seq = s.seq := rfl
@[simp] theorem State.setReg_turn (s : State) (off : Nat) (v : Word) : (s.setReg off v).turn = s.turn := rfl
@[simp] theorem State.setReg_core (s : State) (off : Nat) (v : Word) : (s.setReg off v).core = s.core := rfl
@[simp] theorem State.setReg_ctx (s : State) (off : Nat) (v : Word) : (s.setReg off v).ctx = s.ctx := rfl
@[simp] theorem State.setReg_tile (s : State) (off : Nat) (v : Word) : (s.setReg off v).tile = s.tile := rfl
@[simp] theorem State.setReg_cores (s : State) (off : Nat) (v : Word) : (s.setReg off v).cores = s.cores := rfl
@[simp] theorem State.setReg_mem (s : State) (off : Nat) (v : Word) : (s.setReg off v).mem = s.mem := rfl
@[simp] theorem State.setReg_empty (s : State) (off : Nat) (v : Word) : (s.setReg off v).empty = s.empty := rfl
@[simp] theorem State.setReg_tags (s : State) (off : Nat) (v : Word) : (s.setReg off v).tags = s.tags := rfl
@[simp] theorem State.setReg_failing (s : State) (off : Nat) (v : Word) : (s.setReg off v).failing = s.failing := rfl
@[simp] theorem State.setReg_syndromes (s : State) (off : Nat) (v : Word) : (s.setReg off v).syndromes = s.syndromes := rfl
@[simp] theorem State.setReg_acted (s : State) (off : Nat) (v : Word) : (s.setReg off v).acted = s.acted := rfl
@[simp] theorem State.setReg_nextId (s : State) (off : Nat) (v : Word) : (s.setReg off v).nextId = s.nextId := rfl
@[simp] theorem State.setReg_requests (s : State) (off : Nat) (v : Word) : (s.setReg off v).requests = s.requests := rfl
@[simp] theorem State.setReg_waiters (s : State) (off : Nat) (v : Word) : (s.setReg off v).waiters = s.waiters := rfl
@[simp] theorem State.setReg_watchers (s : State) (off : Nat) (v : Word) : (s.setReg off v).watchers = s.watchers := rfl
@[simp] theorem State.setReg_replies (s : State) (off : Nat) (v : Word) : (s.setReg off v).replies = s.replies := rfl
@[simp] theorem State.setReg_messages (s : State) (off : Nat) (v : Word) : (s.setReg off v).messages = s.messages := rfl
@[simp] theorem State.setReg_answers (s : State) (off : Nat) (v : Word) : (s.setReg off v).answers = s.answers := rfl
@[simp] theorem State.setReg_beats (s : State) (off : Nat) (v : Word) : (s.setReg off v).beats = s.beats := rfl
@[simp] theorem State.setReg_portTurn (s : State) (off : Nat) (v : Word) : (s.setReg off v).portTurn = s.portTurn := rfl
@[simp] theorem State.setReg_qrows (s : State) (off : Nat) (v : Word) : (s.setReg off v).qrows = s.qrows := rfl
@[simp] theorem State.setReg_walks (s : State) (off : Nat) (v : Word) : (s.setReg off v).walks = s.walks := rfl
@[simp] theorem State.setReg_walkFaults (s : State) (off : Nat) (v : Word) : (s.setReg off v).walkFaults = s.walkFaults := rfl
@[simp] theorem State.setReg_tileTlbs (s : State) (off : Nat) (v : Word) : (s.setReg off v).tileTlbs = s.tileTlbs := rfl
@[simp] theorem State.setReg_posts (s : State) (off : Nat) (v : Word) : (s.setReg off v).posts = s.posts := rfl
@[simp] theorem State.setReg_msixMask (s : State) (off : Nat) (v : Word) : (s.setReg off v).msixMask = s.msixMask := rfl
@[simp] theorem State.setReg_msixPend (s : State) (off : Nat) (v : Word) : (s.setReg off v).msixPend = s.msixPend := rfl
@[simp] theorem State.setReg_msixTable (s : State) (off : Nat) (v : Word) : (s.setReg off v).msixTable = s.msixTable := rfl
@[simp] theorem State.setReg_barOut (s : State) (off : Nat) (v : Word) : (s.setReg off v).barOut = s.barOut := rfl
@[simp] theorem State.setReg_stepJobs (s : State) (off : Nat) (v : Word) : (s.setReg off v).stepJobs = s.stepJobs := rfl
@[simp] theorem State.setReg_claims (s : State) (off : Nat) (v : Word) : (s.setReg off v).claims = s.claims := rfl
@[simp] theorem State.setReg_tiles (s : State) (off : Nat) (v : Word) : (s.setReg off v).tiles = s.tiles := rfl
@[simp] theorem State.setReg_flits (s : State) (off : Nat) (v : Word) : (s.setReg off v).flits = s.flits := rfl
@[simp] theorem State.setReg_firn (s : State) (off : Nat) (v : Word) : (s.setReg off v).firn = s.firn := rfl
@[simp] theorem State.setReg_coach (s : State) (off : Nat) (v : Word) : (s.setReg off v).coach = s.coach := rfl
@[simp] theorem State.setReg_readies (s : State) (off : Nat) (v : Word) : (s.setReg off v).readies = s.readies := rfl
@[simp] theorem State.setReg_inbox (s : State) (off : Nat) (v : Word) : (s.setReg off v).inbox = s.inbox := rfl
@[simp] theorem State.setReg_remote (s : State) (off : Nat) (v : Word) : (s.setReg off v).remote = s.remote := rfl
@[simp] theorem State.setReg_lost (s : State) (off : Nat) (v : Word) : (s.setReg off v).lost = s.lost := rfl
@[simp] theorem State.setReg_recalled (s : State) (off : Nat) (v : Word) : (s.setReg off v).recalled = s.recalled := rfl
@[simp] theorem State.setReg_outbox (s : State) (off : Nat) (v : Word) : (s.setReg off v).outbox = s.outbox := rfl
@[simp] theorem State.setReg_seqOut (s : State) (off : Nat) (v : Word) : (s.setReg off v).seqOut = s.seqOut := rfl
@[simp] theorem State.setReg_regs (s : State) (off : Nat) (v : Word) : (s.setReg off v).regs = insertAt off v s.regs := rfl
@[simp] theorem State.setReg_setNow (s : State) (off : Nat) (v : Word) : (s.setReg off v).setNow = s.setNow := rfl
@[simp] theorem State.setReg_launches (s : State) (off : Nat) (v : Word) : (s.setReg off v).launches = s.launches := rfl
@[simp] theorem State.setReg_events (s : State) (off : Nat) (v : Word) : (s.setReg off v).events = s.events := rfl
@[simp] theorem State.setReg_ilast (s : State) (off : Nat) (v : Word) : (s.setReg off v).ilast = s.ilast := rfl
@[simp] theorem State.setReg_queues (s : State) (off : Nat) (v : Word) : (s.setReg off v).queues = s.queues := rfl
@[simp] theorem State.setReg_rr (s : State) (off : Nat) (v : Word) : (s.setReg off v).rr = s.rr := rfl
@[simp] theorem State.setReg_resvs (s : State) (off : Nat) (v : Word) : (s.setReg off v).resvs = s.resvs := rfl
@[simp] theorem State.setReg_homes (s : State) (off : Nat) (v : Word) : (s.setReg off v).homes = s.homes := rfl
@[simp] theorem State.setReg_held (s : State) (off : Nat) (v : Word) : (s.setReg off v).held = s.held := rfl
@[simp] theorem State.setReg_resets (s : State) (off : Nat) (v : Word) : (s.setReg off v).resets = s.resets := rfl
@[simp] theorem State.setReg_preempts (s : State) (off : Nat) (v : Word) : (s.setReg off v).preempts = s.preempts := rfl
@[simp] theorem State.setReg_homePreempts (s : State) (off : Nat) (v : Word) : (s.setReg off v).homePreempts = s.homePreempts := rfl
@[simp] theorem State.setReg_ports (s : State) (off : Nat) (v : Word) : (s.setReg off v).ports = s.ports := rfl
@[simp] theorem State.setReg_seqIn (s : State) (off : Nat) (v : Word) : (s.setReg off v).seqIn = s.seqIn := rfl
@[simp] theorem State.setReg_early (s : State) (off : Nat) (v : Word) : (s.setReg off v).early = s.early := rfl
@[simp] theorem State.setReg_partials (s : State) (off : Nat) (v : Word) : (s.setReg off v).partials = s.partials := rfl
@[simp] theorem State.setReg_merges (s : State) (off : Nat) (v : Word) : (s.setReg off v).merges = s.merges := rfl
@[simp] theorem State.setReg_frozen (s : State) (off : Nat) (v : Word) : (s.setReg off v).frozen = s.frozen := rfl
@[simp] theorem State.setReg_booted (s : State) (off : Nat) (v : Word) : (s.setReg off v).booted = s.booted := rfl
@[simp] theorem State.setReg_romEnd (s : State) (off : Nat) (v : Word) : (s.setReg off v).romEnd = s.romEnd := rfl
@[simp] theorem State.setReg_hbmReady (s : State) (off : Nat) (v : Word) : (s.setReg off v).hbmReady = s.hbmReady := rfl
@[simp] theorem State.setReg_tierReady (s : State) (off : Nat) (v : Word) : (s.setReg off v).tierReady = s.tierReady := rfl
@[simp] theorem State.setReg_flash (s : State) (off : Nat) (v : Word) : (s.setReg off v).flash = s.flash := rfl
@[simp] theorem State.setReg_flashJob (s : State) (off : Nat) (v : Word) : (s.setReg off v).flashJob = s.flashJob := rfl
@[simp] theorem State.setReg_mcast (s : State) (off : Nat) (v : Word) : (s.setReg off v).mcast = s.mcast := rfl
@[simp] theorem State.setReg_attest (s : State) (off : Nat) (v : Word) : (s.setReg off v).attest = s.attest := rfl
@[simp] theorem State.setReg_discAt (s : State) (off : Nat) (v : Word) : (s.setReg off v).discAt = s.discAt := rfl
@[simp] theorem State.setReg_reported (s : State) (off : Nat) (v : Word) : (s.setReg off v).reported = s.reported := rfl
@[simp] theorem State.setReg_lsub (s : State) (off : Nat) (v : Word) : (s.setReg off v).lsub = s.lsub := rfl
@[simp] theorem State.setReg_hostReqs (s : State) (off : Nat) (v : Word) : (s.setReg off v).hostReqs = s.hostReqs := rfl
@[simp] theorem State.setReg_hostOut (s : State) (off : Nat) (v : Word) : (s.setReg off v).hostOut = s.hostOut := rfl
@[simp] theorem State.setReg_scanSel (s : State) (off : Nat) (v : Word) : (s.setReg off v).scanSel = s.scanSel := rfl
@[simp] theorem State.setReg_memAddr (s : State) (off : Nat) (v : Word) : (s.setReg off v).memAddr = s.memAddr := rfl
@[simp] theorem State.setReg_debugIr (s : State) (off : Nat) (v : Word) : (s.setReg off v).debugIr = s.debugIr := rfl
@[simp] theorem State.setReg_tdo (s : State) (off : Nat) (v : Word) : (s.setReg off v).tdo = s.tdo := rfl
@[simp] theorem State.setReg_boundary (s : State) (off : Nat) (v : Word) : (s.setReg off v).boundary = s.boundary := rfl

/-! ## State.setTile -/

@[simp] theorem State.setTile_ck (s : State) (n : Nat) (t : Tile) : (s.setTile n t).ck = s.ck := rfl
@[simp] theorem State.setTile_closing (s : State) (n : Nat) (t : Tile) : (s.setTile n t).closing = s.closing := rfl
@[simp] theorem State.setTile_seq (s : State) (n : Nat) (t : Tile) : (s.setTile n t).seq = s.seq := rfl
@[simp] theorem State.setTile_turn (s : State) (n : Nat) (t : Tile) : (s.setTile n t).turn = s.turn := rfl
@[simp] theorem State.setTile_core (s : State) (n : Nat) (t : Tile) : (s.setTile n t).core = s.core := rfl
@[simp] theorem State.setTile_ctx (s : State) (n : Nat) (t : Tile) : (s.setTile n t).ctx = s.ctx := rfl
@[simp] theorem State.setTile_tile (s : State) (n : Nat) (t : Tile) : (s.setTile n t).tile = s.tile := rfl
@[simp] theorem State.setTile_cores (s : State) (n : Nat) (t : Tile) : (s.setTile n t).cores = s.cores := rfl
@[simp] theorem State.setTile_mem (s : State) (n : Nat) (t : Tile) : (s.setTile n t).mem = s.mem := rfl
@[simp] theorem State.setTile_empty (s : State) (n : Nat) (t : Tile) : (s.setTile n t).empty = s.empty := rfl
@[simp] theorem State.setTile_tags (s : State) (n : Nat) (t : Tile) : (s.setTile n t).tags = s.tags := rfl
@[simp] theorem State.setTile_failing (s : State) (n : Nat) (t : Tile) : (s.setTile n t).failing = s.failing := rfl
@[simp] theorem State.setTile_syndromes (s : State) (n : Nat) (t : Tile) : (s.setTile n t).syndromes = s.syndromes := rfl
@[simp] theorem State.setTile_acted (s : State) (n : Nat) (t : Tile) : (s.setTile n t).acted = s.acted := rfl
@[simp] theorem State.setTile_nextId (s : State) (n : Nat) (t : Tile) : (s.setTile n t).nextId = s.nextId := rfl
@[simp] theorem State.setTile_requests (s : State) (n : Nat) (t : Tile) : (s.setTile n t).requests = s.requests := rfl
@[simp] theorem State.setTile_waiters (s : State) (n : Nat) (t : Tile) : (s.setTile n t).waiters = s.waiters := rfl
@[simp] theorem State.setTile_watchers (s : State) (n : Nat) (t : Tile) : (s.setTile n t).watchers = s.watchers := rfl
@[simp] theorem State.setTile_replies (s : State) (n : Nat) (t : Tile) : (s.setTile n t).replies = s.replies := rfl
@[simp] theorem State.setTile_messages (s : State) (n : Nat) (t : Tile) : (s.setTile n t).messages = s.messages := rfl
@[simp] theorem State.setTile_answers (s : State) (n : Nat) (t : Tile) : (s.setTile n t).answers = s.answers := rfl
@[simp] theorem State.setTile_beats (s : State) (n : Nat) (t : Tile) : (s.setTile n t).beats = s.beats := rfl
@[simp] theorem State.setTile_portTurn (s : State) (n : Nat) (t : Tile) : (s.setTile n t).portTurn = s.portTurn := rfl
@[simp] theorem State.setTile_qrows (s : State) (n : Nat) (t : Tile) : (s.setTile n t).qrows = s.qrows := rfl
@[simp] theorem State.setTile_walks (s : State) (n : Nat) (t : Tile) : (s.setTile n t).walks = s.walks := rfl
@[simp] theorem State.setTile_walkFaults (s : State) (n : Nat) (t : Tile) : (s.setTile n t).walkFaults = s.walkFaults := rfl
@[simp] theorem State.setTile_tileTlbs (s : State) (n : Nat) (t : Tile) : (s.setTile n t).tileTlbs = s.tileTlbs := rfl
@[simp] theorem State.setTile_posts (s : State) (n : Nat) (t : Tile) : (s.setTile n t).posts = s.posts := rfl
@[simp] theorem State.setTile_msixMask (s : State) (n : Nat) (t : Tile) : (s.setTile n t).msixMask = s.msixMask := rfl
@[simp] theorem State.setTile_msixPend (s : State) (n : Nat) (t : Tile) : (s.setTile n t).msixPend = s.msixPend := rfl
@[simp] theorem State.setTile_msixTable (s : State) (n : Nat) (t : Tile) : (s.setTile n t).msixTable = s.msixTable := rfl
@[simp] theorem State.setTile_barOut (s : State) (n : Nat) (t : Tile) : (s.setTile n t).barOut = s.barOut := rfl
@[simp] theorem State.setTile_stepJobs (s : State) (n : Nat) (t : Tile) : (s.setTile n t).stepJobs = s.stepJobs := rfl
@[simp] theorem State.setTile_claims (s : State) (n : Nat) (t : Tile) : (s.setTile n t).claims = s.claims := rfl
@[simp] theorem State.setTile_tiles (s : State) (n : Nat) (t : Tile) : (s.setTile n t).tiles = insertAt n t s.tiles := rfl
@[simp] theorem State.setTile_flits (s : State) (n : Nat) (t : Tile) : (s.setTile n t).flits = s.flits := rfl
@[simp] theorem State.setTile_firn (s : State) (n : Nat) (t : Tile) : (s.setTile n t).firn = s.firn := rfl
@[simp] theorem State.setTile_coach (s : State) (n : Nat) (t : Tile) : (s.setTile n t).coach = s.coach := rfl
@[simp] theorem State.setTile_readies (s : State) (n : Nat) (t : Tile) : (s.setTile n t).readies = s.readies := rfl
@[simp] theorem State.setTile_inbox (s : State) (n : Nat) (t : Tile) : (s.setTile n t).inbox = s.inbox := rfl
@[simp] theorem State.setTile_remote (s : State) (n : Nat) (t : Tile) : (s.setTile n t).remote = s.remote := rfl
@[simp] theorem State.setTile_lost (s : State) (n : Nat) (t : Tile) : (s.setTile n t).lost = s.lost := rfl
@[simp] theorem State.setTile_recalled (s : State) (n : Nat) (t : Tile) : (s.setTile n t).recalled = s.recalled := rfl
@[simp] theorem State.setTile_outbox (s : State) (n : Nat) (t : Tile) : (s.setTile n t).outbox = s.outbox := rfl
@[simp] theorem State.setTile_seqOut (s : State) (n : Nat) (t : Tile) : (s.setTile n t).seqOut = s.seqOut := rfl
@[simp] theorem State.setTile_regs (s : State) (n : Nat) (t : Tile) : (s.setTile n t).regs = s.regs := rfl
@[simp] theorem State.setTile_setNow (s : State) (n : Nat) (t : Tile) : (s.setTile n t).setNow = s.setNow := rfl
@[simp] theorem State.setTile_launches (s : State) (n : Nat) (t : Tile) : (s.setTile n t).launches = s.launches := rfl
@[simp] theorem State.setTile_events (s : State) (n : Nat) (t : Tile) : (s.setTile n t).events = s.events := rfl
@[simp] theorem State.setTile_ilast (s : State) (n : Nat) (t : Tile) : (s.setTile n t).ilast = s.ilast := rfl
@[simp] theorem State.setTile_queues (s : State) (n : Nat) (t : Tile) : (s.setTile n t).queues = s.queues := rfl
@[simp] theorem State.setTile_rr (s : State) (n : Nat) (t : Tile) : (s.setTile n t).rr = s.rr := rfl
@[simp] theorem State.setTile_resvs (s : State) (n : Nat) (t : Tile) : (s.setTile n t).resvs = s.resvs := rfl
@[simp] theorem State.setTile_homes (s : State) (n : Nat) (t : Tile) : (s.setTile n t).homes = s.homes := rfl
@[simp] theorem State.setTile_held (s : State) (n : Nat) (t : Tile) : (s.setTile n t).held = s.held := rfl
@[simp] theorem State.setTile_resets (s : State) (n : Nat) (t : Tile) : (s.setTile n t).resets = s.resets := rfl
@[simp] theorem State.setTile_preempts (s : State) (n : Nat) (t : Tile) : (s.setTile n t).preempts = s.preempts := rfl
@[simp] theorem State.setTile_homePreempts (s : State) (n : Nat) (t : Tile) : (s.setTile n t).homePreempts = s.homePreempts := rfl
@[simp] theorem State.setTile_ports (s : State) (n : Nat) (t : Tile) : (s.setTile n t).ports = s.ports := rfl
@[simp] theorem State.setTile_seqIn (s : State) (n : Nat) (t : Tile) : (s.setTile n t).seqIn = s.seqIn := rfl
@[simp] theorem State.setTile_early (s : State) (n : Nat) (t : Tile) : (s.setTile n t).early = s.early := rfl
@[simp] theorem State.setTile_partials (s : State) (n : Nat) (t : Tile) : (s.setTile n t).partials = s.partials := rfl
@[simp] theorem State.setTile_merges (s : State) (n : Nat) (t : Tile) : (s.setTile n t).merges = s.merges := rfl
@[simp] theorem State.setTile_frozen (s : State) (n : Nat) (t : Tile) : (s.setTile n t).frozen = s.frozen := rfl
@[simp] theorem State.setTile_booted (s : State) (n : Nat) (t : Tile) : (s.setTile n t).booted = s.booted := rfl
@[simp] theorem State.setTile_romEnd (s : State) (n : Nat) (t : Tile) : (s.setTile n t).romEnd = s.romEnd := rfl
@[simp] theorem State.setTile_hbmReady (s : State) (n : Nat) (t : Tile) : (s.setTile n t).hbmReady = s.hbmReady := rfl
@[simp] theorem State.setTile_tierReady (s : State) (n : Nat) (t : Tile) : (s.setTile n t).tierReady = s.tierReady := rfl
@[simp] theorem State.setTile_flash (s : State) (n : Nat) (t : Tile) : (s.setTile n t).flash = s.flash := rfl
@[simp] theorem State.setTile_flashJob (s : State) (n : Nat) (t : Tile) : (s.setTile n t).flashJob = s.flashJob := rfl
@[simp] theorem State.setTile_mcast (s : State) (n : Nat) (t : Tile) : (s.setTile n t).mcast = s.mcast := rfl
@[simp] theorem State.setTile_attest (s : State) (n : Nat) (t : Tile) : (s.setTile n t).attest = s.attest := rfl
@[simp] theorem State.setTile_discAt (s : State) (n : Nat) (t : Tile) : (s.setTile n t).discAt = s.discAt := rfl
@[simp] theorem State.setTile_reported (s : State) (n : Nat) (t : Tile) : (s.setTile n t).reported = s.reported := rfl
@[simp] theorem State.setTile_lsub (s : State) (n : Nat) (t : Tile) : (s.setTile n t).lsub = s.lsub := rfl
@[simp] theorem State.setTile_hostReqs (s : State) (n : Nat) (t : Tile) : (s.setTile n t).hostReqs = s.hostReqs := rfl
@[simp] theorem State.setTile_hostOut (s : State) (n : Nat) (t : Tile) : (s.setTile n t).hostOut = s.hostOut := rfl
@[simp] theorem State.setTile_scanSel (s : State) (n : Nat) (t : Tile) : (s.setTile n t).scanSel = s.scanSel := rfl
@[simp] theorem State.setTile_memAddr (s : State) (n : Nat) (t : Tile) : (s.setTile n t).memAddr = s.memAddr := rfl
@[simp] theorem State.setTile_debugIr (s : State) (n : Nat) (t : Tile) : (s.setTile n t).debugIr = s.debugIr := rfl
@[simp] theorem State.setTile_tdo (s : State) (n : Nat) (t : Tile) : (s.setTile n t).tdo = s.tdo := rfl
@[simp] theorem State.setTile_boundary (s : State) (n : Nat) (t : Tile) : (s.setTile n t).boundary = s.boundary := rfl

/-! ## State.noteSet -/

@[simp] theorem State.noteSet_ck (s : State) (off bit : Nat) : (s.noteSet off bit).ck = s.ck := rfl
@[simp] theorem State.noteSet_closing (s : State) (off bit : Nat) : (s.noteSet off bit).closing = s.closing := rfl
@[simp] theorem State.noteSet_seq (s : State) (off bit : Nat) : (s.noteSet off bit).seq = s.seq := rfl
@[simp] theorem State.noteSet_turn (s : State) (off bit : Nat) : (s.noteSet off bit).turn = s.turn := rfl
@[simp] theorem State.noteSet_core (s : State) (off bit : Nat) : (s.noteSet off bit).core = s.core := rfl
@[simp] theorem State.noteSet_ctx (s : State) (off bit : Nat) : (s.noteSet off bit).ctx = s.ctx := rfl
@[simp] theorem State.noteSet_tile (s : State) (off bit : Nat) : (s.noteSet off bit).tile = s.tile := rfl
@[simp] theorem State.noteSet_cores (s : State) (off bit : Nat) : (s.noteSet off bit).cores = s.cores := rfl
@[simp] theorem State.noteSet_mem (s : State) (off bit : Nat) : (s.noteSet off bit).mem = s.mem := rfl
@[simp] theorem State.noteSet_empty (s : State) (off bit : Nat) : (s.noteSet off bit).empty = s.empty := rfl
@[simp] theorem State.noteSet_tags (s : State) (off bit : Nat) : (s.noteSet off bit).tags = s.tags := rfl
@[simp] theorem State.noteSet_failing (s : State) (off bit : Nat) : (s.noteSet off bit).failing = s.failing := rfl
@[simp] theorem State.noteSet_syndromes (s : State) (off bit : Nat) : (s.noteSet off bit).syndromes = s.syndromes := rfl
@[simp] theorem State.noteSet_acted (s : State) (off bit : Nat) : (s.noteSet off bit).acted = s.acted := rfl
@[simp] theorem State.noteSet_nextId (s : State) (off bit : Nat) : (s.noteSet off bit).nextId = s.nextId := rfl
@[simp] theorem State.noteSet_requests (s : State) (off bit : Nat) : (s.noteSet off bit).requests = s.requests := rfl
@[simp] theorem State.noteSet_waiters (s : State) (off bit : Nat) : (s.noteSet off bit).waiters = s.waiters := rfl
@[simp] theorem State.noteSet_watchers (s : State) (off bit : Nat) : (s.noteSet off bit).watchers = s.watchers := rfl
@[simp] theorem State.noteSet_replies (s : State) (off bit : Nat) : (s.noteSet off bit).replies = s.replies := rfl
@[simp] theorem State.noteSet_messages (s : State) (off bit : Nat) : (s.noteSet off bit).messages = s.messages := rfl
@[simp] theorem State.noteSet_answers (s : State) (off bit : Nat) : (s.noteSet off bit).answers = s.answers := rfl
@[simp] theorem State.noteSet_beats (s : State) (off bit : Nat) : (s.noteSet off bit).beats = s.beats := rfl
@[simp] theorem State.noteSet_portTurn (s : State) (off bit : Nat) : (s.noteSet off bit).portTurn = s.portTurn := rfl
@[simp] theorem State.noteSet_qrows (s : State) (off bit : Nat) : (s.noteSet off bit).qrows = s.qrows := rfl
@[simp] theorem State.noteSet_walks (s : State) (off bit : Nat) : (s.noteSet off bit).walks = s.walks := rfl
@[simp] theorem State.noteSet_walkFaults (s : State) (off bit : Nat) : (s.noteSet off bit).walkFaults = s.walkFaults := rfl
@[simp] theorem State.noteSet_tileTlbs (s : State) (off bit : Nat) : (s.noteSet off bit).tileTlbs = s.tileTlbs := rfl
@[simp] theorem State.noteSet_posts (s : State) (off bit : Nat) : (s.noteSet off bit).posts = s.posts := rfl
@[simp] theorem State.noteSet_msixMask (s : State) (off bit : Nat) : (s.noteSet off bit).msixMask = s.msixMask := rfl
@[simp] theorem State.noteSet_msixPend (s : State) (off bit : Nat) : (s.noteSet off bit).msixPend = s.msixPend := rfl
@[simp] theorem State.noteSet_msixTable (s : State) (off bit : Nat) : (s.noteSet off bit).msixTable = s.msixTable := rfl
@[simp] theorem State.noteSet_barOut (s : State) (off bit : Nat) : (s.noteSet off bit).barOut = s.barOut := rfl
@[simp] theorem State.noteSet_stepJobs (s : State) (off bit : Nat) : (s.noteSet off bit).stepJobs = s.stepJobs := rfl
@[simp] theorem State.noteSet_claims (s : State) (off bit : Nat) : (s.noteSet off bit).claims = s.claims := rfl
@[simp] theorem State.noteSet_tiles (s : State) (off bit : Nat) : (s.noteSet off bit).tiles = s.tiles := rfl
@[simp] theorem State.noteSet_flits (s : State) (off bit : Nat) : (s.noteSet off bit).flits = s.flits := rfl
@[simp] theorem State.noteSet_firn (s : State) (off bit : Nat) : (s.noteSet off bit).firn = s.firn := rfl
@[simp] theorem State.noteSet_coach (s : State) (off bit : Nat) : (s.noteSet off bit).coach = s.coach := rfl
@[simp] theorem State.noteSet_readies (s : State) (off bit : Nat) : (s.noteSet off bit).readies = s.readies := rfl
@[simp] theorem State.noteSet_inbox (s : State) (off bit : Nat) : (s.noteSet off bit).inbox = s.inbox := rfl
@[simp] theorem State.noteSet_remote (s : State) (off bit : Nat) : (s.noteSet off bit).remote = s.remote := rfl
@[simp] theorem State.noteSet_lost (s : State) (off bit : Nat) : (s.noteSet off bit).lost = s.lost := rfl
@[simp] theorem State.noteSet_recalled (s : State) (off bit : Nat) : (s.noteSet off bit).recalled = s.recalled := rfl
@[simp] theorem State.noteSet_outbox (s : State) (off bit : Nat) : (s.noteSet off bit).outbox = s.outbox := rfl
@[simp] theorem State.noteSet_seqOut (s : State) (off bit : Nat) : (s.noteSet off bit).seqOut = s.seqOut := rfl
@[simp] theorem State.noteSet_regs (s : State) (off bit : Nat) : (s.noteSet off bit).regs = s.regs := rfl
@[simp] theorem State.noteSet_setNow (s : State) (off bit : Nat) : (s.noteSet off bit).setNow = (off, bit) :: s.setNow := rfl
@[simp] theorem State.noteSet_launches (s : State) (off bit : Nat) : (s.noteSet off bit).launches = s.launches := rfl
@[simp] theorem State.noteSet_events (s : State) (off bit : Nat) : (s.noteSet off bit).events = s.events := rfl
@[simp] theorem State.noteSet_ilast (s : State) (off bit : Nat) : (s.noteSet off bit).ilast = s.ilast := rfl
@[simp] theorem State.noteSet_queues (s : State) (off bit : Nat) : (s.noteSet off bit).queues = s.queues := rfl
@[simp] theorem State.noteSet_rr (s : State) (off bit : Nat) : (s.noteSet off bit).rr = s.rr := rfl
@[simp] theorem State.noteSet_resvs (s : State) (off bit : Nat) : (s.noteSet off bit).resvs = s.resvs := rfl
@[simp] theorem State.noteSet_homes (s : State) (off bit : Nat) : (s.noteSet off bit).homes = s.homes := rfl
@[simp] theorem State.noteSet_held (s : State) (off bit : Nat) : (s.noteSet off bit).held = s.held := rfl
@[simp] theorem State.noteSet_resets (s : State) (off bit : Nat) : (s.noteSet off bit).resets = s.resets := rfl
@[simp] theorem State.noteSet_preempts (s : State) (off bit : Nat) : (s.noteSet off bit).preempts = s.preempts := rfl
@[simp] theorem State.noteSet_homePreempts (s : State) (off bit : Nat) : (s.noteSet off bit).homePreempts = s.homePreempts := rfl
@[simp] theorem State.noteSet_ports (s : State) (off bit : Nat) : (s.noteSet off bit).ports = s.ports := rfl
@[simp] theorem State.noteSet_seqIn (s : State) (off bit : Nat) : (s.noteSet off bit).seqIn = s.seqIn := rfl
@[simp] theorem State.noteSet_early (s : State) (off bit : Nat) : (s.noteSet off bit).early = s.early := rfl
@[simp] theorem State.noteSet_partials (s : State) (off bit : Nat) : (s.noteSet off bit).partials = s.partials := rfl
@[simp] theorem State.noteSet_merges (s : State) (off bit : Nat) : (s.noteSet off bit).merges = s.merges := rfl
@[simp] theorem State.noteSet_frozen (s : State) (off bit : Nat) : (s.noteSet off bit).frozen = s.frozen := rfl
@[simp] theorem State.noteSet_booted (s : State) (off bit : Nat) : (s.noteSet off bit).booted = s.booted := rfl
@[simp] theorem State.noteSet_romEnd (s : State) (off bit : Nat) : (s.noteSet off bit).romEnd = s.romEnd := rfl
@[simp] theorem State.noteSet_hbmReady (s : State) (off bit : Nat) : (s.noteSet off bit).hbmReady = s.hbmReady := rfl
@[simp] theorem State.noteSet_tierReady (s : State) (off bit : Nat) : (s.noteSet off bit).tierReady = s.tierReady := rfl
@[simp] theorem State.noteSet_flash (s : State) (off bit : Nat) : (s.noteSet off bit).flash = s.flash := rfl
@[simp] theorem State.noteSet_flashJob (s : State) (off bit : Nat) : (s.noteSet off bit).flashJob = s.flashJob := rfl
@[simp] theorem State.noteSet_mcast (s : State) (off bit : Nat) : (s.noteSet off bit).mcast = s.mcast := rfl
@[simp] theorem State.noteSet_attest (s : State) (off bit : Nat) : (s.noteSet off bit).attest = s.attest := rfl
@[simp] theorem State.noteSet_discAt (s : State) (off bit : Nat) : (s.noteSet off bit).discAt = s.discAt := rfl
@[simp] theorem State.noteSet_reported (s : State) (off bit : Nat) : (s.noteSet off bit).reported = s.reported := rfl
@[simp] theorem State.noteSet_lsub (s : State) (off bit : Nat) : (s.noteSet off bit).lsub = s.lsub := rfl
@[simp] theorem State.noteSet_hostReqs (s : State) (off bit : Nat) : (s.noteSet off bit).hostReqs = s.hostReqs := rfl
@[simp] theorem State.noteSet_hostOut (s : State) (off bit : Nat) : (s.noteSet off bit).hostOut = s.hostOut := rfl
@[simp] theorem State.noteSet_scanSel (s : State) (off bit : Nat) : (s.noteSet off bit).scanSel = s.scanSel := rfl
@[simp] theorem State.noteSet_memAddr (s : State) (off bit : Nat) : (s.noteSet off bit).memAddr = s.memAddr := rfl
@[simp] theorem State.noteSet_debugIr (s : State) (off bit : Nat) : (s.noteSet off bit).debugIr = s.debugIr := rfl
@[simp] theorem State.noteSet_tdo (s : State) (off bit : Nat) : (s.noteSet off bit).tdo = s.tdo := rfl
@[simp] theorem State.noteSet_boundary (s : State) (off bit : Nat) : (s.noteSet off bit).boundary = s.boundary := rfl

/-! ## State.noteAct -/

@[simp] theorem State.noteAct_ck (s : State) (a n : Nat) : (s.noteAct a n).ck = s.ck := rfl
@[simp] theorem State.noteAct_closing (s : State) (a n : Nat) : (s.noteAct a n).closing = s.closing := rfl
@[simp] theorem State.noteAct_seq (s : State) (a n : Nat) : (s.noteAct a n).seq = s.seq := rfl
@[simp] theorem State.noteAct_turn (s : State) (a n : Nat) : (s.noteAct a n).turn = s.turn := rfl
@[simp] theorem State.noteAct_core (s : State) (a n : Nat) : (s.noteAct a n).core = s.core := rfl
@[simp] theorem State.noteAct_ctx (s : State) (a n : Nat) : (s.noteAct a n).ctx = s.ctx := rfl
@[simp] theorem State.noteAct_tile (s : State) (a n : Nat) : (s.noteAct a n).tile = s.tile := rfl
@[simp] theorem State.noteAct_cores (s : State) (a n : Nat) : (s.noteAct a n).cores = s.cores := rfl
@[simp] theorem State.noteAct_mem (s : State) (a n : Nat) : (s.noteAct a n).mem = s.mem := rfl
@[simp] theorem State.noteAct_empty (s : State) (a n : Nat) : (s.noteAct a n).empty = s.empty := rfl
@[simp] theorem State.noteAct_tags (s : State) (a n : Nat) : (s.noteAct a n).tags = s.tags := rfl
@[simp] theorem State.noteAct_failing (s : State) (a n : Nat) : (s.noteAct a n).failing = s.failing := rfl
@[simp] theorem State.noteAct_syndromes (s : State) (a n : Nat) : (s.noteAct a n).syndromes = s.syndromes := rfl
@[simp] theorem State.noteAct_acted (s : State) (a n : Nat) : (s.noteAct a n).acted = (storeGranules a n).map (·, s.seq) ++ s.acted := rfl
@[simp] theorem State.noteAct_nextId (s : State) (a n : Nat) : (s.noteAct a n).nextId = s.nextId := rfl
@[simp] theorem State.noteAct_requests (s : State) (a n : Nat) : (s.noteAct a n).requests = s.requests := rfl
@[simp] theorem State.noteAct_waiters (s : State) (a n : Nat) : (s.noteAct a n).waiters = s.waiters := rfl
@[simp] theorem State.noteAct_watchers (s : State) (a n : Nat) : (s.noteAct a n).watchers = s.watchers := rfl
@[simp] theorem State.noteAct_replies (s : State) (a n : Nat) : (s.noteAct a n).replies = s.replies := rfl
@[simp] theorem State.noteAct_messages (s : State) (a n : Nat) : (s.noteAct a n).messages = s.messages := rfl
@[simp] theorem State.noteAct_answers (s : State) (a n : Nat) : (s.noteAct a n).answers = s.answers := rfl
@[simp] theorem State.noteAct_beats (s : State) (a n : Nat) : (s.noteAct a n).beats = s.beats := rfl
@[simp] theorem State.noteAct_portTurn (s : State) (a n : Nat) : (s.noteAct a n).portTurn = s.portTurn := rfl
@[simp] theorem State.noteAct_qrows (s : State) (a n : Nat) : (s.noteAct a n).qrows = s.qrows := rfl
@[simp] theorem State.noteAct_walks (s : State) (a n : Nat) : (s.noteAct a n).walks = s.walks := rfl
@[simp] theorem State.noteAct_walkFaults (s : State) (a n : Nat) : (s.noteAct a n).walkFaults = s.walkFaults := rfl
@[simp] theorem State.noteAct_tileTlbs (s : State) (a n : Nat) : (s.noteAct a n).tileTlbs = s.tileTlbs := rfl
@[simp] theorem State.noteAct_posts (s : State) (a n : Nat) : (s.noteAct a n).posts = s.posts := rfl
@[simp] theorem State.noteAct_msixMask (s : State) (a n : Nat) : (s.noteAct a n).msixMask = s.msixMask := rfl
@[simp] theorem State.noteAct_msixPend (s : State) (a n : Nat) : (s.noteAct a n).msixPend = s.msixPend := rfl
@[simp] theorem State.noteAct_msixTable (s : State) (a n : Nat) : (s.noteAct a n).msixTable = s.msixTable := rfl
@[simp] theorem State.noteAct_barOut (s : State) (a n : Nat) : (s.noteAct a n).barOut = s.barOut := rfl
@[simp] theorem State.noteAct_stepJobs (s : State) (a n : Nat) : (s.noteAct a n).stepJobs = s.stepJobs := rfl
@[simp] theorem State.noteAct_claims (s : State) (a n : Nat) : (s.noteAct a n).claims = s.claims := rfl
@[simp] theorem State.noteAct_tiles (s : State) (a n : Nat) : (s.noteAct a n).tiles = s.tiles := rfl
@[simp] theorem State.noteAct_flits (s : State) (a n : Nat) : (s.noteAct a n).flits = s.flits := rfl
@[simp] theorem State.noteAct_firn (s : State) (a n : Nat) : (s.noteAct a n).firn = s.firn := rfl
@[simp] theorem State.noteAct_coach (s : State) (a n : Nat) : (s.noteAct a n).coach = s.coach := rfl
@[simp] theorem State.noteAct_readies (s : State) (a n : Nat) : (s.noteAct a n).readies = s.readies := rfl
@[simp] theorem State.noteAct_inbox (s : State) (a n : Nat) : (s.noteAct a n).inbox = s.inbox := rfl
@[simp] theorem State.noteAct_remote (s : State) (a n : Nat) : (s.noteAct a n).remote = s.remote := rfl
@[simp] theorem State.noteAct_lost (s : State) (a n : Nat) : (s.noteAct a n).lost = s.lost := rfl
@[simp] theorem State.noteAct_recalled (s : State) (a n : Nat) : (s.noteAct a n).recalled = s.recalled := rfl
@[simp] theorem State.noteAct_outbox (s : State) (a n : Nat) : (s.noteAct a n).outbox = s.outbox := rfl
@[simp] theorem State.noteAct_seqOut (s : State) (a n : Nat) : (s.noteAct a n).seqOut = s.seqOut := rfl
@[simp] theorem State.noteAct_regs (s : State) (a n : Nat) : (s.noteAct a n).regs = s.regs := rfl
@[simp] theorem State.noteAct_setNow (s : State) (a n : Nat) : (s.noteAct a n).setNow = s.setNow := rfl
@[simp] theorem State.noteAct_launches (s : State) (a n : Nat) : (s.noteAct a n).launches = s.launches := rfl
@[simp] theorem State.noteAct_events (s : State) (a n : Nat) : (s.noteAct a n).events = s.events := rfl
@[simp] theorem State.noteAct_ilast (s : State) (a n : Nat) : (s.noteAct a n).ilast = s.ilast := rfl
@[simp] theorem State.noteAct_queues (s : State) (a n : Nat) : (s.noteAct a n).queues = s.queues := rfl
@[simp] theorem State.noteAct_rr (s : State) (a n : Nat) : (s.noteAct a n).rr = s.rr := rfl
@[simp] theorem State.noteAct_resvs (s : State) (a n : Nat) : (s.noteAct a n).resvs = s.resvs := rfl
@[simp] theorem State.noteAct_homes (s : State) (a n : Nat) : (s.noteAct a n).homes = s.homes := rfl
@[simp] theorem State.noteAct_held (s : State) (a n : Nat) : (s.noteAct a n).held = s.held := rfl
@[simp] theorem State.noteAct_resets (s : State) (a n : Nat) : (s.noteAct a n).resets = s.resets := rfl
@[simp] theorem State.noteAct_preempts (s : State) (a n : Nat) : (s.noteAct a n).preempts = s.preempts := rfl
@[simp] theorem State.noteAct_homePreempts (s : State) (a n : Nat) : (s.noteAct a n).homePreempts = s.homePreempts := rfl
@[simp] theorem State.noteAct_ports (s : State) (a n : Nat) : (s.noteAct a n).ports = s.ports := rfl
@[simp] theorem State.noteAct_seqIn (s : State) (a n : Nat) : (s.noteAct a n).seqIn = s.seqIn := rfl
@[simp] theorem State.noteAct_early (s : State) (a n : Nat) : (s.noteAct a n).early = s.early := rfl
@[simp] theorem State.noteAct_partials (s : State) (a n : Nat) : (s.noteAct a n).partials = s.partials := rfl
@[simp] theorem State.noteAct_merges (s : State) (a n : Nat) : (s.noteAct a n).merges = s.merges := rfl
@[simp] theorem State.noteAct_frozen (s : State) (a n : Nat) : (s.noteAct a n).frozen = s.frozen := rfl
@[simp] theorem State.noteAct_booted (s : State) (a n : Nat) : (s.noteAct a n).booted = s.booted := rfl
@[simp] theorem State.noteAct_romEnd (s : State) (a n : Nat) : (s.noteAct a n).romEnd = s.romEnd := rfl
@[simp] theorem State.noteAct_hbmReady (s : State) (a n : Nat) : (s.noteAct a n).hbmReady = s.hbmReady := rfl
@[simp] theorem State.noteAct_tierReady (s : State) (a n : Nat) : (s.noteAct a n).tierReady = s.tierReady := rfl
@[simp] theorem State.noteAct_flash (s : State) (a n : Nat) : (s.noteAct a n).flash = s.flash := rfl
@[simp] theorem State.noteAct_flashJob (s : State) (a n : Nat) : (s.noteAct a n).flashJob = s.flashJob := rfl
@[simp] theorem State.noteAct_mcast (s : State) (a n : Nat) : (s.noteAct a n).mcast = s.mcast := rfl
@[simp] theorem State.noteAct_attest (s : State) (a n : Nat) : (s.noteAct a n).attest = s.attest := rfl
@[simp] theorem State.noteAct_discAt (s : State) (a n : Nat) : (s.noteAct a n).discAt = s.discAt := rfl
@[simp] theorem State.noteAct_reported (s : State) (a n : Nat) : (s.noteAct a n).reported = s.reported := rfl
@[simp] theorem State.noteAct_lsub (s : State) (a n : Nat) : (s.noteAct a n).lsub = s.lsub := rfl
@[simp] theorem State.noteAct_hostReqs (s : State) (a n : Nat) : (s.noteAct a n).hostReqs = s.hostReqs := rfl
@[simp] theorem State.noteAct_hostOut (s : State) (a n : Nat) : (s.noteAct a n).hostOut = s.hostOut := rfl
@[simp] theorem State.noteAct_scanSel (s : State) (a n : Nat) : (s.noteAct a n).scanSel = s.scanSel := rfl
@[simp] theorem State.noteAct_memAddr (s : State) (a n : Nat) : (s.noteAct a n).memAddr = s.memAddr := rfl
@[simp] theorem State.noteAct_debugIr (s : State) (a n : Nat) : (s.noteAct a n).debugIr = s.debugIr := rfl
@[simp] theorem State.noteAct_tdo (s : State) (a n : Nat) : (s.noteAct a n).tdo = s.tdo := rfl
@[simp] theorem State.noteAct_boundary (s : State) (a n : Nat) : (s.noteAct a n).boundary = s.boundary := rfl

/-! ## State.event -/

@[simp] theorem State.event_ck (s : State) (code : BitVec 8) (part : Option Nat) (detail : Word) : (s.event code part detail).ck = s.ck := rfl
@[simp] theorem State.event_closing (s : State) (code : BitVec 8) (part : Option Nat) (detail : Word) : (s.event code part detail).closing = s.closing := rfl
@[simp] theorem State.event_seq (s : State) (code : BitVec 8) (part : Option Nat) (detail : Word) : (s.event code part detail).seq = s.seq := rfl
@[simp] theorem State.event_turn (s : State) (code : BitVec 8) (part : Option Nat) (detail : Word) : (s.event code part detail).turn = s.turn := rfl
@[simp] theorem State.event_core (s : State) (code : BitVec 8) (part : Option Nat) (detail : Word) : (s.event code part detail).core = s.core := rfl
@[simp] theorem State.event_ctx (s : State) (code : BitVec 8) (part : Option Nat) (detail : Word) : (s.event code part detail).ctx = s.ctx := rfl
@[simp] theorem State.event_tile (s : State) (code : BitVec 8) (part : Option Nat) (detail : Word) : (s.event code part detail).tile = s.tile := rfl
@[simp] theorem State.event_cores (s : State) (code : BitVec 8) (part : Option Nat) (detail : Word) : (s.event code part detail).cores = s.cores := rfl
@[simp] theorem State.event_mem (s : State) (code : BitVec 8) (part : Option Nat) (detail : Word) : (s.event code part detail).mem = s.mem := rfl
@[simp] theorem State.event_empty (s : State) (code : BitVec 8) (part : Option Nat) (detail : Word) : (s.event code part detail).empty = s.empty := rfl
@[simp] theorem State.event_tags (s : State) (code : BitVec 8) (part : Option Nat) (detail : Word) : (s.event code part detail).tags = s.tags := rfl
@[simp] theorem State.event_failing (s : State) (code : BitVec 8) (part : Option Nat) (detail : Word) : (s.event code part detail).failing = s.failing := rfl
@[simp] theorem State.event_syndromes (s : State) (code : BitVec 8) (part : Option Nat) (detail : Word) : (s.event code part detail).syndromes = s.syndromes := rfl
@[simp] theorem State.event_acted (s : State) (code : BitVec 8) (part : Option Nat) (detail : Word) : (s.event code part detail).acted = s.acted := rfl
@[simp] theorem State.event_nextId (s : State) (code : BitVec 8) (part : Option Nat) (detail : Word) : (s.event code part detail).nextId = s.nextId := rfl
@[simp] theorem State.event_requests (s : State) (code : BitVec 8) (part : Option Nat) (detail : Word) : (s.event code part detail).requests = s.requests := rfl
@[simp] theorem State.event_waiters (s : State) (code : BitVec 8) (part : Option Nat) (detail : Word) : (s.event code part detail).waiters = s.waiters := rfl
@[simp] theorem State.event_watchers (s : State) (code : BitVec 8) (part : Option Nat) (detail : Word) : (s.event code part detail).watchers = s.watchers := rfl
@[simp] theorem State.event_replies (s : State) (code : BitVec 8) (part : Option Nat) (detail : Word) : (s.event code part detail).replies = s.replies := rfl
@[simp] theorem State.event_messages (s : State) (code : BitVec 8) (part : Option Nat) (detail : Word) : (s.event code part detail).messages = s.messages := rfl
@[simp] theorem State.event_answers (s : State) (code : BitVec 8) (part : Option Nat) (detail : Word) : (s.event code part detail).answers = s.answers := rfl
@[simp] theorem State.event_beats (s : State) (code : BitVec 8) (part : Option Nat) (detail : Word) : (s.event code part detail).beats = s.beats := rfl
@[simp] theorem State.event_portTurn (s : State) (code : BitVec 8) (part : Option Nat) (detail : Word) : (s.event code part detail).portTurn = s.portTurn := rfl
@[simp] theorem State.event_qrows (s : State) (code : BitVec 8) (part : Option Nat) (detail : Word) : (s.event code part detail).qrows = s.qrows := rfl
@[simp] theorem State.event_walks (s : State) (code : BitVec 8) (part : Option Nat) (detail : Word) : (s.event code part detail).walks = s.walks := rfl
@[simp] theorem State.event_walkFaults (s : State) (code : BitVec 8) (part : Option Nat) (detail : Word) : (s.event code part detail).walkFaults = s.walkFaults := rfl
@[simp] theorem State.event_tileTlbs (s : State) (code : BitVec 8) (part : Option Nat) (detail : Word) : (s.event code part detail).tileTlbs = s.tileTlbs := rfl
@[simp] theorem State.event_posts (s : State) (code : BitVec 8) (part : Option Nat) (detail : Word) : (s.event code part detail).posts = s.posts := rfl
@[simp] theorem State.event_msixMask (s : State) (code : BitVec 8) (part : Option Nat) (detail : Word) : (s.event code part detail).msixMask = s.msixMask := rfl
@[simp] theorem State.event_msixPend (s : State) (code : BitVec 8) (part : Option Nat) (detail : Word) : (s.event code part detail).msixPend = s.msixPend := rfl
@[simp] theorem State.event_msixTable (s : State) (code : BitVec 8) (part : Option Nat) (detail : Word) : (s.event code part detail).msixTable = s.msixTable := rfl
@[simp] theorem State.event_barOut (s : State) (code : BitVec 8) (part : Option Nat) (detail : Word) : (s.event code part detail).barOut = s.barOut := rfl
@[simp] theorem State.event_stepJobs (s : State) (code : BitVec 8) (part : Option Nat) (detail : Word) : (s.event code part detail).stepJobs = s.stepJobs := rfl
@[simp] theorem State.event_claims (s : State) (code : BitVec 8) (part : Option Nat) (detail : Word) : (s.event code part detail).claims = s.claims := rfl
@[simp] theorem State.event_tiles (s : State) (code : BitVec 8) (part : Option Nat) (detail : Word) : (s.event code part detail).tiles = s.tiles := rfl
@[simp] theorem State.event_flits (s : State) (code : BitVec 8) (part : Option Nat) (detail : Word) : (s.event code part detail).flits = s.flits := rfl
@[simp] theorem State.event_firn (s : State) (code : BitVec 8) (part : Option Nat) (detail : Word) : (s.event code part detail).firn = s.firn := rfl
@[simp] theorem State.event_coach (s : State) (code : BitVec 8) (part : Option Nat) (detail : Word) : (s.event code part detail).coach = s.coach := rfl
@[simp] theorem State.event_readies (s : State) (code : BitVec 8) (part : Option Nat) (detail : Word) : (s.event code part detail).readies = s.readies := rfl
@[simp] theorem State.event_inbox (s : State) (code : BitVec 8) (part : Option Nat) (detail : Word) : (s.event code part detail).inbox = s.inbox := rfl
@[simp] theorem State.event_remote (s : State) (code : BitVec 8) (part : Option Nat) (detail : Word) : (s.event code part detail).remote = s.remote := rfl
@[simp] theorem State.event_lost (s : State) (code : BitVec 8) (part : Option Nat) (detail : Word) : (s.event code part detail).lost = s.lost := rfl
@[simp] theorem State.event_recalled (s : State) (code : BitVec 8) (part : Option Nat) (detail : Word) : (s.event code part detail).recalled = s.recalled := rfl
@[simp] theorem State.event_outbox (s : State) (code : BitVec 8) (part : Option Nat) (detail : Word) : (s.event code part detail).outbox = s.outbox := rfl
@[simp] theorem State.event_seqOut (s : State) (code : BitVec 8) (part : Option Nat) (detail : Word) : (s.event code part detail).seqOut = s.seqOut := rfl
@[simp] theorem State.event_regs (s : State) (code : BitVec 8) (part : Option Nat) (detail : Word) : (s.event code part detail).regs = s.regs := rfl
@[simp] theorem State.event_setNow (s : State) (code : BitVec 8) (part : Option Nat) (detail : Word) : (s.event code part detail).setNow = s.setNow := rfl
@[simp] theorem State.event_launches (s : State) (code : BitVec 8) (part : Option Nat) (detail : Word) : (s.event code part detail).launches = s.launches := rfl
@[simp] theorem State.event_ilast (s : State) (code : BitVec 8) (part : Option Nat) (detail : Word) : (s.event code part detail).ilast = s.ilast := rfl
@[simp] theorem State.event_queues (s : State) (code : BitVec 8) (part : Option Nat) (detail : Word) : (s.event code part detail).queues = s.queues := rfl
@[simp] theorem State.event_rr (s : State) (code : BitVec 8) (part : Option Nat) (detail : Word) : (s.event code part detail).rr = s.rr := rfl
@[simp] theorem State.event_resvs (s : State) (code : BitVec 8) (part : Option Nat) (detail : Word) : (s.event code part detail).resvs = s.resvs := rfl
@[simp] theorem State.event_homes (s : State) (code : BitVec 8) (part : Option Nat) (detail : Word) : (s.event code part detail).homes = s.homes := rfl
@[simp] theorem State.event_held (s : State) (code : BitVec 8) (part : Option Nat) (detail : Word) : (s.event code part detail).held = s.held := rfl
@[simp] theorem State.event_resets (s : State) (code : BitVec 8) (part : Option Nat) (detail : Word) : (s.event code part detail).resets = s.resets := rfl
@[simp] theorem State.event_preempts (s : State) (code : BitVec 8) (part : Option Nat) (detail : Word) : (s.event code part detail).preempts = s.preempts := rfl
@[simp] theorem State.event_homePreempts (s : State) (code : BitVec 8) (part : Option Nat) (detail : Word) : (s.event code part detail).homePreempts = s.homePreempts := rfl
@[simp] theorem State.event_ports (s : State) (code : BitVec 8) (part : Option Nat) (detail : Word) : (s.event code part detail).ports = s.ports := rfl
@[simp] theorem State.event_seqIn (s : State) (code : BitVec 8) (part : Option Nat) (detail : Word) : (s.event code part detail).seqIn = s.seqIn := rfl
@[simp] theorem State.event_early (s : State) (code : BitVec 8) (part : Option Nat) (detail : Word) : (s.event code part detail).early = s.early := rfl
@[simp] theorem State.event_partials (s : State) (code : BitVec 8) (part : Option Nat) (detail : Word) : (s.event code part detail).partials = s.partials := rfl
@[simp] theorem State.event_merges (s : State) (code : BitVec 8) (part : Option Nat) (detail : Word) : (s.event code part detail).merges = s.merges := rfl
@[simp] theorem State.event_frozen (s : State) (code : BitVec 8) (part : Option Nat) (detail : Word) : (s.event code part detail).frozen = s.frozen := rfl
@[simp] theorem State.event_booted (s : State) (code : BitVec 8) (part : Option Nat) (detail : Word) : (s.event code part detail).booted = s.booted := rfl
@[simp] theorem State.event_romEnd (s : State) (code : BitVec 8) (part : Option Nat) (detail : Word) : (s.event code part detail).romEnd = s.romEnd := rfl
@[simp] theorem State.event_hbmReady (s : State) (code : BitVec 8) (part : Option Nat) (detail : Word) : (s.event code part detail).hbmReady = s.hbmReady := rfl
@[simp] theorem State.event_tierReady (s : State) (code : BitVec 8) (part : Option Nat) (detail : Word) : (s.event code part detail).tierReady = s.tierReady := rfl
@[simp] theorem State.event_flash (s : State) (code : BitVec 8) (part : Option Nat) (detail : Word) : (s.event code part detail).flash = s.flash := rfl
@[simp] theorem State.event_flashJob (s : State) (code : BitVec 8) (part : Option Nat) (detail : Word) : (s.event code part detail).flashJob = s.flashJob := rfl
@[simp] theorem State.event_mcast (s : State) (code : BitVec 8) (part : Option Nat) (detail : Word) : (s.event code part detail).mcast = s.mcast := rfl
@[simp] theorem State.event_attest (s : State) (code : BitVec 8) (part : Option Nat) (detail : Word) : (s.event code part detail).attest = s.attest := rfl
@[simp] theorem State.event_discAt (s : State) (code : BitVec 8) (part : Option Nat) (detail : Word) : (s.event code part detail).discAt = s.discAt := rfl
@[simp] theorem State.event_reported (s : State) (code : BitVec 8) (part : Option Nat) (detail : Word) : (s.event code part detail).reported = s.reported := rfl
@[simp] theorem State.event_lsub (s : State) (code : BitVec 8) (part : Option Nat) (detail : Word) : (s.event code part detail).lsub = s.lsub := rfl
@[simp] theorem State.event_hostReqs (s : State) (code : BitVec 8) (part : Option Nat) (detail : Word) : (s.event code part detail).hostReqs = s.hostReqs := rfl
@[simp] theorem State.event_hostOut (s : State) (code : BitVec 8) (part : Option Nat) (detail : Word) : (s.event code part detail).hostOut = s.hostOut := rfl
@[simp] theorem State.event_scanSel (s : State) (code : BitVec 8) (part : Option Nat) (detail : Word) : (s.event code part detail).scanSel = s.scanSel := rfl
@[simp] theorem State.event_memAddr (s : State) (code : BitVec 8) (part : Option Nat) (detail : Word) : (s.event code part detail).memAddr = s.memAddr := rfl
@[simp] theorem State.event_debugIr (s : State) (code : BitVec 8) (part : Option Nat) (detail : Word) : (s.event code part detail).debugIr = s.debugIr := rfl
@[simp] theorem State.event_tdo (s : State) (code : BitVec 8) (part : Option Nat) (detail : Word) : (s.event code part detail).tdo = s.tdo := rfl
@[simp] theorem State.event_boundary (s : State) (code : BitVec 8) (part : Option Nat) (detail : Word) : (s.event code part detail).boundary = s.boundary := rfl

end Sys2Proof.Machine
end

