-- ==== Sys2Proof/Laws/Memory.lean ====
section
/-! SUPPORT. The laws of sparse lists and of memory: a read after a write, and that every operation on memory keeps its
canonical form. -/

namespace Sys2Proof.Machine

/-! ## Sparse lists -/

theorem lookup_insertAt_same {α : Type} (d v : α) (k : Nat) (l : List (Nat × α)) : lookup d (insertAt k v l) k = v := by
  induction l with
  | nil => simp [insertAt, lookup]
  | cons p l ih =>
    unfold insertAt
    split
    · simp [lookup]
    · split
      · simp [lookup]
      · rename_i h _
        simp [lookup, Ne.symm h, ih]

theorem lookup_insertAt_ne {α : Type} (d v : α) {k j : Nat} (h : j ≠ k) (l : List (Nat × α)) :
    lookup d (insertAt k v l) j = lookup d l j := by
  induction l with
  | nil => simp [insertAt, lookup, Ne.symm h]
  | cons p l ih =>
    unfold insertAt
    split
    · rename_i e; subst e; simp [lookup, Ne.symm h]
    · split
      · simp [lookup, Ne.symm h]
      · simp only [lookup, ih]

theorem insertAt_insertAt {α : Type} (v w : α) (k : Nat) (l : List (Nat × α)) :
    insertAt k v (insertAt k w l) = insertAt k v l := by
  induction l with
  | nil => simp [insertAt]
  | cons p l ih =>
    unfold insertAt
    by_cases h : k = p.1
    · simp [h, insertAt]
    · by_cases h2 : k < p.1
      · simp [h, h2, insertAt]
      · simp [h, h2, insertAt, ih]

/-- Keys strictly rise, all above a bound. -/
def Rising {α : Type} (b : Nat) : List (Nat × α) → Prop
  | [] => True
  | (k, _) :: l => b ≤ k ∧ Rising (k + 1) l

theorem Rising.weaken {α : Type} {b c : Nat} {l : List (Nat × α)} (h : Rising c l) (hbc : b ≤ c) : Rising b l := by
  cases l with
  | nil => trivial
  | cons p l => exact ⟨Nat.le_trans hbc h.1, h.2⟩

theorem Rising.insertAt {α : Type} {b k : Nat} (v : α) {l : List (Nat × α)} (h : Rising b l) (hb : b ≤ k) :
    Rising b (insertAt k v l) := by
  induction l generalizing b with
  | nil => exact ⟨hb, trivial⟩
  | cons p l ih =>
    unfold Machine.insertAt
    split
    · rename_i e; subst e; exact h
    · split
      · rename_i hlt; exact ⟨hb, hlt, h.2⟩
      · exact ⟨h.1, ih h.2 (by omega)⟩

theorem lookup_below {α : Type} (d : α) {b k : Nat} {l : List (Nat × α)} (h : Rising b l) (hk : k < b) : lookup d l k = d := by
  induction l generalizing b with
  | nil => rfl
  | cons p l ih =>
    have : p.1 ≠ k := by have := h.1; omega
    simp only [lookup, this, if_false]
    exact ih h.2 (by have := h.1; omega)

theorem Rising.filter {α : Type} {b : Nat} (f : Nat × α → Bool) {l : List (Nat × α)} (h : Rising b l) : Rising b (l.filter f) := by
  induction l generalizing b with
  | nil => trivial
  | cons p l ih =>
    simp only [List.filter_cons]
    split
    · exact ⟨h.1, ih h.2⟩
    · exact (ih h.2).weaken (by have := h.1; omega)

theorem removeAt_eq_filter {α : Type} (k : Nat) (l : List (Nat × α)) : removeAt k l = l.filter (·.1 != k) := by
  induction l with
  | nil => rfl
  | cons p l ih => by_cases h : p.1 = k <;> simp [removeAt, h, ih]

theorem lookup_removeAt {α : Type} (d : α) (k j : Nat) (l : List (Nat × α)) :
    lookup d (removeAt k l) j = if j = k then d else lookup d l j := by
  induction l with
  | nil => simp [removeAt, lookup]
  | cons p l ih =>
    by_cases h : p.1 = k
    · rw [removeAt, if_pos h, ih]
      by_cases h2 : j = k
      · rw [if_pos h2, if_pos h2]
      · rw [if_neg h2, if_neg h2, lookup, if_neg fun e => h2 (e.symm.trans h)]
    · rw [removeAt, if_neg h, lookup, lookup, ih]
      by_cases h2 : p.1 = j
      · rw [if_pos h2, if_pos h2, if_neg fun e => h (h2.trans e)]
      · rw [if_neg h2, if_neg h2]

theorem mem_insertAt {α : Type} {k : Nat} {v : α} {l : List (Nat × α)} {p : Nat × α} (h : p ∈ insertAt k v l) :
    p = (k, v) ∨ p ∈ l := by
  induction l with
  | nil => simpa [insertAt] using h
  | cons q l ih =>
    unfold insertAt at h
    split at h
    · rcases List.mem_cons.1 h with h | h <;> simp [h]
    · split at h
      · rcases List.mem_cons.1 h with h | h <;> simp [h]
      · rcases List.mem_cons.1 h with h | h
        · simp [h]
        · rcases ih h with h | h <;> simp [h]

/-! ## The canonical form -/

theorem Memory.wf_iff (l : List Host.Cell) : Memory.wf l = true ↔ Rising 0 l ∧ ∀ p ∈ l, p.2 ≠ emptyByte := by
  have key : ∀ l : List Host.Cell, Memory.wf l = true ↔
      (match l with | [] => True | p :: r => Rising (p.1 + 1) r) ∧ ∀ p ∈ l, p.2 ≠ emptyByte := by
    intro l
    induction l with
    | nil => simp [Memory.wf]
    | cons p l ih =>
      obtain ⟨a, b⟩ := p
      cases l with
      | nil => simp [Memory.wf, Rising]
      | cons q r =>
        obtain ⟨a', b'⟩ := q
        simp only [Memory.wf, Bool.and_eq_true, bne_iff_ne, ne_eq, decide_eq_true_eq, ih]
        simp only [Rising, List.mem_cons, forall_eq_or_imp]
        constructor
        · rintro ⟨⟨h1, h2⟩, h3, h4⟩; exact ⟨⟨by omega, h3⟩, h1, h4⟩
        · rintro ⟨⟨h2, h3⟩, h1, h4⟩; exact ⟨⟨h1, by omega⟩, h3, h4⟩
  rw [key]
  cases l with
  | nil => simp [Rising]
  | cons p r => simp [Rising]

theorem Memory.wf_storeAt {l : List Host.Cell} (h : Memory.wf l = true) (a : Nat) (b : Byte) :
    Memory.wf (storeAt emptyByte a b l) = true := by
  rw [Memory.wf_iff] at h ⊢
  unfold storeAt
  split
  · rw [removeAt_eq_filter]
    exact ⟨h.1.filter _, fun p hp => h.2 p ((List.mem_filter.1 hp).1)⟩
  · rename_i hb
    refine ⟨h.1.insertAt b (Nat.zero_le _), fun p hp => ?_⟩
    rcases mem_insertAt hp with rfl | hp
    · exact hb
    · exact h.2 p hp

theorem Memory.wf_filter {l : List Host.Cell} (h : Memory.wf l = true) (f : Host.Cell → Bool) : Memory.wf (l.filter f) = true := by
  rw [Memory.wf_iff] at h ⊢
  exact ⟨h.1.filter f, fun p hp => h.2 p ((List.mem_filter.1 hp).1)⟩

theorem lookup_storeAt (a j : Nat) (b : Byte) (l : List Host.Cell) :
    lookup emptyByte (storeAt emptyByte a b l) j = if j = a then b else lookup emptyByte l j := by
  unfold storeAt
  split
  · rename_i hb; rw [lookup_removeAt, hb]
  · split
    · rename_i h; rw [h, lookup_insertAt_same]
    · rename_i h; rw [lookup_insertAt_ne _ _ h]

/-! ## Bytes -/

theorem State.readByte_writeByte (s : State) (a j : Nat) (b : Byte) :
    (s.writeByte a b).readByte j = if j = a then b else s.readByte j := lookup_storeAt a j b s.mem

theorem State.writeByte_wf {s : State} (h : Memory.wf s.mem = true) (a : Nat) (b : Byte) :
    Memory.wf (s.writeByte a b).mem = true := Memory.wf_storeAt h a b

/-- A store of bytes gives the addresses it covers their bytes and leaves every other. -/
theorem State.readByte_writeBytes (s : State) (a j : Nat) (bytes : List Byte) :
    (s.writeBytes a bytes).readByte j = if a ≤ j ∧ j < a + bytes.length then bytes.getD (j - a) 0 else s.readByte j := by
  induction bytes generalizing s a with
  | nil => simp only [State.writeBytes, List.length_nil]; rw [if_neg (by omega)]
  | cons b bs ih =>
    simp only [State.writeBytes, ih, List.length_cons, State.readByte_writeByte]
    by_cases h : j = a
    · subst h
      rw [if_neg (by omega), if_pos rfl, if_pos (by omega)]; simp
    · by_cases h2 : a ≤ j ∧ j < a + (bs.length + 1)
      · have : j - a = (j - (a + 1)) + 1 := by omega
        rw [if_pos (by omega), if_pos h2, this]; simp
      · rw [if_neg (by omega), if_neg h, if_neg h2]

theorem State.writeBytes_wf {s : State} (h : Memory.wf s.mem = true) (a : Nat) (bytes : List Byte) :
    Memory.wf (s.writeBytes a bytes).mem = true := by
  induction bytes generalizing s a with
  | nil => exact h
  | cons b bs ih => exact ih (s.writeByte_wf h a b) (a + 1)

/-- Only memory changes. -/
theorem State.writeBytes_frame (s : State) (a : Nat) (bytes : List Byte) : s.writeBytes a bytes = { s with mem := (s.writeBytes a bytes).mem } := by
  induction bytes generalizing s a with
  | nil => rfl
  | cons b bs ih => rw [State.writeBytes, ih]; rfl

end Sys2Proof.Machine
end

