-- ==== Sys2Proof/Laws/Ops.lean ====
section
/-! SUPPORT. What the shared operations do: cores and contexts, a write at a home, issue, the end of an instruction, and
taking a trap and returning from one. -/

namespace Sys2Proof.Machine

/-! ## Vectors -/

theorem vset_get_same {α : Type} {n : Nat} (v : Vector α n) (i : Fin n) (x : α) : (vset v i x).get i = x := by
  show (v.set i.val x i.isLt)[i.val] = x
  simp

theorem vset_get_ne {α : Type} {n : Nat} (v : Vector α n) {i j : Fin n} (h : j ≠ i) (x : α) : (vset v i x).get j = v.get j := by
  have : i.val ≠ j.val := fun e => h (Fin.ext e.symm)
  show (v.set i.val x i.isLt)[j.val] = v[j.val]
  simp [this]

theorem vset_vset {α : Type} {n : Nat} (v : Vector α n) (i : Fin n) (x y : α) : vset (vset v i x) i y = vset v i y := by
  simp [vset]

/-! ## Cores and contexts -/

@[simp] theorem State.coreAt_setCore (s : State) (u : Nat) (c : Core) : (s.setCore u c).coreAt u = c :=
  lookup_insertAt_same _ _ _ _

theorem State.coreAt_setCore_ne (s : State) {u v : Nat} (h : v ≠ u) (c : Core) : (s.setCore u c).coreAt v = s.coreAt v :=
  lookup_insertAt_ne _ _ h _

@[simp] theorem State.setCore_setCore (s : State) (u : Nat) (c d : Core) : (s.setCore u c).setCore u d = s.setCore u d := by
  simp [State.setCore, insertAt_insertAt]

@[simp] theorem Core.setCtx_get (c : Core) (k : Fin 16) (x : Context) : (c.setCtx k x).ctxs.get k = x := vset_get_same _ _ _

@[simp] theorem Core.setCtx_setCtx (c : Core) (k : Fin 16) (x y : Context) : (c.setCtx k x).setCtx k y = c.setCtx k y := by
  simp [Core.setCtx, vset_vset]

@[simp] theorem State.ctxAt_setCtx (s : State) (u : Nat) (k : Fin 16) (x : Context) : (s.setCtx u k x).ctxAt u k = x := by
  simp [State.ctxAt, State.setCtx]

theorem State.ctxAt_setCtx_ctx (s : State) (u : Nat) {k j : Fin 16} (h : j ≠ k) (x : Context) :
    (s.setCtx u k x).ctxAt u j = s.ctxAt u j := by
  simp only [State.ctxAt, State.setCtx, State.coreAt_setCore, Core.setCtx]
  exact vset_get_ne _ h _

theorem State.ctxAt_setCtx_core (s : State) {u v : Nat} (h : v ≠ u) (k j : Fin 16) (x : Context) :
    (s.setCtx u k x).ctxAt v j = s.ctxAt v j := by
  simp only [State.ctxAt, State.setCtx, State.coreAt_setCore_ne s h]

@[simp] theorem State.setCtx_setCtx (s : State) (u : Nat) (k : Fin 16) (x y : Context) :
    (s.setCtx u k x).setCtx u k y = s.setCtx u k y := by simp [State.setCtx]

@[simp] theorem State.me_setMe (s : State) (c : Context) : (s.setMe c).me = c := s.ctxAt_setCtx _ _ _

@[simp] theorem State.setMe_setMe (s : State) (c d : Context) : (s.setMe c).setMe d = s.setMe d := s.setCtx_setCtx _ _ _ _

@[simp] theorem State.setCtx_me (s : State) (c d : Context) : (s.setMe c).setCtx s.core s.ctx d = s.setMe d := s.setCtx_setCtx _ _ _ _

@[simp] theorem State.myCore_setMe (s : State) (c : Context) : (s.setMe c).myCore = s.myCore.setCtx s.ctx c := by
  simp [State.myCore, State.setMe, State.setCtx]

/-! ## A write at a home -/

theorem State.logWord_mem (s : State) (b : Word) (k : Nat) (p : Option Nat) : (s.logWord b k p).mem = s.mem := by
  unfold State.logWord; simp only; split <;> rfl

theorem State.logWord_cores (s : State) (b : Word) (k : Nat) (p : Option Nat) : (s.logWord b k p).cores = s.cores := by
  unfold State.logWord; simp only; split <;> rfl

theorem State.logWord_core (s : State) (b : Word) (k : Nat) (p : Option Nat) :
    (s.logWord b k p).core = s.core ∧ (s.logWord b k p).ctx = s.ctx := by
  unfold State.logWord; simp only; split <;> exact ⟨rfl, rfl⟩

theorem foldl_keeps {α β : Type} {γ : Type} (f : α → β → α) (g : α → γ) (h : ∀ a b, g (f a b) = g a) (l : List β) (a : α) :
    g (l.foldl f a) = g a := by
  induction l generalizing a with
  | nil => rfl
  | cons b l ih => rw [List.foldl_cons, ih, h]

theorem State.answer_mem (s : State) (r : Reply) : (s.answer r).mem = s.mem := by
  unfold State.answer
  split
  · simp only
    split
    · exact s.logWord_mem _ _ _
    · exact foldl_keeps _ State.mem (fun a b => a.logWord_mem _ _ _) _ _
  · simp only
    split
    · exact s.logWord_mem _ _ _
    · exact foldl_keeps _ State.mem (fun a b => a.logWord_mem _ _ _) _ _
  · simp only
    repeat' split
    all_goals first | rfl | exact s.logWord_mem _ _ _
  · rfl

theorem State.answer_cores (s : State) (r : Reply) : (s.answer r).cores = s.cores := by
  unfold State.answer
  split
  · simp only
    split
    · exact s.logWord_cores _ _ _
    · exact foldl_keeps _ State.cores (fun a b => a.logWord_cores _ _ _) _ _
  · simp only
    split
    · exact s.logWord_cores _ _ _
    · exact foldl_keeps _ State.cores (fun a b => a.logWord_cores _ _ _) _ _
  · simp only
    repeat' split
    all_goals first | rfl | exact s.logWord_cores _ _ _
  · rfl

theorem State.testWatchers_mem (s : State) (a n : Nat) : (s.testWatchers a n).mem = s.mem := by
  unfold State.testWatchers
  refine foldl_keeps _ State.mem (fun st r => ?_) _ _
  split
  · split
    · exact State.answer_mem _ _
    · rfl
  · rfl

theorem State.testWatchers_cores (s : State) (a n : Nat) : (s.testWatchers a n).cores = s.cores := by
  unfold State.testWatchers
  refine foldl_keeps _ State.cores (fun st r => ?_) _ _
  split
  · split
    · exact State.answer_cores _ _
    · rfl
  · rfl

theorem State.wrote_mem (s : State) (a n : Nat) : (s.wrote a n).mem = s.mem := by
  unfold State.wrote
  split
  · exact State.testWatchers_mem _ _ _
  · rfl

theorem State.wrote_cores (s : State) (a n : Nat) : (s.wrote a n).cores = s.cores := by
  unfold State.wrote
  split
  · exact State.testWatchers_cores _ _ _
  · rfl

/-- A write at a home stores its bytes and nothing else in memory. -/
theorem State.putBytes_mem (s : State) (a : Nat) (bytes : List Byte) (bad : List Nat) :
    (s.putBytes a bytes bad).mem = (s.writeBytes a bytes).mem := State.wrote_mem _ _ _

theorem State.putBytes_cores (s : State) (a : Nat) (bytes : List Byte) (bad : List Nat) :
    (s.putBytes a bytes bad).cores = s.cores := by
  unfold State.putBytes
  rw [State.wrote_cores]
  show (s.writeBytes a bytes).cores = s.cores
  rw [State.writeBytes_frame]

theorem State.readByte_putBytes (s : State) (a j : Nat) (bytes : List Byte) (bad : List Nat) :
    (s.putBytes a bytes bad).readByte j = if a ≤ j ∧ j < a + bytes.length then bytes.getD (j - a) 0 else s.readByte j := by
  rw [State.readByte, State.putBytes_mem]
  exact s.readByte_writeBytes a j bytes

theorem State.putBytes_wf {s : State} (h : Memory.wf s.mem = true) (a : Nat) (bytes : List Byte) (bad : List Nat) :
    Memory.wf (s.putBytes a bytes bad).mem = true := by
  rw [State.putBytes_mem]; exact s.writeBytes_wf h a bytes

theorem State.putNat_wf {s : State} (h : Memory.wf s.mem = true) (a z v : Nat) : Memory.wf (s.putNat a z v).mem = true :=
  State.putBytes_wf h a _ _

/-- Where every outcome of a choice keeps memory canonical, so does the choice. -/
theorem Memory.wf_ite {p : Prop} [Decidable p] {a b : State} (ha : Memory.wf a.mem = true) (hb : Memory.wf b.mem = true) :
    Memory.wf (if p then a else b).mem = true := by
  split
  · exact ha
  · exact hb

theorem State.recordStop_wf {s : State} (h : Memory.wf s.mem = true) (part : Option Nat) (kind unit code sub : Nat)
    (event : BitVec 8) (detail : Word) : Memory.wf (s.recordStop part kind unit code sub event detail).mem = true := by
  unfold State.recordStop
  cases part.bind s.launchOf with
  | none => exact h
  | some l =>
    simp only [State.event_mem]
    have h2 : Memory.wf (s.putStatus l 4).mem = true := State.putNat_wf h _ _ _
    apply Memory.wf_ite
    · exact State.putNat_wf (Memory.wf_ite h h2) _ _ _
    · exact Memory.wf_ite h h2

/-! ## Issue, and the end of an instruction -/

/-- The straddle test and the loop test look at the PC and the loop records alone. -/
theorem Context.straddles_setX (c : Context) (r : Reg) (v : Word) (n : Nat) : (c.setX r v).straddles n = c.straddles n := by
  unfold Context.setX; split <;> rfl

/-- A trap writes memory only where it records the stop of a context. -/
theorem State.trapAt_wf {s : State} (h : Memory.wf s.mem = true) (u : Nat) (k : Fin 16) (t : TrapInfo) (pc : BitVec 18) :
    Memory.wf (s.trapAt u k t pc).mem = true := by
  have h' : Memory.wf (s.setCtx u k ((s.ctxAt u k).enterTrap t pc s.ck)).mem = true := h
  unfold State.trapAt
  generalize s.setCtx u k ((s.ctxAt u k).enterTrap t pc s.ck) = s' at h' ⊢
  unfold State.noteStop
  split
  · exact State.recordStop_wf h' _ _ _ _ _ _ _
  · exact h'

theorem State.leaveAt_wf {s : State} (h : Memory.wf s.mem = true) (u : Nat) (k : Fin 16) (w : Word) (f : Flow) :
    Memory.wf (s.leaveAt u k w f).mem = true := by
  unfold State.leaveAt
  simp only
  split
  · exact State.trapAt_wf h _ _ _ _
  · exact h

/-- An instruction that does not straddle a loop end leaves with its context advanced. -/
theorem State.leave_eq (s : State) (i : Instr) (f : Flow) (h : s.me.straddles (wordLen (instrWord i)) = false) :
    s.leave i f = s.setMe (s.me.advance (wordLen (instrWord i)) f) := by
  unfold State.leave State.leaveAt
  simp only
  rw [if_neg (by simpa [State.me] using h)]
  rfl

/-- An instruction whose registers exist, hold no failed result and are present goes on to its effect. -/
theorem lcIssue_ready (i : Instr) (uses : List RegUse) (f : State → State) (s : State)
    (he : (uses.any fun r => !r.exists s.myCore.m8) = false) (hf : firstFailed s.me uses = none)
    (hp : (uses.all fun r => s.me.present r.num) = true) : lcIssue i uses f s = f s := by
  unfold lcIssue
  rw [if_neg (by simp [he]), hf]
  simp only [hp, if_true]

/-- A register of the instruction is absent: the context parks on it, and nothing else changes. -/
theorem lcIssue_absent (i : Instr) (uses : List RegUse) (f : State → State) (s : State)
    (he : (uses.any fun r => !r.exists s.myCore.m8) = false) (hf : firstFailed s.me uses = none)
    (hp : (uses.all fun r => s.me.present r.num) = false) :
    (lcIssue i uses f s).me.state = .parked ∧ (lcIssue i uses f s).me.pc = s.me.pc ∧ (lcIssue i uses f s).mem = s.mem := by
  unfold lcIssue
  rw [if_neg (by simp [he]), hf]
  simp only [hp, Bool.false_eq_true, if_false, State.park]
  exact ⟨by rw [State.me_setMe], by rw [State.me_setMe], rfl⟩

/-- A supervisor instruction has its effect in supervisor mode, and traps in user mode (R74). -/
theorem supervisor_mode (i : Instr) (f : State → State) (s : State) :
    supervisor i f s = if s.me.prv then f s else s.trap causePrivilege (instrWord i) := rfl

/-! ## Taking a trap, and returning from one -/

/-- Trap entry outside a handler (R80): the handler starts in supervisor mode, with the trap recorded. -/
theorem Context.enterTrap_first (c : Context) (t : TrapInfo) (pc : BitVec 18) (ck : Nat) (h : c.tact = false) :
    let e := c.enterTrap t pc ck
    e.pc = c.tvec ∧ e.tepc = pc ∧ e.code = t.code ∧ e.aux = t.aux ∧ e.tval = t.value ∧ e.ppv = c.prv ∧ e.prv = true ∧
      e.tact = true ∧ e.x = c.x ∧ e.w = c.w ∧ e.c = c.c ∧ e.fcsr = c.fcsr ∧ e.loops = c.loops := by
  simp [Context.enterTrap, h]

/-- A second trap stops the context (R80). -/
theorem Context.enterTrap_second (c : Context) (t : TrapInfo) (pc : BitVec 18) (ck : Nat) (h : c.tact = true) :
    let e := c.enterTrap t pc ck
    e.state = .stopped ∧ e.stop = (t.code, t.value) ∧ e.pc = c.pc ∧ e.x = c.x ∧ e.tepc = c.tepc ∧ e.tval = c.tval := by
  simp [Context.enterTrap, h]

/-- eret restores the PC and the mode (R198). -/
theorem Context.leaveTrap_restores (c : Context) :
    c.leaveTrap.pc = c.tepc ∧ c.leaveTrap.prv = c.ppv ∧ c.leaveTrap.tact = false ∧ c.leaveTrap.x = c.x := ⟨rfl, rfl, rfl, rfl⟩

end Sys2Proof.Machine
end

