-- ==== Sys2Proof/Laws/Issue.lean ====
section
/-! SUPPORT. What the shared shapes of a lookup-core instruction do when the instruction can issue: it registers, its effect
on the issuing context, and how it leaves. -/

namespace Sys2Proof.Machine

theorem State.canIssue_iff (s : State) (i : Instr) (uses : List RegUse) :
    s.canIssue i uses = true ↔ (uses.any fun r => !r.exists s.myCore.m8) = false ∧ firstFailed s.me uses = none ∧
      (uses.all fun r => s.me.present r.num) = true ∧ s.me.straddles (wordLen (instrWord i)) = false := by
  simp only [State.canIssue, Bool.and_eq_true, Bool.not_eq_true', Option.isNone_iff_eq_none, and_assoc]

/-- An instruction that can issue goes on to its effect. -/
theorem lcIssue_canIssue {s : State} {i : Instr} {uses : List RegUse} (f : State → State) (h : s.canIssue i uses = true) :
    lcIssue i uses f s = f s := by
  obtain ⟨h1, h2, h3, -⟩ := (s.canIssue_iff i uses).1 h
  exact lcIssue_ready i uses f s h1 h2 h3

/-- An instruction that can issue leaves, when its effect is on its own context alone and keeps the PC and the loops. -/
theorem State.leave_canIssue {s : State} {i : Instr} {uses : List RegUse} (c : Context) (f : Flow) (h : s.canIssue i uses = true)
    (hc : c.straddles (wordLen (instrWord i)) = s.me.straddles (wordLen (instrWord i))) : (s.setMe c).leave i f = s.after i c f := by
  obtain ⟨-, -, -, h4⟩ := (s.canIssue_iff i uses).1 h
  rw [State.leave_eq _ _ _ (by rw [State.me_setMe, hc, h4]), State.me_setMe, State.setMe_setMe]
  rfl

/-- A register-writing instruction completes with its value. -/
theorem writeX_canIssue {s : State} {i : Instr} {d : Reg} {srcs : List Reg} (f : State → Word)
    (h : s.canIssue i ((d :: srcs).map .x) = true) : writeX i d srcs f s = .next (s.after i (s.me.setX d (f s))) := by
  unfold writeX
  rw [lcIssue_canIssue _ h]
  simp only [State.wx, State.done]
  rw [State.leave_canIssue _ _ h (Context.straddles_setX _ _ _ _)]

end Sys2Proof.Machine
end

