-- ==== Sys2Proof/Laws/Access.lean ====
section
/-! SUPPORT. The course of an access of a context with nothing else in flight: the request it sends, the act of its home, and
the answer. -/

namespace Sys2Proof.Machine

/-- The request of a quiet context. -/
def State.accessRequest (s : State) (act : Act) (a : Nat) (dest : Dest) (deadline : Option Nat) : Request :=
  ⟨s.nextId, .ctx s.core s.ctx.val, act, a, dest, false, deadline⟩

/-- The issuing context, parked on the answer to its request. -/
def State.parkedMe (s : State) (i : Instr) (record : Word) : Context :=
  { s.me with state := .parked, park := .reply s.nextId, parkRec := record, parkedAt := s.ck, deadline := none, ir := instrWord i }

/-- A context whose answer has come. -/
def Context.answered (c : Context) (ck : Nat) : Context :=
  { c with state := .run, park := .none, parkRec := 0, deadline := none, readyAt := ck + 1 }

/-- A quiet context that has sent its request. -/
def State.sent (s : State) (i : Instr) (act : Act) (a : Nat) (dest : Dest) (deadline : Option Nat) (record : Word) : State :=
  { s.setMe (s.parkedMe i record) with
    nextId := s.nextId + 1, requests := [s.accessRequest act a dest deadline] }

theorem ctxIdx_val (k : Fin 16) : ctxIdx k.val = k := by
  simp [ctxIdx, Fin.ofNat, Nat.mod_eq_of_lt k.isLt]

/-- With nothing in flight an access is sent at once. -/
theorem holdOrSend_quiet {s : State} (hq : s.Quiet) (i : Instr) (act : Act) (a n : Nat) (dest : Dest)
    (drain : Bool) (deadline : Option Nat) (record : Word) :
    s.holdOrSend i none act a n dest drain deadline record = s.sent i act a dest deadline record := by
  obtain ⟨_, _, hr, _, _, _, _, hx, _, hl, _, hg, _⟩ := hq
  have hw : s.myCore.sendWaits s.ctx.val (.access none act a dest deadline) drain = false := by
    simp [Core.sendWaits, Core.held, Core.drained, hx, hl, hg]
  unfold State.holdOrSend
  simp only [hl, List.filter_nil, List.foldl_nil, hw, Bool.false_eq_true, if_false]
  unfold State.sendAccess State.park
  have h1 : (s.setMe { s.me with
      state := .parked, park := .hold (.access none act a dest deadline) drain, parkRec := record,
      parkedAt := s.ck, deadline := deadline, ir := instrWord i }).ctxAt s.core s.ctx = { s.me with
      state := .parked, park := .hold (.access none act a dest deadline) drain, parkRec := record,
      parkedAt := s.ck, deadline := deadline, ir := instrWord i } := s.ctxAt_setCtx _ _ _
  simp only [h1, State.sendRequest, State.fresh, State.sent, State.accessRequest, State.parkedMe, State.setMe_nextId]
  simp [State.setMe, State.setCtx, State.setCore, State.coreAt, lookup_insertAt_same, insertAt_insertAt, hr]

/-- An access that passes its checks goes on with the address it reaches. -/
theorem virtualAccess_reaches {s : State} {i : Instr} {ea : Word} {z a : Nat} {kind : Kind} {need : Need} (f : Nat → State → State)
    (h : s.reaches ea z kind need = some a) : s.virtualAccess i ea z kind need f = f a s ∧ s.boundAt a z = false := by
  unfold State.reaches at h
  unfold State.virtualAccess
  split at h
  · cases h
  · rename_i hz
    rw [if_neg hz]
    split at h
    · rename_i dev a' ga ht
      split at h
      · rename_i hc
        obtain rfl : a' = a := by simpa using h
        rw [ht]
        have hn := Option.isNone_iff_eq_none.1 hc
        refine ⟨by simp only [hn], ?_⟩
        have hd : dev = none := by
          have := ht
          unfold State.translate at this
          simp only at this
          split at this
          · unfold translateVirtual at this
            split at this
            · cases this
            · split at this
              · injection this with h1; exact h1.symm
              · cases this
          · split at this
            · cases this
            · split at this
              · injection this with h1; exact h1.symm
              · cases this
        subst hd
        unfold State.checkHome at hn
        simp only [Option.isNone_none, if_true, Bool.true_and] at hn
        split at hn
        · cases hn
        · split at hn
          · cases hn
          · split at hn
            · cases hn
            · rename_i hb; simpa using hb
      · cases h
    · cases h

/-- What a sent access leaves of its context's core. -/
theorem coreAt_sent (s : State) (i : Instr) (act : Act) (a : Nat) (dest : Dest) (dl : Option Nat) (pr : Word) (u : Nat) :
    (s.sent i act a dest dl pr).coreAt u =
      if u = s.core then s.myCore.setCtx s.ctx (s.parkedMe i pr)
      else s.coreAt u := by
  split
  · rename_i h; subst h; exact lookup_insertAt_same _ _ _ _
  · rename_i h; exact lookup_insertAt_ne _ _ h _

theorem bound_sent {s : State} (hr : s.me.state = .run) (i : Instr) (act : Act) (a : Nat) (dest : Dest) (dl : Option Nat)
    (pr : Word) (u off n : Nat) : (s.sent i act a dest dl pr).bound u off n = s.bound u off n := by
  unfold State.bound
  rw [coreAt_sent]
  split
  · rename_i h
    subst h
    show (List.finRange 16).any _ = (List.finRange 16).any _
    congr 1
    funext k
    by_cases hk : k = s.ctx
    · subst hk
      have hr' : (s.myCore.ctxs.get s.ctx).state = .run := hr
      simp only [Core.workspace, Core.nctx, Core.setCtx, vset_get_same]
      show _ = (_ && (s.myCore.ctxs.get s.ctx).state != .free && _ && _)
      rw [hr']
      rfl
    · simp only [Core.workspace, Core.nctx, Core.setCtx, vset_get_ne _ hk]
      rfl
  · rfl

theorem boundAt_sent {s : State} (hr : s.me.state = .run) (i : Instr) (act : Act) (b : Nat) (dest : Dest) (dl : Option Nat)
    (pr : Word) (a n : Nat) : (s.sent i act b dest dl pr).boundAt a n = s.boundAt a n := by
  unfold State.boundAt
  split
  · exact bound_sent hr _ _ _ _ _ _ _ _ _
  · rfl

/-- The state in which the home of an address has taken a slot for the issuing core, where it is another core. -/
def State.slotUsed (s : State) (a : Nat) : State :=
  match storageOf a with
  | .localStore u | .channel u | .shard u => if u = s.core then s else s.useSlot u
  | _ => s

/-- A slot that is taken changes that core alone. -/
theorem slotUsed_frame (s : State) (a : Nat) :
    s.slotUsed a = { s with cores := (s.slotUsed a).cores } ∧ (s.slotUsed a).coreAt s.core = s.coreAt s.core := by
  have key : ∀ u, (if u = s.core then s else s.useSlot u) = { s with cores := (if u = s.core then s else s.useSlot u).cores } ∧
      (if u = s.core then s else s.useSlot u).coreAt s.core = s.coreAt s.core := by
    intro u
    split
    · exact ⟨rfl, rfl⟩
    · rename_i h
      unfold State.useSlot
      split
      · exact ⟨rfl, rfl⟩
      · exact ⟨rfl, lookup_insertAt_ne _ _ (fun e => h e.symm) _⟩
  unfold State.slotUsed
  cases storageOf a <;> first | exact key _ | exact ⟨rfl, rfl⟩

/-- The home of the only request in flight performs it, in a slot of its message context where it is another core, and its answer
waits for the context. -/
theorem execHomeAct_sent {s : State} (hq : s.Quiet) (i : Instr) (act : Act) (a n : Nat) (dest : Dest) (dl : Option Nat)
    (pr : Word) (hs : s.serves a n) :
    let r := s.accessRequest act a dest dl
    let t := s.sent i act a dest dl pr
    let v := t.slotUsed a
    execHomeAct s.nextId t = .next ((v.perform r).1.endAct r (v.perform r).2) := by
  intro r t v
  obtain ⟨_, _, _, _, _, _, _, _, _, _, _, _, hbeats, hmsgs⟩ := hq
  obtain ⟨hready, _, hst⟩ := hs
  have hready' : t.ready r.addr = true := hready
  have hfirst : t.firstRequest s.nextId = some r := by
    unfold State.firstRequest
    show (match ([r].find? fun x => x.id == s.nextId) with | none => none | some r => _) = _
    have : [r].find? (fun x => x.id == s.nextId) = some r := by simp [r, State.accessRequest]
    rw [this]
    show (match ([r].find? _) with | some x => _ | none => none) = _
    have h2 : [r].find? (fun x => x.src.unit == r.src.unit && homeOf x.addr == homeOf r.addr) = some r := by simp
    rw [h2]
    refine if_pos ⟨rfl, hready', ?_⟩
    have hnone : (t.beats.any fun b => b.ahead r) = false := by
      rw [List.any_eq_false]
      intro b hb
      have hne : (b.src.unit == r.src.unit) = false := beq_eq_false_iff_ne.2 (hbeats b hb)
      simp [Beat.ahead, hne]
    have hnone' : (t.messages.any fun m => m.ahead t r) = false := by
      rw [List.any_eq_false]
      intro m hm
      have hne : (m.src.unit == r.src.unit) = false := beq_eq_false_iff_ne.2 (hmsgs m hm)
      simp [Message.ahead, hne]
    simp [hnone, hnone']
  have hact : ∀ w : State, w.actOf r = w.perform r := by
    intro w
    unfold State.actOf
    have hnr : storageOf r.addr ≠ .regs := by
      intro h
      have : storageOf a = .regs := h
      rw [this] at hst
      exact hst
    rw [if_neg hnr]
    rfl
  have hgr : storeGranules r.addr r.act.size = [] := by
    have haddr : r.addr = a := rfl
    unfold storeGranules
    rw [haddr]
    generalize storageOf a = st at hst ⊢
    cases st <;> first | rfl | exact hst.elim
  have hbusy : t.busy r.addr r.act.size = false := by unfold State.busy; rw [hgr]; rfl
  have hnote : t.noteAct r.addr r.act.size = t := by unfold State.noteAct; rw [hgr]; rfl
  have hports : t.portsOf r = none := rfl
  have hfree : t.homeFree r = true := by
    unfold State.homeFree State.laneFree
    rw [hbusy, hports]
    rfl
  have hlane : t.useLane r = t := by unfold State.useLane; rw [hports]
  unfold execHomeAct
  rw [hfirst]
  simp only [hfree, Bool.not_true, Bool.false_eq_true, if_false]
  have hcase : (∃ u, performer r = some u ∧ v = t.useSlot u ∧ u ≠ s.core ∧ s.homeSlot u = true) ∨ (performer r = none ∧ v = t) := by
    have key : ∀ u, (u = s.core ∨ s.homeSlot u = true) →
        (∃ w, (if s.core = u then none else some u) = some w ∧ (if u = s.core then t else t.useSlot u) = t.useSlot w ∧ w ≠ s.core ∧
          s.homeSlot w = true) ∨
          ((if s.core = u then none else some u) = none ∧ (if u = s.core then t else t.useSlot u) = t) := by
      intro u h
      by_cases hu : s.core = u
      · exact .inr ⟨if_pos hu, if_pos hu.symm⟩
      · exact .inl ⟨u, if_neg hu, if_neg fun e => hu e.symm, fun e => hu e.symm, h.resolve_left fun e => hu e.symm⟩
    have haddr : r.addr = a := rfl
    have hunit : r.src.unit = s.core := rfl
    have hv : v = match storageOf a with
      | .localStore u | .channel u | .shard u => if u = s.core then t else t.useSlot u
      | _ => t := rfl
    rw [hv]
    unfold performer
    simp only [haddr, hunit]
    generalize storageOf a = st at hst ⊢
    cases st <;> first | exact key _ hst | exact .inr ⟨rfl, rfl⟩
  rcases hcase with ⟨u, hu, hv, hne, hslot⟩ | ⟨hn, hv⟩
  · rw [hu, hv]
    have hcore : t.coreAt u = s.coreAt u := by rw [coreAt_sent, if_neg hne]
    have hslot' : t.homeSlot u = true := by
      rw [← hslot]
      unfold State.homeSlot State.slotOf
      rw [hcore]
      rfl
    simp only [hslot', if_true, hact]
  · rw [hn, hv]
    simp only [hnote, hlane, hact]

/-- An answer to a context waits for it; the request is gone. -/
theorem endAct_answer {st : State} {r : Request} {rep : Reply} {u k : Nat} (hrs : r.src = .ctx u k)
    (hsrc : rep.req.src = .ctx u k) (hbad : rep.bad = []) (hfail : rep.failed = none) (hj : r.act ≠ .join) :
    st.endAct r (.answer rep) = { st with requests := st.requests.filter (·.id != r.id), replies := st.replies ++ [rep] } := by
  have hnote : ∀ st : State, st.noteLines rep = st := by
    intro st; unfold State.noteLines; rw [hfail, hbad]; rfl
  have hans : ∀ st : State, st.answer rep = { st with replies := st.replies ++ [rep] } := by
    intro st; unfold State.answer; rw [hsrc]
  obtain ⟨_, src, act, _, _, _, _⟩ := r
  simp only at hrs
  subst hrs
  unfold State.endAct
  simp only [hnote, hans]
  cases act <;> first | rfl | exact absurd rfl hj

theorem Context.raise_ir (c : Context) (f : Flags) : (c.raise f).ir = c.ir := rfl
theorem Context.raise_straddles (c : Context) (f : Flags) (n : Nat) : (c.raise f).straddles n = c.straddles n := rfl

theorem Context.writeDest_ir (c : Context) (d : Dest) (v : Quad) (t : Bool) : (c.writeDest d v t).ir = c.ir := by
  cases d <;> simp only [Context.writeDest, Context.setX] <;> first | rfl | (split <;> rfl)

theorem Context.writeDest_straddles (c : Context) (d : Dest) (v : Quad) (t : Bool) (n : Nat) :
    (c.writeDest d v t).straddles n = c.straddles n := by
  cases d <;> simp only [Context.writeDest, Context.setX] <;> first | rfl | (split <;> rfl)

/-- A parked context whose instruction is complete goes on past it. -/
theorem finishAt_eq (st : State) (u : Nat) (k : Fin 16) (f : Flow)
    (h : (st.ctxAt u k).straddles (wordLen (st.ctxAt u k).ir) = false) :
    st.finishAt u k f = st.setCtx u k (((st.ctxAt u k).answered st.ck).advance (wordLen (st.ctxAt u k).ir) f) := by
  unfold State.finishAt State.resumeAt State.leaveAt
  simp only [State.ctxAt_setCtx, State.setCtx_setCtx]
  have : ((st.ctxAt u k).resume st.ck).straddles (wordLen (st.ctxAt u k).ir) = false := h
  rw [if_neg (by rw [this]; simp)]
  rfl

/-- The answer that a context waits for completes its instruction. -/
theorem plainAccessComplete_answered {st : State} {rep : Reply} {n u : Nat} {k : Fin 16} {c : Context} (hrep : st.replies = [rep])
    (hid : rep.req.id = n) (hsrc : rep.req.src = .ctx u k.val) (hrel : rep.req.relaxed = false) (hfail : rep.failed = none)
    (htrap : rep.trap = none) (hc : st.ctxAt u k = c) (hw : c.awaits n = true) (hs : c.straddles (wordLen c.ir) = false) :
    execPlainAccessComplete n st = .next ({ st with replies := [] }.setCtx u k
      ((((c.writeDest rep.req.dest rep.value rep.tag).raise rep.flags).answered st.ck).advance (wordLen c.ir) .next)) := by
  unfold execPlainAccessComplete
  simp only [hrep, List.find?_cons, hid, hrel, beq_self_eq_true, Bool.not_false, Bool.and_self, hsrc, ctxIdx_val, hc, hw, if_true,
    List.filter_cons, bne_self_eq_false, Bool.false_eq_true, if_false, List.filter_nil]
  unfold State.completeReply
  rw [hfail, htrap]
  simp only
  have hc' : ({ st with replies := [] } : State).ctxAt u k = c := hc
  rw [hc', finishAt_eq]
  · simp only [State.ctxAt_setCtx, State.setCtx_setCtx, Context.raise_ir, Context.writeDest_ir]
    rfl
  · simp only [State.ctxAt_setCtx, Context.raise_ir, Context.writeDest_ir, Context.raise_straddles, Context.writeDest_straddles, hs]

/-- An access of a quiet context whose home answers it: the answer returns, and the context goes on. -/
theorem access_answered {s : State} (hq : s.Quiet) (i : Instr) (act : Act) (a n : Nat) (dest : Dest) (dl : Option Nat)
    (pr : Word) (hs : s.serves a n) (hj : act ≠ .join)
    (hc : s.me.straddles (wordLen (instrWord i)) = false) (m : List Host.Cell) (e tg f : List Nat) (rep : Reply)
    (hp : ((s.sent i act a dest dl pr).slotUsed a).perform (s.accessRequest act a dest dl) =
      ({ (s.sent i act a dest dl pr).slotUsed a with mem := m, empty := e, tags := tg, failing := f }, .answer rep))
    (hreq : rep.req = s.accessRequest act a dest dl) (hbad : rep.bad = []) (hfail : rep.failed = none) (htrap : rep.trap = none) :
    ∃ t, Moves [.homeAct s.nextId, .plainAccessComplete s.nextId] (s.sent i act a dest dl pr) t ∧
      t = { ((s.sent i act a dest dl pr).slotUsed a).setMe
              (((((s.parkedMe i pr).writeDest dest rep.value rep.tag).raise rep.flags).answered s.ck).advance
                (wordLen (instrWord i)) .next) with
            requests := [], mem := m, empty := e, tags := tg, failing := f } := by
  refine ⟨_, ?_, rfl⟩
  have h1 := execHomeAct_sent hq i act a n dest dl pr hs
  simp only [hp] at h1
  refine ⟨_, h1, _, ?_, rfl⟩
  obtain ⟨_, _, _, hrp, _⟩ := hq
  obtain ⟨hframe, hcore⟩ := slotUsed_frame (s.sent i act a dest dl pr) a
  generalize (s.sent i act a dest dl pr).slotUsed a = v at hframe hcore h1 ⊢
  have hid : rep.req.id = s.nextId := by rw [hreq]; rfl
  have hsrc : rep.req.src = .ctx s.core s.ctx.val := by rw [hreq]; rfl
  have hrel : rep.req.relaxed = false := by rw [hreq]; rfl
  have hdest : rep.req.dest = dest := by rw [hreq]; rfl
  rw [endAct_answer rfl hsrc hbad hfail hj]
  have hctx : v.ctxAt s.core s.ctx = s.parkedMe i pr := by
    show (v.coreAt s.core).ctxs.get s.ctx = _
    rw [show v.coreAt s.core = (s.sent i act a dest dl pr).coreAt s.core from hcore, coreAt_sent, if_pos rfl, Core.setCtx_get]
  have hrqs : v.requests = [s.accessRequest act a dest dl] := by rw [hframe]; rfl
  have hfil : v.requests.filter (·.id != (s.accessRequest act a dest dl).id) = [] := by rw [hrqs]; simp
  have hrpl : v.replies = [] := by rw [hframe]; exact hrp
  have hrps : v.replies ++ [rep] = [rep] := by rw [hrpl]; rfl
  have hck : v.ck = s.ck := by rw [hframe]; rfl
  have hc1 : v.core = s.core := by rw [hframe]; rfl
  have hc2 : v.ctx = s.ctx := by rw [hframe]; rfl
  rw [show ({ v with mem := m, empty := e, tags := tg, failing := f } : State).requests.filter
      (·.id != (s.accessRequest act a dest dl).id) = [] from hfil,
    show ({ v with mem := m, empty := e, tags := tg, failing := f } : State).replies ++ [rep] = [rep] from hrps]
  refine (plainAccessComplete_answered (u := s.core) (k := s.ctx)
    (st := { v with mem := m, empty := e, tags := tg, failing := f, requests := [], replies := [rep] })
    rfl hid hsrc hrel hfail htrap hctx ?_ hc).trans ?_
  · simp [Context.awaits, State.parkedMe]
  · have hwl : (s.parkedMe i pr).ir = instrWord i := rfl
    simp only [State.setMe, State.setCtx, State.setCore, State.coreAt, hc1, hc2, hdest, hck, hwl, hrpl]

end Sys2Proof.Machine
end

