-- ==== Sys2Proof/Laws/Tile.lean ====
section
/-! SUPPORT. When a command or a vector item of a tile is the only one to move: no stream goes before it (R216). -/

namespace Sys2Proof.Machine

/-- No stream goes before one of its tile where no request is in flight, no stream above it waits, and Coach holds no step. -/
theorem outranked_none {s : State} {n : Nat} {st : Stream} (hr : s.requests = []) (hc : s.coach = [])
    (hw : ∀ h ∈ streamsAbove st, ∀ w ∈ ((s.tileAt n).get h).waits, w = none) (a : Nat) : s.outranked n st a = false := by
  unfold State.outranked
  rw [List.any_eq_false]
  intro h hh
  have hmet : ((s.tileAt n).get h).waits.any (s.waitMet a) = false := by
    rw [List.any_eq_false]
    intro w hm
    rw [hw h hh w hm]
    simp [State.waitMet]
  simp [hr, hc, hmet]

/-- A command moves alone where nothing is in flight and no stream above its own waits. -/
theorem State.running_intro {s : State} {st : Stream} {c : DtCmd}
    (hcmd : s.tile < 32 ∧ s.turn = .cmd s.tile st ∧ (s.strm s.tile st).queue = [c] ∧ c.started = true ∧ c.sent = false ∧ c.reqs = [])
    (htile : (s.tileAt s.tile).stopped = false ∧ s.paused (s.tileAt s.tile).launch = false)
    (hr : s.requests = [])
    (hnone : s.replies = [] ∧ s.waiters = [] ∧ s.watchers = [] ∧ s.claims = [] ∧ s.beats = [] ∧ s.messages = [] ∧
      (∀ f ∈ s.flits, f.isSlot = false) ∧ s.acted = [])
    (hc : s.coach = []) (hw : ∀ h ∈ streamsAbove st, ∀ w ∈ ((s.tileAt s.tile).get h).waits, w = none) : s.running st c := by
  obtain ⟨h1, h2, h3, h4, h5, h6⟩ := hcmd
  obtain ⟨h7, h8, h9, h10, h11, h12, h13, h14⟩ := hnone
  exact ⟨h1, h2, h3, h4, h5, h6, htile.1, htile.2, hr, h7, h8, h9, h10, h11, h12, h13, h14, outranked_none hr hc hw⟩

/-- The same for a vector item that reads or writes the tile store. -/
theorem State.storeFree_intro {s : State} (hr : s.requests = [])
    (hnone : s.tile < 32 ∧ s.replies = [] ∧ s.waiters = [] ∧ s.watchers = [] ∧ s.claims = [] ∧ s.acted = [])
    (hc : s.coach = []) (hw : ∀ h ∈ streamsAbove .m, ∀ w ∈ ((s.tileAt s.tile).get h).waits, w = none) : s.storeFree := by
  obtain ⟨h1, h2, h3, h4, h5, h6⟩ := hnone
  exact ⟨h1, hr, h2, h3, h4, h5, h6, outranked_none hr hc hw⟩

end Sys2Proof.Machine
end

