-- ==== Sys2Proof/Tests/Slice0.lean ====
section
/-! SUPPORT. Tests: ill-formed terms, words written from the encodings of the spec, and one step of each instruction on a small
state that meets what the statements about it assume. Expected values are worked out by hand from the rules named. -/

namespace Sys2Proof.Tests

set_option Elab.async false

open Sys2Proof Sys2Proof.Machine

/-! ## Ill-formed terms, one for each check of WellFormed -/

theorem test_wf_loop_body : wellFormed (.loop 1 0) = false ∧ wellFormed (.loopi 3 0) = false := by decide
theorem test_wf_load_class : wellFormed (.ld ⟨.release, .d, 0, 0, 1, 2⟩) = false ∧ wellFormed (.ldq ⟨.fill, 0, 0, 1, 2⟩) = false := by decide
theorem test_wf_ldn_size : wellFormed (.ldn ⟨.plain, .d, 0, 0, 1, 2⟩) = false := by decide
theorem test_wf_store_class : wellFormed (.st ⟨.acquire, .d, 0, 0, 1, 2⟩) = false ∧ wellFormed (.stq ⟨.peek, 0, 0, 1, 2⟩) = false := by decide
theorem test_wf_amo : wellFormed (.amoadd ⟨.consume, true, 0, 1, 2⟩) = false ∧ wellFormed (.amofadd ⟨.plain, true, 0, 1, 2⟩) = false := by decide
theorem test_wf_pairs : wellFormed (.sendr 0 32 1 2 3) = false ∧ wellFormed (.cmk 1 2 3) = false := by decide
theorem test_wf_csr : wellFormed (.csrr 1 3) = false ∧ wellFormed (.csrw 1 3) = false := by decide
theorem test_wf_wait : wellFormed (.wait 1 2) = false := by decide
theorem test_wf_parith : wellFormed (.padd ⟨.fp32, 5, 1, 2, 3⟩) = false ∧ wellFormed (.pfma ⟨.i8, 0, 1, 2, 3⟩) = false := by decide
theorem test_wf_pminmax : wellFormed (.pmin ⟨.e2m1, 0, 1, 2, 3⟩) = false ∧ wellFormed (.pabs ⟨.n8, 0, 0, 2, 3⟩) = false := by decide
theorem test_wf_pdot : wellFormed (.pdot ⟨.i32, 0, 1, 2, 3⟩) = false := by decide
theorem test_wf_pshift : wellFormed (.pshl ⟨.i8, 2, 1, 2, 3⟩) = false ∧ wellFormed (.pshr ⟨.fp32, 0, 1, 2, 3⟩) = false := by decide
theorem test_wf_pcmp : wellFormed (.pcmp ⟨.i8, 6, 1, 2, 3⟩) = false := by decide
theorem test_wf_pcvt : wellFormed (.pcvt ⟨.fp32, 0, 10, 2, 3⟩) = false := by decide
theorem test_wf_lane : wellFormed (.pext .fp32 1 2 4) = false ∧ wellFormed (.pins .i8 1 2 16) = false := by decide
theorem test_wf_copy : wellFormed (.xld ⟨65, 0, 0, 0, 0, 0, 0, 0, 0⟩) = false ∧ wellFormed (.xst ⟨0, 0, 0, 0, 0, 0, 3, 0, 0⟩) = false := by decide
theorem test_wf_xbld : wellFormed (.xbld ⟨0, 0, 0, 0, 3, 0⟩) = false := by decide
theorem test_wf_stash : wellFormed (.xstash ⟨0, 0, 0, 0, 0, 0, 0, 1, 0⟩) = false ∧ wellFormed (.xrest ⟨0, 0, 0, 0, 0, 0, 1, 0, 0⟩) = false := by decide
theorem test_wf_coach : wellFormed (.xceHalve ⟨0, 0, 0, 0, 0, 0, 3, false, 0, 0, 0⟩) = false ∧
    wellFormed (.xceDbl ⟨0, 0, 0, 0, 0, 0, 1, false, 0, 0, 0⟩) = false ∧
    wellFormed (.xceXchg ⟨0, 0, 0, 0, 0, 0, 0, true, 0, 0, 1⟩) = false := by decide
theorem test_wf_xwait_bar : wellFormed (.xwaitBar 65 0 0 0) = false := by decide
theorem test_wf_xset : wellFormed (.xsetTctl 4 0) = false ∧ wellFormed (.xsetFcsr 0x200 0) = false ∧ wellFormed (.xsetRrb 256 0) = false ∧
    wellFormed (.xsetRload 60 5 0 0) = false := by decide
theorem test_wf_dt_loop : wellFormed (.xloop ⟨0, 0, 0, 0, 0⟩) = false := by decide
theorem test_wf_cvt : wellFormed (.cvt ⟨⟨0, 0, 0, 0, 0, 0, 0, 0, 0⟩, 5, false⟩) = false ∧
    wellFormed (.bscale ⟨0, 0, 0, 0, 0, 0, 2, 6, false, false, 0⟩) = false ∧ wellFormed (.skeep ⟨0, 0, 0, 0, 0, 0, 0, 0⟩) = false := by decide
theorem test_wf_matrix : wellFormed (.mma ⟨.ts 0, 0, false, .fp32, 0, false, 0⟩) = false ∧
    wellFormed (.mmas ⟨.ts 0, 0, false, .e4m3, 32, false, 0⟩) = false ∧
    wellFormed (.mma ⟨.ts 0, 1023, false, .bf16, 127, false, 0⟩) = false ∧
    wellFormed (.mdrain ⟨.v 640, false, .fp32, 0, false, false⟩) = false := by decide
theorem test_wf_vector : wellFormed (.vadd ⟨0, 0, 0, 7, false, 0, .fp32, 0, 0⟩) = false ∧ wellFormed (.vadd ⟨383, 0, 0, 2, false, 0, .fp32, 0, 0⟩) = false ∧
    wellFormed (.vmax ⟨0, 0, 0, 1, false, 1, .fp32, 0, 0⟩) = false ∧ wellFormed (.vfma ⟨0, 0, 0, 1, false, 0, .i8, 0, 0⟩) = false ∧
    wellFormed (.vabs ⟨0, 0, 1, 1, false, 0, .i8, 0, 0⟩) = false ∧ wellFormed (.vexp2 ⟨0, 0, 0, 1, false, 0, .i8, 0, 0⟩) = false := by decide
theorem test_wf_vector_moves : wellFormed (.vcmp ⟨0, 0, 0, 1, false, 0, .fp32, 7, 0⟩) = false ∧ wellFormed (.vsel ⟨0, 0, 0, 1, false, 0, .n8, 0, 0⟩) = false ∧
    wellFormed (.vred ⟨0, 0, 0, 1, false, 0, .fp32, 0, 3⟩) = false ∧ wellFormed (.vbcast ⟨0, 0, 0, 1, false, 0, .fp32, 0, 16⟩) = false ∧
    wellFormed (.vperm ⟨0, 0, 0, 1, false, 0, .fp32, 0, 1⟩) = false ∧ wellFormed (.vcvt ⟨0, 0, 0, 1, false, 0, .fp32, 0, 10⟩) = false := by decide
theorem test_wf_vector_memory : wellFormed (.vld ⟨0, 0, 16, 1, false, 0, .i8, 0, 0⟩) = false ∧ wellFormed (.vst ⟨0, 0, 0, 1, false, 0, .i8, 0, 16⟩) = false ∧
    wellFormed (.pset ⟨0, 65, 0, 1, false, 0, .i8, 0, 0⟩) = false := by decide

/-! ## Words written field by field from the encodings of the spec -/

/-- R90, R91: opcode 0x01, fn 17. -/
theorem test_decode_min : decode32 (0#5 ++ 17#5 ++ 9#5 ++ 8#5 ++ 7#5 ++ 0x01#6 ++ 1#1) = .ok (.min 7 8 9) := by decide
/-- R90: srai has imm[7:6] = 10. -/
theorem test_decode_srai : decode32 (0#7 ++ 2#2 ++ 33#6 ++ 8#5 ++ 7#5 ++ 0x08#6 ++ 1#1) = .ok (.srai 7 8 33) := by decide
/-- R86, R90: format J. -/
theorem test_decode_lhi : decode32 (0xABCDE#20 ++ 3#5 ++ 0x09#6 ++ 1#1) = .ok (.lhi 3 0xABCDE) := by decide
/-- R86: the immediate of format B is split between [31:22] and [11:7]. -/
theorem test_decode_bgen : decode32 (0x2AB#10 ++ 2#5 ++ 1#5 ++ 0x0C#5 ++ 0x10#6 ++ 1#1) = .ok (.bgen 1 2 (0x2AB * 32 + 0x0C)) := by decide
/-- R86, R90: format L. -/
theorem test_decode_loopi : decode32 (9#10 ++ 0x7FFF#15 ++ 0x14#6 ++ 1#1) = .ok (.loopi 0x7FFF 9) := by decide
/-- R89: a fill store of halfwords with L = 31. -/
theorem test_decode_st_fill : decode32 (5#3 ++ 1#2 ++ 31#5 ++ 2#5 ++ 1#5 ++ 3#5 ++ 0x17#6 ++ 1#1) = .ok (.st ⟨.fill, .h, 31, 2, 1, 3⟩) := by decide
/-- R89: amo swap, kind 100, size 11, relaxed. -/
theorem test_decode_amoswap : decode32 (1#3 ++ 3#2 ++ 0#2 ++ 4#3 ++ 2#5 ++ 1#5 ++ 3#5 ++ 0x1F#6 ++ 1#1) = .ok (.amoswap ⟨.relaxed, true, 2, 1, 3⟩) := by decide
/-- R90: waitv with cond ge and size 10. -/
theorem test_decode_waitv : decode32 (3#3 ++ 2#2 ++ 10#5 ++ 2#5 ++ 1#5 ++ 3#5 ++ 0x22#6 ++ 1#1) = .ok (.waitv .ge false 10 3 1 2) := by decide
/-- R90: fence of scope table 5. -/
theorem test_decode_fence : decode32 (0#8 ++ 1#1 ++ 5#6 ++ 0#5 ++ 0#5 ++ 0x23#6 ++ 1#1) = .ok (.fenceScope 5) := by decide
/-- R86, R90: format Q. -/
theorem test_decode_sendr : decode32 (14#4 ++ 33#6 ++ 4#5 ++ 1#5 ++ 3#5 ++ 0x24#6 ++ 1#1) = .ok (.sendr 14 33 3 1 4) := by decide
/-- R90, R92: the work, capability, control-register and system families. -/
theorem test_decode_spawn : decode32 (0#5 ++ 0#5 ++ 4#5 ++ 1#5 ++ 3#5 ++ 0x27#6 ++ 1#1) = .ok (.spawn 3 1 4) := by decide
theorem test_decode_sleave : decode32 (0#5 ++ 1#5 ++ 0#5 ++ 1#5 ++ 3#5 ++ 0x28#6 ++ 1#1) = .ok (.sleave 3 1) := by decide
theorem test_decode_cmk : decode32 (0#5 ++ 2#5 ++ 4#5 ++ 0#1 ++ 1#4 ++ 0#1 ++ 3#4 ++ 0x29#6 ++ 1#1) = .ok (.cmk 3 1 4) := by decide
theorem test_decode_csrw : decode32 (0#3 ++ 1#2 ++ 0x100#10 ++ 1#5 ++ 0#5 ++ 0x2A#6 ++ 1#1) = .ok (.csrw 0x100 1) := by decide
theorem test_decode_svc : decode32 (0#5 ++ 77#10 ++ 0#5 ++ 0#5 ++ 0x2B#6 ++ 1#1) = .ok (.svc 77) := by decide
/-- R92, R93: format P: T, m, sub. -/
theorem test_decode_padd : decode32 (10#4 ++ 4#3 ++ 0#3 ++ 2#5 ++ 1#5 ++ 3#5 ++ 0x2C#6 ++ 1#1) = .ok (.padd ⟨.fp32, 4, 2, 1, 3⟩) := by decide
/-- R90: engine words. -/
theorem test_decode_sred : decode32 (5#5 ++ 2#5 ++ 2#5 ++ 1#5 ++ 3#5 ++ 0x2F#6 ++ 1#1) = .ok (.sred ⟨5, 2, 1, 3⟩) := by decide
theorem test_decode_smrg : decode32 (5#5 ++ 3#5 ++ 2#5 ++ 1#5 ++ 3#5 ++ 0x30#6 ++ 1#1) = .ok (.smrg ⟨5, 2, 1, 3⟩) := by decide
theorem test_decode_bsync : decode32 (0#5 ++ 5#5 ++ 2#5 ++ 1#5 ++ 3#5 ++ 0x31#6 ++ 1#1) = .ok (.bsync 3 1 2) := by decide
theorem test_decode_addi_s : decode32 (7#15 ++ 1#5 ++ 0#2 ++ 6#3 ++ 0x32#6 ++ 1#1) = .ok (.addiSDest 6 1 7) := by decide
/-- R94: compact words. -/
theorem test_decode_kj : decode16 (0x7FF#11 ++ 15#4 ++ 0#1) = .ok (.kj (-1)) := by decide
theorem test_decode_zero : decodeLc 0 = (.ok .kbrk, 2) := by decide
/-- R95: unallocated words and fields that are not zero. -/
theorem test_decode_reserved : decode32 1#32 = .reject .unallocated ∧
    decode32 (1#5 ++ 0#5 ++ 2#5 ++ 1#5 ++ 3#5 ++ 0x01#6 ++ 1#1) = .reject .reservedField := by decide
/-- R89: ORD 111 is no class, and ld has no release. -/
theorem test_decode_ord : (∀ w ∈ [7#3, 3#3, 5#3], ∃ r, decode32 (w ++ 3#2 ++ 0#5 ++ 2#5 ++ 1#5 ++ 3#5 ++ 0x15#6 ++ 1#1) = .reject r) := by
  simp only [List.forall_mem_cons]
  exact ⟨⟨.unallocated, by decide⟩, ⟨.limit, by decide⟩, ⟨.limit, by decide⟩, by simp⟩
/-- R96 to R98: words of the S and C streams. -/
theorem test_decode_xld : decodeS (1#7 ++ 64#7 ++ 2#4 ++ 3#4 ++ (0#6 ++ 5#5 ++ 4#5) ++ (0#6 ++ 1#2 ++ 2#2) ++ 0#6 ++ 2#6 ++ 9#4) =
    .ok (.xld ⟨1, 64, 2, 3, 4, 5, 2, 1, 9⟩) := by decide
theorem test_decode_cset : decodeC (0#14 ++ 2#4 ++ 3#4 ++ 0xBEEF#16 ++ 0#10 ++ 0#6 ++ 8#6 ++ 1#4) = .ok (.cset ⟨2, 3, 0xBEEF, 1⟩) := by decide
theorem test_decode_stream_zero : decodeS 0 = .reject .unallocated ∧ decodeC 0 = .reject .unallocated := by decide
/-- R99 to R102: a bundle of an mma, a vadd and an endl, with a push of two tokens to the M-to-C queue. -/
theorem test_decode_bundle :
    decodeBundle ((3#4 ++ 0#12) ++ (1#6 ++ 384#10 ++ 1#10 ++ 2#10 ++ 1#3 ++ 0#1 ++ 0#3 ++ 10#4 ++ 0#3 ++ 0#6) ++
      (1#4 ++ 0#1 ++ 512#13 ++ 16#10 ++ 1#1 ++ 8#4 ++ 127#7 ++ 1#1 ++ 0#2 ++ 0#5) ++ 8#4 ++ 8#4) =
    .ok ⟨some (.mma ⟨.ts 512, 16, true, .bf16, 127, true, 0⟩), some (.vadd ⟨384, 1, 2, 1, false, 0, .fp32, 0, 0⟩), .endl, 8, 8⟩ := by decide
theorem test_decode_bundle_count : decodeBundle ((1#4 ++ 0#12) ++ 0#56 ++ 0#48 ++ 1#4 ++ 0#4) = .reject .reservedField := by decide

/-! ## States for the tests -/

/-- A machine with user context 0 of core 5 running in supervisor mode at 0x200, after some change of it. -/
def at' (f : Context → Context) : State :=
  { State.reset.setCtx 5 0 (f { Context.reset with state := .run, prv := true, tvec := 0x100, pc := 0x200 }) with core := 5, ctx := 0 }

/-- These x registers set. -/
def xs (l : List (Reg × Word)) (c : Context) : Context := l.foldl (fun c p => c.setX p.1 p.2) c

/-- These w registers set. -/
def ws (l : List (Reg × Quad)) (c : Context) : Context := l.foldl (fun c p => c.setW p.1 p.2) c

/-- These moves, no two of which set and clear a bit of a register in one ck (R6), end in a state with a property. -/
def runs : List Instr → State → (State → Bool) → Bool
  | [], s, p => p s
  | i :: is, s, p => match exec i s with
    | .next t => runs is { t with setNow := [] } p
    | _ => false

/-- One instruction with x registers set leaves a value in x3. -/
def gives (i : Instr) (l : List (Reg × Word)) (v : Word) : Bool := runs [i] (at' (xs l)) fun t => t.me.xr 3 == v && t.me.pc == 0x204
/-! ## Lookup core: integer, immediate and control words -/

/-- What IntegerResults, ImmediateResults and RegisterWritersFrame assume of these instructions. -/
theorem wit_integer : (at' id).canIssue (.add 3 1 2) ([3, 1, 2].map .x) = true ∧ (at' id).canIssue (.sel 3 1 2 4) ([3, 1, 2, 4].map .x) = true ∧
    (at' id).canIssue (.clz 3 1) ([3, 1].map .x) = true ∧ (at' id).canIssue (.lhi 3 0) ([3].map .x) = true ∧
    (at' id).canIssue (.kmv 3 1) ([3, 1].map .x) = true ∧ (at' id).canIssue (.psel 3 1 2) [.w 3, .w 1, .w 2] = true ∧
    (at' id).canIssue (.pmov 3 1) [.w 3, .w 1] = true ∧ (at' id).canIssue (.beq 1 2 0) [.x 1, .x 2] = true := by decide +kernel

theorem test_add_wraps : gives (.add 3 1 2) [(1, -1), (2, 2)] 1 = true := by decide +kernel
theorem test_sub : gives (.sub 3 1 2) [(1, 2), (2, 3)] (-1) = true := by decide +kernel
theorem test_and : gives (.and 3 1 2) [(1, 12), (2, 10)] 8 = true := by decide +kernel
theorem test_or : gives (.or 3 1 2) [(1, 12), (2, 10)] 14 = true := by decide +kernel
theorem test_xor : gives (.xor 3 1 2) [(1, 12), (2, 10)] 6 = true := by decide +kernel
theorem test_sll_by_65 : gives (.sll 3 1 2) [(1, 3), (2, 65)] 6 = true := by decide +kernel
theorem test_srl : gives (.srl 3 1 2) [(1, -1), (2, 60)] 15 = true := by decide +kernel
theorem test_sra : gives (.sra 3 1 2) [(1, -16), (2, 2)] (-4) = true := by decide +kernel
theorem test_slt : gives (.slt 3 1 2) [(1, -1), (2, 0)] 1 = true := by decide +kernel
theorem test_sltn : gives (.sltn 3 1 2) [(1, -1), (2, 0)] 0 = true := by decide +kernel
theorem test_mul : gives (.mul 3 1 2) [(1, -3), (2, 5)] (-15) = true := by decide +kernel
theorem test_mulh : gives (.mulh 3 1 2) [(1, -1), (2, 1)] (-1) = true := by decide +kernel
theorem test_mulhn : gives (.mulhn 3 1 2) [(1, -1), (2, 2)] 1 = true := by decide +kernel
theorem test_div_by_zero : gives (.div 3 1 2) [(1, 7)] (-1) = true ∧ gives (.div 3 1 2) [(1, -7), (2, 2)] (-3) = true := by decide +kernel
theorem test_divn : gives (.divn 3 1 2) [(1, 7), (2, 2)] 3 = true := by decide +kernel
theorem test_rem : gives (.rem 3 1 2) [(1, -7), (2, 2)] (-1) = true := by decide +kernel
theorem test_remn_by_zero : gives (.remn 3 1 2) [(1, 7)] 7 = true := by decide +kernel
theorem test_min : gives (.min 3 1 2) [(1, -1), (2, 1)] (-1) = true := by decide +kernel
theorem test_max : gives (.max 3 1 2) [(1, -1), (2, 1)] 1 = true := by decide +kernel
theorem test_minn : gives (.minn 3 1 2) [(1, -1), (2, 1)] 1 = true := by decide +kernel
theorem test_maxn : gives (.maxn 3 1 2) [(1, -1), (2, 1)] (-1) = true := by decide +kernel
theorem test_clz : gives (.clz 3 1) [] 64 = true ∧ gives (.clz 3 1) [(1, 1)] 63 = true := by decide +kernel
theorem test_ctz : gives (.ctz 3 1) [(1, 8)] 3 = true := by decide +kernel
theorem test_popc : gives (.popc 3 1) [(1, 0xFF0F)] 12 = true := by decide +kernel
theorem test_sel : gives (.sel 3 1 2 4) [(1, 5), (2, 6), (4, 0)] 6 = true := by decide +kernel
theorem test_ext : gives (.ext 3 1 2 4) [(1, 0xABCD), (2, 4), (4, 8)] 0xBC = true := by decide +kernel
theorem test_ins : gives (.ins 3 1 2 4) [(3, 0xFFFF), (1, 0), (2, 4), (4, 8)] 0xF00F = true := by decide +kernel
theorem test_rev : gives (.rev 3 1 .bytes) [(1, 0x0102030405060708)] 0x0807060504030201 = true := by decide +kernel
theorem test_addi : gives (.addi 3 1 (-1)) [] (-1) = true := by decide +kernel
theorem test_andi : gives (.andi 3 1 (-2)) [(1, 7)] 6 = true := by decide +kernel
theorem test_ori : gives (.ori 3 1 1) [(1, 4)] 5 = true := by decide +kernel
theorem test_xori : gives (.xori 3 1 (-1)) [(1, 1)] (-2) = true := by decide +kernel
theorem test_slti : gives (.slti 3 1 (-1)) [(1, -2)] 1 = true := by decide +kernel
theorem test_sltni : gives (.sltni 3 1 (-1)) [(1, 5)] 1 = true := by decide +kernel
theorem test_slli : gives (.slli 3 1 63) [(1, 3)] 0x8000000000000000 = true := by decide +kernel
theorem test_srli : gives (.srli 3 1 63) [(1, -1)] 1 = true := by decide +kernel
theorem test_srai : gives (.srai 3 1 1) [(1, -2)] (-1) = true := by decide +kernel
theorem test_lhi : gives (.lhi 3 0xFFFFF) [(3, 5)] 0xFFFFF00000000000 = true := by decide +kernel
theorem test_addpc : gives (.addpc 3 (-0x204)) [] 0x3FFFC = true := by decide +kernel
theorem test_jal_links : runs [.jal 1 (-0x101)] (at' id) (fun t => t.me.pc == 0x3FFFE && t.me.xr 1 == 0x204) = true := by decide +kernel
theorem test_jalr_self : runs [.jalr 1 1 4] (at' (xs [(1, 0x3FFFA)])) (fun t => t.me.pc == 0x3FFFE && t.me.xr 1 == 0x204) = true := by decide +kernel
theorem test_jalr_odd : runs [.jalr 1 1 1] (at' (xs [(1, 0x400)])) (fun t => t.me.code == causeMisaligned && t.me.tval == 0x401 && t.me.xr 1 == 0x400) = true := by decide +kernel
theorem wit_jumps : (at' id).canIssue (.jalr 1 1 4) [.x 1, .x 1] = true ∧ (at' id).canIssue (.jal 1 4) [.x 1] = true ∧ (at' id).canIssue (.kj 4) [] = true ∧
    ((at' (xs [(1, 0x3FFFA)])).rx 1 + 4).toNat < 2 ^ 18 ∧ 2 ^ 18 ≤ ((at' (xs [(1, 0x3FFFA)])).rx 1 + 6).toNat := by decide +kernel
theorem test_beq_taken : runs [.beq 1 2 (-1)] (at' id) (fun t => t.me.pc == 0x1FE) = true := by decide +kernel
theorem test_bne_not_taken : runs [.bne 1 2 (-1)] (at' id) (fun t => t.me.pc == 0x204) = true := by decide +kernel
theorem test_blt : runs [.blt 1 2 8] (at' (xs [(1, -1)])) (fun t => t.me.pc == 0x210) = true := by decide +kernel
theorem test_bge : runs [.bge 1 2 8] (at' (xs [(1, -1)])) (fun t => t.me.pc == 0x204) = true := by decide +kernel
theorem test_bltn : runs [.bltn 1 2 8] (at' (xs [(1, -1)])) (fun t => t.me.pc == 0x204) = true := by decide +kernel
theorem test_bgen : runs [.bgen 1 2 8] (at' (xs [(1, -1)])) (fun t => t.me.pc == 0x210) = true := by decide +kernel
theorem test_kadd : runs [.kadd 3 1] (at' (xs [(3, 2), (1, 3)])) (fun t => t.me.xr 3 == 5 && t.me.pc == 0x202) = true := by decide +kernel
theorem test_kli : runs [.kli 3 (-1)] (at' id) (fun t => t.me.xr 3 == -1 && t.me.pc == 0x202) = true := by decide +kernel
theorem test_kj : runs [.kj (-1)] (at' id) (fun t => t.me.pc == 0x1FE) = true := by decide +kernel
theorem test_kbnez : runs [.kbnez 1 3] (at' (xs [(1, 1)])) (fun t => t.me.pc == 0x206) = true := by decide +kernel
theorem test_x0_discards : runs [.addi 0 1 5] (at' id) (fun t => t.me.xr 0 == 0 && t.me.pc == 0x204) = true := by decide +kernel

/-- What SharedRegisters assumes; a write is seen 16 ck later. -/
theorem wit_shared : (at' id).canIssue (.addiSDest 7 1 5) [.x 1] = true ∧ (at' id).canIssue (.addiSSrc 3 7 5) [.x 3] = true ∧
    (((at' id).myCore.sregs.get 7).pend.Pairwise (·.1 ≤ ·.1)) := by decide +kernel
theorem test_addi_s_later : runs [.addiSDest 7 1 5] (at' (xs [(1, 2)]))
    (fun t => (t.myCore.sregs.get 7).read (t.ck + 15) == 0 && (t.myCore.sregs.get 7).read (t.ck + 16) == 7) = true := by decide +kernel

/-- What the clauses of HardwareLoops assume. -/
theorem wit_loops : let s := at' id
    s.canIssue (.loopi 3 5) [] = true ∧ s.canIssue (.loop 1 5) [.x 1] = true ∧ (s.me.loops.get (s.me.level true)).v = false ∧
    let out := at' fun c => { c with pc := 0x3FFF8 }
    2 ^ 18 < out.me.pc.toNat + 4 + 2 * 3 ∧ out.canIssue (.loopi 3 3) [] = true := by decide +kernel
theorem test_loopi_enters : runs [.loopi 2 3] (at' id) (fun t => t.me.pc == 0x204 && (t.me.loops.get (t.me.level true)).count == 2 &&
    (t.me.loops.get (t.me.level true)).last == 0x20A) = true := by decide +kernel
theorem test_loop_skips : runs [.loop 1 3] (at' id) (fun t => t.me.pc == 0x20A) = true := by decide +kernel
theorem test_loop_too_long : runs [.loopi 2 3] (at' fun c => { c with pc := 0x3FFF8 }) (fun t => t.me.code == causeIllegal) = true := by decide +kernel
theorem test_loop_end : runs [.loopi 2 4, .addi 3 3 1, .addi 3 3 1, .addi 3 3 1, .addi 3 3 1] (at' id)
    (fun t => t.me.xr 3 == 4 && t.me.pc == 0x20C && !(t.me.loops.get (t.me.level true)).v) = true := by decide +kernel
/-- Two levels active, and a third is refused; an inner body that leaves the outer one is refused. -/
theorem test_loop_levels : runs [.loopi 2 9, .loopi 2 4, .loopi 2 1] (at' id) (fun t => t.me.code == causeIllegal && t.me.tepc == 0x208) = true ∧
    runs [.loopi 2 4, .loopi 2 4] (at' id) (fun t => t.me.code == causeIllegal) = true := by decide +kernel
def inLoop : Context := { Context.reset with pc := 0x206, loops := vset Context.reset.loops 0 ⟨2, true, false, 0x20A, 0x204⟩ }
theorem wit_loop_end : inLoop.level true = 0 ∧ inLoop.activeAt false = false ∧ inLoop.activeAt true = true ∧
    (inLoop.loops.get 0).start.toNat ≤ inLoop.pc.toNat ∧ inLoop.pc.toNat < (inLoop.loops.get 0).lastNat ∧
    inLoop.pc.toNat + 4 = (inLoop.loops.get 0).lastNat ∧ inLoop.pc.toNat + 2 < (inLoop.loops.get 0).lastNat ∧
    (inLoop.advance 4 .next).pc = 0x204 := by decide +kernel

/-! ## Lookup core: traps, control registers and system instructions -/

theorem wit_traps : (at' id).me.tact = false ∧ (at' id).canIssue (.svc 3) [] = true ∧ (at' id).canIssue .kbrk [] = true ∧
    (at' fun c => { c with tact := true }).me.tact = true ∧ (at' id).me.prv = true ∧ (at' id).canIssue .eret [] = true ∧
    (at' fun c => { c with prv := false }).me.prv = false := by decide +kernel
theorem test_svc : runs [.svc 3] (at' fun c => { c with prv := false })
    (fun t => t.me.pc == 0x100 && t.me.tepc == 0x204 && t.me.code == causeService && t.me.tval == 3 && t.me.prv && !t.me.ppv) = true := by decide +kernel
theorem test_brk : runs [.brk 3] (at' id) (fun t => t.me.pc == 0x100 && t.me.tepc == 0x200 && t.me.code == causeBreakpoint && t.me.ppv) = true := by decide +kernel
theorem test_double_trap : runs [.kbrk] (at' fun c => { c with tact := true })
    (fun t => decide (t.me.state = .stopped) && t.me.pc == 0x200 && t.me.stop.1 == causeBreakpoint) = true := by decide +kernel
theorem test_eret : runs [.eret] (at' fun c => { c with tepc := 0x400, ppv := false, tact := true })
    (fun t => t.me.pc == 0x400 && !t.me.prv && !t.me.tact) = true := by decide +kernel
theorem test_eret_in_user_mode : runs [.eret] (at' fun c => { c with prv := false }) (fun t => t.me.code == causePrivilege) = true := by decide +kernel
theorem wit_control : Csr.ofNum 0x100 = some .cstat ∧ Csr.ofNum 3 = none ∧ Csr.cstat.readOnly = false ∧ (at' id).me.prv = true ∧
    (at' id).canIssue (.csrw 0x100 1) [.x 1] = true ∧ ((at' id).csrPut .cstat 0x504).me.straddles 4 = false ∧
    (at' id).canIssue (.csrr 1 0x100) [.x 1] = true ∧ (∃ r, Csr.ofNum 1 = some r ∧ r.readOnly = true) :=
  ⟨by decide +kernel, by decide +kernel, by decide +kernel, by decide +kernel, by decide +kernel, by decide +kernel, by decide +kernel,
    .ctxid, by decide +kernel, by decide +kernel⟩
theorem test_csrw : runs [.csrw 0x100 1, .csrr 3 0x100] (at' (xs [(1, 0x502)])) (fun t => t.me.xr 3 == 0x503) = true := by decide +kernel
theorem test_csrs : runs [.csrs 0x104 1, .csrr 3 0x104] (at' (xs [(1, 0xF3)])) (fun t => t.me.xr 3 == 0xF3) = true := by decide +kernel
theorem test_csrc : runs [.csrc 0x100 1, .csrr 3 0x100] (at' (xs [(1, 0x800)])) (fun t => t.me.xr 3 == 0x201) = true := by decide +kernel
theorem test_csrr_ctxid : runs [.csrr 3 1] (at' id) (fun t => t.me.xr 3 == 0x00A000000000) = true := by decide +kernel
theorem test_csrw_read_only : runs [.csrw 1 1] (at' id) (fun t => t.me.code == causeIllegal) = true := by decide +kernel
theorem test_csrr_privilege : runs [.csrr 1 0x101] (at' fun c => { c with prv := false }) (fun t => t.me.code == causePrivilege) = true := by decide +kernel
/-! ## Lookup core: accesses -/

/-- An address of the local store of core 5, and one of SHM, and words that name them. -/
def ls : Nat := lsAddr 5 0x1000
def sh : Nat := shmBase + 0x400000
def lsW : Word := gaWord ls
def shW : Word := gaWord sh

/-- The test state with these x registers, and bytes at ls and at sh. -/
def mem' (l : List (Reg × Word)) (bytes : List Byte) : State := ((at' (xs l)).writeBytes ls bytes).writeBytes sh bytes

theorem wit_quiet : (mem' [(1, lsW)] [0xFE]).Quiet := by unfold State.Quiet; decide +kernel
theorem wit_serves (s : State) (n : Nat) (hf : s.failing = []) (hc : s.core = 5) : s.serves ls n ∧ s.serves sh n := by
  refine ⟨⟨rfl, ?_, ?_⟩, rfl, ?_, ?_⟩
  · rw [State.failedBeat, hf]; rfl
  · exact .inl hc.symm
  · rw [State.failedBeat, hf]; rfl
  · exact True.intro

def accessOf (i : Instr) (s : State) (p : State → Bool) : Bool := runs [i, .homeAct s.nextId, .plainAccessComplete s.nextId] s p

/-- What LoadsComplete assumes, of both bases; and of a misaligned address. -/
theorem wit_loads : let s := mem' [(1, lsW)] [0xFE]
    s.reaches (effAddr (s.rx 1) (s.rx 2) 0 1) 1 (loadKind .plain) ⟨true, false, false⟩ = some ls ∧
    s.canIssue (.ld ⟨.plain, .b, 0, 2, 1, 3⟩) [.x 1, .x 2, .x 3] = true ∧ s.loadError ls 1 false = none ∧
    (effAddr (s.rx 1) (s.rx 2) 0 1 + 1).toNat % 2 ≠ 0 := by decide +kernel
theorem test_ld_sign : accessOf (.ld ⟨.plain, .b, 0, 2, 1, 3⟩) (mem' [(1, lsW)] [0xFE]) (fun t => t.me.xr 3 == -2 && t.me.pc == 0x204) = true := by decide +kernel
theorem test_ldn_zero : accessOf (.ldn ⟨.acquire, .w, -1, 2, 1, 3⟩) (mem' [(1, shW + 4)] [1, 2, 3, 0xFE]) (fun t => t.me.xr 3 == 0xFE030201) = true := by decide +kernel
theorem test_ld_misaligned : runs [.ld ⟨.plain, .d, 0, 2, 1, 3⟩] (mem' [(1, lsW + 4)] []) (fun t => t.me.code == causeMisaligned && t.me.tval == lsW + 4) = true := by decide +kernel
/-- A capability to 64 bytes at ls, with every permission, in c1. -/
def capState : State :=
  let q : Quad := BitVec.ofNat 128 (0x1000 * 2 ^ 64 + 64 * 2 ^ 27 + 0x7F * 2 ^ 20 + 5 * 2 ^ 101 + 0xFFFF * 2 ^ 112)
  (at' fun c => (xs [(2, 16)] c).setCap 1 q true).writeBytes (ls + 24) [7, 0, 0, 0, 0, 0, 0, 0x80]
theorem wit_cap : capBase (capState.me.cap 1) = 0x1000 ∧ capLen (capState.me.cap 1) = 64 ∧
    capState.capReaches 1 (capState.rx 2) 1 8 (loadKind .plain) true false = some (ls + 24) ∧ capState.canIssue (.ldCap ⟨.plain, .d, 1, 2, 1, 3⟩) [.x 2, .x 3] = true ∧
    capState.capReaches 1 (capState.rx 2) 1 8 (storeKind .plain) false true = some (ls + 24) := by decide +kernel
theorem test_ldCap : accessOf (.ldCap ⟨.plain, .d, 1, 2, 1, 3⟩) capState (fun t => t.me.xr 3 == 0x8000000000000007) = true := by decide +kernel
theorem test_ldnCap : accessOf (.ldnCap ⟨.plain, .w, 2, 2, 1, 3⟩) capState (fun t => t.me.xr 3 == 7) = true := by decide +kernel
theorem test_stCap : accessOf (.stCap ⟨.release, .h, 4, 2, 1, 2⟩) capState (fun t => t.readNat (ls + 24) 8 == 0x8000000000000010) = true := by decide +kernel
theorem test_cap_bounds : runs [.ldCap ⟨.plain, .d, 6, 2, 1, 3⟩] capState (fun t => t.me.code == causeCapability) = true := by decide +kernel
theorem wit_compact : let s := mem' [(1, lsW)] [9]
    s.reaches (s.rx 1) 8 (.load true) ⟨true, false, false⟩ = some ls ∧ s.reaches (s.rx 1) 8 (.store true) ⟨false, true, false⟩ = some ls ∧
    s.canIssue (.kld 3 1) [.x 1, .x 3] = true ∧ s.canIssue (.kst 3 1) [.x 3, .x 1] = true := by decide +kernel
theorem test_kld : accessOf (.kld 3 1) (mem' [(1, lsW)] [9]) (fun t => t.me.xr 3 == 9 && t.me.pc == 0x202) = true := by decide +kernel
theorem test_kst : accessOf (.kst 1 1) (mem' [(1, lsW)] [9]) (fun t => t.readNat ls 8 == lsW.toNat) = true := by decide +kernel
theorem wit_stores : let s := mem' [(1, lsW), (3, -1)] []
    s.reaches (effAddr (s.rx 1) (s.rx 2) 1 2) 2 (storeKind .plain) ⟨false, true, false⟩ = some (ls + 2) ∧
    s.canIssue (.st ⟨.plain, .h, 1, 2, 1, 3⟩) [.x 1, .x 2, .x 3] = true := by decide +kernel
theorem test_st_half : accessOf (.st ⟨.plain, .h, 1, 2, 1, 3⟩) (mem' [(1, lsW), (3, -1)] []) (fun t => t.readNat ls 8 == 0xFFFF0000) = true := by decide +kernel
def quad (r : Reg) (q : Quad) : State := (at' fun c => (xs [(1, lsW)] c).setW r q).writeBytes ls [1, 2, 3]
theorem wit_quads : let s := quad 3 5
    s.reaches (effAddr (s.rx 1) (s.rx 2) 0 16) 16 (.load true) ⟨true, false, false⟩ = some ls ∧
    s.reaches (effAddr (s.rx 1) (s.rx 2) 0 16) 16 (.store true) ⟨false, true, false⟩ = some ls ∧
    s.canIssue (.ldq ⟨.plain, 0, 2, 1, 3⟩) [.x 1, .x 2, .w 3] = true := by decide +kernel
def quadOf (i : Instr) (s : State) (p : State → Bool) : Bool := runs [i, .homeAct s.nextId, .homeAct s.nextId, .plainAccessComplete s.nextId] s p
theorem test_ldq : quadOf (.ldq ⟨.plain, 0, 2, 1, 3⟩) (quad 3 5) (fun t => t.me.wr 3 == 0x30201 && t.me.pc == 0x204) = true := by decide +kernel
theorem test_stq : quadOf (.stq ⟨.plain, 0, 2, 1, 3⟩) (quad 3 (2 ^ 127)) (fun t => t.readNat ls 16 == 2 ^ 127) = true := by decide +kernel
/-- A 16-byte access of SHM is two acts. -/
theorem test_stq_shm : runs [.stq ⟨.plain, 0, 2, 1, 3⟩, .homeAct 0] (at' fun c => (xs [(1, shW)] c).setW 3 (2 ^ 127 + 1))
    (fun t => t.readNat sh 16 == 1) = true := by decide +kernel
theorem test_ldqCap : quadOf (.ldqCap ⟨.plain, 0, 0, 1, 3⟩) capState (fun t => t.me.wr 3 == 0) = true := by decide +kernel
theorem test_stqCap : quadOf (.stqCap ⟨.plain, 3, 0, 1, 3⟩) { capState with ck := 0 } (fun t => t.readByte (ls + 24) == 7) = true := by decide +kernel
theorem wit_quads_cap : capState.capReaches 1 0 0 16 (.load true) true false = some ls ∧ capState.capReaches 1 0 3 16 (.store true) false true = some (ls + 48) ∧
    capState.canIssue (.ldqCap ⟨.plain, 0, 0, 1, 3⟩) [.x 0, .w 3] = true ∧ capState.canIssue (.stqCap ⟨.plain, 3, 0, 1, 3⟩) [.x 0, .w 3] = true := by decide +kernel
theorem wit_sync : let s := mem' [(1, lsW), (3, 5)] [9]
    let e := s.setEmpty ls
    s.isFull ls = true ∧ e.isFull ls = false ∧ s.refusesUnbounded = false ∧ s.loadError ls 8 true = none ∧
    s.reaches (s.rx 1 + s.rx 2) 8 (.sync false) ⟨true, true, false⟩ = some ls ∧ s.reaches (s.rx 1 + s.rx 2) 8 (.sync false) ⟨true, false, false⟩ = some ls ∧
    s.reaches (s.rx 1 + s.rx 2) 8 (.sync true) ⟨false, true, false⟩ = some ls ∧
    s.canIssue (.ld ⟨.consume, .d, 10, 2, 1, 3⟩) [.x 1, .x 2, .x 3] = true ∧ e.canIssue (.st ⟨.fill, .d, 10, 2, 1, 3⟩) [.x 1, .x 2, .x 3] = true := by decide +kernel
theorem test_consume : accessOf (.ld ⟨.consume, .d, 10, 2, 1, 3⟩) (mem' [(1, lsW)] [9]) (fun t => t.me.xr 3 == 9 && !t.isFull (ls + 15) && t.isFull (ls + 16)) = true := by decide +kernel
theorem test_peek : accessOf (.ld ⟨.peek, .d, 10, 2, 1, 3⟩) (mem' [(1, lsW)] [9]) (fun t => t.me.xr 3 == 9 && t.isFull ls) = true := by decide +kernel
theorem test_fill : accessOf (.st ⟨.fill, .d, 10, 2, 1, 3⟩) ((mem' [(1, lsW), (3, 5)] [9]).setEmpty ls) (fun t => t.readNat ls 8 == 5 && t.isFull ls) = true := by decide +kernel
theorem test_consume_waits : runs [.ld ⟨.consume, .d, 10, 2, 1, 3⟩, .homeAct 0] ((mem' [(1, lsW)] [9]).setEmpty ls)
    (fun t => decide (t.me.state = .parked) && t.waiters.length == 1 && t.me.pc == 0x200) = true := by decide +kernel
theorem test_fill_waits : runs [.st ⟨.fill, .d, 10, 2, 1, 3⟩, .homeAct 0] (mem' [(1, shW)] [9])
    (fun t => decide (t.me.state = .parked) && t.waiters.length == 1 && t.readNat sh 8 == 9) = true := by decide +kernel
theorem wit_relaxed : let s := mem' [(1, lsW), (3, 5)] [0xFF]
    s.reaches (effAddr (s.rx 1) (s.rx 2) 0 1) 1 (.load false) ⟨true, false, false⟩ = some ls ∧ s.combinable none ls = false ∧
    s.reaches (effAddr (s.rx 1) (s.rx 2) 0 1) 1 (.store false) ⟨false, true, false⟩ = some ls ∧
    s.canIssue (.ld ⟨.relaxed, .b, 0, 2, 1, 3⟩) [.x 1, .x 2, .x 3] = true := by decide +kernel
theorem test_ld_relaxed : runs [.ld ⟨.relaxed, .b, 0, 2, 1, 3⟩] (mem' [(1, lsW)] [0xFF]) (fun t => t.me.pc == 0x204 && !t.me.present 3) = true ∧
    runs [.ld ⟨.relaxed, .b, 0, 2, 1, 3⟩, .homeAct 0, .relaxedResultReturn 0] (mem' [(1, lsW)] [0xFF]) (fun t => t.me.xr 3 == -1 && t.me.present 3) = true := by
  decide +kernel
theorem test_st_relaxed : runs [.st ⟨.relaxed, .b, 0, 2, 1, 3⟩, .homeAct 0, .relaxedStoreAck 0] (mem' [(1, lsW), (3, 5)] [0xFF])
    (fun t => t.readNat ls 2 == 5 && t.myCore.relaxed.isEmpty) = true := by decide +kernel
/-- What CombiningLineIsSent assumes but for the free choice of the buffer. -/
theorem wit_combining : let a := addrOf 6 0x400000008
    let s := { at' (xs [(1, gaWord a)]) with hbmReady := true }
    s.combinable none a = true ∧ s.ready a = true ∧ s.reaches (effAddr (s.rx 1) (s.rx 2) 0 8) 8 (.store false) ⟨false, true, false⟩ = some a ∧
    s.canIssue (.st ⟨.relaxed, .d, 0, 2, 1, 3⟩) [.x 1, .x 2, .x 3] = true ∧ (s.ctxAt 6 (s.coreAt 6).messageCtx).state = .free := by decide +kernel
theorem wit_atomics : let s := mem' [(1, shW), (2, 3)] [0xFF, 0xFF, 0xFF, 0xFF]
    s.reaches (s.rx 1) 4 .atomic ⟨true, true, false⟩ = some sh ∧ s.canIssue (.amoadd ⟨.acquire, false, 2, 1, 3⟩) [.x 1, .x 2, .x 3] = true := by decide +kernel
def amo (i : AmoOp → Instr) (wide : Bool) (b d : Word) (old : List Byte) (v : Nat) : Bool :=
  accessOf (i ⟨.plain, wide, 2, 1, 3⟩) (mem' [(1, shW), (2, b), (3, d)] old)
    fun t => t.me.xr 3 == BitVec.ofInt 64 (BitVec.ofNat (8 * amoBytes wide) (bytesToNat old)).toInt && t.readNat sh 8 == v
theorem test_amoadd : amo .amoadd false 3 0 [0xFF, 0xFF, 0xFF, 0xFF] 2 = true := by decide +kernel
theorem test_amomin : amo .amomin false 3 0 [0xFF, 0xFF, 0xFF, 0xFF] 0xFFFFFFFF = true := by decide +kernel
theorem test_amomax : amo .amomax false 3 0 [0xFF, 0xFF, 0xFF, 0xFF] 3 = true := by decide +kernel
theorem test_amoswap : amo .amoswap true (-1) 0 [1] 0xFFFFFFFFFFFFFFFF = true := by decide +kernel
theorem test_amoand : amo .amoand true 3 0 [5] 1 = true := by decide +kernel
theorem test_amoor : amo .amoor true 3 0 [5] 7 = true := by decide +kernel
theorem test_amoxor : amo .amoxor true 3 0 [5] 6 = true := by decide +kernel
/-- 1.0 + 2.0 = 3.0. -/
theorem test_amofadd : amo .amofadd false 0x40000000 0 [0, 0, 0x80, 0x3F] 0x40400000 = true := by decide +kernel
theorem test_amocas : amo .amocas true 9 5 [5] 9 = true ∧ amo .amocas true 9 6 [5] 5 = true := by decide +kernel
theorem wit_barrier : let s := mem' [(1, shW), (2, 3)] [3, 0, 0, 0, 7]
    s.reaches (s.rx 1) 8 (.shmOnly true) ⟨true, true, false⟩ = some sh ∧ s.canIssue (.arrive 3 1 2) [.x 1, .x 2, .x 3] = true ∧
    s.reaches (s.rx 1) 4 (.shmOnly false) ⟨true, false, false⟩ = some sh ∧ s.canIssue (.waitv .eq false 10 3 1 2) [.x 1, .x 2, .x 3] = true ∧
    barrierError (s.readNat (sh / 8 * 8) 8) = false ∧ waitHolds .eq 4 (s.rx 2) (BitVec.ofNat 64 (s.readNat sh 4)) = true ∧
    (s.rx 2).toNat < 2 ^ 33 := by decide +kernel
theorem test_arrive : accessOf (.arrive 3 1 2) (mem' [(1, shW), (2, 3)] [0xFE, 0xFF, 0xFF, 0xFF, 7])
    (fun t => t.me.xr 3 == 0x7FFFFFFFE && t.readNat sh 8 == 0x700000001) = true := by decide +kernel
theorem test_waitv : accessOf (.waitv .eq false 10 3 1 2) (mem' [(1, shW), (2, 3)] [3, 0, 0, 0, 7]) (fun t => t.me.xr 3 == 3 && t.readNat sh 8 == 0x700000003) = true := by
  decide +kernel

/-! ## Lookup core: workspaces, fences, scopes and capabilities -/

/-- The test state with its workspace at 0x8000. -/
def wsp' (l : List (Reg × Word)) : State := (at' fun c => xs l { c with wsp := 0x8000 }).writeBytes (lsAddr 5 0x8408) [0x11]
theorem wit_workspace : let s := wsp' [(1, 0x8400)]
    s.me.prv = true ∧ ¬(2 ^ 18 ≤ (s.rx 1).toNat ∨ (s.rx 1).toNat % 1024 ≠ 0 ∨ (s.myCore.m8 = true ∧ (s.rx 1).toNat % 2048 ≠ 0)) ∧
    s.canIssue (.csrw 0x101 1) [.x 1] = true ∧ (s.myCore.relaxed.all fun r => r.ctx != s.ctx.val) = true ∧
    (wsp' [(1, 0x40000)]).canIssue (.csrw 0x101 1) [.x 1] = true ∧
    ¬∃ k : Fin 16, k ≠ s.ctx ∧ k.val < s.myCore.nctx ∧ (s.ctxAt s.core k).state ≠ .free ∧
      (s.ctxAt s.core k).wsp.toNat < (s.rx 1).toNat + 1024 ∧ (s.rx 1).toNat < (s.ctxAt s.core k).wsp.toNat + 1024 := by decide +kernel
theorem test_wsp_switch : runs [.csrw 0x101 1] (wsp' [(1, 0x8400)]) (fun t => t.me.wsp == 0x8400 && t.me.xr 1 == 0x11 && t.me.pc == 0 &&
    t.readNat (lsAddr 5 0x8008) 8 == 0x8400 && t.readNat (lsAddr 5 0x8300) 8 / 2 * 2 == 0x204) = true := by decide +kernel
theorem test_wsp_misaligned : runs [.csrw 0x101 1] (wsp' [(1, 0x8200)]) (fun t => t.me.code == causeMisaligned && t.me.tval == 0x8200) = true := by decide +kernel
def otherBound : State := (wsp' [(1, 0x8400)]).setCtx 5 3 { Context.reset with state := .parked, wsp := 0x8400 }
theorem test_wsp_overlap : runs [.csrw 0x101 1] otherBound (fun t => t.me.code == causeProtection) = true ∧
    (∃ k : Fin 16, k ≠ otherBound.ctx ∧ k.val < otherBound.myCore.nctx ∧ (otherBound.ctxAt otherBound.core k).state ≠ .free ∧
      (otherBound.ctxAt otherBound.core k).wsp.toNat < (otherBound.rx 1).toNat + 1024 ∧
      (otherBound.rx 1).toNat < (otherBound.ctxAt otherBound.core k).wsp.toNat + 1024) := by decide +kernel
theorem wit_fences : let s := at' id
    s.canIssue (.fence .device) [] = true ∧ (s.myCore.lines.filter (·.ctx == s.ctx.val)) = [] ∧ s.fenceDone s.core s.ctx.val .device = true ∧
    s.failedBeat (scopeAddr 5) 256 = none ∧ s.myCore.ownStoresDone s.core s.ctx.val = true ∧ s.canIssue .ifence [] = true := by decide +kernel
/-- A core with a relaxed store on its way. -/
def storing : State := (runs1 [.st ⟨.relaxed, .b, 0, 2, 1, 3⟩] (mem' [(1, shW), (3, 5)] []))
where runs1 : List Instr → State → State
  | [], s => s
  | i :: is, s => match exec i s with
    | .next t => runs1 is t
    | _ => s
theorem wit_fence_waits : storing.fenceDone storing.core storing.ctx.val .device = false ∧ storing.canIssue (.fence .device) [] = true ∧
    (storing.myCore.lines.filter (·.ctx == storing.ctx.val)) = [] := by decide +kernel
theorem test_fence_goes_on : runs [.fence .device] (at' id) (fun t => t.me.pc == 0x204) = true := by decide +kernel
theorem test_fence_parks : runs [.fence .device] storing (fun t => decide (t.me.state = .parked) && t.me.pc == 0x204) = true := by decide +kernel
theorem test_fence_scope : runs [.fenceScope 5] (at' id) (fun t => t.me.pc == 0x204) = true := by decide +kernel
theorem test_ifence : runs [.ifence] (at' fun c => { c with window := [(0x204, 1)] }) (fun t => t.me.window.isEmpty && t.me.pc == 0x204) = true := by decide +kernel
theorem wit_scopes : (at' (xs [(1, 63)])).canIssue (.sjoin 3 1) [.x 1, .x 3] = true ∧ ((at' (xs [(1, 63)])).rx 1).toNat < 64 ∧
    64 ≤ ((at' (xs [(1, 64)])).rx 1).toNat ∧ (at' (xs [(1, 63)])).ready (scopeAddr 63) = true ∧ storageOf (scopeAddr 63) = .shm := by decide +kernel
theorem test_sjoin : accessOf (.sjoin 3 1) ((at' (xs [(1, 63)])).writeBytes (scopeAddr 63) [1]) (fun t => t.me.xr 3 == 2 && t.readNat (scopeAddr 63) 8 == 0x21) = true := by decide +kernel
theorem test_sleave : accessOf (.sleave 3 1) ((at' (xs [(1, 63)])).writeBytes (scopeAddr 63) [0x21]) (fun t => t.me.xr 3 == 1 && t.readNat (scopeAddr 63) 8 == 1) = true := by decide +kernel
theorem test_sjoin_range : runs [.sjoin 3 1] (at' (xs [(1, 64)])) (fun t => t.me.code == causeIllegal) = true := by decide +kernel
def caps (l : List (Reg × Word)) : State :=
  { capState with cores := ((at' fun c => (xs l c).setCap 1 (capState.me.cap 1) true)).cores }
theorem wit_capabilities : let s := caps [(4, 16 + (3 <<< 37)), (5, 32)]
    s.canIssue (.cmk 2 1 4) [.x 4, .x 5] = true ∧ (s.rx 4).toNat < 2 ^ 44 ∧ (s.rx 5).toNat < 2 ^ 37 ∧ bitOf (s.reg 0x218).toNat 2 = false ∧
    2 ^ 37 ≤ ((caps [(5, 1 <<< 37)]).rx 5).toNat ∧ s.canIssue (.cinfo 3 1 0) ([3].map .x) = true := by decide +kernel
theorem test_cmk : runs [.cmk 2 1 4] (caps [(4, 16 + (3 <<< 37)), (5, 32)]) (fun t => capBase (t.me.cap 2) == 0x1010 && capLen (t.me.cap 2) == 32 &&
    capPerm (t.me.cap 2) == 3 && t.me.ctag.getLsbD 2) = true := by decide +kernel
theorem test_cmk_widens : runs [.cmk 2 1 4] (caps [(4, 16), (5, 49)]) (fun t => !t.me.ctag.getLsbD 2) = true := by decide +kernel
theorem test_cinfo : runs [.cinfo 3 1 7] (caps []) (fun t => t.me.xr 3 == lsW) = true := by decide +kernel
def capMem : State := { caps [(4, shW)] with tags := [sh], mem := [(sh, 3)] }
theorem wit_cap_memory : capMem.reaches (capMem.rx 4 + capMem.rx 0) 16 (.shmOnly false) ⟨true, true, false⟩ = some sh ∧
    capMem.reaches (capMem.rx 4 + capMem.rx 0) 16 (.shmOnly true) ⟨true, true, false⟩ = some sh ∧
    capMem.canIssue (.cld 2 4 0) [.x 4, .x 0] = true ∧ capMem.canIssue (.cst 1 4 0) [.x 4, .x 0] = true := by decide +kernel
theorem test_cld : accessOf (.cld 2 4 0) capMem (fun t => t.me.cap 2 == 3 && t.me.ctag.getLsbD 2) = true := by decide +kernel
theorem test_cst : accessOf (.cst 1 4 0) { capMem with tags := [] } (fun t => t.tagAt sh && t.readNat sh 16 == (capMem.me.cap 1).toNat) = true := by decide +kernel
/-! ## Lookup core: messages and work -/

def id6 : Word := gaWord (addrOf 6 0)

/-- The test state, and context 2 of core 6 running with x7 and w1 absent. -/
def twoCores (l : List (Reg × Word)) : State :=
  (at' (xs l)).setCtx 6 2 (({ Context.reset with state := .run }).absent 7 |>.absent 33)

def messageOf (i e : Instr) (s : State) (p : State → Bool) : Bool := runs [i, e, .contextWake 5 0] s p

theorem wit_register_messages : let s := twoCores [(1, id6), (2, 9)]
    s.messages = [] ∧ s.answers = [] ∧ s.canIssue (.sendr 2 7 3 1 2) [.x 1, .x 2, .x 3] = true ∧ s.canIssue (.sendr 2 33 3 1 2) [.x 1, .x 2, .x 3, .x 3] = true ∧
    s.devOf (s.rx 1) = none ∧ s.checkId s.myLaunch (s.rx 1) false = none ∧ s.moving 6 2 = false ∧ (s.ctxAt 6 2).fwd = none ∧
    s.acceptsRegister 6 2 7 = true ∧ s.acceptsRegister 6 2 33 = true ∧ s.acceptsRegister 6 2 8 = false ∧ s.me.tact = false ∧ s.me.pending = [] := by decide +kernel
theorem test_sendr : messageOf (.sendr 2 7 3 1 2) (.registerMessage 0) (twoCores [(1, id6), (2, 9)])
    (fun t => (t.ctxAt 6 2).xr 7 == 9 && (t.ctxAt 6 2).present 7 && t.me.xr 3 == 0 && t.me.pc == 0x204) = true := by decide +kernel
theorem test_sendr_wide : messageOf (.sendr 2 33 3 1 4) (.registerMessage 0) (twoCores [(1, id6), (4, 9), (5, 1)])
    (fun t => (t.ctxAt 6 2).wr 1 == 2 ^ 64 + 9 && (t.ctxAt 6 2).present 33) = true := by decide +kernel
theorem test_sendr_refused : messageOf (.sendr 2 8 3 1 2) (.registerMessage 0) (twoCores [(1, id6), (2, 9)])
    (fun t => (t.ctxAt 6 2).xr 8 == 0 && t.me.xr 3 == 1) = true := by decide +kernel
theorem test_sendr_register : messageOf (.sendr 2 8 0 1 2) (.registerMessage 0) (twoCores [(1, id6), (2, 9)])
    (fun t => t.me.code == causeRegister && t.me.tval == id6 + 0x82 && t.me.pc == 0x100) = true := by decide +kernel

theorem wit_active_messages : let s := twoCores [(1, id6), (2, 9)]
    s.canIssue (.senda 3 3 1 2) [.x 1, .x 2, .x 3] = true ∧ (s.coreAt 6).msgq.length < 64 := by decide +kernel
theorem test_senda : messageOf (.senda 3 3 1 2) (.activeMessage 0) (twoCores [(1, id6), (2, 9)])
    (fun t => ((t.coreAt 6).msgq.map fun e => (e.hidx, e.arg, e.source)) == [(3, 9, BitVec.ofNat 64 (5 * 2 ^ 37))] && t.me.xr 3 == 0) = true := by decide +kernel
def full6 : State :=
  let s := twoCores [(1, id6), (2, 9)]
  s.setCore 6 { s.coreAt 6 with msgq := List.replicate 64 ⟨0, 0, 0⟩ }
theorem test_senda_full : 64 ≤ (full6.coreAt 6).msgq.length ∧
    messageOf (.senda 3 3 1 2) (.activeMessage 0) full6 (fun t => (t.coreAt 6).msgq.length == 64 && t.me.xr 3 == 1) = true := by decide +kernel
/-- The queue of core 6 holds two entries; the handler of the second is valid. -/
def queued : State :=
  let s := (at' id).writeBytes (lsAddr 6 (0x3F800 + 8 * 4)) [0x01, 0x40]
  let c := { s.coreAt 6 with msgq := [⟨3, 1, 2⟩, ⟨4, 5, 6⟩] }
  s.setCore 6 (c.setCtx 15 { Context.reset with state := .parked, park := .queue, wsp := 0x3C00 })
theorem wit_select : let c := queued.coreAt 6
    let ready (e : QueueEntry) : Bool := queued.handlerEntry 6 e.hidx % 2 == 1 && !(c.holdBits queued.ck).getLsbD e.hidx.toNat
    c.handling = false ∧ c.messageCtx = 15 ∧ (queued.ctxAt 6 15).state = .parked ∧ (queued.ctxAt 6 15).park = .queue ∧
    c.msgq = [⟨3, 1, 2⟩] ++ ⟨4, 5, 6⟩ :: [] ∧ ready ⟨3, 1, 2⟩ = false ∧ ready ⟨4, 5, 6⟩ = true := by decide +kernel
theorem test_handler_select : runs [.handlerSelect 6] queued (fun t => (t.coreAt 6).msgq.length == 1 && (t.ctxAt 6 15).pc == 0x4000 &&
    (t.ctxAt 6 15).xr 10 == 5 && (t.ctxAt 6 15).xr 11 == 6 && (t.ctxAt 6 15).xr 12 == 4) = true := by decide +kernel
theorem wit_hold : (at' id).myCore.holdAt ≤ (at' id).ck ∧ (at' id).canIssue (.hld 3) [] = true ∧ (at' id).canIssue (.unhld 3) [] = true := by decide +kernel
theorem test_hld : runs [.hld 3] (at' id) (fun t => !(t.myCore.holdBits t.ck).getLsbD 3 && (t.myCore.holdBits (t.ck + 1)).getLsbD 3) = true := by decide +kernel
theorem test_unhld : runs [.hld 3, .unhld 3] (at' id) (fun t => !(t.myCore.holdBits (t.ck + 1)).getLsbD 3) = true := by decide +kernel
def handler : State := { (at' id).setCtx 5 15 { Context.reset with state := .run } with ctx := 15 }
theorem wit_handler : handler.ctx = handler.myCore.messageCtx ∧ handler.canIssue (.wait 0 0) [] = true := by decide +kernel
theorem test_handler_ends : runs [.wait 0 0] handler (fun t => decide (t.me.state = .parked ∧ t.me.park = .queue)) = true := by decide +kernel

/-- A user context of core 5 runs. -/
def user (o : Origin) : State := { (at' id).setCtx 5 3 { Context.reset with state := .run, origin := o } with ctx := 3 }
theorem wit_ends : (at' id).Quiet ∧ (user .started).Quiet ∧ (user .spawned).Quiet := by
  refine ⟨?_, ?_, ?_⟩ <;> unfold State.Quiet <;> decide +kernel
theorem wit_ends_each : (at' id).ctx = 0 ∧ (at' id).myCore.firstBusy = none ∧ (at' id).myCore.conts = [] ∧
    (user .started).myCore.isUser (user .started).ctx.val = true ∧ (user .started).me.origin = .started ∧
    (user .spawned).me.origin ≠ .started ∧ (at' id).canIssue (.wait 3 0) [.x 3] = true ∧
    (at' (xs [(1, 0x300000008)])).canIssue (.wait 0 1) (maskRegs ((at' (xs [(1, 0x300000008)])).rx 1)) = true ∧
    ∀ x ∈ (at' id).cores, ∀ j, (x.2.ctxs.get j).fwd = none := by decide +kernel
theorem test_head_ends : runs [.wait 0 0] (at' id) (fun t => decide (t.me.state = .done)) = true := by decide +kernel
theorem test_user_ends : runs [.wait 0 0] (user .started) (fun t => decide (t.me.state = .done)) = true ∧
    runs [.wait 0 0] (user .spawned) (fun t => decide (t.me.state = .free)) = true := by decide +kernel
theorem test_wait_arms : runs [.wait 3 0] (at' id) (fun t => !t.me.present 3 && t.me.pc == 0x204) = true ∧
    runs [.wait 0 1] (at' (xs [(1, 0x300000008)])) (fun t => !t.me.present 3 && !t.me.present 32 && !t.me.present 33 && t.me.present 4) = true := by decide +kernel

theorem wit_spawn : let s := at' (xs [(1, id6), (2, 0x3FFFE), (10, 7)])
    s.canIssue (.spawn 3 1 2) [.x 1, .x 2, .x 3, .x 10, .x 11, .x 12, .x 13] = true ∧ (s.coreAt 6).firstEligible = some 1 ∧ (s.coreAt 6).conts = [] ∧
    (s.rx 2).toNat < 2 ^ 18 ∧ (s.rx 2).toNat % 2 = 0 ∧ s.checkId s.myLaunch (s.rx 1) false = none ∧
    s.canIssue (.fork 3 2) [.x 2, .x 3, .x 10, .x 11, .x 12, .x 13] = true ∧ s.myCore.deque.length < 64 ∧ s.canIssue (.steal 3) [.x 3] = true := by decide +kernel
theorem test_spawn : messageOf (.spawn 3 1 2) (.spawnRequest 0) (at' (xs [(1, id6), (2, 0x400), (10, 7)]))
    (fun t => decide ((t.ctxAt 6 1).state = .run) && (t.ctxAt 6 1).pc == 0x400 && (t.ctxAt 6 1).xr 10 == 7 && t.me.xr 3 == 0 && t.me.pc == 0x204) = true := by
  decide +kernel
def busy6 : State :=
  let s := at' (xs [(1, id6), (2, 0x400), (4, 3)])
  let c := (List.finRange 16).foldl (fun c k => c.setCtx k { Context.reset with state := .run }) (s.coreAt 6)
  s.setCore 6 c
theorem test_spawn_inline : (busy6.coreAt 6).firstEligible = none ∧
    messageOf (.spawn 3 1 2) (.spawnRequest 0) busy6 (fun t => t.me.pc == 0x400 && t.me.xr 3 == 0x204) = true := by decide +kernel
theorem test_fork : runs [.fork 3 2] (at' (xs [(2, 0x400), (10, 7)])) (fun t => (t.myCore.deque.map fun x => (x.pc, x.args)) == [(0x400, [7, 0, 0, 0])] &&
    t.me.xr 3 == 0) = true := by decide +kernel
def fullDeque : State := let s := at' (xs [(2, 0x400)]); s.setCore 5 { s.myCore with deque := List.replicate 64 ⟨1, [1, 2, 3, 4], none⟩ }
theorem test_fork_full : 64 ≤ fullDeque.myCore.deque.length ∧ runs [.fork 3 2] fullDeque (fun t => t.me.xr 3 == 1) = true := by decide +kernel
def oneTask : State := let s := at' id; s.setCore 5 { s.myCore with deque := [⟨0x400, [1, 2, 3, 4], none⟩] }
theorem wit_steal : oneTask.myCore.firstEligible = some 1 ∧ oneTask.myCore.deque = ⟨0x400, [1, 2, 3, 4], none⟩ :: [] ∧
    (none : Option Nat) = oneTask.myCore.launch ∧ oneTask.canIssue (.steal 3) [.x 3] = true := by decide +kernel
theorem test_steal : runs [.steal 3] oneTask (fun t => t.me.xr 3 == 1 && (t.ctxAt 5 1).xr 13 == 4 && (t.ctxAt 5 1).pc == 0x400) = true := by decide +kernel
def busy5 : State :=
  let s := at' (xs [(1, 3), (2, 0x400)])
  let c := (List.finRange 16).foldl (fun c k => if k = 0 then c else c.setCtx k { Context.reset with state := .run }) s.myCore
  s.setCore 5 c
theorem test_steal_none : busy5.myCore.firstEligible = none ∧ busy5.canIssue (.steal 3) [.x 3] = true ∧
    runs [.steal 3] busy5 (fun t => t.me.xr 3 == -1) = true := by decide +kernel
theorem wit_start : let s := at' (xs [(1, 13), (2, 0x400), (10, 7)])
    s.ctx = 0 ∧ s.myCore.isUser (s.rx 1).toNat = true ∧ s.myCore.eligible (ctxIdx (s.rx 1).toNat) = true ∧
    s.canIssue (.start 3 1 2) [.x 1, .x 2, .x 3, .x 10, .x 11, .x 12, .x 13] = true ∧ busy5.myCore.eligible (ctxIdx (busy5.rx 1).toNat) = false := by decide +kernel
theorem test_start : runs [.start 3 1 2] (at' (xs [(1, 13), (2, 0x400), (10, 7)]))
    (fun t => (t.ctxAt 5 13).pc == 0x400 && (t.ctxAt 5 13).xr 10 == 7 && t.me.xr 3 == 0) = true ∧ runs [.start 3 1 2] busy5 (fun t => t.me.xr 3 == 1) = true := by
  decide +kernel
def done5 : State := (at' (xs [(1, 3)])).setCtx 5 3 { xs [(10, 77)] Context.reset with state := .done }
theorem wit_reap : done5.myCore.isUser (done5.rx 1).toNat = true ∧ done5.myCore.conts = [] ∧ done5.canIssue (.reap 4 1) [.x 1, .x 4] = true ∧
    (done5.ctxAt 5 3).state = .done ∧ ((at' (xs [(1, 3)])).ctxAt 5 3).state = .free := by decide +kernel
theorem test_reap : runs [.reap 4 1] done5 (fun t => decide ((t.ctxAt 5 3).state = .free) && t.me.xr 4 == 77) = true ∧
    runs [.reap 4 1] (at' (xs [(1, 3)])) (fun t => t.me.xr 4 == -1) = true := by decide +kernel
/-- A join record at sh: its count, the identifier of core 6, an entry PC and an argument. -/
def joinRec (n : Nat) : State := (at' (xs [(1, shW)])).writeBytes sh (natToBytes 8 n ++ natToBytes 8 id6.toNat ++ natToBytes 8 0x400 ++ natToBytes 8 5)
theorem wit_join : (joinRec 1).canIssue (.join 1) [.x 1] = true ∧ (joinRec 1).reaches ((joinRec 1).rx 1) 32 (.shmOnly true) ⟨true, true, false⟩ = some sh ∧
    (joinRec 1).readNat sh 8 = 1 ∧ (joinRec 2).readNat sh 8 ≠ 1 ∧ (joinRec 1).checkId (joinRec 1).myLaunch id6 false = none ∧
    ((joinRec 1).coreAt 6).firstEligible = some 1 := by decide +kernel
theorem test_join : accessOf (.join 1) (joinRec 2) (fun t => t.readNat sh 8 == 1 && t.messages.isEmpty) = true := by decide +kernel
theorem test_join_last : runs [.join 1, .homeAct 0, .plainAccessComplete 0, .joinContinuation 1] (joinRec 1)
    (fun t => t.readNat sh 8 == 0 && (t.ctxAt 6 1).pc == 0x400 && (t.ctxAt 6 1).xr 10 == 5 && t.me.pc == 0x204) = true := by decide +kernel

/-! ## Lookup core: the ends of waits, supervisor operations and translation -/

def waiting (limit : Nat) (f : Context → Context) : State :=
  { State.reset.setCtx 5 2 (f { Context.reset with state := .parked, park := .presence [7], deadline := some limit, pc := 0x200, tvec := 0x100 }) with ck := 100 }
theorem wit_waits : let s := waiting 100 (·.absent 7)
    let c := s.ctxAt 5 2
    c.state = .parked ∧ c.park = .presence [7] ∧ c.failed = [] ∧ c.present 7 = false ∧ c.deadline = some 100 ∧ 100 ≤ s.ck ∧ c.tact = false ∧
    ((waiting 100 id).ctxAt 5 2).present 7 = true := by decide +kernel
theorem test_presence_wake : runs [.contextWake 5 2] (waiting 200 id) (fun t => decide ((t.ctxAt 5 2).state = .run) && (t.ctxAt 5 2).readyAt == 101) = true := by decide +kernel
theorem test_presence_stall : runs [.presenceWaitStall 5 2] (waiting 100 (·.absent 7))
    (fun t => (t.ctxAt 5 2).code == causeStall && (t.ctxAt 5 2).tval == 7 && (t.ctxAt 5 2).pc == 0x100) = true := by decide +kernel
def consuming : State := { (storing.runs1 [.ld ⟨.consume, .d, 0, 2, 1, 3⟩, .homeAct 0] ((mem' [(1, lsW + 8)] [9]).setEmpty ls)) with ck := 64 }
theorem wit_drop : consuming.waiters.length = 1 ∧ consuming.requests = [] ∧ consuming.me.state = .parked ∧ consuming.me.park = .reply 0 ∧
    (consuming.waiters.map fun r => (r.id, r.deadline, r.relaxed)) = [(0, some 64, false)] ∧ (consuming.waiters.map (·.src)) = [.ctx 5 0] := by decide +kernel
theorem test_sync_drop : runs [.syncRequestDrop 0, .plainAccessComplete 0] consuming (fun t => t.waiters.isEmpty && t.me.code == causeStall && t.me.tval == lsW) = true := by
  decide +kernel

def head (l : List (Reg × Word)) : State := at' fun c => xs l { c with wsp := 0x8000 }
theorem wit_repart : let s := head []
    let p := s.park (.repart true) (.repart true) (limitOf s.ck s.me.lwd) (parkRecord 5 s.me.lwd false 0)
    s.ctx = 0 ∧ s.me.prv = true ∧ s.canIssue (.repart true) [] = true ∧ p.quiescent s.core = true ∧ s.myCore.m8 ≠ true ∧ s.me.wsp.toNat % 2048 = 0 ∧
    s.me.wsp.toNat + 16384 ≤ 2 ^ 18 ∧ (user .spawned).ctx ≠ 0 ∧ (at' fun c => { c with prv := false }).me.prv = false ∧
    (s.park (.repart false) (.repart false) (limitOf s.ck s.me.lwd) (parkRecord 5 s.me.lwd false 0)).quiescent s.core = true := by decide +kernel
theorem test_repart : runs [.repart true] (head []) (fun t => t.myCore.m8 && t.me.pc == 0x204 && (t.ctxAt 5 7).wsp == 0xB800 &&
    t.readNat (lsAddr 5 (0xB800 + 0x328)) 8 == 0x100) = true := by decide +kernel
theorem test_repart_same : runs [.repart false] (head []) (fun t => !t.myCore.m8 && t.me.pc == 0x204) = true := by decide +kernel
def tlbs : State := let s := at' (xs [(1, 0x40000)]); s.setCore 5 { s.myCore with tlb := [⟨0x40000, 18, 0, false, true, true, true⟩, ⟨0x80000, 18, 0, false, true, true, true⟩] }
theorem wit_tlbinv : tlbs.core < 1008 ∧ tlbs.me.prv = true ∧ tlbs.canIssue (.tlbinv 0 1) [.x 1] = true := by decide +kernel
theorem test_tlbinv : runs [.tlbinv 0 1] tlbs (fun t => decide (t.me.state = .parked ∧ t.me.deadline = none) && t.me.pc == 0x200) = true := by decide +kernel
def mover : State :=
  (at' (xs [(1, id6 + 2), (3, gaWord (addrOf 7 0))])).setCtx 6 2 (xs [(9, 99)] { Context.reset with state := .run, pc := 0x300 })
theorem wit_migrate : let s := mover
    s.me.prv = true ∧ s.canIssue (.migrate 3 1) [.x 1, .x 3] = true ∧ s.rx 3 ≠ BitVec.allOnes 64 ∧ s.devOf (s.rx 1) = none ∧ s.devOf (s.rx 3) = none ∧
    s.checkId s.myLaunch (s.rx 1) true = none ∧ s.checkId s.myLaunch (s.rx 3) false = none ∧ unitOfId (s.rx 1) = 6 ∧ (s.rx 1).toNat % 16 = 2 ∧
    unitOfId (s.rx 3) = 7 ∧ (s.coreAt 6).isUser 2 = true ∧ (s.ctxAt 6 2).state = .run ∧ (s.ctxAt 6 2).fwd = none ∧ s.moving 6 2 = false ∧
    s.paused (s.coreAt 6).launch = false ∧ s.settled 6 2 = true ∧ s.suitable 6 2 7 = true ∧ (s.coreAt 7).firstEligible = some 1 := by decide +kernel
theorem test_migrate : runs [.migrate 3 1] mover (fun t => t.me.xr 3 == BitVec.ofNat 64 (7 * 2 ^ 37 + 1) && (t.ctxAt 7 1).xr 9 == 99 && (t.ctxAt 7 1).pc == 0x300 &&
    decide ((t.ctxAt 6 2).state = .free)) = true := by decide +kernel
def asking : State :=
  let c : Context := { Context.reset with state := .parked, park := .migrate 3 6 2 none (some true), prv := true, pc := 0x200, ir := instrWord (.migrate 3 1) }
  ((State.reset.setCtx 5 0 c).setCtx 6 2 { Context.reset with state := .run }).setReg 0x190 (-1)
theorem wit_migrate_host : let c := asking.ctxAt 5 0
    c.state = .parked ∧ c.park = .migrate 3 6 2 none (some true) ∧ asking.reg 0x190 = BitVec.allOnes 64 ∧ (asking.ctxAt 6 2).state = .run ∧
    c.straddles (wordLen c.ir) = false ∧ (6 ≠ 5 ∨ (2 : Fin 16) ≠ 0) ∧
    ∀ x ∈ asking.cores, ∀ m, (match (x.2.ctxs.get m).park with | .migrate .. => true | _ => false) = true → x = (5, asking.coreAt 5) ∧ m = 0 := by decide +kernel
theorem test_migration_response : runs [.migrationResponse (asking.coreId 6 2)] asking (fun t => (t.ctxAt 5 0).xr 3 == -1 && decide ((t.ctxAt 5 0).state = .run)) = true := by
  decide +kernel

/-- Context 3 of core 6 waits for a walk, whose entry of level n at sh is e. -/
def walking (level e : Nat) : State :=
  let w : Walk := ⟨9, 0, BitVec.ofNat 64 (0xFFFF * 2 ^ 48 + sh + 1), 0, 0, true, false, false, false, level, sh, [.ctx 6 3]⟩
  { (State.reset.setCtx 6 3 { Context.reset with state := .parked, park := .walk 0x1234, tvec := 0x100, pc := 0x200 }).writeBytes sh (natToBytes 8 e) with walks := [w] }
theorem wit_walks : let s := walking 3 (2 ^ 18 * 7 + 0x1F)
    (s.walks.map fun w => (w.started, w.asked, w.assisted, w.who)) = [(true, false, false, [.ctx 6 3])] ∧ (s.walks.map (·.entryAddr)) = [sh] ∧
    s.ready sh = true ∧ s.failedBeat sh 8 = none ∧ storageOf sh = .shm ∧ tableHome sh = true ∧ s.requests = [] ∧ s.replies = [] ∧ s.beats = [] ∧
    (s.ctxAt 6 3).state = .parked ∧ (s.ctxAt 6 3).park = .walk 0x1234 ∧ (s.walks.map (·.rootOk)) = [true] ∧
    (s.walks.map (·.take (2 ^ 18 * 7 + 0x1F))) = [.leaf ⟨0, 18, 7 * 2 ^ 18, false, true, true, true⟩] ∧
    (s.walks.map (·.take 0)) = [.fault] ∧ ((walking 0 0).walks.map (·.take (sh + 0x1001))) = [.next (sh + 0x1000)] ∧
    (s.ctxAt 6 3).tact = false := by decide +kernel
def walkMoves : List Instr := [.pageWalk 9, .homeAct 0, .pageWalk 9]
theorem test_walk_down : runs walkMoves (walking 0 (sh + 0x1001)) (fun t => (t.walks.map fun w => (w.level, w.table)) == [(1, sh + 0x1000)]) = true := by
  decide +kernel
/-- A root whose E is 0 lets no walk begin. -/
def rootless : State := { walking 0 0 with walks := (walking 0 0).walks.map fun w => { w with root := 0 } }
theorem test_walk_without_root : (rootless.walks.map (·.rootOk)) = [false] ∧
    runs [.pageWalk 9] rootless (fun t => (t.ctxAt 6 3).code == causeTranslation && t.walks.isEmpty) = true := by decide +kernel
theorem test_walk_leaf : runs walkMoves (walking 3 (2 ^ 18 * 7 + 0x1F)) (fun t => (t.coreAt 6).tlb.length == 1 && decide ((t.ctxAt 6 3).state = .run)) = true := by decide +kernel
theorem test_walk_fault : runs walkMoves (walking 3 0) (fun t => (t.ctxAt 6 3).code == causeTranslation && (t.ctxAt 6 3).tval == 0x1234) = true := by decide +kernel
def hostWalk : State :=
  let s := walking 3 0
  { s with walks := s.walks.map fun w => { w with asked := true, assisted := true, cluster := 2, tag := 4 }, regs := insertAt 0x180 (2 ^ 18 * 7 + 0x1F) s.regs }
theorem wit_translation_response : (hostWalk.walks.map fun w => (w.asked, w.started, w.cluster, w.tag)) = [(true, true, 2, 4)] ∧
    (leafOf (hostWalk.reg 0x180).toNat (135 % 4) 0).isSome = true := by decide +kernel
def voided : State := { hostWalk with walks := hostWalk.walks.map fun w => { w with stale := true } }
theorem test_translation_void : (voided.walks.map (·.stale)) = [true] ∧
    runs [.translationResponse (2 * 64 + 7)] voided (fun t => (t.walks.map fun w => (w.asked, w.stale)) == [(false, false)] && (t.coreAt 6).tlb.isEmpty) = true := by
  decide +kernel
theorem test_translation_response : runs [.translationResponse (2 * 64 + 7)] hostWalk
    (fun t => ((t.coreAt 6).tlb.map (·.frame)) == [7 * 2 ^ 18] && decide ((t.ctxAt 6 3).state = .run)) = true := by
  decide +kernel

/-! ## Lookup core: packed operations -/

def packs (l : List (Reg × Quad)) : State := at' (ws l)
theorem wit_packed : (packs []).canIssue (.padd ⟨.fp32, 0, 2, 1, 3⟩) [.w 3, .w 1, .w 2] = true ∧ (packs []).canIssue (.pabs ⟨.fp32, 0, 0, 1, 3⟩) [.w 3, .w 1] = true ∧
    (packs []).canIssue (.pcvt ⟨.fp32, 0, 8, 1, 3⟩) [.w 3, .w 1] = true ∧ (packs []).lcLaunch (packs []).core = none ∧
    (packs []).canIssue (.pext .i8 3 1 15) [.x 3, .w 1] = true ∧ (15 : Reg).toNat < 128 / ElTy.i8.width ∧
    (dotShape .i8).2 * (128 / (dotShape .i8).1.width) = 128 / ElTy.i8.width ∧ (packs []).canIssue (.psplat .i8 3 1) [.w 3, .x 1] = true := by decide +kernel
def pack (i : Instr) (l : List (Reg × Quad)) (v : Quad) : Bool := runs [i] (packs l) fun t => t.me.wr 3 == v && t.me.pc == 0x204
theorem test_padd_saturates : pack (.padd ⟨.i8, 1, 2, 1, 3⟩) [(1, 0x7F80), (2, 0x01FF)] 0x7F80 = true := by decide +kernel
theorem test_padd_float : pack (.padd ⟨.fp32, 0, 2, 1, 3⟩) [(1, 0x3F800000), (2, 0x40000000)] 0x40400000 = true := by decide +kernel
theorem test_psub_wraps : pack (.psub ⟨.i16, 0, 2, 1, 3⟩) [(1, 0x8000), (2, 1)] 0x7FFF = true := by decide +kernel
theorem test_pmul : pack (.pmul ⟨.n8, 1, 2, 1, 3⟩) [(1, 0x10), (2, 0x20)] 0xFF = true := by decide +kernel
theorem test_pfma : pack (.pfma ⟨.fp32, 0, 2, 1, 3⟩) [(1, 0x40000000), (2, 0x40000000), (3, 0x3F800000)] 0x40A00000 = true := by decide +kernel
theorem test_pmin : pack (.pmin ⟨.i8, 0, 2, 1, 3⟩) [(1, 0xFF), (2, 1)] 0xFF = true := by decide +kernel
theorem test_pmax : pack (.pmax ⟨.n8, 0, 2, 1, 3⟩) [(1, 0xFF), (2, 1)] 0xFF = true := by decide +kernel
theorem test_pabs : pack (.pabs ⟨.i8, 1, 0, 1, 3⟩) [(1, 0x80FF)] 0x7F01 = true := by decide +kernel
theorem test_pdot : pack (.pdot ⟨.i8, 0, 2, 1, 3⟩) [(1, 0x01020304), (2, 0x01010101), (3, 5)] 15 = true := by decide +kernel
theorem test_pshl : pack (.pshl ⟨.i8, 0, 2, 1, 3⟩) [(1, 0x0101), (2, 0x0801)] 0x0002 = true := by decide +kernel
theorem test_pshr : pack (.pshr ⟨.i8, 0, 2, 1, 3⟩) [(1, 0x8080), (2, 0xFF01)] 0xFFC0 = true := by decide +kernel
theorem test_pcmp : pack (.pcmp ⟨.i8, 2, 2, 1, 3⟩) [(1, 0xFF), (2, 0)] 0xFF = true := by decide +kernel
theorem test_psel : pack (.psel 3 1 2) [(1, 0xAAAA), (2, 0x5555), (3, 0xFF00)] 0xAA55 = true := by decide +kernel
theorem test_pcvt : pack (.pcvt ⟨.fp32, 0, 8, 1, 3⟩) [(1, 0x3F800000)] 0x3F80 = true := by decide +kernel
theorem test_psplat : runs [.psplat .n32 3 1] (at' (xs [(1, 0x1_0000_0002)])) (fun t => t.me.wr 3 == 0x00000002000000020000000200000002) = true := by decide +kernel
theorem test_pmov : pack (.pmov 3 1) [(1, 5)] 5 = true := by decide +kernel
theorem test_pext_sign : runs [.pext .i8 3 1 15] (packs [(1, 2 ^ 127)]) (fun t => t.me.xr 3 == -128) = true := by decide +kernel
theorem test_pins : runs [.pins .i8 3 1 15] (at' (xs [(1, 0x1FF)])) (fun t => t.me.wr 3 == 0xFF000000000000000000000000000000) = true := by decide +kernel

/-! ## Lookup core: the gather unit, the stream engine and bit streams -/

/-- A launch of cores 0 to 15 that binds table 0, a table of 16 rows of 64 bytes of fp32 with its one home at core 5, and a list of
two identifiers at 0x1000. -/
def launch0 : Launch := ⟨[0, 0, 0x100000, 0, 0, 0xFFFF] ++ List.replicate 18 0 ++ [1, 0, 0, 0] ++ List.replicate 4 0, 0, 0, 0⟩
def tabled (l : List (Reg × Word)) : State :=
  let s := { at' (xs l) with launches := [(0, launch0)], hbmReady := true, tierReady := true }
  ((s.setCore 5 { s.myCore with launch := some 0 }).writeBytes ls (natToBytes 8 3 ++ natToBytes 8 3)).writeBytes (tdAddr 0)
    (natToBytes 8 16 ++ natToBytes 8 (2 ^ 63 + 10) ++ natToBytes 8 6 ++ natToBytes 8 (2 ^ 32 + 5 * 2 ^ 16) ++ natToBytes 8 0xFFFF)
def gatherArgs (kind : GatherKind) (s : State) : GatherArgs := ⟨kind, ⟨4, 2, 1, 3⟩, s.rx 1, s.rx 2, s.rx 3, s.rx 4⟩
def accepted (i : Instr) (kind : GatherKind) (s : State) : Bool :=
  let p := (s.setMyCore { s.myCore with gwait := s.myCore.gwait ++ [(s.ctx.val, i)] }).park i .acceptance
  let c := p.checkCommand s.core s.ctx i (gatherArgs kind s)
  decide (c.1 = .ok []) && c.2.isSome && scwOk kind (s.rx 4) && s.canIssue i [.x 1, .x 2, .x 3, .x 4] && s.myCore.gwait.isEmpty &&
    s.myCore.gread.isEmpty && Memory.wf s.mem &&
    runs (i :: List.replicate ((firstReads 5 (gatherArgs kind s)).length + 1) (.commandAcceptance 5)) s fun u =>
      u.myCore.gcmds.any fun g => (kind == .sred || g.ids == [3, 3]) && (u.me.pc == 0x204) == g.empties.isEmpty
theorem test_gth : accepted (.gth ⟨4, 2, 1, 3⟩) .gth (tabled [(1, 0x1000), (2, lsW + 0x1000), (4, 2)]) = true := by decide +kernel
theorem test_ddp : accepted (.ddp ⟨4, 2, 1, 3⟩) .ddp (tabled [(1, 0x1000), (2, 0x2000), (4, 2)]) = true := by decide +kernel
theorem test_sadd : accepted (.sadd ⟨4, 2, 1, 3⟩) .sadd (tabled [(1, 0x1000), (2, 0x2000), (4, 2)]) = true := by decide +kernel
theorem test_scst : accepted (.scst ⟨4, 2, 1, 3⟩) .scst (tabled [(1, 0x1000), (2, 0x2000), (3, shW), (4, 2)]) = true := by decide +kernel
/-- One segment of two local rows: the list holds two row numbers and the offsets 0 and 2. -/
theorem test_sred : accepted (.sred ⟨4, 2, 1, 3⟩) .sred
    ((tabled [(1, 0x3000), (2, lsW + 0x1000), (4, 2 + 2 ^ 16 + 0x2000 * 2 ^ 34)]).writeBytes (lsAddr 5 0x3000) ([1, 0, 0, 0, 2, 0, 0, 0, 0, 0, 0, 0, 2])) = true := by decide +kernel
theorem test_gth_binding : runs (.gth ⟨4, 2, 1, 3⟩ :: List.replicate 14 (.commandAcceptance 5)) (tabled [(1, 0x1000), (2, lsW + 0x1000), (4, 2 + 2 ^ 56)])
    (fun t => t.me.code == causeProtection && t.me.tval == gaWord (tdAddr 1)) = true := by decide +kernel
/-- One beat to local store and one to SHM. -/
def beats (left : List Nat) : State :=
  { State.reset with beats := [⟨sh, List.replicate 64 1, false, .gather 5 0, 0, left, []⟩], empty := [sh], failing := [sh] }
theorem wit_beat : (∀ left ∈ [unitsOf sh 64, [sh + 48, sh + 56]], let s := beats left
    s.waiters = [] ∧ s.watchers = [] ∧ (s.beats.map fun b => (b.left, b.bytes.length)) = [(left, 64)] ∧ (s.beatNext (s.destPort sh)) = s.beats[0]? ∧
    (∀ a ∈ left, sh ≤ a ∧ a + unitBytes a ≤ sh + 64 ∧ s.busy a (unitBytes a) = false ∧ s.boundAt a (unitBytes a) = false)) ∧ sh % 64 = 0 := by decide +kernel
/-- The last act of a beat; where none is left to choose from, it is the one at the beat's address. -/
theorem test_beat : runs [.beatArrival 0] (beats []) (fun t => t.readNat sh 8 == 0x0101010101010101 && t.isFull sh && t.beats.isEmpty) = true := by
  decide +kernel
def command (kind : GatherKind) : GatherCmd :=
  ⟨7, 2, kind, 0, 0, Table.none, [1, 2], [0, 2], 0x1000, 0x2000, [], some sh, 3, 10, 0, 2, 0, [], [], [4, 5, 6], [], 2, false, none, false, [], [], []⟩
def withCmd (g : GatherCmd) : State := State.reset.setCore 5 { Core.reset with gcmds := [g] }
def rowIn : State := { withCmd { command .gth with flight := [⟨0, 0, false, 0⟩] } with qrows := [⟨5, 7, ⟨[1, 2], 0, 0, []⟩⟩] }
theorem wit_segment : (rowIn.qrows.map (·.seg.index)) = [0] ∧ (rowIn.coreAt 5).queueRoom 2 = true ∧ (rowIn.coreAt 5).cursor = none ∧ (rowIn.coreAt 5).txq = [] := by decide +kernel
theorem test_segment : runs [.segmentArrival 5] rowIn (fun t => t.qrows.isEmpty && (t.coreAt 5).cursor.isSome && ((t.coreAt 5).gcmds.map (·.count)) == [3]) = true := by decide +kernel
def rowWait : State := { (withCmd { command .sred with waitFrom := some 0, next := 0 }).setEmpty (lsAddr 5 0x1050) with ck := 2 ^ 16 }
theorem wit_row_wait : rowWait.rangeFull (lsAddr 5 (0x1000 + 1 * 64)) 64 = false ∧ 0 + 2 ^ ((10 : BitVec 5).toNat + 6) ≤ rowWait.ck := by decide +kernel
theorem test_row_wait : runs [.sredRowWaitLimit 5 7] rowWait (fun t => ((t.coreAt 5).gcmds.map (·.err)) == [true]) = true := by decide +kernel
theorem wit_complete : (withCmd (command .sadd)).failedBeat sh 8 = none ∧ storageOf sh = .shm ∧ (command .sadd).total ≤ (command .sadd).next := by decide +kernel
theorem test_complete : runs [.gatherCommandComplete 5 7, .homeAct 0, .gatherCommandComplete 5 7] ((withCmd (command .sadd)).writeBytes sh [0xFF, 0xFF, 0xFF, 0xFF, 1])
    (fun t => (t.coreAt 5).gcmds.isEmpty && t.readNat sh 8 == 0x100000001) = true := by decide +kernel
def ddpDone : State := (withCmd { command .ddp with barrier := none }).setCtx 5 2 (({ Context.reset with pending := [⟨3, 7⟩] }).absent 3)
theorem test_ddp_done : (ddpDone.ctxAt 5 2).pending = [⟨3, 7⟩] ∧
    runs [.gatherCommandComplete 5 7] ddpDone (fun t => (t.ctxAt 5 2).xr 3 == 3 && (t.ctxAt 5 2).present 3) = true := by decide +kernel
def stepping : State := { State.reset with stepJobs := [⟨0, some 7, true, [5, 6], none, 6⟩] }
theorem test_step_take : runs [.stepTake 5] stepping (fun t => (t.coreAt 5).stepOf 0 == 7 && (t.stepJobs.map (·.waiting)) == [[6]]) = true := by decide +kernel
theorem wit_tstep : let s := tabled [(1, 6), (4, 0)]
    s.canIssue (.tstep 3 1 4) [.x 1, .x 3, .x 4] = true ∧ (s.rx 4).toNat % 2 ^ 52 = 0 ∧ scwMode (s.rx 4) < 2 ∧ (s.lcLaunch s.core).isSome = true ∧
    launch0.binds 0 = true ∧ (s.readTable 0).isSome = true ∧ s.descriptorFails 0 = none ∧ s.failedBeat (tdAddr 0 + 0x10) 8 = none ∧ s.readNat (tdAddr 0 + 0x10) 8 = 6 := by decide +kernel
theorem test_tstep : runs [.tstep 3 1 4, .homeAct 0] (tabled [(1, 6), (4, 0)]) (fun t => t.readNat (tdAddr 0 + 0x10) 8 == 7 && !t.me.present 3 &&
    (t.stepJobs.map (·.waiting.length)) == [1008]) = true := by decide +kernel
theorem wit_quiet_tabled : (tabled [(1, 6), (4, 0)]).Quiet ∧ (tabled [(1, 6), (4, 0)]).stepJobs = [] := by unfold State.Quiet; decide +kernel

/-- Two open streams of one element each, 9 at ls and y at ls + 64. -/
def streams (l : List (Reg × Word)) (y : Byte := 9) : State :=
  let s := ((at' (xs ([(1, 0), (2, 1)] ++ l))).writeBytes ls [9]).writeBytes (ls + 64) [y]
  let c := s.myCore
  s.setCore 5 { c with slots := vset (vset c.slots 0 ⟨true, lsW, 1, 8, 0, 0⟩) 1 ⟨true, lsW + 64, 1, 8, 0, 0⟩ }
theorem wit_streams : let s := streams []
    s.Quiet ∧ s.myCore.slotOf 0 (s.rx 1) = some ⟨true, lsW, 1, 8, 0, 0⟩ ∧ s.myCore.slotOf 0 (s.rx 2) = some ⟨true, lsW + 64, 1, 8, 0, 0⟩ ∧
    s.canIssue (.snext 3 1) [.x 1, .x 3] = true ∧ s.canIssue (.sint ⟨4, 2, 1, 3⟩) [.x 1, .x 2, .x 3, .x 4] = true ∧
    s.translateEngine (.stream 5 0) s.core s.ctx lsW ⟨true, false, false⟩ = .ok none ls lsW ∧ refuses (some s.core) s.me.prv (.load false) 8 ls = false ∧
    s.boundAt ls 8 = false ∧ s.ready ls = true ∧ s.failedBeat ls 8 = none ∧ storageOf ls = .localStore 5 ∧ s.bound 5 0x3000 16 = false := by
  unfold State.Quiet; decide +kernel
theorem test_sopen : runs [.sopen ⟨4, 5, 6, 3⟩] (streams [(6, 0x1000), (5, 2 ^ 32 - 1), (4, 1)]) (fun t => t.me.xr 3 == 2 && (t.myCore.slots.get 2).isOpen) = true := by decide +kernel
theorem test_sclose : runs [.sclose 2] (streams []) (fun t => (t.myCore.slotOf 0 1).isNone && t.me.pc == 0x204) = true ∧
    runs [.sclose 4] (streams [(4, 7)]) (fun t => t.me.code == causeIllegal) = true := by decide +kernel
def nextMoves : List Instr := [.snext 3 1, .contextWake 5 0, .homeAct 0, .contextWake 5 0, .contextWake 5 0]
theorem test_snext : runs nextMoves (streams []) (fun t => t.me.xr 3 == 9 && t.me.pc == 0x204) = true ∧
    runs (nextMoves ++ [.snext 3 1, .contextWake 5 0]) (streams []) (fun t => t.me.xr 3 == -1) = true := by decide +kernel
/-- A merge of 9 and y that puts its words out at x[e], in so many last steps. -/
def merged (i : Instr) (y : Byte) (e : Word) (wakes : Nat) (p : State → Bool) : Bool :=
  let wake := Instr.contextWake 5 0
  runs ([i, wake, .homeAct 0, wake, wake, .homeAct 1, wake] ++ List.replicate wakes wake) (streams [(3, 5), (4, e)] y) fun t => t.me.pc == 0x204 && p t
theorem test_merge_equal : (∀ i ∈ [Instr.sint ⟨4, 2, 1, 3⟩, .smrg ⟨4, 2, 1, 3⟩], merged i 9 0 2 (fun t => t.me.xr 3 == 6 && t.me.xr 4 == 0) = true ∧
    (streams [(3, 5), (4, 0x3000)]).canIssue i [.x 1, .x 2, .x 3, .x 4] = true) := by decide +kernel
/-- Of 9 and 7, sint keeps neither and moves the side of 7 alone; smrg puts out 7 and 9 (R162). -/
theorem test_sint : merged (.sint ⟨4, 2, 1, 3⟩) 7 0x3000 2 (fun t => t.me.xr 3 == 5 && t.me.xr 4 == 0x3000 && t.readNat (ls + 0x2000) 8 == 0 &&
    ((t.myCore.slotOf 0 0).map (·.pos)) == some 0 && ((t.myCore.slotOf 0 1).map (·.pos)) == some 1) = true := by decide +kernel
theorem test_smrg : merged (.smrg ⟨4, 2, 1, 3⟩) 7 0 3 (fun t => t.me.xr 3 == 7 && ((t.myCore.slotOf 0 0).map (·.pos)) == some 1 &&
    ((t.myCore.slotOf 0 1).map (·.pos)) == some 1) = true := by decide +kernel
def allOpen : State := let s := at' id; s.setCore 5 { s.myCore with slots := Vector.replicate 8 ⟨true, 0, 1, 8, 0, 1⟩ }
theorem test_sopen_full : (∀ m : Fin 8, (allOpen.myCore.slots.get m).isOpen = true) ∧ runs [.sopen ⟨4, 5, 6, 3⟩] allOpen (fun t => t.me.xr 3 == -1) = true := by decide +kernel

/-- A segment with no gap entry and the 16 code bits 0x051A: the symbols 10, 5 and 0. -/
def seg : Segment := ⟨[0, 0, 16, 0, 0, 0, 0, 0, 0x1A, 0x05], 3, 0, []⟩
/-- The transform context of core 5 runs, with that segment as its current one and the next in the queue. -/
def bits (l : List (Reg × Word)) : State :=
  let s := { (at' id).setCtx 5 14 (xs l { Context.reset with state := .run, pc := 0x200 }) with ctx := 14 }
  s.setCore 5 { s.myCore with cursor := some { seg.load with acc := 40 }, txq := [{ seg with index := 4 }] }
theorem wit_bits : let s := bits [(1, 5)]
    s.Quiet ∧ s.ctx = s.myCore.transformCtx ∧ s.myCore.cursor.isSome = true ∧ (bits []).canIssue (.bsync 3 1 2) [.x 1, .x 2, .x 3] = true ∧
    (s.myCore.cursor.all fun c => c.seg.bad.isEmpty && !c.err && decide (c.p < c.stop) && c.symbol.value == some 10) = true ∧
    s.canIssue (.bget 3 1) [.x 1, .x 3] = true ∧ s.canIssue (.bdec 3) [.x 3] = true ∧ s.canIssue (.bskip 1) [.x 1] = true ∧
    s.canIssue (.bdecn ⟨4, 2, 1, 3⟩) [.x 1, .x 2, .x 3, .x 4] = true ∧ s.localOperand s.core 0x1000 8 8 = none := by unfold State.Quiet; decide +kernel
theorem test_bget : runs [.bget 3 1] (bits [(1, 5)]) (fun t => t.me.xr 3 == 0x1A && (t.myCore.cursor.map (·.p)) == some 69) = true := by decide +kernel
theorem test_bpeek_past_end : runs [.bpeek 3 1] (bits [(1, 64)]) (fun t => t.me.xr 3 == 0x51A && (t.myCore.cursor.map (·.p)) == some 64) = true := by decide +kernel
theorem test_bskip : runs [.bskip 1] (bits [(1, -1)]) (fun t => (t.myCore.cursor.map (·.p)) == some 80) = true := by decide +kernel
theorem test_bdec : runs [.bdec 3] (bits []) (fun t => t.me.xr 3 == 10 && (t.myCore.cursor.map (·.p)) == some 72) = true ∧
    runs [.bskip 1, .bdec 3] (bits [(1, 2)]) (fun t => t.me.xr 3 == -1 && (t.myCore.cursor.map (·.err)) == some true) = true := by decide +kernel
theorem test_bdecn : runs [.bdecn ⟨4, 2, 1, 3⟩, .contextWake 5 14, .contextWake 5 14] (bits [(1, 0x1000), (2, 1)])
    (fun t => t.me.xr 3 == 1 && t.readNat ls 8 == 50 && t.me.pc == 0x204 && t.claims.isEmpty) = true := by decide +kernel
theorem test_bsync : runs [.bsync 3 1 2] (bits [(2, 3), (1, 7)]) (fun t => t.me.xr 3 == 40 && (t.myCore.cursor.map (·.acc)) == some 7) = true ∧
    runs [.bsync 3 1 2] (bits []) (fun t => t.me.xr 3 == 4 && t.myCore.txq.isEmpty) = true := by decide +kernel
def noSegment : State := let s := bits [(1, 5)]; s.setCore 5 { s.myCore with cursor := none }
theorem test_bget_without_segment : noSegment.canIssue (.bget 3 1) [.x 1, .x 3] = true ∧ runs [.bget 3 1] noSegment (fun t => t.me.code == causeIllegal) = true ∧
    runs [.bdec 3] noSegment (fun t => t.me.code == causeIllegal) = true := by decide +kernel
/-! ## Dense tiles: issue, control and the loop slot -/

/-- Tile 4, the keeper of four, with its streams running at index 5; j1 of each holds 7. -/
def runStream : DtStream := { DtStream.reset with status := .run, pc := 5, j := vset DtStream.reset.j 1 7 }
def tile4 (f : Tile → Tile) : State :=
  { State.reset with tile := 4, tiles := [(4, f { Tile.reset with s := runStream, c := runStream, m := runStream })], turn := .dt 4 .s }
theorem wit_issue : let s := tile4 id
    (s.strm 4 .s).queue.length < 16 ∧ (s.strm 4 .c).queue.length < 16 ∧ (s.strm 4 .m).queue.length < 4 ∧ (s.tileAt 4).popMissing s.ck (popsOf .s 0 0) = none ∧
    (s.tileAt 4).popMissing s.ck (popsOf .c 12 0) = none ∧ s.turn = .dt 4 .s ∧ (s.strm 4 .s).loops.head? = none ∧ (s.strm 4 .s).held = none ∧
    s.streamDrained 4 .s = true ∧ (∀ sh : BitVec 7, s.recordsFail 4 [sh, 1] = none) ∧ s.fcsrInUse 4 .s = false ∧ s.fcsrInUse 4 .c = false := by decide +kernel
/-- The word is queued, and its stream goes on. -/
def queues (st : Stream) (i : Instr) : Bool := runs [i] (tile4 id) fun t =>
  ((t.strm 4 st).queue.map fun c => decide (c.instr = i) && c.idx == 5 && c.cursor == 0) == [true] && (t.strm 4 st).pc == if st = .m then 5 else 6
def co : CopyOp := ⟨0, 1, 1, 1, 0, 0, 0, 0, 0⟩
theorem test_xld_queued : queues .s (.xld co) = true := by decide +kernel
theorem test_xst_queued : queues .s (.xst co) = true := by decide +kernel
theorem test_xcp_queued : queues .s (.xcp co) = true := by decide +kernel
theorem test_xbld_queued : queues .s (.xbld ⟨0, 1, 0, 0, 0, 0⟩) = true := by decide +kernel
theorem test_xbind_queued : queues .s (.xbindIn ⟨0, 5, 1, 2, 0⟩) = true ∧ queues .s (.xbindOut ⟨0, 5, 1, 2, 0⟩) = true ∧ queues .s (.xbindOff 2 0) = true := by decide +kernel
theorem test_stash_queued : queues .s (.xstash co) = true ∧ queues .s (.xrest co) = true := by decide +kernel
theorem test_xce_queued : queues .s (.xceHalve ⟨0, 1, 0, 0, 0, 0, 0, false, 0, 0, 0⟩) = true ∧ queues .s (.xceDbl ⟨0, 1, 0, 0, 0, 0, 0, false, 0, 0, 0⟩) = true ∧
    queues .s (.xceXchg ⟨0, 1, 0, 0, 0, 0, 0, true, 0, 0, 0⟩) = true := by decide +kernel
theorem test_rstage_queued : queues .s (.xsetRstage 1 0) = true := by decide +kernel
theorem test_cvt_queued : queues .c (.cvt ⟨co, 0, false⟩) = true ∧ queues .c (.bscale ⟨0, 1, 0, 0, 0, 0, 0, 0, false, false, 0⟩) = true := by decide +kernel
theorem test_cpack_queued : queues .c (.cpack co) = true ∧ queues .c (.cunpack co) = true := by decide +kernel
theorem test_skeep_queued : queues .c (.skeep ⟨0, 1, 0, 0, 0, 1, 0, 0⟩) = true ∧ queues .c (.srecv 0 0) = true := by decide +kernel
theorem test_skeep_elsewhere : runs [.skeep ⟨0, 1, 0, 0, 0, 1, 0, 0⟩] { tile4 id with tile := 5 } (fun t => (t.tileAt 5).stopped && (t.tileAt 5).code == causeIllegal) = true := by decide +kernel
def mo : MmaOp := ⟨.ts 0, 0, true, .bf16, 1, true, 0⟩
theorem test_matrix_queued : queues .m (.mma mo) = true ∧ queues .m (.mmas mo) = true ∧ queues .m (.mzero true) = true ∧
    queues .m (.mdrain ⟨.ts 0, true, .fp32, 0, false, false⟩) = true := by decide +kernel
theorem wit_bound : aUnbound mo (tile4 id) = false ∧ targetUnbound ⟨.ts 0, true, .fp32, 0, false, false⟩ (tile4 id) = false := by decide +kernel

theorem test_xnop_pushes : runs [.xnop 4] (tile4 id) (fun t => (t.strm 4 .s).pc == 6 && ((t.strm 4 .s).pushes.map (·.tok)) == [4]) = true := by decide +kernel
theorem test_cnop_waits : runs [.cnop 1] (tile4 id) (fun t => decide ((t.strm 4 .c).status = .wait) && (t.strm 4 .c).pc == 5) = true := by decide +kernel
theorem test_xset : runs [.xset ⟨2, 1, 9, 0⟩] (tile4 id) (fun t => (t.strm 4 .s).jr 2 == 16) = true ∧
    runs [.xsetHi ⟨2, 1, 1, 0⟩] (tile4 id) (fun t => (t.strm 4 .s).jr 2 == 0x10007) = true := by decide +kernel
theorem test_cset : runs [.cset ⟨0, 1, 9, 0⟩] (tile4 id) (fun t => (t.strm 4 .c).jr 0 == 0) = true ∧
    runs [.csetHi ⟨2, 0, 1, 0⟩] (tile4 id) (fun t => (t.strm 4 .c).jr 2 == 0x10000) = true := by decide +kernel
theorem test_xset_mj : runs [.xsetMj ⟨2, 1, 1, 0⟩] (tile4 id) (fun t => (t.strm 4 .m).jr 2 == 8 && (t.strm 4 .s).jr 2 == 0) = true := by decide +kernel
theorem test_xset_tctl : runs [.xsetTctl 0x502 0] (tile4 id) (fun t => (t.tileAt 4).lwd == 5 && (t.tileAt 4).aq == 2) = true := by decide +kernel
theorem test_xset_fcsr : runs [.xsetFcsr 0x15F 0] (tile4 id) (fun t => (t.tileAt 4).fcsr == 0x15F) = true ∧ runs [.csetFcsr 0xA1 0] (tile4 id) (fun t => (t.tileAt 4).fcsr == 1) = true := by
  decide +kernel
theorem test_xset_rrb : runs [.xsetRrb 9 0] (tile4 id) (fun t => (t.tileAt 4).rrbAt t.ck == 0 && (t.tileAt 4).rrbAt (t.ck + 1) == 9) = true := by decide +kernel
theorem test_xset_rload : runs [.xsetRload 3 1 8 0] ((tile4 id).writeBytes (imemAddr 4 .s 8) [1, 2, 3]) (fun t => t.readNat (shapeAddr 4 3) 4 == 0x30201) = true := by
  decide +kernel
theorem test_xhalt : runs [.xhalt 0] (tile4 id) (fun t => decide ((t.strm 4 .s).status = .halting)) = true ∧ runs [.chalt 0] (tile4 id) (fun t => decide ((t.strm 4 .c).status = .halting)) = true := by
  decide +kernel
theorem test_xwait : runs [.xwait 0] (tile4 id) (fun t => (t.strm 4 .s).pc == 6 && (t.strm 4 .s).held.isNone) = true := by decide +kernel
def dtCmd (i : Instr) : DtCmd := ⟨9, 4, i, 0, 0, [], [], 0, false, false, [], none, [], false, false, 0, [], none, none, none, 0⟩
def busyS : State := tile4 fun t => { t with s := { runStream with queue := [dtCmd (.xld co)] }, c := { runStream with queue := [dtCmd (.cvt ⟨co, 0, false⟩)] } }
theorem test_xwait_holds : busyS.streamDrained 4 .s = false ∧ runs [.xwait 0] busyS (fun t => (t.strm 4 .s).held.isSome && (t.strm 4 .s).pc == 5) = true := by decide +kernel
theorem test_fcsr_waits : busyS.fcsrInUse 4 .c = true ∧ runs [.csetFcsr 0xA1 0] busyS (fun t => (t.strm 4 .c).pc == 5 && (t.tileAt 4).fcsr == 0) = true := by
  decide +kernel
/-- A record of 64 bytes, laid out as R255 gives it. -/
def shape (addr kind : Nat) (ty : ElTy) (sizes strides : List Nat) : List Byte :=
  natToBytes 8 addr ++ [BitVec.ofNat 8 (ty.code.toNat * 16 + kind), BitVec.ofNat 8 (sizes.length - 1), 0, 0, 0, 0, 0, 0] ++
    ((sizes ++ List.replicate (4 - sizes.length) 1).flatMap (natToBytes 4)) ++ (strides ++ List.replicate (4 - strides.length) 0).flatMap (natToBytes 8)
/-- R259: saturation for a destination that is neither an fp8 type nor an integer; record 1 of fp32. -/
def wide : State := (tile4 id).writeBytes (shapeAddr 4 1) (shape 0 1 .fp32 [1] [4])
theorem test_cvt_bad : cvtBad ⟨co, 0, true⟩ wide = true ∧ cvtBad ⟨co, 0, false⟩ wide = false ∧
    runs [.cvt ⟨co, 0, true⟩] wide (fun t => (t.tileAt 4).code == causeIllegal) = true := by decide +kernel
theorem test_drain : runs [.xwaitDrain 0] busyS (fun t => (t.strm 4 .s).queue.isEmpty) = true ∧ runs [.csetDrain 0] busyS (fun t => (t.strm 4 .c).queue.isEmpty) = true := by decide +kernel
theorem test_xloop : runs [.xloop ⟨1, 2, 3, 4, 0⟩] (tile4 id) (fun t => decide ((t.strm 4 .s).loops = [⟨7, 6, 9, 2, 4⟩]) && (t.strm 4 .s).pc == 6) = true := by decide +kernel
theorem test_cloop_skips : runs [.cloop ⟨0, 2, 3, 4, 0⟩] (tile4 id) (fun t => (t.strm 4 .c).loops.isEmpty && (t.strm 4 .c).pc == 9) = true := by decide +kernel
theorem test_xloop_past_end : runs [.xloop ⟨1, 2, 4091, 4, 0⟩] (tile4 id) (fun t => (t.tileAt 4).code == causeIllegal) = true := by decide +kernel
def loopingS (count : BitVec 32) : State := tile4 fun t => { t with s := { runStream with loops := [⟨count, 2, 6, 1, 3⟩] } }
theorem test_stream_loop_end : runs [.xnop 0] (loopingS 2) (fun t => (t.strm 4 .s).pc == 2 && (t.strm 4 .s).jr 1 == 10) = true ∧
    runs [.xnop 0] (loopingS 1) (fun t => (t.strm 4 .s).pc == 6 && (t.strm 4 .s).loops.isEmpty) = true := by decide +kernel
/-- Tile 4 with a page of SHM, readable, writable and for floes, at the virtual address 0. -/
def paged (f : Tile → Tile) : State := { tile4 f with tileTlbs := [(4, [⟨0, 18, sh, true, true, true, true⟩])] }
def barTile : State := ((paged id).writeBytes (shapeAddr 4 2) (shape 0 2 .n64 [1] [1])).writeBytes sh [7]
theorem wit_xwait_bar : let s := barTile
    s.failedBeat (shapeAddr 4 2) 64 = none ∧ s.stagePending 4 = false ∧ s.beats = [] ∧ s.replies = [] ∧ s.messages = [] ∧ s.flits = [] ∧
    (s.barRecord 4 2).isSome = true ∧ s.requests = [] ∧ s.ready sh = true ∧ ((s.barRecord 4 2).all fun r => (r.misaligned 4).isNone &&
      !s.barPending 4 r && match s.spot 4 .s (r.side s.dev 4 0 0) r.addr.toNat ⟨true, false, false⟩ with | .at none g => g == sh | _ => false) = true ∧ s.failedBeat sh 8 = none ∧
    ((s.strm 4 .s).jr 0 + (7 : BitVec 16).zeroExtend 32).toNat ≤ s.readNat (sh / 8 * 8) 8 % 2 ^ 32 := by decide +kernel
theorem test_xwait_bar : runs [.xwaitBar 2 0 7 0, .homeAct 0, .xwaitBar 2 0 7 0] barTile (fun t => (t.strm 4 .s).pc == 6 && (t.strm 4 .s).held.isNone) = true := by decide +kernel
/-- R204: an xst to the word of the barrier is still queued. -/
def barBusy : State :=
  let s := paged fun t => { t with s := { runStream with queue := [{ dtCmd (.xst co) with recB := shape 0 2 .n64 [1] [1] }] } }
  (s.writeBytes (shapeAddr 4 2) (shape 0 2 .n64 [1] [1])).writeBytes sh [7]
theorem test_xwait_bar_pending : ((barBusy.barRecord 4 2).all fun r => barBusy.barPending 4 r) = true ∧
    runs [.xwaitBar 2 0 7 0] barBusy (fun t => (t.strm 4 .s).pc == 5 && (t.strm 4 .s).held.isSome && decide ((t.strm 4 .s).status = .wait)) = true := by decide +kernel

def loopingM (count : BitVec 32) : State := tile4 fun t => { t with m := { runStream with loops := [⟨count, 2, 5, 0, 0⟩] } }
theorem test_m_nop : runs [.mNop] (tile4 id) (fun t => (t.strm 4 .m).pc == 6) = true := by decide +kernel
theorem test_m_halt : runs [.halt] (tile4 id) (fun t => (t.strm 4 .m).pc == 6 && decide ((t.strm 4 .m).status = .halting)) = true := by decide +kernel
theorem test_endl : runs [.endl] (loopingM 2) (fun t => (t.strm 4 .m).pc == 2 && ((t.strm 4 .m).loops.map (·.count)) == [1]) = true ∧
    runs [.endl] (loopingM 1) (fun t => (t.strm 4 .m).pc == 6 && (t.strm 4 .m).loops.isEmpty) = true ∧ runs [.endl] (tile4 id) (fun t => (t.tileAt 4).code == causeIllegal) = true := by
  decide +kernel
theorem test_lrot : runs [.lrot 15] (loopingM 2) (fun t => (t.strm 4 .m).pc == 2 && (t.tileAt 4).rrbAt (t.ck + 1) == 16) = true := by decide +kernel
theorem test_jmp_leaves : runs [.jmp 9] (loopingM 2) (fun t => (t.strm 4 .m).pc == 9 && (t.strm 4 .m).loops.isEmpty) = true := by decide +kernel
/-- A loop whose endl stands at index 7. -/
def withEnd (f : Tile → Tile) : State :=
  (((tile4 f).writeBytes (imemAddr 4 .m 6) (natToBytes 16 (2 ^ 124))).writeBytes (imemAddr 4 .m 7) (natToBytes 16 (3 * 2 ^ 124)))
theorem test_m_loop : (withEnd id).matchingEnd 4 4096 6 0 = some 7 ∧ runs [.mLoop 1] (withEnd id) (fun t => decide ((t.strm 4 .m).loops = [⟨7, 6, 7, 0, 0⟩])) = true ∧
    runs [.mLoop 2] (withEnd id) (fun t => (t.strm 4 .m).pc == 8) = true := by decide +kernel
theorem test_m_loop_no_end : (tile4 id).matchingEnd 4 4096 6 0 = none ∧ runs [.mLoop 1] (tile4 id) (fun t => (t.tileAt 4).code == causeIllegal) = true := by decide +kernel
def pushing : State := { tile4 (fun t => { t with s := { runStream with pushes := [⟨5, 4, 0, none, false, none⟩] } }) with ck := 3 }
theorem test_finish_pushes : runs [.dtInstructionFinish 4 .s] pushing (fun t => (((t.tileAt 4).tokens.get 0).count, ((t.tileAt 4).tokens.get 0).slots.get 0) == (1, 5, 3) && (t.strm 4 .s).pushes.isEmpty) = true := by decide +kernel
def halting : State := tile4 fun t => { t with s := { runStream with status := .halting } }
theorem test_finish_halts : runs [.dtInstructionFinish 4 .s] halting (fun t => decide ((t.strm 4 .s).status = .halted)) = true := by decide +kernel
def stalling : State := { tile4 (fun t => { t with c := { runStream with status := .wait, wait := some ⟨.code 4 0x20, some 100, 201⟩ } }) with ck := 100 }
theorem wit_stalling : (stalling.tileAt 4).stopped = false ∧ (pushing.tileAt 4).pushBlocked (pushesOf .s 4 0) = none := by decide +kernel
theorem test_tile_stall : runs [.tileStall 4 .c] stalling (fun t => (t.tileAt 4).code == causeStall && (t.tileAt 4).strm == 1 && (t.tileAt 4).val0 == queueId 0 (1024 + 4) 0x20) = true := by decide +kernel
/-! ## Dense tiles: commands -/

/-- A command that is past its start checks, alone in its queue, makes its next step. -/
def going (i : Instr) (a b : List Byte) (buf : List (Nat × Nat)) (cursor : Nat) : DtCmd := { dtCmd i with recA := a, recB := b, buf := buf, cursor := cursor, started := true }
/-- Such a state: it meets what a statement about a running command assumes. -/
def stepping' (st : Stream) (c : DtCmd) (f : Tile → Tile) : State :=
  { paged (fun t => f (t.put st { runStream with queue := [c] })) with turn := .cmd 4 st }
def cmdOf (s : State) (st : Stream) : DtCmd := (s.strm 4 st).queue.headD (dtCmd (.xnop 0))
/-- One element from offset 0x20 of the tile store to offset 0x40. -/
def one (i : Instr) (st : Stream) (ta tb : ElTy) : State :=
  (stepping' st (going i (shape 0x20 1 ta [1] [1]) (shape 0x40 1 tb [1] [1]) [] 0) id).writeBytes (tsAddr 4 0x20) [0, 0, 0x80, 0x3F]
def c0 : CopyOp := ⟨0, 1, 0, 0, 0, 0, 0, 0, 0⟩
theorem wit_copies : (one (.xcp c0) .s .fp32 .fp32).running .s (going (.xcp c0) (shape 0x20 1 .fp32 [1] [1]) (shape 0x40 1 .fp32 [1] [1]) [] 0) ∧ parseShape (shape 0x20 1 .fp32 [1] [1]) = some ⟨0x20, .fp32, 1, 0, 0, [1, 1, 1, 1], [1, 0, 0, 0]⟩ ∧
    (⟨0x20, .fp32, 1, 0, 0, [1, 1, 1, 1], [1, 0, 0, 0]⟩ : ShapeRec).count = 1 ∧ (one (.xcp c0) .s .fp32 .fp32).failedBeat (tsAddr 4 0x20) 16 = none ∧
    (one (.cvt ⟨c0, 0, false⟩) .c .fp32 .bf16).countsNone [] :=
  ⟨State.running_intro (by decide +kernel) (by decide +kernel) (by decide +kernel) (by decide +kernel) (by decide +kernel) (by decide +kernel), by unfold State.countsNone; decide +kernel⟩
/-- The step in which an element has been read, its write, and its end. -/
def copies (i : Instr) : List Instr := [i, i] ++ settles i 0 1
theorem test_xcp : runs (copies (.xcp c0)) (one (.xcp c0) .s .fp32 .fp32) (fun t => t.readNat (tsAddr 4 0x40) 4 == 0x3F800000 && (t.strm 4 .s).queue.isEmpty) = true := by
  decide +kernel
theorem test_cvt : runs (copies (.cvt ⟨c0, 0, false⟩)) (one (.cvt ⟨c0, 0, false⟩) .c .fp32 .bf16) (fun t => t.readNat (tsAddr 4 0x40) 4 == 0x3F80) = true := by
  decide +kernel
theorem test_cpack : runs (copies (.cpack c0)) ((one (.cpack c0) .c .n8 .e2m1).writeBytes (tsAddr 4 0x20) [0x0A]) (fun t => t.readNat (tsAddr 4 0x40) 2 == 0xA) = true := by decide +kernel
theorem test_cunpack : runs (copies (.cunpack c0)) ((one (.cunpack c0) .c .e2m1 .n8).writeBytes (tsAddr 4 0x20) [0xBA]) (fun t => t.readNat (tsAddr 4 0x40) 2 == 0xA) = true := by
  decide +kernel
def ld1 : State := (stepping' .s (going (.xld c0) (shape 0x10 2 .fp32 [1] [1]) (shape 0x40 1 .fp32 [1] [1]) [] 0) id).writeBytes (sh + 0x10) [1, 2, 3, 4]
def st1 : State := (stepping' .s (going (.xst c0) (shape 0x20 1 .fp32 [1] [1]) (shape 0x14 2 .fp32 [1] [1]) [] 0) id).writeBytes (tsAddr 4 0x20) [1, 2, 3, 4]
theorem wit_xld_home : ld1.running .s (cmdOf ld1 .s) ∧ st1.running .s (cmdOf st1 .s) ∧ (match ld1.spot 4 .s ⟨.virt false, 0x10, .fp32, [1, 1, 1, 1], [1, 0, 0, 0], 1⟩ (0x10 / 8 * 8 : Nat) ⟨true, false, false⟩ with
    | .at none g => g == sh + 0x10
    | _ => false) = true ∧ storageOf (sh + 0x10) = .shm ∧ ld1.ready (sh + 0x10) = true ∧ ld1.failedBeat (sh + 0x10) 8 = none ∧ 0x10 % elBytes .fp32 = 0 :=
  ⟨State.running_intro (by decide +kernel) (by decide +kernel) (by decide +kernel) (by decide +kernel) (by decide +kernel) (by decide +kernel),
   State.running_intro (by decide +kernel) (by decide +kernel) (by decide +kernel) (by decide +kernel) (by decide +kernel) (by decide +kernel), by decide +kernel⟩
theorem test_xld : runs ([.xld c0, .homeAct 0, .xld c0, .xld c0] ++ settles (.xld c0) 1 1) ld1 (fun t => t.readNat (tsAddr 4 0x40) 4 == 0x4030201 && (t.strm 4 .s).queue.isEmpty) = true := by decide +kernel
theorem test_xst : runs [.xst c0, .xst c0, .homeAct 0, .xst c0, .xst c0] st1 (fun t => t.readNat (sh + 0x10) 8 == 0x403020100000000 && (t.strm 4 .s).queue.isEmpty) = true := by decide +kernel
def sc : ScaleOp := ⟨0, 1, 0, 0, 2, 0, 0, 0, false, false, 0⟩
/-- 32 values of 1.0 in fp32; their block scale in e4m3. -/
def scaling : State := stepping' .c (going (.bscale sc) (shape 0 1 .fp32 [32] [1]) (shape 0x800 1 .e4m3 [32] [1]) ((List.range 32).map fun i => (i, 0x3F800000)) 0) id
theorem wit_bscale : scaling.running .c (cmdOf scaling .c) ∧ ((going (.bscale sc) [] [] ((List.range 32).map fun i => (i, 0x3F800000)) 0).hasRead 0 32) ∧ (0x800 + 32 ≤ 0x400000) ∧ 512 * sc.srow.toNat < 0x800 ∧
    scaling.countsNone [] := ⟨State.running_intro (by decide +kernel) (by decide +kernel) (by decide +kernel) (by decide +kernel) (by decide +kernel) (by decide +kernel), by unfold DtCmd.hasRead State.countsNone; decide +kernel⟩
theorem test_bscale : runs (.bscale sc :: settles (.bscale sc) 0 3) scaling (fun t => (t.readByte (tsAddr 4 0x400)).toNat == 119 && t.readByte (tsAddr 4 0x800) == 0x78 && (t.strm 4 .c).queue.isEmpty) = true := by decide +kernel
def bld : BldOp := ⟨0, 0, 1, 0, 0, 0⟩
def building : State := stepping' .s (going (.xbld bld) (shape 0 2 .bf16 [2, 1] [1, 1]) [] [(0, 0x1234), (1, 0x5678)] 0) id
theorem wit_xbld : building.running .s (cmdOf building .s) ∧ (going (.xbld bld) [] [] [(0, 0x1234), (1, 0x5678)] 0).hasRead 0 2 ∧ isMatrixType .bf16 = true ∧ (parseShape (shape 0 2 .bf16 [2, 1] [1, 1])).isSome = true :=
  ⟨State.running_intro (by decide +kernel) (by decide +kernel) (by decide +kernel) (by decide +kernel) (by decide +kernel) (by decide +kernel), by unfold DtCmd.hasRead; decide +kernel⟩
theorem test_xbld : runs [.xbld bld] building (fun t => t.readNat (bsramAddr 4 0 128) 4 == 0x56781234 && (t.strm 4 .s).queue.isEmpty) = true := by decide +kernel
def kp : KeepOp := ⟨0, 1, 0, 0, 2, 2, 0, 0⟩
def keeping : State := stepping' .c (going (.skeep kp) (shape 0 1 .n8 [512] [1]) (shape 0x200 1 .n8 [512] [1]) ((List.range 1024).map fun i => (i, i % 256)) 0) id
theorem wit_skeep : keeping.running .c (going (.skeep kp) (shape 0 1 .n8 [512] [1]) (shape 0x200 1 .n8 [512] [1]) ((List.range 1024).map fun i => (i, i % 256)) 0) ∧
    keepTargets 4 kp.mask = [5] ∧ (keeping.tileAt 5).pendFull.getLsbD 2 = false ∧ (parseShape (shape 0 1 .n8 [512] [1])).isSome = true :=
  ⟨State.running_intro (by decide +kernel) (by decide +kernel) (by decide +kernel) (by decide +kernel) (by decide +kernel) (by decide +kernel), by decide +kernel⟩
theorem wit_skeep_read (a b : List Byte) : (going (.skeep kp) a b ((List.range 1024).map fun i => (i, i % 256)) 0).hasRead 0 1024 := by
  intro i h; simpa [going] using h
def receiving : State := (stepping' .c (going (.srecv 2 0) [] [] [] 0) fun t => { t with pendFull := 4 }).writeBytes (pendAddr 4 2) [1, 2]
theorem test_srecv : (receiving.tileAt 4).pendFull.getLsbD 2 = true ∧ runs [.srecv 2 0] receiving (fun t => t.readNat (scaleAddr 4 2) 2 == 0x201 && (t.tileAt 4).pendFull == 0) = true := by decide +kernel
def inEp : Endpoint := { Endpoint.none with dir := .inbound, peer := (0, 5, 1), occ := 1 }
def staging : State := (stepping' .s (going (.xsetRstage 1 0) [] [] [] 0) fun t => { t with eps := vset t.eps 1 inEp }).writeBytes (slotAddr 4 1 0) [7]
theorem wit_rstage : receiving.running .c (cmdOf receiving .c) ∧ staging.running .s (cmdOf staging .s) ∧ (staging.ep 4 1).dir = .inbound ∧ 64 ≤ (staging.ep 4 1).avail ∧ staging.epFailed 4 1 0 64 = none :=
  ⟨State.running_intro (by decide +kernel) (by decide +kernel) (by decide +kernel) (by decide +kernel) (by decide +kernel) (by decide +kernel),
   State.running_intro (by decide +kernel) (by decide +kernel) (by decide +kernel) (by decide +kernel) (by decide +kernel) (by decide +kernel), by decide +kernel⟩
theorem test_rstage : runs [.xsetRstage 1 0] staging (fun t => t.readByte (shapeAddr 4 64) == 7 && (t.strm 4 .s).queue.isEmpty) = true := by decide +kernel

/-! ## Dense tiles: the matrix unit and the vector unit -/

/-- 2 × 1.0 in row 3, and 3.0 and 4.0 in column 7. -/
def mma1 (i : Instr) : State := (stepping' .m (going i [] [] [(0, 0x4000), (1, 0x3F80)] 3) id).writeBytes (bsramAddr 4 7 0) [0x40, 0x40, 0x80, 0x40]
theorem wit_mma : (mma1 (.mma mo)).running .m (cmdOf (mma1 (.mma mo)) .m) ∧ (mma1 (.mma mo)).mmaFails 4 3 mo false = none ∧ ((mma1 (.mma mo)).tileAt 4).aq ≠ 2 ∧ (going (.mma mo) [] [] [(0, 0x4000), (1, 0x3F80)] 3).hasRead 0 2 :=
  ⟨State.running_intro (by decide +kernel) (by decide +kernel) (by decide +kernel) (by decide +kernel) (by decide +kernel) (by decide +kernel), by unfold DtCmd.hasRead; decide +kernel⟩
theorem test_mma : runs [.mma mo] (mma1 (.mma mo)) (fun t => t.readNat (accAddr 4 1 3 + 28) 4 == 0x41200000 && ((t.strm 4 .m).queue.map (·.cursor)) == [4]) = true := by decide +kernel
def ms : MmaOp := ⟨.ts 0, 0, false, .e4m3, 31, true, 1⟩
/-- 1.0 times 1.0 with the scales 2 and 4. -/
def mmas1 : State :=
  (((stepping' .m (going (.mmas ms) [] [] ((List.range 32).map fun i => (i, if i = 0 then 0x38 else 0)) 127) id).writeBytes (bsramAddr 4 7 0) [0x38]).writeBytes
    (scaleAddr 4 1 + 4 * 127) [128]).writeBytes (scaleAddr 4 1 + 512 + 28) [129]
theorem test_mmas_column : ((mmas1.mmaRow 4 127 ms true ((List.range 32).map fun i => if i = 0 then 0x38 else 0)).map (·.1)).getD 7 0 = 0x41000000 := by decide +kernel
theorem test_mzero : runs [.mzero true] ((stepping' .m (going (.mzero true) [] [] [] 0) id).writeBytes (accAddr 4 1 0) [1, 2])
    (fun t => t.readNat (accAddr 4 1 0) 4 == 0 && (t.strm 4 .m).queue.isEmpty) = true := by decide +kernel
def dr (tg : DrainTarget) : DrainOp := ⟨tg, true, .bf16, 0, false, true⟩
def draining (tg : DrainTarget) (cursor : Nat) : State :=
  (stepping' .m { going (.mdrain (dr tg)) [] [] [] cursor with phys := drainRegs (dr tg) 0 } id).writeBytes (accAddr 4 1 cursor) [0, 0, 0x80, 0x3F]
theorem wit_mdrain : (draining (.ts 8191) 1).running .m (cmdOf (draining (.ts 8191) 1) .m) ∧ (draining (.v 8) 15).running .m (cmdOf (draining (.v 8) 15) .m) ∧ (draining (.ts 8191) 1).failedBeat (accAddr 4 1 1) 512 = none ∧ 127 < drainUnits (dr (.ts 0)) ∧ 15 < drainUnits (dr (.v 0)) ∧
    (draining (.ts 8191) 1).countsNone [] :=
  ⟨State.running_intro (by decide +kernel) (by decide +kernel) (by decide +kernel) (by decide +kernel) (by decide +kernel) (by decide +kernel),
   State.running_intro (by decide +kernel) (by decide +kernel) (by decide +kernel) (by decide +kernel) (by decide +kernel) (by decide +kernel), by unfold State.countsNone; decide +kernel⟩
theorem test_mdrain_store : runs (.mdrain (dr (.ts 8191)) :: settles (.mdrain (dr (.ts 8191))) 0 16) (draining (.ts 8191) 1) (fun t => t.readNat (tsAddr 4 0) 2 == 0x3F80 && t.readNat (accAddr 4 1 1) 4 == 0 &&
    ((t.strm 4 .m).queue.map (·.cursor)) == [2]) = true := by decide +kernel
theorem test_mdrain_vector : runs [.mdrain (dr (.v 8))] (draining (.v 8) 15) (fun t => t.readNat (vregAddr 4 (8 + 60)) 2 == 0x3F80 && (t.strm 4 .m).queue.isEmpty) = true := by decide +kernel
def outTile (i : Instr) (cursor : Nat) : State :=
  stepping' .m (going i [] [] [] cursor) fun t => { t with eps := vset t.eps 2 { Endpoint.none with dir := .outbound, peer := (0, 6, 1), permits := 4, granted := true } }
theorem wit_mdrain_link : ((outTile (.mdrain (dr (.ep 2))) 0).ep 4 2).canSend (((outTile (.mdrain (dr (.ep 2))) 0).ep 4 2).fill + 16 * 16 / 512) = true ∧
    targetUnbound (dr (.ep 2)) (outTile (.mdrain (dr (.ep 2))) 0) = false := by decide +kernel
theorem test_mdrain_link : runs [.mdrain (dr (.ep 2)), .mdrain (dr (.ep 2))] (outTile (.mdrain (dr (.ep 2))) 0) (fun t => t.flits.length == 1 && (t.ep 4 2).permits == 3) = true := by
  decide +kernel
/-- A slot that the last row has left partly filled is sent. -/
def padding : State := stepping' .m (going (.mdrain (dr (.ep 2))) [] [] [] 128) fun t =>
  { t with eps := vset t.eps 2 { Endpoint.none with dir := .outbound, peer := (0, 6, 1), permits := 4, granted := true, fill := 256 } }
theorem test_mdrain_pads : padding.running .m (cmdOf padding .m) ∧ (padding.ep 4 2).canSend 1 = true ∧
    runs [.mdrain (dr (.ep 2))] padding (fun t => t.flits.length == 1 && (t.ep 4 2).permits == 3 && (t.strm 4 .m).queue.isEmpty) = true :=
  ⟨State.running_intro (by decide +kernel) (by decide +kernel) (by decide +kernel) (by decide +kernel) (by decide +kernel) (by decide +kernel), by decide +kernel⟩

/-- Registers v1 and v2 hold these first bytes, and v0 the third. -/
def vecs (f : Tile → Tile) (x y z : List Byte) : State := (((tile4 f).writeBytes (vregAddr 4 1) x).writeBytes (vregAddr 4 2) y).writeBytes (vregAddr 4 0) z
def vo (ty : ElTy) (m : BitVec 3) (vf : BitVec 6) : VecOp := ⟨0, 1, 2, 1, false, 0, ty, m, vf⟩
def mv (vf : BitVec 6) : VecOp := ⟨0, 1, 0, 1, false, 0, .i8, 0, vf⟩
theorem wit_vector : let s := vecs id [] [] []
    s.itemReady (.vadd (vo .i8 0 0)) (vo .i8 0 0) [0, 1, 2] ∧ s.itemReady (.vtanh (vo .fp32 0 0)) (vo .fp32 0 0) [0, 1] ∧
    s.itemReady (.vcvt (vo .fp32 0 8)) (vo .fp32 0 8) [0, 1] ∧ s.itemReady (.pset (vo .i8 0 0)) (vo .i8 0 0) [] ∧
    s.itemReady (.vld (mv 0x10)) (mv 0x10) [0] ∧ s.itemReady (.vst (mv 1)) (mv 1) [0] ∧
    groupRegs ((s.tileAt 4).rrbAt s.ck) 639 1 = [639] ∧ s.countsNone [] := by unfold State.itemReady State.countsNone; decide +kernel
theorem wit_vec_store : (vecs id [] [] []).storeFree := State.storeFree_intro (by decide +kernel) (by decide +kernel) (by decide +kernel) (by decide +kernel)
def vec (i : Instr) (x y z : List Byte) (n v : Nat) : Bool := runs [i] (vecs id x y z) fun t => t.readNat (vregAddr 4 0) n == v && (t.strm 4 .m).held.isNone
theorem test_vadd : vec (.vadd (vo .i8 1 0)) [0x7F, 1] [1, 0xFF] [] 2 0x007F = true := by decide +kernel
theorem test_vsub : vec (.vsub (vo .i16 0 0)) [0, 0x80] [1] [] 2 0x7FFF = true := by decide +kernel
theorem test_vmul : vec (.vmul (vo .fp32 0 0)) [0, 0, 0, 0x40] [0, 0, 0x40, 0x40] [] 4 0x40C00000 = true := by decide +kernel
theorem test_vfma : vec (.vfma (vo .fp32 0 0)) [0, 0, 0, 0x40] [0, 0, 0x40, 0x40] [0, 0, 0x80, 0x3F] 4 0x40E00000 = true := by decide +kernel
theorem test_vmax : vec (.vmax (vo .n8 0 0)) [0xFF] [1] [] 1 0xFF = true := by decide +kernel
theorem test_vmin : vec (.vmin (vo .i8 0 0)) [0xFF] [1] [] 1 0xFF = true := by decide +kernel
theorem test_vabs : vec (.vabs ⟨0, 1, 0, 1, false, 0, .i8, 1, 0⟩) [0x80, 0xFF] [] [] 2 0x017F = true := by decide +kernel
theorem test_vcmp : vec (.vcmp (vo .i8 2 0)) [0xFF, 1] [0, 0] [] 2 0x00FF = true := by decide +kernel
theorem test_vsel : vec (.vsel (vo .i8 0 0)) [0xAA] [0x55] [0xF0] 1 0xA5 = true := by decide +kernel
/-- In bf16 the special functions are exact at these points: 2^1, log2 8, 1/4, 1/sqrt 4, tanh 0. -/
theorem test_vexp2 : vec (.vexp2 ⟨0, 1, 0, 1, false, 0, .bf16, 0, 0⟩) [0x80, 0x3F] [] [] 2 0x4000 = true := by decide +kernel
theorem test_vlog2 : vec (.vlog2 ⟨0, 1, 0, 1, false, 0, .bf16, 0, 0⟩) ((List.replicate 32 [0, 0x41]).flatten) [] [] 2 0x4040 = true := by decide +kernel
theorem test_vrcp : vec (.vrcp ⟨0, 1, 0, 1, false, 0, .bf16, 0, 0⟩) [0x80, 0x40] [] [] 2 0x3E80 = true := by decide +kernel
theorem test_vrsqrt : vec (.vrsqrt ⟨0, 1, 0, 1, false, 0, .bf16, 0, 0⟩) ((List.replicate 32 [0x80, 0x40]).flatten) [] [] 2 0x3F00 = true := by decide +kernel
theorem test_vtanh : vec (.vtanh ⟨0, 1, 0, 1, false, 0, .bf16, 0, 0⟩) [0, 0] [] [] 2 0 = true := by decide +kernel
theorem test_vred : vec (.vred ⟨0, 1, 0, 1, false, 0, .i8, 0, 4⟩) [1, 2, 3, 0xFF] [] [9, 9, 9, 9] 4 5 = true := by decide +kernel
theorem test_vbcast : vec (.vbcast ⟨0, 1, 0, 1, false, 0, .i8, 0, 63⟩) (List.replicate 63 0 ++ [5]) [] [] 2 0x505 = true := by decide +kernel
theorem test_vperm : vec (.vperm (vo .i8 0 0)) [10, 11, 12] [2, 65] [] 2 0x0B0C = true := by decide +kernel
theorem test_vcvt : vec (.vcvt ⟨0, 1, 0, 1, false, 0, .fp32, 0, 8⟩) [0, 0, 0x80, 0x3F] [] [] 2 0x3F80 = true := by decide +kernel
/-- 1 + 2^-20 is inexact in bf16 (R43). -/
theorem test_vcvt_flags : runs [.vcvt ⟨0, 1, 0, 1, false, 0, .fp32, 0, 8⟩] (vecs id [8, 0, 0x80, 0x3F] [] []) (fun t => (t.tileAt 4).fcsr == flagNX.zeroExtend 9) = true := by decide +kernel
theorem test_vadd_predicated : runs [.vadd ⟨0, 1, 2, 1, true, 3, .i8, 0, 0⟩] (vecs (fun t => { t with preds := vset t.preds 3 1 }) [1, 1] [1, 1] [9, 9])
    (fun t => t.readNat (vregAddr 4 0) 2 == 0x0902) = true := by decide +kernel
theorem wit_vld : let s := vecs id [] [] []
    (∀ g ∈ pieceGranules (pieces 4 (mv 0x10) 0), s.isFull g = true) ∧ (pieces 4 (mv 0) 0).findSome? (s.failedBeat · 64) = none := by decide +kernel
theorem test_vld : runs (List.replicate 5 (.vld (mv 0x11)) ++ settles (.vld (mv 0x11)) 0 4) ((vecs id [] [] []).writeBytes (tsAddr 4 (512 + 64)) [7]) (fun t => t.readByte (vregAddr 4 0) == 7 && !t.isFull (tsAddr 4 (512 + 64)) &&
    t.isFull (tsAddr 4 512)) = true := by decide +kernel
theorem test_vst : runs (.vst (mv 1) :: settles (.vst (mv 1)) 0 4) ((vecs id [] [] [7]).setEmpty (tsAddr 4 (512 + 64))) (fun t => t.readByte (tsAddr 4 (512 + 64)) == 7 && t.isFull (tsAddr 4 (512 + 64))) = true := by
  decide +kernel
theorem test_pset : runs [.pset ⟨3, 64, 0, 1, false, 0, .i8, 0, 0⟩] (tile4 id) (fun t => (t.tileAt 4).activeCount ⟨0, 0, 0, 1, true, 3, .i8, 0, 0⟩ == some 64) = true := by decide +kernel
/-! ## Dense tiles: floes -/

/-- A floe of one block of four fp32 elements with k = 3, in the home channel of core 3. -/
def floeRec : List Byte := shape 0 4 .fp32 [4] [1]
def storeRec : List Byte := shape 0x80 1 .fp32 [4] [1]
def firnState (i : Instr) (a b : List Byte) (buf : List (Nat × Nat)) : State :=
  { stepping' .s { going i a b buf 0 with phys := [0] } id with tileTlbs := [(4, [⟨0, 18, addrOf 3 0x400000000, true, true, true, true⟩])], hbmReady := true }
def c1 : CopyOp := ⟨0, 1, 0, 0, 0, 0, 0, 0, 0⟩
def stashing : State := firnState (.xstash c1) storeRec floeRec [(0, 0x3F800000), (1, 0x40000000), (2, 0), (3, 0xBF800000)]
def restoring : State := firnState (.xrest c1) floeRec storeRec []
def floeShape : ShapeRec := (parseShape floeRec).getD ⟨0, .fp32, 0, 0, 0, [], []⟩
def floeAt (p : Nat) : Nat := addrOf 3 (0x400000000 + p)
def spotIs (x : Spot) (g : Nat) : Bool := match x with
  | .at none h => h == g
  | _ => false
theorem wit_floe_run : stashing.running .s (cmdOf stashing .s) ∧ restoring.running .s (cmdOf restoring .s) :=
  ⟨State.running_intro (by decide +kernel) (by decide +kernel) (by decide +kernel) (by decide +kernel) (by decide +kernel) (by decide +kernel),
   State.running_intro (by decide +kernel) (by decide +kernel) (by decide +kernel) (by decide +kernel) (by decide +kernel) (by decide +kernel)⟩
theorem wit_floe : parseShape floeRec = some floeShape ∧ floeShape.kind = 4 ∧ floeShape.count = 4 ∧
    (cmdOf stashing .s).phys ≠ [] ∧ (cmdOf stashing .s).hasRead 0 4 ∧ stashing.firn = [] ∧ stashing.tileLaunch 4 = none ∧
    (∀ p ∈ floeShape.blockBytes 0 true, spotIs (stashing.floeSpot 4 floeShape 0 0 ⟨false, true, true⟩ p) (floeAt p) = true ∧ stashing.ready (floeAt p) = true) ∧
    (∀ p ∈ floeShape.blockBytes 0 false, spotIs (restoring.floeSpot 4 floeShape 0 0 ⟨true, false, true⟩ p) (floeAt p) = true ∧ restoring.ready (floeAt p) = true ∧
      restoring.failedBeat (floeAt p) 1 = none) ∧ ((floeShape.blockBytes 0 true).map floeAt).Nodup := by
  unfold DtCmd.hasRead; decide +kernel
/-- The largest magnitude of the block has the exponent of 2; the last byte of the header plane is padding. -/
theorem test_stash_moves : runs [.xstash c1, .firnBlockEncode stashing.nextId, .xstash c1] stashing
    (fun t => (t.strm 4 .s).queue.isEmpty && t.readNat (floeAt 0) 2 != 0 && t.readByte (floeAt 63) == 0) = true := by decide +kernel
/-- A block of zeros restores to zeros. -/
theorem test_rest_moves : runs ([.xrest c1, .firnBlockDecode restoring.nextId, .xrest c1, .xrest c1] ++ settles (.xrest c1) (restoring.nextId + 1) 1) (restoring.writeBytes (tsAddr 4 0x80) [9, 9, 9, 9])
    (fun t => (t.strm 4 .s).queue.isEmpty && t.readNat (tsAddr 4 0x80) 4 == 0) = true := by decide +kernel

/-! ## Links -/

def outEp : Endpoint := { Endpoint.none with dir := .outbound, peer := (0, 6, 1), permits := 3, granted := true }
/-- Endpoint 1 of tile 4, and a flit to it from endpoint 1 of tile 6. -/
def linked (e : Endpoint) (bodies : List LinkBody) : State :=
  { tile4 (fun t => { t with eps := vset t.eps 1 e }) with flits := bodies.map fun b => ⟨4, 1, (0, 6, 1), b, 0⟩ }
def inEp0 : Endpoint := { Endpoint.none with dir := .inbound, peer := (0, 6, 1) }
def outEp0 : Endpoint := { Endpoint.none with dir := .outbound, peer := (0, 6, 1) }
def linkTest (i : Instr) (e : Endpoint) (b : LinkBody) (p : Endpoint → Bool) : Bool := runs [i] (linked e [b]) fun t => p (t.ep 4 1)
theorem wit_links : let s := linked inEp0 [.grant]
    (s.ep 4 (epIdx 1)).dir = .inbound ∧ (s.ep 4 (epIdx 1)).peer = (0, 6, 1) ∧ (s.ep 4 (epIdx 1)).filled < 32 ∧ s.awaitsMove 4 1 = false ∧ s.names 0 = true ∧
    s.dev = 0 ∧ s.auditPort outEp = some 8 ∧ outEp.auditable = true ∧ (linked outEp []).inLaunchBox 4 0 = true := by decide +kernel
theorem test_grant : linkTest (.grantArrival 0) outEp0 .grant (fun e => e.permits == 32 && e.granted) = true := by decide +kernel
theorem test_grant_pends : linkTest (.grantArrival 0) Endpoint.none .grant (fun e => e.pend == some (0, 6, 1)) = true := by decide +kernel
theorem test_slot : runs [.slotArrival 0] (linked { inEp0 with head := 31, occ := 0x80000000 } [.slot (List.replicate 512 5) []])
    (fun t => (t.ep 4 1).occ == 0x80000001) = true := by decide +kernel
theorem test_close : linkTest (.closeMarkArrival 0) inEp0 .close (·.close) = true ∧ linkTest (.closeMarkArrival 0) outEp .gone (·.broken) = true := by decide +kernel
theorem test_credit : linkTest (.creditArrival 0) outEp (.credit 5) (·.permits == 8) = true := by decide +kernel
theorem test_hold : runs [.holdFlit 0] (linked outEp [.hold]) (fun t => (t.ep 4 1).held && decide (t.flits = [⟨6, 1, (0, 4, 1), .held, 0⟩])) = true ∧
    linkTest (.heldFlit 0) outEp .held (·.heldBack) = true := by decide +kernel
theorem test_moved : linkTest (.movedFlit 0) { outEp with held := true } (.moved 0 7 2 none) (fun e => e.peer == (0, 7, 2) && !e.held) = true := by decide +kernel
theorem test_marker : runs [.auditMarker 0] (linked { inEp0 with occ := 3, owed := 2 } [.marker 20]) (fun t => decide (t.flits = [⟨6, 1, (0, 4, 1), .reply 4, 0⟩])) = true := by
  decide +kernel
/-- 32 permits between the two ends, and a period of five ticks. -/
def audited (e : Endpoint) (bodies : List LinkBody) (ck : Nat) : State := { (linked e bodies).setReg (auditReg 8) 0x500000020 with ck := ck }
def round : Endpoint := { outEp with audit := some ⟨20, 2, 0⟩ }
theorem wit_audit : (audited outEp [] 150).field (auditReg 8) 32 32 = 5 ∧ (audited outEp [] 150).field (auditReg 8) 0 6 = 32 ∧ (audited outEp [] 150).rtick = 5 := by
  decide +kernel
theorem test_reply : runs [.auditReply 0] (audited round [.reply 10] 0) (fun t => (t.ep 4 1).audit.isNone && !(t.ep 4 1).held && t.events.isEmpty) = true ∧
    runs [.auditReply 0] (audited round [.reply 9] 0) (fun t => (t.ep 4 1).held && t.events.length == 1 && decide ((t.flits.map (·.body)) = [.hold])) = true := by
  decide +kernel
theorem test_no_reply : runs [.auditNoReply 33] (audited round [] (2 ^ 20)) (fun t => (t.ep 4 1).broken && (t.ep 4 1).held && t.events.length == 1) = true := by
  decide +kernel
theorem test_period : runs [.auditPeriod 4 1] (audited outEp [] 150) (fun t => decide ((t.ep 4 1).audit = some ⟨3, 0, 150⟩) && decide ((t.flits.map (·.body)) = [.marker 3])) = true := by
  decide +kernel
/-- An end that can take part in no round says so, and the round ends. -/
theorem test_no_round : runs [.auditMarker 0] (linked { inEp0 with closing := true } [.marker 20]) (fun t => decide (t.flits = [⟨6, 1, (0, 4, 1), .noRound, 0⟩])) = true ∧
    runs [.auditReply 0] (linked round [.noRound]) (fun t => (t.ep 4 1).audit.isNone && t.events.isEmpty) = true := by decide +kernel
def binding (i : Instr) (sent : Bool) (e : Endpoint) : State := stepping' .s { dtCmd i with sent := sent } fun t => { t with eps := vset t.eps 2 e }
def bo : BindOp := ⟨0xFFFF, 6, 1, 2, 0⟩
theorem test_bind_in : runs [.xbindIn bo] (binding (.xbindIn bo) false Endpoint.none) (fun t => decide (t.ep 4 2 = inEp0) && (t.strm 4 .s).queue.isEmpty &&
    decide (t.flits = [⟨6, 1, (0, 4, 2), .grant, 0⟩])) = true := by decide +kernel
theorem test_bind_out : runs [.xbindOut bo] (binding (.xbindOut bo) false Endpoint.none) (fun t => decide (t.ep 4 2 = outEp0)) = true ∧
    runs [.xbindOut bo] (binding (.xbindOut bo) false { Endpoint.none with pend := some (0, 6, 1) }) (fun t => decide (t.ep 4 2 = { outEp0 with permits := 32, granted := true })) = true := by
  decide +kernel
theorem test_bind_off : runs [.xbindOff 2 0] (binding (.xbindOff 2 0) false { inEp0 with close := true }) (fun t => decide (t.ep 4 2 = Endpoint.none)) = true ∧
    runs [.xbindOff 2 0] (binding (.xbindOff 2 0) false { outEp0 with permits := 30, granted := true }) (fun t => (t.ep 4 2).closing && !(t.strm 4 .s).queue.isEmpty &&
      decide (t.flits = [⟨6, 1, (0, 4, 2), .close, 0⟩])) = true ∧
    runs [.xbindOff 2 0] (binding (.xbindOff 2 0) false { outEp0 with permits := 32, closing := true }) (fun t => decide (t.ep 4 2 = Endpoint.none)) = true ∧
    runs [.xbindOff 2 0] (binding (.xbindOff 2 0) false Endpoint.none) (fun t => (t.tileAt 4).code == causeIllegal) = true := by decide +kernel

/-! ## Coach -/

/-- Scope table 3 holds the box of devices 0 and 1; an exchange with device 1 of two fp32 elements. -/
def xo : CoachOp := ⟨0, 1, 0, 0, 3, 0, 0, false, 0, 0, 0⟩
def xrec (a : Nat) : List Byte := shape a 1 .fp32 [2] [1]
def xcmd (i : Instr) : DtCmd := { dtCmd i with recA := xrec 0x20, recB := xrec 0x40 }
def coached (i : Instr) : State := ((stepping' .s (xcmd i) id).setReg 8 0x4000000).writeBytes (scopeAddr 3 + 0x88) [0, 0, 0, 4, 0, 0, 0, 0x80]
def xstart : CoachStart := ((coached (.xceXchg xo)).coachStart 2 xo (xrec 0x20) (xrec 0x40)).getD ⟨0, false, ⟨0, 0, .fp32, .fp32, 0⟩, floeShape, floeShape⟩
theorem wit_coach : let s := coached (.xceXchg xo)
    s.turn = .cmd 4 .s ∧ (s.strm 4 .s).queue = [xcmd (.xceXchg xo)] ∧ (s.tileAt 4).stopped = false ∧ s.paused (s.tileAt 4).launch = false ∧
    s.failedBeat (scopeAddr 3 + 0x88) 8 = none ∧ s.names 1 = true ∧ s.coachStart 2 xo (xrec 0x20) (xrec 0x40) = some xstart ∧ xstart.peer = 1 ∧
    s.sideTrap 4 xstart.src 0 false (0, false) (.xceXchg xo) = none ∧ s.sideTrap 4 xstart.dst 0 true (0, false) (.xceXchg xo) = none := by decide +kernel
theorem test_xce : runs [.xceXchg xo] (coached (.xceXchg xo)) (fun t => (t.coach.map fun x => (x.peer, x.occ, x.terms.n)) == [(1, 0, 2)] &&
    lookup 0 (t.tileAt 4).occs (occKey 3 0) == 1) = true := by decide +kernel
def step1 : CoachStep := ⟨4, xcmd (.xceXchg xo), 3, 0, 0, 1, true, ⟨2, 0, .fp32, .fp32, 2⟩, false, true, none, some [5, 6], 1, 0, [], 0, false, some 99⟩
def coachAt (x : CoachStep) (m : List Payload) : State := { coached (.xceXchg xo) with coach := [x], inbox := m }
def ready1 : Payload := .coachReady 4 3 0 0 1 2 0 .fp32 .fp32 2
theorem wit_coach_step : (coachAt step1 []).keyed 4 3 0 0 1 = some step1 ∧ step1.ready = true ∧ step1.terms = ⟨2, 0, .fp32, .fp32, 2⟩ ∧
    ({ step1 with got := some step1.terms }).committed = true ∧ ({ step1 with got := some step1.terms, acked := 1, recv := [7, 8], written := 2 }).over = true := by decide +kernel
theorem test_coach_ready : runs [.coachReadyFlit 0] (coachAt step1 [ready1]) (fun t => decide (t.coach = [{ step1 with got := some step1.terms, deadline := none }]) && t.inbox.isEmpty) = true ∧
    runs [.coachReadyFlit 0] { coached (.xceXchg xo) with inbox := [ready1] } (fun t => t.readies.length == 1) = true := by decide +kernel
theorem test_coach_data : runs [.coachDataFlit 0] (coachAt { step1 with got := some step1.terms } [.coachData 4 3 0 0 1 0 [7, 8]])
    (fun t => (t.coach.map (·.recv)) == [[7, 8]] && (t.outbox.map (·.dest)) == [1]) = true ∧
    runs [.coachDataFlit 0] (coachAt step1 [.coachAck 4 3 0 0 1]) (fun t => (t.coach.map (·.acked)) == [1]) = true := by decide +kernel
theorem test_coach_finish : runs [.coachStepFinish 9] (coachAt { step1 with got := some step1.terms, acked := 1, recv := [7, 8], written := 2 } [])
    (fun t => t.coach.isEmpty && ((t.strm 4 .s).queue.map (·.cursor)) == [1]) = true := by decide +kernel
/-- A launch of tile 4 alone, of queue 3, in the boxes of this device. -/
def rec0 : List Word := [0x700000000, 0, 0, 16, 0x300020001, 0xFFFF, 0, 0] ++ List.replicate 24 0
def launchT : Launch := ⟨rec0, 0, 3, 0⟩
def preempt0 : Preempt := ⟨2, launchT, false, 0, 0, [], []⟩
theorem test_quiesce : runs [.quiesceMarker 0] { State.reset with inbox := [.quiesce 1 2], preempts := [preempt0] } (fun t => (t.preempts.map (·.heard)) == [[1]]) = true := by
  decide +kernel

/-! ## Ports -/

/-- Two devices along dimension d: port 6 leads from device 0 to device 1, with eight lanes. -/
def fab (f : Port → Port) : State := ((State.reset.setReg 8 0x4000000).setReg (linkReg 6) 0xFF30).setPort 6 (f Port.reset)
def pkt : Packet := ⟨0, 1, none, none, .quiesce 1 2, none⟩
theorem wit_port : (fab id).portUp 6 = true ∧ ((fab id).port 6).training = false := by decide +kernel
theorem test_receive : runs [.flitReceive 6 0 true pkt] (fab id) (fun t => (t.port 6).want == 1 && t.outbox == [pkt]) = true ∧
    runs [.flitReceive 6 1 true pkt] (fab id) (fun t => (t.port 6).asks && t.outbox.isEmpty) = true := by decide +kernel
theorem test_replay : runs [.replayRequest 6 4] (fab fun p => { p with kept := [(3, pkt, 2), (4, pkt, 0)] }) (fun t => ((t.port 6).kept.map (·.2.2)) == [0, 1] && t.field (linkReg 6) 32 32 == 1) = true ∧
    runs [.replayRequest 6 4] (fab fun p => { p with kept := [(4, pkt, 7)] }) (fun t => (t.port 6).training) = true := by decide +kernel
theorem test_lanes : runs [.laneFailure 6 3] (fab id) (fun t => (t.port 6).training && (t.port 6).bad == 3) = true ∧ runs [.retrain 6] (fab fun p => { p with bad := 1 })
    (fun t => (t.port 6).training && (t.port 6).widen && (t.port 6).bad == 0) = true := by decide +kernel
theorem wit_retrain_end : ((fab fun p => { p with training := true }).port 6).training = true ∧ (fab fun p => { p with training := true }).justSet (linkReg 6) 2 = false := by
  decide +kernel
/-! ## The launch unit -/

/-- Queue 3 with partition 2, which is enabled and has tile 4; its record is read, and TAIL is one past HEAD. -/
def launching (f : State → State) : State :=
  f { (((State.reset.setReg (qReg 3 1) 0x2014).setReg (pReg 2 3) 1).setReg (pReg 2 1) 16).setReg 0x1000 0x100 with queues := [(3, ⟨1, false, some rec0, [], none⟩)] }
def homeT : HomeLaunch := ⟨3, 2, rec0, [0], [], [0], true, [], 0, 5, false⟩
/-- The launch runs on tile 4, which is at rest. -/
def launched (f : State → State) : State :=
  f { launching id with launches := [(2, launchT)], homes := [homeT], queues := [], tiles := [(4, { Tile.reset with launch := some 2 })], regs := (((launching id).setReg (pReg 2 4) 1).setReg (qReg 3 5) 1).regs }
theorem wit_takes : let s := launching id
    s.arbAsked = false ∧ (runs [.arbselGo 0x43] s State.arbAsked) = true ∧
    s.mayAct = true ∧ s.field 0x20 1 1 = 0 ∧ s.choose true = some (.queue 3) ∧ s.eligibleQueue 3 = true ∧ (launchOfRecord s rec0 s.dev 3).devices s.dev = [s.dev] ∧
    s.qPart 3 = 2 ∧ s.masksHold 2 (launchOfRecord s rec0 s.dev 3) = true := by decide +kernel
theorem test_decision : runs [.launchDecision] (launching id) (fun t => (t.held.map (·.part)) == [2] && t.field (pReg 2 4) 16 6 == 3 && t.rr == 3) = true := by decide +kernel
theorem test_arbsel : runs [.arbselGo 0x43, .launchDecision] (launching fun s => s.setReg 0x20 2) (fun t => (t.held.map (·.part)) == [2]) = true := by decide +kernel
theorem test_qtail : runs [.qtailWrite 3 5] (launching id) (fun t => (t.queue 3).seen == 5 && !(t.queue 3).bad) = true ∧
    runs [.qtailWrite 3 0xFFFFFFFF] (launching id) (fun t => (t.queue 3).bad && t.events.length == 1 && t.field (qReg 3 5) 8 8 == 1) = true := by decide +kernel
theorem test_halt_clear : runs [.qstatHaltClear 3 2] (launching fun s => s.setReg (qReg 3 5) 0x102) (fun t => t.field (qReg 3 5) 1 1 == 0) = true := by decide +kernel
def unread (host : Bool) : State := launching fun s => { (s.setReg (qReg 3 0) (BitVec.ofNat 64 (0xFFFF * 2 ^ 48 + shmBase))).setReg (qReg 3 1) (if host then 0x12014 else 0x2014) with
  queues := [(3, ⟨1, false, none, [], none⟩)] }
theorem wit_record : let s := unread false
    s.mayAct = true ∧ (s.queue 3).record = none ∧ (s.queue 3).seen ≠ s.qHead 3 ∧ s.recordHere (s.recordAddr 3) = true ∧ s.ready (s.recordAddr 3 % 2 ^ 48) = true ∧
    s.failedBeat (s.recordAddr 3 % 2 ^ 48) 256 = none ∧ s.recordOk (launchOfRecord s (List.replicate 32 0) s.dev 3) = true ∧ s.recordOk (launchOfRecord s rec0 s.dev 3) = true := by
  decide +kernel
theorem test_record : runs [.recordRead 3 []] (unread false) (fun t => decide ((t.queue 3).record = some (List.replicate 32 0))) = true ∧
    runs [.recordRead 3 rec0] (unread true) (fun t => decide ((t.queue 3).record = some rec0)) = true := by decide +kernel
theorem test_reservation : runs [.reservation 0] (launching fun s => { s with inbox := [.reserve 1 3 2 0 rec0] }) (fun t => (t.resvs.map (·.home)) == [1] && t.inbox.isEmpty) = true := by
  decide +kernel
def held1 : State := launching fun s => { s with held := [⟨2, launchT, some [], true, [], [], none⟩] }
theorem wit_wake : held1.mayAct = true ∧ held1.stepJobs = [] ∧ held1.imageFar launchT = false ∧ launchT.hasDt 4 = true := by decide +kernel
theorem test_wake : runs [.wake 2] held1 (fun t => t.held.isEmpty && t.field (pReg 2 4) 0 1 == 1 && (t.tileAt 4).launch == some 2 && (t.strm 4 .s).pc == 1 && (t.strm 4 .m).pc == 3) = true := by
  decide +kernel
theorem wit_launch_over : let s := launched id
    s.preempts = [] ∧ launchT.lcCnt = 0 ∧
    s.dtComplete 4 = true ∧ s.mayAct = true ∧ launchT.home = s.dev ∧ s.launches = [(homeT.part, launchT)] ∧ homeT.devs = [s.dev] ∧ homeT.queue = launchT.queue ∧ s.preBusy 2 = false ∧
    (launched fun s => { s with ck := 180 }).rtick = 6 := by decide +kernel
theorem test_launch_over : runs [.launchComplete 2, .completionCount 3] (launched id) (fun t => t.launches.isEmpty && t.homes.isEmpty && t.reg (qReg 3 4) == 1 && t.field (qReg 3 5) 0 1 == 0 &&
    t.field (pReg 2 4) 0 1 == 0) = true := by decide +kernel
theorem test_event : runs [.eventDelivery] (launching fun s => { s with events := [⟨2, 5, 6⟩] }) (fun t => decide (((t.coreAt serviceCore).msgq) = [⟨0xF2, 5, 6⟩]) && t.events.isEmpty) = true := by
  decide +kernel
/-- Ring 0 is enabled, with two records of room. -/
def ringed : State := launching fun s => { ((s.setReg 0x20 4).setReg (ringReg 0 1) 0x101) with events := [⟨2, 5, 6⟩] }
theorem test_event_ring : ringed.ringRoom 0 = true ∧ runs [.eventDelivery] ringed (fun t => !t.posts.isEmpty && t.events.isEmpty) = true := by decide +kernel
/-- A launch whose limit has passed, and one whose partition is reset: the units are taken back, and then the home's entries end. -/
def expired : State := launched fun s => { s with homes := [{ homeT with expired := true }] }
def afterReset1 : State := launched fun s => { s with homes := [], launches := [], resets := [⟨2, 5, launchT⟩] }
theorem wit_watchdog : expired.mayAct = true ∧ expired.inbox = [] ∧ expired.held = [] ∧ expired.resets = [] ∧ expired.justSet (pReg 2 3) 1 = false ∧
    afterReset1.mayAct = true ∧ afterReset1.homes = [] := by decide +kernel
theorem test_watchdog : runs [.watchdogExpiry 2] expired (fun t => t.launches.isEmpty && (t.resets.map (·.state)) == [5]) = true ∧
    runs [.watchdogExpiry 2] afterReset1 (fun t => t.resets.isEmpty && t.field (qReg 3 5) 8 8 == 0x12 && t.events.length == 1) = true ∧
    runs [.pctlReset 2 2, .watchdogExpiry 2, .watchdogExpiry 2] (launched id) (fun t => t.homes.isEmpty && t.field (qReg 3 5) 8 8 == 7 && t.field (pReg 2 3) 1 1 == 0) = true := by
  decide +kernel
/-- A record in the SHM of device 1, which lies in the fabric. -/
def farRecord : State := launching fun s => { ((s.setReg (qReg 3 0) (BitVec.ofNat 64 (2 ^ 48 + shmBase))).setReg (qReg 3 1) 0x2014).setReg 8 0x4000000 with
  queues := [(3, ⟨1, false, none, [], none⟩)] }
theorem test_record_far : farRecord.recordFar (farRecord.recordAddr 3) = true ∧ (farRecord.queue 3).asked = none ∧
    runs [.recordRead 3 []] farRecord (fun t => (t.queue 3).asked == some 0 && (t.queue 3).record.isNone) = true := by decide +kernel
theorem test_enable : runs [.pctlEnable 5 1] (launching id) (fun t => t.field (pReg 5 3) 0 1 == 1) = true ∧
    runs [.pctlEnable 5 1] (launching fun s => s.setReg (pReg 5 1) 0x30) (fun t => t.field (pReg 5 3) 0 1 == 0 && t.field (pReg 5 4) 3 1 == 1) = true ∧
    runs [.pctlEnable 2 0] (launching id) (fun t => t.field (pReg 2 3) 0 1 == 0) = true := by decide +kernel
/-- The image lies in a home channel. -/
def imaged (f : State → State) : State := launched fun s => f (s.setReg (pReg 2 5) (BitVec.ofNat 64 (addrOf 3 0x400000000)))
theorem wit_save : (imaged id).launchOf 2 = some launchT ∧ ((imaged id).preWrite 2 1).imageInOne 2 launchT.imageSize = true := by decide +kernel
theorem test_save : runs [.ppreSave 2 1] (imaged id) (fun t => t.field (pReg 2 6) 0 1 == 1 && t.homePreempts.length == 1) = true := by decide +kernel
/-- The header of an image of a launch that has no unit: its box is this device. -/
def emptyImage : State :=
  let s := { launching fun s => s.setReg (pReg 2 5) (BitVec.ofNat 64 (addrOf 3 0x400000000)) with queues := [], hbmReady := true }
  let b := s.imageAddr 2
  ((s.setReg (qReg 0 5) 1).writeBytes b (natToBytes 8 (2 ^ 16 + s.stepping))).writeBytes (b + 0x10) (natToBytes 8 0x10000)
theorem wit_restore : let s := emptyImage
    let s1 := s.preWrite 2 2
    s.preBusy 2 = false ∧ s1.newBox 2 0 = 0 ∧ s1.imageCheck 2 s.dev 0 = 0 ∧ s1.field (qReg 0 5) 0 1 = 1 ∧ s.homes = [] ∧ s.homePreempts = [] := by decide +kernel
theorem test_restore : runs [.ppreRestore 2 2] emptyImage (fun t => t.field (pReg 2 6) 1 1 == 1 && t.homePreempts.length == 1) = true := by decide +kernel
/-- The launch holds core 9, whose context 0 is stopped; its tile 4 is stopped with no trap. -/
def resting : State := launched fun s =>
  { (s.setCtx 9 0 { Context.reset with state := .stopped }) with tiles := [(4, { Tile.reset with launch := some 2, stopped := true, s := { DtStream.reset with status := .stopped } })] }
def restingLc : State := resting.setCore 9 { resting.coreAt 9 with launch := some 2 }
theorem wit_resume : (restingLc.tileAt 4).late = [] ∧ (restingLc.lcLaunch 9) = some (2, launchT) ∧ (restingLc.ctxAt 9 0).state = .stopped ∧ ((restingLc.uresFields (9 * 2 ^ 37 + 2)).resumeArea).isSome = true ∧
    restingLc.tileLaunch 4 = some (2, launchT) ∧ (restingLc.tileAt 4).valid = false := by decide +kernel
theorem test_resume : runs [.uresGo (1028 * 2 ^ 37 + 1)] restingLc (fun t => t.field 0x40 4 4 == 0 && !(t.tileAt 4).stopped && decide ((t.strm 4 .s).status = .run)) = true := by decide +kernel
/-! ## Services of the register block -/

/-- The pair at offset 0x40 of SHM holds a capability of core 3 with base 0 and length 16, and no permission. -/
def capQuad : Quad := BitVec.ofNat 128 (0xFFFF * 2 ^ 112 + 3 * 2 ^ 101 + 16 * 2 ^ 27)
def regd (off : Nat) (v : Word) : State := State.reset.setReg off v
def withCap (q : Nat) : State := (regd 0x200 0x40).writeBytes (shmBase + 0x40) (natToBytes 16 q)
def issued : State := { withCap 0 with tags := [shmBase + 0x40] }
theorem test_cap_clr : runs [.capctlClr 2] issued (fun t => !t.tagAt t.capPair && t.field 0x218 4 4 == 0) = true ∧ issued.capBusy 1 = false ∧ issued.tagAt issued.capPair = true := by decide +kernel
theorem test_cap_set : issuable capQuad = true ∧ (withCap capQuad.toNat).capBusy 0 = false ∧ issuable (BitVec.ofNat 128 ((withCap capQuad.toNat).readNat (withCap 0).capPair 16)) = true ∧
    runs [.capctlSet 1] (withCap capQuad.toNat) (fun t => t.tagAt t.capPair && t.field 0x218 4 4 == 0) = true := by decide +kernel
theorem test_cap_set_refused : issuable 0 = false ∧ runs [.capctlSet 1] (withCap 0) (fun t => !t.tagAt t.capPair && t.field 0x218 4 4 == 1) = true := by decide +kernel
theorem test_sweep : runs [.capctlSweep 4, .sweepDone] (withCap 0) (fun t => t.field 0x218 2 1 == 0) = true := by decide +kernel
theorem test_audctl : runs [.audctlNow 3 0x700000020] State.reset (fun t => t.field (auditReg 3) 32 32 == 7 && t.field (auditReg 3) 0 6 == 32 && t.flits.isEmpty) = true := by decide +kernel
/-- A port's NOW starts a round of its pair; the free running engine of port 8 is that of pairs in this device. -/
theorem test_audctl_now : runs [.audctlNow 8 0x100] (linked outEp []) (fun t => t.field (auditReg 8) 8 1 == 1 && decide ((t.ep 4 1).audit = some ⟨3, 0, 0⟩)) = true := by decide +kernel
theorem test_aspare : runs [.aspareWrite 4 0xFF110201] State.reset (fun t => t.reg (0x12050 + 512) == 0xFF110201) = true := by decide +kernel
/-- Core 9 stands at position 33, which PMAP gives it; position 34 is on standby. -/
def mapped : State := ((regd (lmapReg 9 / 8 * 8) (33 * 2 ^ 16)).setReg (pmapReg 33 / 8 * 8) ((2 ^ 13 + 9) * 2 ^ 16 + 2 * 2 ^ 13 * 2 ^ 32))
def moveWord : Word := 9 * 2 ^ 37 + 2 * 2 ^ 11 + 1 * 2 ^ 6 + 1
theorem wit_move : let s1 := ((mapped.setField 0x30 37 11 9).setField 0x30 11 5 2).setField 0x30 6 5 1
    s1.movePos = 34 ∧ s1.halfReg (pmapReg 34) / 2 ^ 13 = 2 ∧ s1.moveInUse = false ∧ s1.poolInUse = false ∧ s1.halfReg (lmapReg 9) = 33 := by decide +kernel
theorem test_move : runs [.lsubGo moveWord, .lsubMoveDone] mapped (fun t => t.field 0x30 0 1 == 0 && t.halfReg (lmapReg 9) == 34 && t.halfReg (pmapReg 34) == 2 ^ 13 + 9 &&
    t.halfReg (pmapReg 33) == 4 * 2 ^ 13) = true := by decide +kernel
def hostable : State := { State.reset with hbmReady := true }
def hreq (w : Option (List Byte)) : HostReq := ⟨3 * 2 ^ 30 + 64, 2, w, false, some 1⟩
theorem wit_host : hdmAddr (3 * 2 ^ 30 + 64) = some (addrOf 3 0x400000040) ∧ hostable.ready (addrOf 3 0x400000040) = true ∧ hostable.failedBeat (addrOf 3 0x400000040) 2 = none := by decide +kernel
theorem test_host : runs [.cxlMemRequest (hreq (some [1, 2])), .bar4Request (hreq none)] hostable (fun t => t.hostOut == [(3 * 2 ^ 30 + 64, [1, 2], false)]) = true := by decide +kernel
/-- A posted write waits behind an earlier one of its requester. -/
theorem test_host_order : let s := { hostable with hostReqs := [hreq (some [3, 4])] }
    (s.hostReqs.any (hostBehind (hreq (some [1, 2])))) = true ∧ runs [.bar4Request (hreq (some [1, 2]))] s (fun t => t.hostReqs.length == 2) = true ∧
    (s.hostReqs.any (hostBehind { hreq (some [1, 2]) with requester := some 2 })) = false := by decide +kernel
theorem test_register : runs [.registerWrite 0x1010 false 0x123456789ABCDEF0, .registerWrite 0x1010 true 1, .registerWrite 0x1014 true 2] State.reset (fun t => t.reg 0x1010 == 0x200000001) = true := by
  decide +kernel
theorem test_unmask : runs [.msixUnmask 5] { State.reset with msixPend := 0x20 } (fun t => t.msixPend == 0 && !t.msixMask.getLsbD 5 && decide (t.posts = [State.reset.msixPost 5])) = true := by decide +kernel

/-! ## Boot, services of firmware, the debug port -/

theorem test_reset : runs [.reset] { tile4 id with frozen := true, flash := [(7, 5)] } (fun t => t.tiles.isEmpty && !t.frozen && t.flashByte 7 == 5) = true := by decide +kernel
theorem test_bootctl : runs [.bootctlReady 1] (regd 0x1008 4) (fun t => t.field 0x1000 0 1 == 1 && t.field 0x1000 8 1 == 0) = true ∧
    (regd 0x1008 4).discState = 2 ∧ (regd 0x1008 4).romFailed = false := by decide +kernel
/-- The ROM runs, and no package stands in SHM: its FORMAT is 0, and not 1 (R435). -/
def romRuns : State := { State.reset.setCtx serviceCore 0 { Context.reset with state := .run, pc := 0x30000 } with booted := true, turn := .rom }
theorem wit_rom : romRuns.frozen = false ∧ romRuns.closing = false ∧ romRuns.romEnd = none ∧ (romRuns.ctxAt serviceCore 0).state = .run ∧
    romRuns.failedBeat packageAddr 0x20 = none ∧ romRuns.packageForm = false := by decide +kernel
theorem test_rom : (match step romRuns with
    | .next t => t.reg 0x1010 == 0x100000000000001 && decide ((t.ctxAt serviceCore 0).state = .done) && t.romFailed
    | _ => false) = true := by decide +kernel
theorem test_mask : (match ({ State.reset with msixMask := 0 } : State).move (.mask 5) with
    | .next t => t.msixMask == 0x20
    | _ => false) = true := by decide +kernel
theorem test_init_done : runs [.memoryInitDone false] State.reset (fun t => t.hbmReady && !t.tierReady) = true ∧ State.reset.field 0x1000 0 1 = 0 := by decide +kernel
theorem test_discovery : runs [.discGo 1] { State.reset with ck := 7 } (fun t => t.discState == 1 && t.discAt == 7) = true := by decide +kernel
theorem wit_timeout : (regd 0x1008 3).discState = 1 ∧ (regd 0x1008 3).field 0x1008 3 1 = 0 ∧ (regd 0x1008 3).reported = false := by decide +kernel
theorem test_timeout : runs [.discGo 1, .discoveryTimeout] State.reset (fun t => t.discState == 1) = true ∧
    runs [.discoveryTimeout] { regd 0x1008 3 with ck := 2 ^ 20 } (fun t => t.discState == 3 && t.field 0x1008 0 1 == 0) = true := by decide +kernel
theorem test_map_refused : (regd 0x1008 0xB).discState = 1 ∧ (regd 0x1008 0xB).field 0x1008 3 1 = 1 ∧ runs [.mapSubmit 1] (regd 0x1008 0xB) (fun t => t.discState == 3) = true := by
  decide +kernel
theorem test_multicast : runs [.mcctlGo 1] State.reset (fun t => t.field 0x1020 1 2 == 3) = true ∧ runs [.mcctlGo 1] (regd 0x1008 4) (fun t => t.field 0x1020 1 2 == 1 && t.mcast.isSome) = true := by
  decide +kernel
theorem wit_attest : (regd 0x1028 0).field 0x1028 0 1 = 0 ∧ 256 * bitsOf (0x201 : Word).toNat 8 19 + 30048 ≤ 0x7FF4000 := by decide +kernel
/-- A report that has been made waits for the end of its writing. -/
theorem wit_attest_done : let s := { State.reset with attest := some (shmBase, [1, 2]) }
    s.justSet 0x1028 0 = false ∧ s.watchers = [] := by decide +kernel
theorem test_attest_outside : runs [.attestGo 0x7FFFF01] State.reset (fun t => t.attest.isNone) = true := by decide +kernel
theorem wit_flash : State.reset.field 0x400 0 1 = 0 ∧ (0x300000001 : Word).getLsbD 0 = true := by decide +kernel
theorem test_flash_done : runs [.flashProgramDone true] { regd 0x400 1 with flashJob := some (3, [5]) } (fun t => t.field 0x400 0 1 == 0 && t.flashJob.isNone) = true := by
  decide +kernel
theorem test_freeze_input : runs [.freezeInput] (fab id) (fun t => t.frozen && t.portWidth 6 == 0) = true := by decide +kernel
theorem test_thermal : runs [.thermalTrip 841] State.reset (fun t => t.frozen && t.field 0x38 16 1 == 1 && t.field 0x38 0 16 == 841 && !t.thermN) = true ∧
    runs [.thermalTrip 840] State.reset (fun t => !t.frozen && t.thermN) = true := by decide +kernel
theorem test_idcode : runs [.idcode] State.reset (fun t => t.tdo.length == 4) = true := by decide +kernel
theorem test_freeze : runs [.freeze true] State.reset (fun t => t.frozen) = true ∧ runs [.freeze false] State.reset (fun t => !t.frozen && t.debugIr == 0x20) = true := by decide +kernel
theorem test_scansel : runs [.scansel 9] State.reset (fun t => t.scanSel == 9) = true ∧ runs [.scanrd] { State.reset with scanSel := 0xFFFFFFFF } (fun t => t.tdo.all (· == 0)) = true := by decide +kernel
theorem test_memaddr : runs [.memaddr 0x7F] State.reset (fun t => t.memAddr == 0x40) = true ∧ runs [.memrd] { State.reset with memAddr := 0x40 } (fun t => t.memAddr == 0x80 && t.tdo == List.replicate 68 0) = true := by
  decide +kernel
/-- A frozen device shows the beat at the start of SHM; zeros have the check value of R447. -/
theorem test_memrd_frozen : let s := { (State.reset.writeBytes shmBase [7]) with frozen := true, memAddr := BitVec.ofNat 64 (0xFFFF * 2 ^ 48 + shmBase) }
    s.debugLocked = false ∧ s.hasBeat s.memAddr = true ∧ runs [.memrd] s (fun t => (t.tdo.take 2) == [7, 0]) = true := by decide +kernel

/-! ## Steps -/

theorem wit_frame : (at' id).canIssue (.add 3 1 2) [.x 3, .x 1, .x 2] = true ∧ (at' id).canIssue (.pext .fp32 3 1 2) [.x 3, .w 1] = true ∧ (2 : Reg).toNat < 128 / ElTy.fp32.width := by decide +kernel
theorem wit_encoded : wellFormed (.add 3 1 2) = true ∧ wellFormed (.kbrk) = true ∧ wellFormed (.xnop 0) = true ∧ wellFormed (.cnop 0) = true ∧ wellFormed (.mzero true) = true ∧
    wellFormed (.pset ⟨3, 64, 0, 1, false, 0, .i8, 0, 0⟩) = true ∧ wellFormed .endl = true ∧ wellFormed .reset = true := by decide +kernel
theorem wit_sound : State.reset.Sound := by unfold State.Sound; decide +kernel
/-- add x3, x1, x2 at the place of the next fetch; the core of the slot is the service core. -/
def fetching : State := State.reset.withFetchWord 32 (2 * 2 ^ 17 + 1 * 2 ^ 12 + 3 * 2 ^ 7 + 1 * 2 + 1)
theorem wit_step : fetching.frozen = false ∧ fetching.closing = false ∧ fetching.turn = .lc serviceCore ∧ fetching.mayIssue serviceCore = true ∧
    (fetching.ctxAt serviceCore (fetching.slotOf serviceCore)).window = [] ∧ fetching.bound serviceCore 0x30000 2 = false ∧ fetching.failedBeat (lsAddr serviceCore 0x30000) 2 = none ∧
    fetching.bound serviceCore 0x30002 2 = false ∧ fetching.failedBeat (lsAddr serviceCore 0x30002) 2 = none := by decide +kernel
theorem test_step : (match step fetching with
    | .next t => (t.ctxAt serviceCore (fetching.slotOf serviceCore)).pc == 0x30004
    | _ => false) = true := by decide +kernel
def fetchingS : State := State.reset.withFetchWord 64 (match encode (.xnop 0) with
  | .sWord w => w.toNat
  | _ => 0)
theorem wit_step_stream : fetchingS.frozen = false ∧ fetchingS.turn = .dt 0 .s ∧ (fetchingS.strm 0 .s).held.isNone = true ∧ fetchingS.mayIssueDt 0 .s = true := by decide +kernel
theorem wit_step_bundle : let s := State.reset.withFetchWord 128 0
    s.turn = .dt 0 .m ∧ (s.strm 0 .m).held.isNone = true ∧ s.mayIssueDt 0 .m = true ∧ ({ s with tile := 0 } : State).bundleBad 0 ⟨none, none, .mNop, 0, 0⟩ = false := by decide +kernel
theorem wit_step_event : ({ State.reset with turn := .event .idcode } : State).turn = .event .idcode ∧ isEvent .idcode = true ∧ isLimit .idcode = false ∧ isEvent (.tileStall 4 .c) = true ∧ isLimit (.tileStall 4 .c) = true := by decide +kernel

/-! ## Clauses about control registers, levels of loops, moves of contexts and homes of other cores -/

/-- Core 5 is in cluster 0 at local index 5, and context 0 has set NX and CVM, 40 ck ago; the log of the core says so. -/
def flagged : State :=
  let s := { at' (fun c => { c with fcsr := 1 }) with ck := 50 }
  s.setCore 5 { s.myCore with flagLog := [(10, s.myCore.flagWord)] }
def stillCore (c : Core) : Bool := c.flagLog.all (fun p => decide (p.1 + 32 ≤ 50)) && ((c.flagLog.head?.map (·.2)).getD c.flagBase) == c.flagWord
theorem wit_cflags_still (u : Nat) : stillCore (flagged.coreAt u) = true := by
  have h : flagged.coreAt u = if 5 = u then flagged.coreAt 5 else coreReset u := by
    by_cases h : 5 = u
    · rw [if_pos h, h]
    · exact (if_neg h).trans (if_neg h).symm
  rw [h, coreReset]
  split
  · decide +kernel
  · split <;> decide +kernel
theorem wit_cflags : flagged.ck = 50 ∧ (flagged.ctxAt 5 0).state ≠ .free ∧ (flagged.ctxAt 5 0).fcsr.getLsbD 0 = true ∧ flagged.core = 5 ∧ flagged.dev < 2 ^ 16 ∧
    flagged.ck + flagged.myCore.phase < 2 ^ 64 := by decide +kernel
/-- CTXID names core 5 of device 0; CYCLE mod 16 is the context of the slot. -/
theorem test_ctxid_and_cycle : gives (.csrr 3 1) [] (5 * 2 ^ 37) = true ∧
    (flagged.csrRead .cycle).toNat % 16 = (flagged.slotOf 5).val := by decide +kernel
/-- RM of 101 leaves RM as it was; the flags are kept as written. -/
theorem test_fcsr_read_back : runs [.csrw 0 1, .csrr 3 0] (at' fun c => xs [(1, 0x1BF)] { c with fcsr := 0x40 }) (fun t => t.me.xr 3 == 0x15F) = true := by decide +kernel
/-- The presence word of the new workspace leaves x5 absent; x0 is present. -/
theorem test_wsp_presence : runs [.csrw 0x101 1] ((wsp' [(1, 0x8400)]).writeBytes (lsAddr 5 (0x8400 + 0x310)) [0xDE, 0xFF])
    (fun t => !t.me.present 5 && t.me.present 6 && t.me.present 0) = true := by decide +kernel
/-- A message that is taken changes x7 of its target and nothing else of it; one that is refused changes nothing there. -/
theorem test_sendr_target : messageOf (.sendr 2 7 3 1 2) (.registerMessage 0) (twoCores [(1, id6), (2, 9)])
      (fun t => decide (t.ctxAt 6 2 = ((twoCores []).ctxAt 6 2).setX 7 9)) = true ∧
    messageOf (.sendr 2 8 3 1 2) (.registerMessage 0) (twoCores [(1, id6), (2, 9)]) (fun t => decide (t.ctxAt 6 2 = (twoCores []).ctxAt 6 2)) = true := by decide +kernel
/-- A context that moves takes its stream slot, its presence bits and its trap state along. -/
def laden : State :=
  let s := mover.setCtx 6 2 { (mover.ctxAt 6 2).absent 4 with tvec := 0x88, tval := 77, lwd := 12 }
  s.setCore 6 { s.coreAt 6 with slots := vset (s.coreAt 6).slots 3 ⟨true, 0x1000, 8, 4, 1, 2⟩ }
theorem test_migrate_whole : runs [.migrate 3 1] laden (fun t => let c := t.ctxAt 7 1
    !c.present 4 && c.present 5 && c.tvec == 0x88 && c.tval == 77 && c.lwd == 12 && c.moved &&
      decide ((t.coreAt 7).slots.get 3 = ⟨true, 0x1000, 8, 4, 1, 1⟩ ∧ (t.coreAt 6).slots.get 3 = StreamSlot.none)) = true := by decide +kernel
/-- The host names core 7 for the context. -/
def placed7 : State := asking.setReg 0x190 (gaWord (addrOf 7 0))
theorem wit_host_target : let s := placed7
    s.devOf (s.reg 0x190) = none ∧ s.reg 0x190 ≠ BitVec.allOnes 64 ∧ unitOfId (s.reg 0x190) = 7 ∧ s.suitable 6 2 7 = true ∧ (s.coreAt 7).firstEligible = some 1 ∧
    (s.ctxAt 5 0).park = .migrate 3 6 2 none (some true) ∧ (s.ctxAt 6 2).state = .run := by decide +kernel
theorem test_host_target : runs [.migrationResponse (placed7.coreId 6 2)] placed7 (fun t => (t.ctxAt 5 0).xr 3 == placed7.coreId 7 1 &&
    decide ((t.ctxAt 7 1).state = .run ∧ (t.ctxAt 6 2).state = .free)) = true := by decide +kernel
/-- Two levels whose bodies end at one place, at their last word. -/
def nested (outer inner : Word) : Context :=
  { Context.reset with pc := 0x208, loops := vset (vset Context.reset.loops 0 ⟨outer, true, false, 0x20A, 0x200⟩) 1 ⟨inner, true, false, 0x20A, 0x206⟩ }
theorem wit_nested : let c := nested 2 1
    c.level true = 0 ∧ c.level false = 1 ∧ c.activeAt false = true ∧ c.activeAt true = true ∧ (c.loops.get 1).start.toNat ≤ c.pc.toNat ∧
    c.pc.toNat + 2 = (c.loops.get 1).lastNat ∧ (c.loops.get 0).lastNat = (c.loops.get 1).lastNat := by decide +kernel
/-- The end of the inner body ends the inner level, and counts in the outer one. -/
theorem test_nested_ends : ((nested 2 1).advance 2 .next).pc = 0x200 ∧ (((nested 2 1).advance 2 .next).loops.get 0).count = 1 ∧
    (((nested 2 1).advance 2 .next).loops.get 1).v = false ∧ ((nested 2 2).advance 2 .next).pc = 0x206 ∧ ((nested 1 1).advance 2 .next).pc = 0x20A := by decide +kernel
/-- A branch out of both bodies ends both levels, one inside the outer body only the inner one; a call ends none. -/
theorem test_leaves_body : (((nested 2 2).advance 2 (.jump 0x300 false)).loops.map (·.v)) = #v[false, false, false, false] ∧
    (((nested 2 2).advance 2 (.jump 0x202 false)).loops.map (·.v)) = #v[true, false, false, false] ∧
    (((nested 2 2).advance 2 (.jump 0x300 true)).loops.map (·.v)) = #v[true, true, false, false] := by decide +kernel
/-- One act does a 16-byte access of a local store. -/
theorem test_ldq_one_act : runs [.ldq ⟨.plain, 0, 2, 1, 3⟩, .homeAct (quad 3 5).nextId, .plainAccessComplete (quad 3 5).nextId] (quad 3 5)
    (fun t => t.me.wr 3 == 0x30201 && t.me.pc == 0x204) = true := by decide +kernel
/-- The home channel of core 6, which a launch holds: its message context is parked on its queue, and this ck is its slot. -/
def homed : State :=
  let s := { (at' (xs [(1, gaWord (addrOf 6 0x400000000))])) with hbmReady := true }
  let s := s.setCtx 6 15 { Context.reset with state := .parked, park := .queue }
  let s := s.setCore 6 { s.coreAt 6 with launch := some 2 }
  { s with ck := (List.range 16).foldl (fun k n => if ({ s with ck := n } : State).slotOf 6 = 15 then n else k) 0 }
theorem wit_homed : homed.serves (addrOf 6 0x400000000) 8 ∧ (homed.ctxAt 6 15).state = .parked ∧ homed.Quiet := by
  refine ⟨⟨by decide +kernel, by decide +kernel, .inr (by decide +kernel)⟩, by decide +kernel, by unfold State.Quiet; decide +kernel⟩
theorem test_ld_homed : accessOf (.ld ⟨.plain, .d, 0, 2, 1, 3⟩) (homed.writeBytes (addrOf 6 0x400000000) [7])
    (fun t => t.me.xr 3 == 7 && decide ((t.coreAt 6).issuedAt = t.ck + 1)) = true := by decide +kernel
/-- A 16-byte access of that home: its second act waits for the next slot, 16 ck later. -/
theorem test_ldq_homed : (match (exec (.ldq ⟨.plain, 0, 2, 1, 3⟩) homed : Out) with
    | .next t => runs [.homeAct homed.nextId, .homeAct homed.nextId] t (fun u => !u.requests.isEmpty) &&
      (match (exec (.homeAct homed.nextId) t : Out) with
      | .next u => runs [.homeAct homed.nextId, .plainAccessComplete homed.nextId] { u with ck := u.ck + 16 } (fun v => decide (v.me.state = .run) && v.me.wr 3 == 0)
      | _ => false)
    | _ => false) = true ∧ ({ homed with ck := homed.ck + 16 } : State).homeSlot 6 = true := by decide +kernel
/-- READY clears at the end of a ck in which discovery has not ended; after that UP is set once memory is ready. -/
theorem test_ready_ends : ((regd 0x1000 1).settleReady).field 0x1000 0 1 = 0 ∧
    (let s := { (regd 0x1008 4).setReg 0x1000 1 with hbmReady := true, tierReady := true }
     s.settleReady.field 0x1000 8 1 = 1 ∧ s.settleReady.field 0x1000 0 1 = 0) ∧ ((regd 0x1008 4).setReg 0x1000 1).settleReady = (regd 0x1008 4).setReg 0x1000 1 := by decide +kernel
/-- bsync set with no segment swaps the accumulator of the core. -/
theorem test_bsync_bare : runs [.bsync 3 1 2, .bsync 4 1 2] (let s := bits [(2, 3), (1, 7)]; s.setCore 5 { s.myCore with cursor := none })
    (fun t => t.me.xr 3 == 0 && t.me.xr 4 == 7) = true := by decide +kernel

end Sys2Proof.Tests
end

section
/-! SUPPORT. Proofs about the scalar instructions that name code addresses: the constants of R115, the branches of R116 and the jumps
of R117. -/

namespace Sys2Proof.Machine

/-! ## Values and code addresses (R87, R115, R117) -/

@[simp] theorem State.rx_zero (s : State) : s.rx 0 = 0 := rfl

theorem zext_shiftLeft {n : Nat} (v : BitVec n) (k : Nat) : zext v <<< k = BitVec.ofNat 64 (v.toNat * 2 ^ k) := by
  apply BitVec.eq_of_toNat_eq
  simp [zext, Nat.shiftLeft_eq]

theorem zext_ofInt (z : Int) : zext (BitVec.ofInt 18 z) = BitVec.ofInt 64 (z % 2 ^ 18) := by
  apply BitVec.eq_of_toNat_eq
  simp [zext, BitVec.toNat_ofInt]
  omega

/-- The value of addpc: of an offset wider than the PC, the sum keeps what counts modulo 2^18. -/
theorem zext_pc_add_setWidth (pc : BitVec 18) (off : BitVec 20) :
    zext (pc + off.setWidth 18) = BitVec.ofInt 64 ((pc.toNat + off.toInt) % 2 ^ 18) := by
  have hoff : off.setWidth 18 = BitVec.ofInt 18 off.toInt :=
    (BitVec.signExtend_eq_setWidth_of_le off (by decide)).symm
  rw [← zext_ofInt, BitVec.ofInt_add, hoff]
  simp

theorem relTarget_eq_ofInt {n : Nat} (pc : BitVec 18) (imm : BitVec n) :
    relTarget pc imm = BitVec.ofInt 18 (pc.toNat + 2 * imm.toInt) := by
  have hshift : imm.signExtend 18 <<< 1 = BitVec.ofInt 18 (2 * imm.toInt) := by
    rw [BitVec.shiftLeft_eq_mul_twoPow, BitVec.mul_comm, BitVec.ofInt_mul]
    rfl
  rw [relTarget, hshift, BitVec.ofInt_add]
  simp

theorem zext_linkOf (pc : BitVec 18) (len : Nat) : zext (linkOf pc len) = BitVec.ofNat 64 ((pc.toNat + len) % 2 ^ 18) := by
  apply BitVec.eq_of_toNat_eq
  simp [zext, linkOf]

/-- The target test of jalr, in numbers: the low bit is clear where the target is even. -/
theorem getLsbD_zero_eq_false_iff (t : Word) : t.getLsbD 0 = false ↔ t.toNat % 2 = 0 := by
  simp [BitVec.getLsbD]

/-! ## Where a context goes on (R116, R118, R123) -/

/-- With no active loop level, the loop-end test leaves the next sequential PC. -/
theorem Context.loopTest_pc (c : Context) (a len : Nat) (houter : c.activeAt true = false) (hinner : c.activeAt false = false) :
    (c.loopTest a len).pc = BitVec.ofNat 18 (a + len) := by
  simp [Context.loopTest, houter, hinner]

theorem Context.advance_next_pc (c : Context) (len : Nat) (houter : c.activeAt true = false)
    (hinner : c.activeAt false = false) : (c.advance len .next).pc = c.pc + BitVec.ofNat 18 len := by
  have hpc : (c.advance len .next).pc = BitVec.ofNat 18 (c.pc.toNat + len) := Context.loopTest_pc _ _ _ houter hinner
  rw [hpc, BitVec.ofNat_add, BitVec.ofNat_toNat, BitVec.setWidth_eq]

@[simp] theorem Context.advance_jump_pc (c : Context) (len : Nat) (t : BitVec 18) (call : Bool) :
    (c.advance len (.jump t call)).pc = t := by
  cases call <;> rfl

@[simp] theorem State.after_me (s : State) (i : Instr) (c : Context) (f : Flow) :
    (s.after i c f).me = c.advance (wordLen (instrWord i)) f := State.me_setMe _ _

/-! ## Leaving by a transfer -/

/-- An instruction that changes nothing in its context leaves as State.after says of the context as it is. -/
theorem State.leave_eq_after {s : State} {i : Instr} {uses : List RegUse} (f : Flow) (h : s.canIssue i uses = true) :
    s.leave i f = s.after i s.me f := by
  obtain ⟨-, -, -, hfits⟩ := (s.canIssue_iff i uses).1 h
  exact s.leave_eq i f hfits

/-- A jump that links leaves with the next sequential PC in its register (R117). -/
theorem jumpLink_canIssue {s : State} {i : Instr} {uses : List RegUse} (d : Reg) (t : BitVec 18) (h : s.canIssue i uses = true) :
    jumpLink i d t s =
      s.after i (s.me.setX d (BitVec.ofNat 64 ((s.me.pc.toNat + 4) % 2 ^ 18))) (.jump t (d != 0)) := by
  rw [jumpLink, zext_linkOf]
  exact State.leave_canIssue _ _ h (Context.straddles_setX _ _ _ _)

/-! ## Branches (R116) -/

/-- Instruction i, which names these registers, goes to its own address + 2 × off where the condition holds, and on to the
next word where it does not. -/
def Branches (s : State) (i : Instr) (uses : List RegUse) (off : Int) (taken : Prop) [Decidable taken] : Prop :=
  s.canIssue i uses = true →
    let target := BitVec.ofInt 18 (s.me.pc.toNat + 2 * off)
    exec i s = .next (s.after i s.me (if taken then .jump target false else .next)) ∧
      (taken → (s.after i s.me (.jump target false)).me.pc = target) ∧
      (¬taken → s.me.activeAt true = false → s.me.activeAt false = false →
        (s.after i s.me .next).me.pc = s.me.pc + BitVec.ofNat 18 (wordLen (instrWord i)))

theorem branch_canIssue {n : Nat} {s : State} {i : Instr} {a b : Reg} (imm : BitVec n) (cond : Word → Word → Bool)
    (h : s.canIssue i [.x a, .x b] = true) : branch i a b imm cond s =
      .next (s.after i s.me
        (if cond (s.rx a) (s.rx b) then .jump (BitVec.ofInt 18 (s.me.pc.toNat + 2 * imm.toInt)) false else .next)) := by
  rw [branch, lcIssue_canIssue _ h, State.done, State.leave_eq_after _ h, State.leave_eq_after _ h, relTarget_eq_ofInt]
  split <;> rfl

/-- An instruction that exec runs as a branch does what R116 says of one whose condition is the branch's test. -/
theorem branches_of_exec_eq_branch {n : Nat} {s : State} {i : Instr} {a b : Reg} {imm : BitVec n}
    (cond : Word → Word → Bool) {taken : Prop} [Decidable taken] (hexec : exec i s = branch i a b imm cond s)
    (hcond : cond (s.rx a) (s.rx b) = true ↔ taken) : Branches s i [.x a, .x b] imm.toInt taken := by
  intro h
  refine ⟨?_, fun _ => ?_, fun _ houter hinner => ?_⟩
  · simp only [hexec, branch_canIssue imm cond h, hcond]
  · rw [State.after_me, Context.advance_jump_pc]
  · rw [State.after_me, Context.advance_next_pc _ _ houter hinner]

/-! ## Jumps (R117) -/

theorem exec_jal_canIssue {s : State} {d : Reg} {imm : BitVec 20} (h : s.canIssue (.jal d imm) [.x d] = true) :
    exec (.jal d imm) s = .next (jumpLink (.jal d imm) d (relTarget s.me.pc imm) s) :=
  congrArg Host.Outcome.next (lcIssue_canIssue _ h)

/-- jalr jumps to a target that is even and below 2^18, and traps for every other. -/
theorem exec_jalr_canIssue {s : State} {d a : Reg} {off : BitVec 15} (h : s.canIssue (.jalr d a off) [.x d, .x a] = true) :
    let t := s.rx a + BitVec.ofInt 64 off.toInt
    exec (.jalr d a off) s = .next (if t.toNat < 2 ^ 18 ∧ t.toNat % 2 = 0 then
      jumpLink (.jalr d a off) d (BitVec.ofNat 18 t.toNat) s else s.trap causeMisaligned t) := by
  simp only [← getLsbD_zero_eq_false_iff]
  exact congrArg Host.Outcome.next (lcIssue_canIssue _ h)

theorem exec_kj_canIssue {s : State} {n : BitVec 11} (h : s.canIssue (.kj n) [] = true) :
    exec (.kj n) s = .next (s.leave (.kj n) (.jump (relTarget s.me.pc n) false)) :=
  congrArg Host.Outcome.next (lcIssue_canIssue _ h)

/-! ## The statements -/

/-- Settles O13: lhi and addpc write one register; what is left is the value that each writes. -/
theorem constantsAndCodeAddresses : Obligations.ConstantsAndCodeAddresses := by
  intro s d imm
  constructor
  · intro h
    rw [← zext_shiftLeft]
    exact writeX_canIssue _ h
  · intro h
    rw [← zext_pc_add_setWidth]
    exact writeX_canIssue _ h

/-- Settles O15: all eight are the shared branch, each with a test of its own; the compact ones compare with x0. -/
theorem branchTargets : Obligations.BranchTargets := by
  intro s a b imm n
  have hbeq : Branches s (.beq a b imm) [.x a, .x b] imm.toInt (s.rx a = s.rx b) :=
    branches_of_exec_eq_branch (· == ·) rfl beq_iff_eq
  have hbne : Branches s (.bne a b imm) [.x a, .x b] imm.toInt (s.rx a ≠ s.rx b) :=
    branches_of_exec_eq_branch (· != ·) rfl bne_iff_ne
  have hblt : Branches s (.blt a b imm) [.x a, .x b] imm.toInt ((s.rx a).toInt < (s.rx b).toInt) :=
    branches_of_exec_eq_branch (·.slt ·) rfl BitVec.slt_iff_toInt_lt
  have hbge : Branches s (.bge a b imm) [.x a, .x b] imm.toInt ((s.rx b).toInt ≤ (s.rx a).toInt) :=
    branches_of_exec_eq_branch (!·.slt ·) rfl (by simp [BitVec.slt])
  have hbltn : Branches s (.bltn a b imm) [.x a, .x b] imm.toInt ((s.rx a).toNat < (s.rx b).toNat) :=
    branches_of_exec_eq_branch (·.ult ·) rfl BitVec.ult_iff_lt
  have hbgen : Branches s (.bgen a b imm) [.x a, .x b] imm.toInt ((s.rx b).toNat ≤ (s.rx a).toNat) :=
    branches_of_exec_eq_branch (!·.ult ·) rfl (by simp [BitVec.ult])
  have hkbeqz : Branches s (.kbeqz a n) [.x a, .x 0] n.toInt (s.rx a = 0) :=
    branches_of_exec_eq_branch (· == ·) rfl (by rw [State.rx_zero, beq_iff_eq])
  have hkbnez : Branches s (.kbnez a n) [.x a, .x 0] n.toInt (s.rx a ≠ 0) :=
    branches_of_exec_eq_branch (· != ·) rfl (by rw [State.rx_zero, bne_iff_ne])
  exact ⟨hbeq, hbne, hblt, hbge, hbltn, hbgen, hkbeqz, hkbnez⟩

/-- Settles O16: jal and jalr are the linking jump, kj leaves without a link, and a bad target of jalr traps in place of both. -/
theorem jumpsLink : Obligations.JumpsLink := by
  intro s d a imm off n
  refine ⟨fun h => ?jal, fun hlt heven h => ?jalr, fun hbad h => ?misaligned, fun h => ?kj⟩
  case jal => rw [exec_jal_canIssue h, relTarget_eq_ofInt, jumpLink_canIssue _ _ h]
  case jalr => rw [exec_jalr_canIssue h, if_pos ⟨hlt, heven⟩, jumpLink_canIssue _ _ h]
  case misaligned => rw [exec_jalr_canIssue h, if_neg (by omega)]
  case kj => rw [exec_kj_canIssue h, relTarget_eq_ofInt, State.leave_eq_after _ h]

end Sys2Proof.Machine
end
